-- ==== Sys2Proof/Word.lean ====
section
/-!
DEFINITION. The word types of the machine and their plainest arithmetic: nothing here
depends on the instruction set. Bytes are little-endian everywhere (R2).
-/

namespace Sys2Proof

/-- One byte of memory. -/
abbrev Byte := BitVec 8

/-- A general register of a control agent (R85). -/
abbrev Word := BitVec 64

/-- A control word (R46). -/
abbrev IWord := BitVec 32

/-- The number of a general register, g0 to g31. -/
abbrev Reg := BitVec 5

/-- The number of a condition register, c0 to c7. -/
abbrev CReg := BitVec 3

/-- A token's payload: 512 bits on the wide network (R54). -/
abbrev Wide := BitVec 512

/-- Sparse data by number, keys strictly rising. -/
abbrev AMap (α : Type) := List (Nat × α)

/-- Bits [lo + n - 1 : lo] of a number. -/
def bits (x lo n : Nat) : Nat := x / 2 ^ lo % 2 ^ n

/-- Bit k of a number. -/
def bitAt (x k : Nat) : Bool := x / 2 ^ k % 2 == 1

/-- A number as a word, modulo 2^64 (R85). -/
abbrev w64 (n : Nat) : Word := BitVec.ofNat 64 n

/-- The word of all ones. -/
abbrev allOnes : Word := BitVec.allOnes 64

end Sys2Proof
end

