-- ==== Sys2Proof/Config.lean ====
section
/-!
DEFINITION. What the spec leaves to the implementation or leaves open. A free value is an
opaque constant applied to the counter `free` of the state (or to what it depends on): nothing
in Lean can prove what it is (log 5).
-/

namespace Sys2Proof.Config

/-- A fresh link of a home slice, a free value (R318 lets LINK take any value): the place in
the list of free links that PQREQ takes. -/
opaque freeLink : Nat → Nat

/-- 64 random bits, a free value (ENT.DRAW, R393). -/
opaque freeEntropy : Nat → Word

/-- Whether an Ed25519 signature (key, message, signature) verifies, a free value: the spec
names the algorithm and gives no definition of it (R355). -/
opaque ed25519Verifies : List Byte → List Byte → List Byte → Bool

/-- The bytes of an SPDM response that only cryptography or a manufacturer fixes (nonces,
signatures, public values, certificates): a free value, by the counter and a length (R357). -/
opaque freeBytes : Nat → Nat → List Byte

/-- An algorithm that attestation uses (R357). -/
inductive SpdmAlgorithm where
  | ed25519 | sha512 | x25519 | aes256Gcm
  deriving DecidableEq, Repr

/-- The bytes by which SPDM 1.3 names algorithms, and the public value of a key exchange made of random bytes:
free values, since the spec leaves them to SPDM (R357, log 20). -/
opaque algorithmBytes : List SpdmAlgorithm → List Byte
opaque keyShare : List Byte → List Byte

/-- The certificate chain that the keep store holds, a free value (R357). -/
opaque certChain : List Byte

/-- Whether an SPDM requester's authentication or FINISH message verifies, a free value
(R357). -/
opaque spdmVerifies : Nat → Bool

/-- The physical neighbour of a cluster: the global number of the cluster across each side (0
north, 1 east, 2 south, 3 west), a free value: the spec does not list the arrangement of a die's
clusters (log 16). -/
opaque neighbour : Nat → Nat → Option Nat

/-- R286: a request with no reply within 50 µs on its die, in TB counts. -/
def memoryTimeout : Nat := 50000

/-- R286: 2 ms across the domain, in TB counts. -/
def domainTimeout : Nat := 2000000

/-- TRAP.VAL of a trap for which the spec states none (log 32). -/
opaque freeTrapVal : Nat → Word

/-- A value that an instruction writes and for which the spec states none, by the counter
(log 5). -/
opaque freeWord : Nat → Word

/-- A token's payload for which the spec states none: that of a token that is not data, and
what a stage reads from an input that gave its firing no token, by the counter (log 45). -/
opaque freeWide : Nat → Wide

/-- Whether the next movement on a hop that crosses a die bridge is into the bridge, by the counter (log
16): the spec states no delay there. -/
opaque bridgeEnters : Nat → Bool

/-- Whether a trace record is more than 64 cycles late, by the counter (R390, log 121). -/
opaque traceLate : Nat → Bool

/-- Whether another package refuses an access of this package to its near memory, a free value: its export
ranges are its own (R354, log 110). By the counter, the package, the VMID sent and the offset. -/
opaque remoteRefuses : Nat → Nat → Nat → Nat → Bool

/-- The Scatik port by which the traffic of a package of the domain arrives, a free value: sixteen stand
on each I/O die (R394, log 111). -/
opaque scatikPort : Nat → Nat

/-- Days until an indicator, extrapolated linearly from its last 30 samples (newest first), reaches
a limit, or none where it does not trend toward it; and its change per 30 days. The spec does not
say which line is drawn through samples that lie on none, nor how days round (R388, log 30). -/
opaque daysToLimit : Nat → List Nat → Option Nat
opaque daysRoundUp : Nat → List Nat → Bool
opaque changePer30 : List Nat → Int

end Sys2Proof.Config
end

