-- ==== Sys2Proof/Outside.lean ====
section
/-!
DEFINITION. What the outside world and the machine's own agents give to a step that is not
the execution of a control word: who walks a page table, where an error strikes, what a host,
another package or an attestation client asks. These are operands of the event rows of
Sys2Proof/Syntax.lean.
-/

namespace Sys2Proof

/-- The agent for whom a page walk is made (R348): a control agent (for its next fetch), an AG
tile's context (for its oldest request not yet performed), or an engine job (for its next
write). -/
inductive Walker where
  | agent (t : Nat)
  | tile (g x y c : Nat)
  | job (j : Nat)
  deriving DecidableEq, Repr

/-- Where an uncorrectable error strikes (R363). -/
inductive ErrorPlace where
  /-- n bytes of memory from key a: whatever reads them next meets the error. -/
  | memory (a n : Nat)
  /-- Token k of the buffer of destination h. -/
  | buffer (g x y c h k : Nat)
  /-- Entry k of a tile's result skid. -/
  | skid (g x y c k : Nat)
  /-- Slot k of ring r of a bank tile. -/
  | ringSlot (g x y c r k : Nat)
  /-- An element, constant or fibre register or the group state: 0 to 7 ev, 8 to 11 k,
  12 to 15 f, 16 the group state. -/
  | state (g x y c r : Nat)
  /-- Area a of engine e. -/
  | area (g e a : Nat)
  /-- Word w of load n, read or held in a shadow register. -/
  | image (n w : Nat)
  /-- A committed stage, switch or header word, or a ring pointer, of a tile. -/
  | tileWord (g x y : Nat)
  /-- A thread's PC, loop stack or condition registers. -/
  | thread (t : Nat)
  /-- The reply data of request k of an AG tile's context. -/
  | reply (g x y c k : Nat)
  deriving DecidableEq, Repr

/-- A host access through the BAR of the PCIe host port (R353), at a BAR offset. -/
inductive HostOp where
  | read (a n : Nat)
  | write (a : Nat) (d : List Byte)
  deriving DecidableEq, Repr

/-- What a domain memory request asks (R354). -/
inductive DomainAct where
  | read (n : Nat)
  | write (d : List Byte)
  /-- An atomic of R110 (operation code of R74), of 4 or 8 bytes. -/
  | atomic (p n : Nat) (v e : Word)
  /-- A counter add (R113). -/
  | add (v : Word)
  deriving DecidableEq, Repr

/-- A domain memory request from another package (R354): its VMID, the near-memory offset
PA[39:0], what it asks, and the Scatik port on which it arrives. -/
structure DomainOp where
  vmid : Nat
  pa : Nat
  act : DomainAct
  port : Nat := 0
  deriving DecidableEq, Repr

/-- A request from outside the package (R353, R354). -/
inductive Inbound where
  | host (o : HostOp)
  | domain (o : DomainOp)
  deriving DecidableEq, Repr

/-- An engine of a cluster, and how many groups of a grouped item it adds next (R195); 0 stands for all that
are left. -/
structure GroupRun where
  engine : Nat
  groups : Nat
  deriving DecidableEq, Repr

/-- A request of an AG tile's context, oldest first from 0, and the 8-byte pieces of its access that are performed
now (R252); none named stands for all that are left. -/
structure ReplyRun where
  request : Nat
  pieces : List Nat
  deriving DecidableEq, Repr

/-- The reserve in mJ that there was as a hold-up began to write, and the bytes it wrote (R384). -/
structure WriteEnd where
  reserve : Nat
  bytes : Nat
  deriving DecidableEq, Repr

/-- A lost link (R354): one CXL port of far memory, or the way to one package of the domain;
`done` says whether the stores and atomics whose acknowledgement was lost had been performed
(R374 allows both). -/
inductive LinkLoss where
  | far (port : Nat) (done : Bool)
  | package (p : Nat) (done : Bool)
  deriving DecidableEq, Repr

/-- An SPDM request (R357): the port it arrives on (0 the host port, 1 the management port),
its two parameters and its payload. -/
structure SpdmMsg where
  port : Nat
  param1 : Byte
  param2 : Byte
  data : List Byte
  deriving DecidableEq, Repr

end Sys2Proof
end

