-- ==== Sys2Proof/Syntax.lean ====
section
/-!
DEFINITION. The steps of the part, one constructor per row of the table of operations and
events. A control word's operands are its fields under the names the table gives them (R46):
d, a and b name registers, s and w the set and wait slots (s is the scope, the scale or the
sense where the table says so), z the size, o the order. An event's operands say where it
happens (launch l and region r, cluster g, tile x y, context c, engine e, core k, agent t, job
j, port p) or carry what the outside gives.
-/

namespace Sys2Proof

inductive Instr where
  /-- ADD (R87). -/
  | add (d a b : Reg)
  /-- SUB (R87). -/
  | sub (d a b : Reg)
  /-- AND (R87). -/
  | and (d a b : Reg)
  /-- OR (R87). -/
  | or (d a b : Reg)
  /-- XOR (R87). -/
  | xor (d a b : Reg)
  /-- ANDN (R87). -/
  | andn (d a b : Reg)
  /-- SHL (R87). -/
  | shl (d a b : Reg)
  /-- SHR (R87). -/
  | shr (d a b : Reg)
  /-- SHRA (R87). -/
  | shra (d a b : Reg)
  /-- MIN (R87). -/
  | min (d a b : Reg)
  /-- MAX (R87). -/
  | max (d a b : Reg)
  /-- MINU (R87). -/
  | minu (d a b : Reg)
  /-- MAXU (R87). -/
  | maxu (d a b : Reg)
  /-- LEA (R87). -/
  | lea (d a b : Reg) (s : BitVec 3)
  /-- CLZ (R87). -/
  | clz (d a : Reg)
  /-- POPC (R87). -/
  | popc (d a : Reg)
  /-- BREV (R87). -/
  | brev (d a : Reg)
  /-- SEXT (R87). -/
  | sext (d a : Reg) (w : BitVec 3)
  /-- ZEXT (R87). -/
  | zext (d a : Reg) (w : BitVec 3)
  /-- CSEL (R87). -/
  | csel (d a b : Reg) (c : BitVec 3)
  /-- MUL (R88). -/
  | mul (d a b : Reg)
  /-- MULH (R88). -/
  | mulh (d a b : Reg)
  /-- MULHU (R88). -/
  | mulhu (d a b : Reg)
  /-- DIV (R88). -/
  | div (d a b : Reg)
  /-- DIVU (R88). -/
  | divu (d a b : Reg)
  /-- REM (R88). -/
  | rem (d a b : Reg)
  /-- REMU (R88). -/
  | remu (d a b : Reg)
  /-- CMP (R89). -/
  | cmp (c : BitVec 3) (a b : Reg) (r : BitVec 3)
  /-- CLOG (R90). -/
  | clog (n m k o : BitVec 3)
  /-- ADDI (R92). -/
  | addi (d a : Reg) (i : BitVec 16)
  /-- ANDI (R92). -/
  | andi (d a : Reg) (i : BitVec 16)
  /-- ORI (R92). -/
  | ori (d a : Reg) (i : BitVec 16)
  /-- XORI (R92). -/
  | xori (d a : Reg) (i : BitVec 16)
  /-- SHLI (R92). -/
  | shli (d a : Reg) (n : BitVec 6)
  /-- SHRI (R92). -/
  | shri (d a : Reg) (n : BitVec 6)
  /-- SHRAI (R92). -/
  | shrai (d a : Reg) (n : BitVec 6)
  /-- CMPI (R91). -/
  | cmpi (c : BitVec 3) (r : BitVec 2) (a : Reg) (i : BitVec 16)
  /-- MOVI (R93). -/
  | movi (d : Reg) (i : BitVec 16)
  /-- MOVK (R93). -/
  | movk (d : Reg) (k : BitVec 2) (i : BitVec 16)
  /-- BC (R94). -/
  | bc (s : BitVec 1) (c : BitVec 3) (d : BitVec 22)
  /-- B (R94). -/
  | b (d : BitVec 26)
  /-- BL (R94). -/
  | bl (d : BitVec 26)
  /-- JR (R95). -/
  | jr (d a : Reg)
  /-- LOOP_IMM (R97). -/
  | loopImm (e : BitVec 11) (n : BitVec 10)
  /-- LOOP_REG (R97). -/
  | loopReg (a : Reg) (e : BitVec 11)
  /-- LBRK (R100). -/
  | lbrk
  /-- LD (R108). -/
  | ld (d a : Reg) (s w : BitVec 3) (z o : BitVec 2) (p : BitVec 6)
  /-- ST (R108). -/
  | st (d a : Reg) (s w : BitVec 3) (z o : BitVec 2) (p : BitVec 6)
  /-- LDX (R108). -/
  | ldx (d a b : Reg) (s w : BitVec 3) (z o : BitVec 2)
  /-- STX (R108). -/
  | stx (d a b : Reg) (s w : BitVec 3) (z o : BitVec 2)
  /-- LOAD_REPLY (R106). -/
  | loadReply (t p k : Nat)
  /-- STORE_PERFORMED (R106). -/
  | storePerformed (t p k : Nat)
  /-- AMO (R110). -/
  | amo (d a b : Reg) (z : BitVec 1) (o : BitVec 2) (p s : BitVec 4)
  /-- CAS (R110). -/
  | cas (d a b : Reg) (z : BitVec 1) (o : BitVec 2) (s : BitVec 4)
  /-- RED (R110). -/
  | red (a b : Reg) (z : BitVec 1) (p s : BitVec 4)
  /-- ATOMIC_AT_HOME (R110). -/
  | atomicAtHome (t p : Nat)
  /-- CADD (R113). -/
  | cadd (a b : Reg) (s : BitVec 4)
  /-- CWAIT (R113). -/
  | cwait (a b : Reg) (s : BitVec 4)
  /-- CTEST (R113). -/
  | ctest (d a : Reg) (s : BitVec 4)
  /-- COUNTER_ADD_AT_HOME (R113). -/
  | counterAddAtHome (t p : Nat)
  /-- SWSET (R118). -/
  | swset (a b : Reg) (s : BitVec 4)
  /-- SWWAIT (R118). -/
  | swwait (a b : Reg) (s : BitVec 4)
  /-- SYNC_WORD_ARRIVAL (R117). -/
  | syncWordArrival (j : Nat)
  /-- FENCE (R119). -/
  | fence (k : BitVec 3) (s : BitVec 4)
  /-- SBWAIT (R107). -/
  | sbwait (m : BitVec 7)
  /-- COPY (R125). -/
  | copy (d a : Reg) (s w : BitVec 3)
  /-- GATH (R125). -/
  | gath (d a : Reg) (s w : BitVec 3)
  /-- SCAT (R125). -/
  | scat (d a : Reg) (s w : BitVec 3)
  /-- COLL (R125). -/
  | coll (d a : Reg) (s w : BitVec 3)
  /-- FOOT (R130). -/
  | foot (d a : Reg) (s w : BitVec 3)
  /-- TDSET (R122). -/
  | tdset (d a : Reg) (s w : BitVec 3) (b : Reg)
  /-- TDINV (R122). -/
  | tdinv (d a : Reg) (s w : BitVec 3)
  /-- JOB_COMPLETE (R125). -/
  | jobComplete (j : Nat)
  /-- JOB_FAIL (R128). -/
  | jobFail (j : Nat)
  /-- JOB_RECORD_WRITE (R410). -/
  | jobRecordWrite (p : Nat)
  /-- CFGL (R133). -/
  | cfgl (d a : Reg) (s w : BitVec 3)
  /-- CFGR (R133). -/
  | cfgr (d a : Reg) (s w : BitVec 3)
  /-- STRM (R138). -/
  | strm (d a : Reg) (s w : BitVec 3) (i : BitVec 1)
  /-- STRS (R139). -/
  | strs (d a : Reg) (s w : BitVec 3)
  /-- TAKE (R140). -/
  | take (d a : Reg) (s w : BitVec 3)
  /-- DRAIN (R141). -/
  | drain (d a : Reg) (s w : BitVec 3)
  /-- BLKM (R135). -/
  | blkm (d a : Reg) (s w : BitVec 3)
  /-- SPAWN (R142). -/
  | spawn (d a : Reg) (s w : BitVec 3)
  /-- EXIT (R143). -/
  | exit
  /-- YIELD (R144). -/
  | yield
  /-- GJOIN (R145). -/
  | gjoin (d a : Reg) (s w : BitVec 3)
  /-- GLEAVE (R145). -/
  | gleave (a : Reg) (s w : BitVec 3)
  /-- TRIG (R147). -/
  | trig (d a : Reg) (s w : BitVec 3) (b : Reg)
  /-- UNTRIG (R147). -/
  | untrig (d a : Reg) (s w : BitVec 3)
  /-- PQREQ (R149). -/
  | pqreq (d a : Reg) (s w c : BitVec 3)
  /-- PQWAIT (R149). -/
  | pqwait (a : Reg) (s w : BitVec 3)
  /-- PQTRY (R149). -/
  | pqtry (a : Reg) (s w c : BitVec 3)
  /-- PQGIVE (R149). -/
  | pqgive (a : Reg) (s w : BitVec 3) (b : Reg)
  /-- PQSWAP (R149). -/
  | pqswap (a : Reg) (s w : BitVec 3) (b : Reg)
  /-- PQDROP (R149). -/
  | pqdrop (a : Reg) (s w : BitVec 3)
  /-- PQDONE (R149). -/
  | pqdone (a : Reg) (s w : BitVec 3)
  /-- RINJ (R151). -/
  | rinj (d a : Reg) (s w : BitVec 3) (b : Reg)
  /-- ERRD (R152). -/
  | errd (d a : Reg) (s w : BitVec 3)
  /-- ERRC (R152). -/
  | errc (a : Reg) (s w : BitVec 3)
  /-- MSAV (R153). -/
  | msav (d a : Reg) (s w : BitVec 3) (b : Reg)
  /-- MSCL (R153). -/
  | mscl (d a : Reg) (s w : BitVec 3)
  /-- SCAN (R397). -/
  | scan (d a : Reg) (s w : BitVec 3)
  /-- SCAN_COMPARE (R398). -/
  | scanCompare (g : Nat) (ok : Bool)
  /-- SCAN_ABORT (R398). -/
  | scanAbort (g : Nat)
  /-- TRCE (R155). -/
  | trce (d a : Reg) (s w : BitVec 3)
  /-- MARK (R155). -/
  | mark (a : Reg) (s w : BitVec 3)
  /-- DUMP (R392). -/
  | dump (d a : Reg) (s w : BitVec 3) (b : Reg)
  /-- BRK (R156). -/
  | brk (d a : Reg) (s w : BitVec 3)
  /-- TRAP (R158). -/
  | trap (i : BitVec 12)
  /-- HENT (R158). -/
  | hent (i : BitVec 12)
  /-- RETT (R158). -/
  | rett
  /-- SRR (R158). -/
  | srr (d : Reg) (r : BitVec 12)
  /-- SRW (R158). -/
  | srw (a : Reg) (r : BitVec 12)
  /-- SRS (R158). -/
  | srs (a : Reg) (r : BitVec 12)
  /-- SRC (R158). -/
  | src (a : Reg) (r : BitVec 12)
  /-- TLBI (R349). -/
  | tlbi (d a : Reg) (n : BitVec 12)
  /-- TLBI_ACK (R349). -/
  | tlbiAck (n c : Nat)
  /-- TLBW (R349). -/
  | tlbw
  /-- WFI (R161). -/
  | wfi
  /-- UDF (R76). -/
  | udf (d a : Reg) (i : BitVec 12)
  /-- UNALLOCATED_WORD (R81). -/
  | unallocatedWord (w : IWord)
  /-- THREAD_PARK (R411). -/
  | threadPark (t : Nat)
  /-- TRAP_RECORD_WRITE (R159). -/
  | trapRecordWrite (t : Nat)
  /-- TILE_FIRING (R25). -/
  | tileFiring (g x y c : Nat)
  /-- NON_DATA_TOKEN_FIRING (R277). -/
  | nonDataTokenFiring (g x y c : Nat)
  /-- TOKEN_HOP (R406). -/
  | tokenHop (g x y c h : Nat)
  /-- ANTI_TOKEN_HOP (R262). -/
  | antiTokenHop (g x y c h : Nat)
  /-- SOURCE_PORT_INJECT (R138). -/
  | sourcePortInject (l r p : Nat)
  /-- ITEM_REINJECT (R366). -/
  | itemReinject (l r p n : Nat)
  /-- TAKE_TOKEN (R140). -/
  | takeToken (l r p : Nat)
  /-- DRAIN_COMPLETE (R141). -/
  | drainComplete (l r p : Nat)
  /-- MEMORY_REPLY (R285). -/
  | memoryReply (g x y c : Nat) (o : ReplyRun)
  /-- MEMORY_REPLY_TIMEOUT (R286). -/
  | memoryReplyTimeout (g x y c k : Nat)
  /-- PAGE_WALK (R348). -/
  | pageWalk (o : Walker)
  /-- LOAD_ACCEPT (R306). -/
  | loadAccept (d : Nat)
  /-- LOAD_STAGE_AT_TILE (R134). -/
  | loadStageAtTile (n x y : Nat)
  /-- CONFIG_COMMIT (R61). -/
  | configCommit (n : Nat)
  /-- CREQ_COMPLETE (R307). -/
  | creqComplete (n : Nat)
  /-- BLOCK_SCHEDULE (R315). -/
  | blockSchedule (l r : Nat)
  /-- CONTEXT_REWEIGHT (R309). -/
  | contextReweight (g x y : Nat) (occ : List Nat)
  /-- MX_PAIR_START (R184). -/
  | mxPairStart (g e : Nat)
  /-- MX_PAIR_END (R184). -/
  | mxPairEnd (g e : Nat)
  /-- MX_CONVERSION_END (R185). -/
  | mxConversionEnd (g e : Nat)
  /-- MX_DEFERRED_PUSH (R185). -/
  | mxDeferredPush (g e : Nat)
  /-- MX_GROUP_ITEM (R195). -/
  | mxGroupItem (g : Nat) (o : GroupRun)
  /-- MX_NON_DATA_SLOT (R292). -/
  | mxNonDataSlot (g e : Nat)
  /-- HANG_DECLARED (R324). -/
  | hangDeclared (l r : Nat)
  /-- FREEZE_QUIESCENT (R327). -/
  | freezeQuiescent (l r : Nat)
  /-- FREEZE (R329). -/
  | freeze (k : Nat)
  /-- THAW (R329). -/
  | thaw (k : Nat)
  /-- SAVE (R329). -/
  | save (k : Nat)
  /-- MOVE (R329). -/
  | move (k : Nat)
  /-- RELEASE (R329). -/
  | release (k : Nat)
  /-- PAUSE (R329). -/
  | pause (k : Nat)
  /-- CONTINUE (R329). -/
  | contin (k : Nat)
  /-- EVICT (R334). -/
  | evict (k : Nat)
  /-- LNCH_SUBMIT (R298). -/
  | lnchSubmit (k : Nat) (v : Word)
  /-- LAUNCH_PLACEMENT (R304). -/
  | launchPlacement (l : Nat)
  /-- PREEMPT_REQUEST (R333). -/
  | preemptRequest (l : Nat)
  /-- BALLAST_PREEMPT (R316). -/
  | ballastPreempt (l : Nat)
  /-- POWER_AVERAGE_WINDOW (R387). -/
  | powerAverageWindow (w : Nat)
  /-- SENSOR_SAMPLE (R385). -/
  | sensorSample (d : List (List Nat))
  /-- SUPPLY_LOSS (R381). -/
  | supplyLoss
  /-- HOLDUP_TRAP (R381). -/
  | holdupTrap
  /-- HOLDUP_CUT (R381). -/
  | holdupCut
  /-- HOLDUP_WRITE_END (R381). -/
  | holdupWriteEnd (o : WriteEnd)
  /-- PACKAGE_RESET (R355). -/
  | packageReset (e : Nat)
  /-- DAILY_MEASUREMENT (R388). -/
  | dailyMeasurement (e : Nat) (d : List (List Nat))
  /-- BRIDGE_FAILURE (R374). -/
  | bridgeFailure (b : Nat) (done : Bool)
  /-- BRIDGE_DETOUR (R374). -/
  | bridgeDetour (b : Nat)
  /-- UNCORRECTABLE_ERROR (R363). -/
  | uncorrectableError (o : ErrorPlace)
  /-- HOST_ACCESS (R353). -/
  | hostAccess (o : HostOp)
  /-- DOMAIN_REQUEST (R354). -/
  | domainRequest (o : DomainOp)
  /-- REPLAY_EVENT_DELIVERY (R395). -/
  | replayEventDelivery (ok : Bool)
  /-- RESUME (R414). -/
  | resume (k : Nat) (v : Word)
  /-- KILL_WRITE (R159). -/
  | killWrite (k : Nat) (v : Word)
  /-- TRQ_BASE_WRITE (R413). -/
  | trqBaseWrite (k : Nat) (v : Word)
  /-- HANG_BASE_WRITE (R413). -/
  | hangBaseWrite (k : Nat) (v : Word)
  /-- HPT_APPLY (R336). -/
  | hptApply (k : Nat) (v : Word)
  /-- CORE_START (R339). -/
  | coreStart (k : Nat) (v : Word)
  /-- CORE_STOP (R339). -/
  | coreStop (k : Nat) (v : Word)
  /-- INT_SEND (R161). -/
  | intSend (k : Nat) (v : Word)
  /-- MEAS_EXT (R356). -/
  | measExt (k : Nat) (v : Word)
  /-- HOLD_XFER (R383). -/
  | holdXfer (k : Nat) (v : Word)
  /-- HOLD_CLEAR (R383). -/
  | holdClear (k : Nat) (v : Word)
  /-- PKG_RESET (R393). -/
  | pkgReset (k : Nat) (v : Word)
  /-- ENT_DRAW (R393). -/
  | entDraw (k : Nat) (d : Reg)
  /-- CLMAP_WRITE (R399). -/
  | clmapWrite (k r : Nat) (v : Word)
  /-- REGISTER_WRITE (R3). -/
  | registerWrite (k r : Nat) (v : Word)
  /-- GET_VERSION (R357). -/
  | getVersion (q : SpdmMsg)
  /-- GET_CAPABILITIES (R357). -/
  | getCapabilities (q : SpdmMsg)
  /-- NEGOTIATE_ALGORITHMS (R357). -/
  | negotiateAlgorithms (q : SpdmMsg)
  /-- GET_DIGESTS (R357). -/
  | getDigests (q : SpdmMsg)
  /-- GET_CERTIFICATE (R357). -/
  | getCertificate (q : SpdmMsg)
  /-- CHALLENGE (R357). -/
  | challenge (q : SpdmMsg)
  /-- GET_MEASUREMENTS (R357). -/
  | getMeasurements (q : SpdmMsg)
  /-- KEY_EXCHANGE (R357). -/
  | keyExchange (q : SpdmMsg)
  /-- FINISH (R357). -/
  | finish (q : SpdmMsg)
  /-- END_SESSION (R357). -/
  | endSession (q : SpdmMsg)
  /-- HEARTBEAT (R357). -/
  | heartbeat (q : SpdmMsg)
  /-- SPDM_UNSUPPORTED_REQUEST (R357). -/
  | spdmUnsupportedRequest (q : SpdmMsg)
  /-- BRD (R291). -/
  | brd (g x y c q : Nat)
  /-- BWR (R291). -/
  | bwr (g x y c q : Nat)
  /-- RPUSH (R291). -/
  | rpush (g x y c q : Nat)
  /-- RPOP (R291). -/
  | rpop (g x y c q : Nat)
  /-- SWAR (R291). -/
  | swar (g x y c q : Nat)
  /-- LOST_LINK (R354). -/
  | lostLink (o : LinkLoss)
  /-- PACKAGE_JOINS_DOMAIN (R13). -/
  | packageJoinsDomain (v : Word)
  /-- HEARTBEAT_LOSS (R396). -/
  | heartbeatLoss (n : Nat)
  deriving DecidableEq, Repr

end Sys2Proof
end

