-- ==== Sys2Proof/WellFormed.lean ====
section
/-!
DEFINITION. Which instructions are well formed. A control word whose fields break its
description is refused by the illegal-instruction trap, cause 0x01 (R46 to R49, R72 to R76);
an event whose operands name no place of the part (R14, R18, R308) is no step.
-/

namespace Sys2Proof

/-- Scope codes run from 0 to 9 (R74). -/
def wfScope (s : BitVec 4) : Bool := s.toNat ≤ 9

/-- Order code 3 is illegal (R47, R74). -/
def wfOrder (o : BitVec 2) : Bool := o.toNat ≤ 2

/-- A cluster number (R18). -/
def wfCluster (g : Nat) : Bool := g < 192

/-- A tile's coordinates and one of its four contexts (R14, R308). -/
def wfTile (g x y c : Nat) : Bool := g < 192 && x < 8 && y < 8 && c < 4

/-- A system core (R13). -/
def wfCore (k : Nat) : Bool := k < 16

/-- A control agent: a sequencer thread or a system core (R13). -/
def wfAgent (t : Nat) : Bool := t < 1552

/-- An engine of a cluster (R15). -/
def wfEngine (g e : Nat) : Bool := g < 192 && e < 4

/-- The check of an instruction's operands. -/
def Instr.wf : Instr → Bool
  | .sext _ _ w | .zext _ _ w => w.toNat ≤ 2
  | .cmp _ _ _ r => r.toNat ≤ 5
  | .clog _ _ k o => o.toNat ≤ 5 || k == 0
  | .loopImm e _ => e != 0
  | .loopReg a e => a != 0 && e != 0
  | .ld _ _ _ _ _ o _ | .st _ _ _ _ _ o _ => wfOrder o
  | .ldx _ _ _ _ _ _ o | .stx _ _ _ _ _ _ o => wfOrder o
  | .amo _ _ _ _ o p sc => wfOrder o && p.toNat ≤ 8 && wfScope sc
  | .cas _ _ _ _ o sc => wfOrder o && wfScope sc
  | .red _ _ _ p sc => p.toNat ≤ 7 && wfScope sc
  | .cadd _ _ sc | .cwait _ _ sc | .ctest _ _ sc | .swset _ _ sc | .swwait _ _ sc => wfScope sc
  | .fence k sc => 1 ≤ k.toNat && k.toNat ≤ 3 && wfScope sc
  | .sbwait m => m != 0
  | .loadReply t _ _ | .storePerformed t _ _ => wfAgent t
  | .atomicAtHome t _ | .counterAddAtHome t _ => wfAgent t
  | .threadPark t | .trapRecordWrite t => t < 1536
  | .jobRecordWrite p => p < 16
  | .scanCompare g _ | .scanAbort g => wfCluster g
  | .tileFiring g x y c | .nonDataTokenFiring g x y c => wfTile g x y c
  | .tokenHop g x y c h | .antiTokenHop g x y c h => wfTile g x y c && h < 8
  | .memoryReply g x y c _ | .memoryReplyTimeout g x y c _ => wfTile g x y c
  | .brd g x y c q | .bwr g x y c q | .rpush g x y c q | .rpop g x y c q | .swar g x y c q =>
    wfTile g x y c && 1 ≤ q && q ≤ 7
  | .loadAccept die => die < 8
  | .contextReweight g x y occ => wfTile g x y 0 && occ.length == 4
  | .mxPairStart g e | .mxPairEnd g e | .mxConversionEnd g e | .mxDeferredPush g e
  | .mxNonDataSlot g e => wfEngine g e
  | .mxGroupItem g o => wfEngine g o.engine
  | .freeze k | .thaw k | .save k | .move k | .release k | .pause k | .contin k | .evict k =>
    wfCore k
  | .lnchSubmit k _ | .resume k _ | .killWrite k _ | .trqBaseWrite k _ | .hangBaseWrite k _
  | .hptApply k _ | .coreStart k _ | .coreStop k _ | .intSend k _ | .measExt k _
  | .holdXfer k _ | .holdClear k _ | .pkgReset k _ | .entDraw k _ => wfCore k
  | .clmapWrite k r _ => wfCore k && 0x0E0 ≤ r && r ≤ 0x0E2
  | .registerWrite k r _ => wfCore k && r < 4096
  | .bridgeFailure n _ | .bridgeDetour n => n < 14
  | _ => true

end Sys2Proof
end

