-- ==== Sys2Proof/Decode.lean ====
section
/-!
DEFINITION. The decoder, total on any bytes and rejecting by name, and the encoder, both from
the layouts of R46 to R49 and the opcode maps of R71 to R76. A word that selects a row of the
table is decoded to that row with its operand fields as they stand; whether the operands are
legal is Instr.wf's question, and the trap with cause 0x01 that an illegal one raises is taken
when the word executes (R81).
-/

namespace Sys2Proof

/-- Why no instruction is read. -/
inductive Reject where
  /-- Fewer than four bytes. -/
  | short
  /-- The major opcode is not in the table of R49. -/
  | major
  /-- The function, sub-operation or subop is not in the maps of R72 to R76. -/
  | function
  /-- A field that must be 0 is not (R46). -/
  | reserved
  deriving DecidableEq, Repr

/-- The n-bit field of a word from bit lo up. -/
def fld (w lo n : Nat) : BitVec n := BitVec.ofNat n (w / 2 ^ lo)

/-- Major 0x00: the operation is chosen by bits [7:0] (R72). -/
def decodeAlu (n : Nat) : Except Reject Instr :=
  match bits n 0 8 with
  | 0x00 => if bits n 8 3 = 0 then .ok (.add (fld n 21 5) (fld n 16 5) (fld n 11 5)) else .error .reserved
  | 0x01 => if bits n 8 3 = 0 then .ok (.sub (fld n 21 5) (fld n 16 5) (fld n 11 5)) else .error .reserved
  | 0x02 => if bits n 8 3 = 0 then .ok (.and (fld n 21 5) (fld n 16 5) (fld n 11 5)) else .error .reserved
  | 0x03 => if bits n 8 3 = 0 then .ok (.or (fld n 21 5) (fld n 16 5) (fld n 11 5)) else .error .reserved
  | 0x04 => if bits n 8 3 = 0 then .ok (.xor (fld n 21 5) (fld n 16 5) (fld n 11 5)) else .error .reserved
  | 0x05 => if bits n 8 3 = 0 then .ok (.andn (fld n 21 5) (fld n 16 5) (fld n 11 5)) else .error .reserved
  | 0x06 => if bits n 8 3 = 0 then .ok (.shl (fld n 21 5) (fld n 16 5) (fld n 11 5)) else .error .reserved
  | 0x07 => if bits n 8 3 = 0 then .ok (.shr (fld n 21 5) (fld n 16 5) (fld n 11 5)) else .error .reserved
  | 0x08 => if bits n 8 3 = 0 then .ok (.shra (fld n 21 5) (fld n 16 5) (fld n 11 5)) else .error .reserved
  | 0x09 => if bits n 8 3 = 0 then .ok (.min (fld n 21 5) (fld n 16 5) (fld n 11 5)) else .error .reserved
  | 0x0A => if bits n 8 3 = 0 then .ok (.max (fld n 21 5) (fld n 16 5) (fld n 11 5)) else .error .reserved
  | 0x0B => if bits n 8 3 = 0 then .ok (.minu (fld n 21 5) (fld n 16 5) (fld n 11 5)) else .error .reserved
  | 0x0C => if bits n 8 3 = 0 then .ok (.maxu (fld n 21 5) (fld n 16 5) (fld n 11 5)) else .error .reserved
  | 0x0D => .ok (.lea (fld n 21 5) (fld n 16 5) (fld n 11 5) (fld n 8 3))
  | 0x0E => if bits n 8 8 = 0 then .ok (.clz (fld n 21 5) (fld n 16 5)) else .error .reserved
  | 0x0F => if bits n 8 8 = 0 then .ok (.popc (fld n 21 5) (fld n 16 5)) else .error .reserved
  | 0x10 => if bits n 8 8 = 0 then .ok (.brev (fld n 21 5) (fld n 16 5)) else .error .reserved
  | 0x11 => if bits n 11 5 = 0 then .ok (.sext (fld n 21 5) (fld n 16 5) (fld n 8 3)) else .error .reserved
  | 0x12 => if bits n 11 5 = 0 then .ok (.zext (fld n 21 5) (fld n 16 5) (fld n 8 3)) else .error .reserved
  | 0x13 => .ok (.csel (fld n 21 5) (fld n 16 5) (fld n 11 5) (fld n 8 3))
  | _ => .error .function

/-- Major 0x01: the operation is chosen by bits [7:0] (R72). -/
def decodeMulDiv (n : Nat) : Except Reject Instr :=
  match bits n 0 8 with
  | 0x00 => if bits n 8 3 = 0 then .ok (.mul (fld n 21 5) (fld n 16 5) (fld n 11 5)) else .error .reserved
  | 0x01 => if bits n 8 3 = 0 then .ok (.mulh (fld n 21 5) (fld n 16 5) (fld n 11 5)) else .error .reserved
  | 0x02 => if bits n 8 3 = 0 then .ok (.mulhu (fld n 21 5) (fld n 16 5) (fld n 11 5)) else .error .reserved
  | 0x03 => if bits n 8 3 = 0 then .ok (.div (fld n 21 5) (fld n 16 5) (fld n 11 5)) else .error .reserved
  | 0x04 => if bits n 8 3 = 0 then .ok (.divu (fld n 21 5) (fld n 16 5) (fld n 11 5)) else .error .reserved
  | 0x05 => if bits n 8 3 = 0 then .ok (.rem (fld n 21 5) (fld n 16 5) (fld n 11 5)) else .error .reserved
  | 0x06 => if bits n 8 3 = 0 then .ok (.remu (fld n 21 5) (fld n 16 5) (fld n 11 5)) else .error .reserved
  | _ => .error .function

/-- Major 0x02: the operation is chosen by bits [7:0] (R72, R73). -/
def decodeCond (n : Nat) : Except Reject Instr :=
  match bits n 0 8 with
  | 0x00 => if bits n 24 2 = 0 then .ok (.cmp (fld n 21 3) (fld n 16 5) (fld n 11 5) (fld n 8 3)) else .error .reserved
  | 0x01 => if bits n 14 2 = 0 ∧ bits n 19 2 = 0 ∧ bits n 24 2 = 0 then .ok (.clog (fld n 21 3) (fld n 16 3) (fld n 11 3) (fld n 8 3)) else .error .reserved
  | _ => .error .function

/-- Major 0x1C: the operation in bits [7:4] is an operand (R74). -/
def decodeAmo (n : Nat) : Except Reject Instr :=
  .ok (.amo (fld n 21 5) (fld n 16 5) (fld n 11 5) (fld n 10 1) (fld n 8 2) (fld n 4 4) (fld n 0 4))

/-- Major 0x1D: the operation is chosen by bits [7:4] (R74). -/
def decodeCas (n : Nat) : Except Reject Instr :=
  match bits n 4 4 with
  | 0x00 => .ok (.cas (fld n 21 5) (fld n 16 5) (fld n 11 5) (fld n 10 1) (fld n 8 2) (fld n 0 4))
  | _ => .error .function

/-- Major 0x1E: the operation in bits [7:4] is an operand (R74). -/
def decodeRed (n : Nat) : Except Reject Instr :=
  if bits n 8 2 = 0 ∧ bits n 21 5 = 0 then .ok (.red (fld n 16 5) (fld n 11 5) (fld n 10 1) (fld n 4 4) (fld n 0 4)) else .error .reserved

/-- Major 0x1F: the operation is chosen by bits [7:4] (R74). -/
def decodeCtr (n : Nat) : Except Reject Instr :=
  match bits n 4 4 with
  | 0x00 => if bits n 8 3 = 0 ∧ bits n 21 5 = 0 then .ok (.cadd (fld n 16 5) (fld n 11 5) (fld n 0 4)) else .error .reserved
  | 0x01 => if bits n 8 3 = 0 ∧ bits n 21 5 = 0 then .ok (.cwait (fld n 16 5) (fld n 11 5) (fld n 0 4)) else .error .reserved
  | 0x02 => if bits n 8 8 = 0 then .ok (.ctest (fld n 21 5) (fld n 16 5) (fld n 0 4)) else .error .reserved
  | _ => .error .function

/-- Major 0x20: the operation is chosen by bits [7:4] (R74). -/
def decodeSw (n : Nat) : Except Reject Instr :=
  match bits n 4 4 with
  | 0x00 => if bits n 8 3 = 0 ∧ bits n 21 5 = 0 then .ok (.swset (fld n 16 5) (fld n 11 5) (fld n 0 4)) else .error .reserved
  | 0x01 => if bits n 8 3 = 0 ∧ bits n 21 5 = 0 then .ok (.swwait (fld n 16 5) (fld n 11 5) (fld n 0 4)) else .error .reserved
  | _ => .error .function

/-- Major 0x21: the operation is chosen by bits [7:4] (R74). -/
def decodeFence (n : Nat) : Except Reject Instr :=
  match bits n 4 4 with
  | 0x00 => if bits n 11 15 = 0 then .ok (.fence (fld n 8 3) (fld n 0 4)) else .error .reserved
  | _ => .error .function

/-- Major 0x37: the operation is chosen by bits [4:0] (R75). -/
def decodeThrd (n : Nat) : Except Reject Instr :=
  match bits n 0 5 with
  | 0x00 => if bits n 5 5 = 0 then .ok (.spawn (fld n 21 5) (fld n 16 5) (fld n 13 3) (fld n 10 3)) else .error .reserved
  | 0x01 => if bits n 5 21 = 0 then .ok .exit else .error .reserved
  | 0x02 => if bits n 5 21 = 0 then .ok .yield else .error .reserved
  | 0x03 => if bits n 5 5 = 0 then .ok (.gjoin (fld n 21 5) (fld n 16 5) (fld n 13 3) (fld n 10 3)) else .error .reserved
  | 0x04 => if bits n 5 5 = 0 ∧ bits n 21 5 = 0 then .ok (.gleave (fld n 16 5) (fld n 13 3) (fld n 10 3)) else .error .reserved
  | _ => .error .function

/-- Major 0x38: the operation is chosen by bits [4:0] (R75). -/
def decodeTrig (n : Nat) : Except Reject Instr :=
  match bits n 0 5 with
  | 0x00 => .ok (.trig (fld n 21 5) (fld n 16 5) (fld n 13 3) (fld n 10 3) (fld n 5 5))
  | 0x01 => if bits n 5 5 = 0 then .ok (.untrig (fld n 21 5) (fld n 16 5) (fld n 13 3) (fld n 10 3)) else .error .reserved
  | _ => .error .function

/-- Major 0x39: the operation is chosen by bits [4:0] (R75). -/
def decodePq (n : Nat) : Except Reject Instr :=
  match bits n 0 5 with
  | 0x00 => if bits n 8 2 = 0 then .ok (.pqreq (fld n 21 5) (fld n 16 5) (fld n 13 3) (fld n 10 3) (fld n 5 3)) else .error .reserved
  | 0x01 => if bits n 5 5 = 0 ∧ bits n 21 5 = 0 then .ok (.pqwait (fld n 16 5) (fld n 13 3) (fld n 10 3)) else .error .reserved
  | 0x02 => if bits n 8 2 = 0 ∧ bits n 21 5 = 0 then .ok (.pqtry (fld n 16 5) (fld n 13 3) (fld n 10 3) (fld n 5 3)) else .error .reserved
  | 0x03 => if bits n 21 5 = 0 then .ok (.pqgive (fld n 16 5) (fld n 13 3) (fld n 10 3) (fld n 5 5)) else .error .reserved
  | 0x04 => if bits n 21 5 = 0 then .ok (.pqswap (fld n 16 5) (fld n 13 3) (fld n 10 3) (fld n 5 5)) else .error .reserved
  | 0x05 => if bits n 5 5 = 0 ∧ bits n 21 5 = 0 then .ok (.pqdrop (fld n 16 5) (fld n 13 3) (fld n 10 3)) else .error .reserved
  | 0x06 => if bits n 5 5 = 0 ∧ bits n 21 5 = 0 then .ok (.pqdone (fld n 16 5) (fld n 13 3) (fld n 10 3)) else .error .reserved
  | _ => .error .function

/-- Major 0x3C: the operation is chosen by bits [4:0] (R75). -/
def decodeRcv (n : Nat) : Except Reject Instr :=
  match bits n 0 5 with
  | 0x00 => .ok (.rinj (fld n 21 5) (fld n 16 5) (fld n 13 3) (fld n 10 3) (fld n 5 5))
  | 0x01 => if bits n 5 5 = 0 then .ok (.errd (fld n 21 5) (fld n 16 5) (fld n 13 3) (fld n 10 3)) else .error .reserved
  | 0x02 => if bits n 5 5 = 0 ∧ bits n 21 5 = 0 then .ok (.errc (fld n 16 5) (fld n 13 3) (fld n 10 3)) else .error .reserved
  | 0x03 => .ok (.msav (fld n 21 5) (fld n 16 5) (fld n 13 3) (fld n 10 3) (fld n 5 5))
  | 0x04 => if bits n 5 5 = 0 then .ok (.mscl (fld n 21 5) (fld n 16 5) (fld n 13 3) (fld n 10 3)) else .error .reserved
  | 0x05 => if bits n 5 5 = 0 then .ok (.scan (fld n 21 5) (fld n 16 5) (fld n 13 3) (fld n 10 3)) else .error .reserved
  | _ => .error .function

/-- Major 0x3D: the operation is chosen by bits [4:0] (R75). -/
def decodeDbg (n : Nat) : Except Reject Instr :=
  match bits n 0 5 with
  | 0x00 => if bits n 5 5 = 0 then .ok (.trce (fld n 21 5) (fld n 16 5) (fld n 13 3) (fld n 10 3)) else .error .reserved
  | 0x01 => if bits n 5 5 = 0 ∧ bits n 21 5 = 0 then .ok (.mark (fld n 16 5) (fld n 13 3) (fld n 10 3)) else .error .reserved
  | 0x02 => .ok (.dump (fld n 21 5) (fld n 16 5) (fld n 13 3) (fld n 10 3) (fld n 5 5))
  | 0x03 => if bits n 5 5 = 0 then .ok (.brk (fld n 21 5) (fld n 16 5) (fld n 13 3) (fld n 10 3)) else .error .reserved
  | _ => .error .function

/-- Major 0x3F: the operation is chosen by bits [15:12] (R76). -/
def decodeSys (n : Nat) : Except Reject Instr :=
  match bits n 12 4 with
  | 0x00 => if bits n 16 10 = 0 then .ok (.trap (fld n 0 12)) else .error .reserved
  | 0x01 => if bits n 16 10 = 0 then .ok (.hent (fld n 0 12)) else .error .reserved
  | 0x02 => if bits n 0 12 = 0 ∧ bits n 16 10 = 0 then .ok .rett else .error .reserved
  | 0x03 => if bits n 16 5 = 0 then .ok (.srr (fld n 21 5) (fld n 0 12)) else .error .reserved
  | 0x04 => if bits n 21 5 = 0 then .ok (.srw (fld n 16 5) (fld n 0 12)) else .error .reserved
  | 0x05 => if bits n 21 5 = 0 then .ok (.srs (fld n 16 5) (fld n 0 12)) else .error .reserved
  | 0x06 => if bits n 21 5 = 0 then .ok (.src (fld n 16 5) (fld n 0 12)) else .error .reserved
  | 0x07 => .ok (.tlbi (fld n 21 5) (fld n 16 5) (fld n 0 12))
  | 0x08 => if bits n 0 12 = 0 ∧ bits n 16 10 = 0 then .ok .tlbw else .error .reserved
  | 0x09 => if bits n 0 12 = 0 ∧ bits n 16 10 = 0 then .ok .wfi else .error .reserved
  | 0x0F => .ok (.udf (fld n 21 5) (fld n 16 5) (fld n 0 12))
  | _ => .error .function

/-- The instruction that a control word holds; a word that is none of the table's is rejected
by name (R46, R49, R71). -/
def decodeNat (n : Nat) : Except Reject Instr :=
  match bits n 26 6 with
  | 0x00 => decodeAlu n
  | 0x01 => decodeMulDiv n
  | 0x02 => decodeCond n
  | 0x03 => .ok (.addi (fld n 21 5) (fld n 16 5) (fld n 0 16))
  | 0x04 => .ok (.andi (fld n 21 5) (fld n 16 5) (fld n 0 16))
  | 0x05 => .ok (.ori (fld n 21 5) (fld n 16 5) (fld n 0 16))
  | 0x06 => .ok (.xori (fld n 21 5) (fld n 16 5) (fld n 0 16))
  | 0x07 => if bits n 6 10 = 0 then .ok (.shli (fld n 21 5) (fld n 16 5) (fld n 0 6)) else .error .reserved
  | 0x08 => if bits n 6 10 = 0 then .ok (.shri (fld n 21 5) (fld n 16 5) (fld n 0 6)) else .error .reserved
  | 0x09 => if bits n 6 10 = 0 then .ok (.shrai (fld n 21 5) (fld n 16 5) (fld n 0 6)) else .error .reserved
  | 0x0A => .ok (.cmpi (fld n 23 3) (fld n 21 2) (fld n 16 5) (fld n 0 16))
  | 0x0B => if bits n 16 5 = 0 then .ok (.movi (fld n 21 5) (fld n 0 16)) else .error .reserved
  | 0x0C => if bits n 18 3 = 0 then .ok (.movk (fld n 21 5) (fld n 16 2) (fld n 0 16)) else .error .reserved
  | 0x10 => .ok (.bc (fld n 25 1) (fld n 22 3) (fld n 0 22))
  | 0x11 => .ok (.b (fld n 0 26))
  | 0x12 => .ok (.bl (fld n 0 26))
  | 0x13 => if bits n 0 16 = 0 then .ok (.jr (fld n 21 5) (fld n 16 5)) else .error .reserved
  | 0x14 => if bits n 21 5 = 0 then .ok (.loopImm (fld n 10 11) (fld n 0 10))
    else if bits n 0 10 = 0 then .ok (.loopReg (fld n 21 5) (fld n 10 11)) else .error .reserved
  | 0x15 => if bits n 0 26 = 0 then .ok .lbrk else .error .reserved
  | 0x18 => .ok (.ld (fld n 21 5) (fld n 16 5) (fld n 13 3) (fld n 10 3) (fld n 8 2) (fld n 6 2) (fld n 0 6))
  | 0x19 => .ok (.st (fld n 21 5) (fld n 16 5) (fld n 13 3) (fld n 10 3) (fld n 8 2) (fld n 6 2) (fld n 0 6))
  | 0x1A => if bits n 0 1 = 0 then .ok (.ldx (fld n 21 5) (fld n 16 5) (fld n 11 5) (fld n 8 3) (fld n 5 3) (fld n 3 2) (fld n 1 2)) else .error .reserved
  | 0x1B => if bits n 0 1 = 0 then .ok (.stx (fld n 21 5) (fld n 16 5) (fld n 11 5) (fld n 8 3) (fld n 5 3) (fld n 3 2) (fld n 1 2)) else .error .reserved
  | 0x1C => decodeAmo n
  | 0x1D => decodeCas n
  | 0x1E => decodeRed n
  | 0x1F => decodeCtr n
  | 0x20 => decodeSw n
  | 0x21 => decodeFence n
  | 0x22 => if bits n 0 1 = 0 ∧ bits n 8 18 = 0 then .ok (.sbwait (fld n 1 7)) else .error .reserved
  | 0x24 => if bits n 0 10 = 0 then .ok (.copy (fld n 21 5) (fld n 16 5) (fld n 13 3) (fld n 10 3)) else .error .reserved
  | 0x25 => if bits n 0 10 = 0 then .ok (.gath (fld n 21 5) (fld n 16 5) (fld n 13 3) (fld n 10 3)) else .error .reserved
  | 0x26 => if bits n 0 10 = 0 then .ok (.scat (fld n 21 5) (fld n 16 5) (fld n 13 3) (fld n 10 3)) else .error .reserved
  | 0x27 => if bits n 0 10 = 0 then .ok (.coll (fld n 21 5) (fld n 16 5) (fld n 13 3) (fld n 10 3)) else .error .reserved
  | 0x28 => if bits n 0 10 = 0 then .ok (.foot (fld n 21 5) (fld n 16 5) (fld n 13 3) (fld n 10 3)) else .error .reserved
  | 0x29 => if bits n 0 5 = 0 then .ok (.tdset (fld n 21 5) (fld n 16 5) (fld n 13 3) (fld n 10 3) (fld n 5 5)) else .error .reserved
  | 0x2A => if bits n 0 10 = 0 then .ok (.tdinv (fld n 21 5) (fld n 16 5) (fld n 13 3) (fld n 10 3)) else .error .reserved
  | 0x30 => if bits n 0 10 = 0 then .ok (.cfgl (fld n 21 5) (fld n 16 5) (fld n 13 3) (fld n 10 3)) else .error .reserved
  | 0x31 => if bits n 0 10 = 0 then .ok (.cfgr (fld n 21 5) (fld n 16 5) (fld n 13 3) (fld n 10 3)) else .error .reserved
  | 0x32 => if bits n 1 9 = 0 then .ok (.strm (fld n 21 5) (fld n 16 5) (fld n 13 3) (fld n 10 3) (fld n 0 1)) else .error .reserved
  | 0x33 => if bits n 0 10 = 0 then .ok (.strs (fld n 21 5) (fld n 16 5) (fld n 13 3) (fld n 10 3)) else .error .reserved
  | 0x34 => if bits n 0 10 = 0 then .ok (.take (fld n 21 5) (fld n 16 5) (fld n 13 3) (fld n 10 3)) else .error .reserved
  | 0x35 => if bits n 0 10 = 0 then .ok (.drain (fld n 21 5) (fld n 16 5) (fld n 13 3) (fld n 10 3)) else .error .reserved
  | 0x36 => if bits n 0 10 = 0 then .ok (.blkm (fld n 21 5) (fld n 16 5) (fld n 13 3) (fld n 10 3)) else .error .reserved
  | 0x37 => decodeThrd n
  | 0x38 => decodeTrig n
  | 0x39 => decodePq n
  | 0x3C => decodeRcv n
  | 0x3D => decodeDbg n
  | 0x3F => decodeSys n
  | _ => .error .major

/-- The control word that four bytes hold, little-endian (R46). -/
def wordOfBytes (b0 b1 b2 b3 : Byte) : Nat :=
  b0.toNat + b1.toNat * 2 ^ 8 + b2.toNat * 2 ^ 16 + b3.toNat * 2 ^ 24

/-- The instruction at the head of a list of bytes, and the bytes after it. -/
def decode : List Byte → Except Reject (Instr × List Byte)
  | b0 :: b1 :: b2 :: b3 :: rest =>
    match decodeNat (wordOfBytes b0 b1 b2 b3) with
    | .ok i => .ok (i, rest)
    | .error e => .error e
  | _ => .error .short

/-- The instruction that a control word holds. -/
def decodeWord (w : IWord) : Except Reject Instr := decodeNat w.toNat

/-- The bytes of a word, the lowest-addressed first. -/
def bytesOfWord (w : Nat) : List Byte :=
  [BitVec.ofNat 8 w, BitVec.ofNat 8 (w / 2 ^ 8), BitVec.ofNat 8 (w / 2 ^ 16),
   BitVec.ofNat 8 (w / 2 ^ 24)]

/-- What the decoder reads from a row of the table of operations: every instruction is one
32-bit word (R46), so the bits above nbits are 0. -/
def decodeTableWord (nbits w : Nat) : Option Instr :=
  match decode (bytesOfWord (w % 2 ^ nbits)) with
  | .ok (i, _) => some i
  | .error _ => none

/-- A word from its fixed bits and its fields, each a value and the number of its lowest
bit. -/
def wordOf (m : Nat) (fs : List (Nat × Nat)) : Option IWord :=
  some (BitVec.ofNat 32 (fs.foldl (fun n f => n + f.1 * 2 ^ f.2) m))

/-- The control word of an instruction, from the layouts of R46 and the maps of R71 to R76;
an event has none. -/
def encode : Instr → Option IWord
  | .add d a b => wordOf 0x00000000 [(d.toNat, 21), (a.toNat, 16), (b.toNat, 11)]
  | .sub d a b => wordOf 0x00000001 [(d.toNat, 21), (a.toNat, 16), (b.toNat, 11)]
  | .and d a b => wordOf 0x00000002 [(d.toNat, 21), (a.toNat, 16), (b.toNat, 11)]
  | .or d a b => wordOf 0x00000003 [(d.toNat, 21), (a.toNat, 16), (b.toNat, 11)]
  | .xor d a b => wordOf 0x00000004 [(d.toNat, 21), (a.toNat, 16), (b.toNat, 11)]
  | .andn d a b => wordOf 0x00000005 [(d.toNat, 21), (a.toNat, 16), (b.toNat, 11)]
  | .shl d a b => wordOf 0x00000006 [(d.toNat, 21), (a.toNat, 16), (b.toNat, 11)]
  | .shr d a b => wordOf 0x00000007 [(d.toNat, 21), (a.toNat, 16), (b.toNat, 11)]
  | .shra d a b => wordOf 0x00000008 [(d.toNat, 21), (a.toNat, 16), (b.toNat, 11)]
  | .min d a b => wordOf 0x00000009 [(d.toNat, 21), (a.toNat, 16), (b.toNat, 11)]
  | .max d a b => wordOf 0x0000000A [(d.toNat, 21), (a.toNat, 16), (b.toNat, 11)]
  | .minu d a b => wordOf 0x0000000B [(d.toNat, 21), (a.toNat, 16), (b.toNat, 11)]
  | .maxu d a b => wordOf 0x0000000C [(d.toNat, 21), (a.toNat, 16), (b.toNat, 11)]
  | .lea d a b sl => wordOf 0x0000000D [(d.toNat, 21), (a.toNat, 16), (b.toNat, 11), (sl.toNat, 8)]
  | .clz d a => wordOf 0x0000000E [(d.toNat, 21), (a.toNat, 16)]
  | .popc d a => wordOf 0x0000000F [(d.toNat, 21), (a.toNat, 16)]
  | .brev d a => wordOf 0x00000010 [(d.toNat, 21), (a.toNat, 16)]
  | .sext d a w => wordOf 0x00000011 [(d.toNat, 21), (a.toNat, 16), (w.toNat, 8)]
  | .zext d a w => wordOf 0x00000012 [(d.toNat, 21), (a.toNat, 16), (w.toNat, 8)]
  | .csel d a b c => wordOf 0x00000013 [(d.toNat, 21), (a.toNat, 16), (b.toNat, 11), (c.toNat, 8)]
  | .mul d a b => wordOf 0x04000000 [(d.toNat, 21), (a.toNat, 16), (b.toNat, 11)]
  | .mulh d a b => wordOf 0x04000001 [(d.toNat, 21), (a.toNat, 16), (b.toNat, 11)]
  | .mulhu d a b => wordOf 0x04000002 [(d.toNat, 21), (a.toNat, 16), (b.toNat, 11)]
  | .div d a b => wordOf 0x04000003 [(d.toNat, 21), (a.toNat, 16), (b.toNat, 11)]
  | .divu d a b => wordOf 0x04000004 [(d.toNat, 21), (a.toNat, 16), (b.toNat, 11)]
  | .rem d a b => wordOf 0x04000005 [(d.toNat, 21), (a.toNat, 16), (b.toNat, 11)]
  | .remu d a b => wordOf 0x04000006 [(d.toNat, 21), (a.toNat, 16), (b.toNat, 11)]
  | .cmp c a b r => wordOf 0x08000000 [(c.toNat, 21), (a.toNat, 16), (b.toNat, 11), (r.toNat, 8)]
  | .clog n m k o => wordOf 0x08000001 [(n.toNat, 21), (m.toNat, 16), (k.toNat, 11), (o.toNat, 8)]
  | .addi d a im => wordOf 0x0C000000 [(d.toNat, 21), (a.toNat, 16), (im.toNat, 0)]
  | .andi d a im => wordOf 0x10000000 [(d.toNat, 21), (a.toNat, 16), (im.toNat, 0)]
  | .ori d a im => wordOf 0x14000000 [(d.toNat, 21), (a.toNat, 16), (im.toNat, 0)]
  | .xori d a im => wordOf 0x18000000 [(d.toNat, 21), (a.toNat, 16), (im.toNat, 0)]
  | .shli d a n => wordOf 0x1C000000 [(d.toNat, 21), (a.toNat, 16), (n.toNat, 0)]
  | .shri d a n => wordOf 0x20000000 [(d.toNat, 21), (a.toNat, 16), (n.toNat, 0)]
  | .shrai d a n => wordOf 0x24000000 [(d.toNat, 21), (a.toNat, 16), (n.toNat, 0)]
  | .cmpi c r a im => wordOf 0x28000000 [(c.toNat, 23), (r.toNat, 21), (a.toNat, 16), (im.toNat, 0)]
  | .movi d im => wordOf 0x2C000000 [(d.toNat, 21), (im.toNat, 0)]
  | .movk d k im => wordOf 0x30000000 [(d.toNat, 21), (k.toNat, 16), (im.toNat, 0)]
  | .bc sl c d => wordOf 0x40000000 [(sl.toNat, 25), (c.toNat, 22), (d.toNat, 0)]
  | .b d => wordOf 0x44000000 [(d.toNat, 0)]
  | .bl d => wordOf 0x48000000 [(d.toNat, 0)]
  | .jr d a => wordOf 0x4C000000 [(d.toNat, 21), (a.toNat, 16)]
  | .loopImm e n => wordOf 0x50000000 [(e.toNat, 10), (n.toNat, 0)]
  | .loopReg a e => wordOf 0x50000000 [(a.toNat, 21), (e.toNat, 10)]
  | .lbrk => wordOf 0x54000000 []
  | .ld d a sl w z o p => wordOf 0x60000000 [(d.toNat, 21), (a.toNat, 16), (sl.toNat, 13), (w.toNat, 10), (z.toNat, 8), (o.toNat, 6), (p.toNat, 0)]
  | .st d a sl w z o p => wordOf 0x64000000 [(d.toNat, 21), (a.toNat, 16), (sl.toNat, 13), (w.toNat, 10), (z.toNat, 8), (o.toNat, 6), (p.toNat, 0)]
  | .ldx d a b sl w z o => wordOf 0x68000000 [(d.toNat, 21), (a.toNat, 16), (b.toNat, 11), (sl.toNat, 8), (w.toNat, 5), (z.toNat, 3), (o.toNat, 1)]
  | .stx d a b sl w z o => wordOf 0x6C000000 [(d.toNat, 21), (a.toNat, 16), (b.toNat, 11), (sl.toNat, 8), (w.toNat, 5), (z.toNat, 3), (o.toNat, 1)]
  | .amo d a b z o p sl => wordOf 0x70000000 [(d.toNat, 21), (a.toNat, 16), (b.toNat, 11), (z.toNat, 10), (o.toNat, 8), (p.toNat, 4), (sl.toNat, 0)]
  | .cas d a b z o sl => wordOf 0x74000000 [(d.toNat, 21), (a.toNat, 16), (b.toNat, 11), (z.toNat, 10), (o.toNat, 8), (sl.toNat, 0)]
  | .red a b z p sl => wordOf 0x78000000 [(a.toNat, 16), (b.toNat, 11), (z.toNat, 10), (p.toNat, 4), (sl.toNat, 0)]
  | .cadd a b sl => wordOf 0x7C000000 [(a.toNat, 16), (b.toNat, 11), (sl.toNat, 0)]
  | .cwait a b sl => wordOf 0x7C000010 [(a.toNat, 16), (b.toNat, 11), (sl.toNat, 0)]
  | .ctest d a sl => wordOf 0x7C000020 [(d.toNat, 21), (a.toNat, 16), (sl.toNat, 0)]
  | .swset a b sl => wordOf 0x80000000 [(a.toNat, 16), (b.toNat, 11), (sl.toNat, 0)]
  | .swwait a b sl => wordOf 0x80000010 [(a.toNat, 16), (b.toNat, 11), (sl.toNat, 0)]
  | .fence k sl => wordOf 0x84000000 [(k.toNat, 8), (sl.toNat, 0)]
  | .sbwait m => wordOf 0x88000000 [(m.toNat, 1)]
  | .copy d a sl w => wordOf 0x90000000 [(d.toNat, 21), (a.toNat, 16), (sl.toNat, 13), (w.toNat, 10)]
  | .gath d a sl w => wordOf 0x94000000 [(d.toNat, 21), (a.toNat, 16), (sl.toNat, 13), (w.toNat, 10)]
  | .scat d a sl w => wordOf 0x98000000 [(d.toNat, 21), (a.toNat, 16), (sl.toNat, 13), (w.toNat, 10)]
  | .coll d a sl w => wordOf 0x9C000000 [(d.toNat, 21), (a.toNat, 16), (sl.toNat, 13), (w.toNat, 10)]
  | .foot d a sl w => wordOf 0xA0000000 [(d.toNat, 21), (a.toNat, 16), (sl.toNat, 13), (w.toNat, 10)]
  | .tdset d a sl w b => wordOf 0xA4000000 [(d.toNat, 21), (a.toNat, 16), (sl.toNat, 13), (w.toNat, 10), (b.toNat, 5)]
  | .tdinv d a sl w => wordOf 0xA8000000 [(d.toNat, 21), (a.toNat, 16), (sl.toNat, 13), (w.toNat, 10)]
  | .cfgl d a sl w => wordOf 0xC0000000 [(d.toNat, 21), (a.toNat, 16), (sl.toNat, 13), (w.toNat, 10)]
  | .cfgr d a sl w => wordOf 0xC4000000 [(d.toNat, 21), (a.toNat, 16), (sl.toNat, 13), (w.toNat, 10)]
  | .strm d a sl w im => wordOf 0xC8000000 [(d.toNat, 21), (a.toNat, 16), (sl.toNat, 13), (w.toNat, 10), (im.toNat, 0)]
  | .strs d a sl w => wordOf 0xCC000000 [(d.toNat, 21), (a.toNat, 16), (sl.toNat, 13), (w.toNat, 10)]
  | .take d a sl w => wordOf 0xD0000000 [(d.toNat, 21), (a.toNat, 16), (sl.toNat, 13), (w.toNat, 10)]
  | .drain d a sl w => wordOf 0xD4000000 [(d.toNat, 21), (a.toNat, 16), (sl.toNat, 13), (w.toNat, 10)]
  | .blkm d a sl w => wordOf 0xD8000000 [(d.toNat, 21), (a.toNat, 16), (sl.toNat, 13), (w.toNat, 10)]
  | .spawn d a sl w => wordOf 0xDC000000 [(d.toNat, 21), (a.toNat, 16), (sl.toNat, 13), (w.toNat, 10)]
  | .exit => wordOf 0xDC000001 []
  | .yield => wordOf 0xDC000002 []
  | .gjoin d a sl w => wordOf 0xDC000003 [(d.toNat, 21), (a.toNat, 16), (sl.toNat, 13), (w.toNat, 10)]
  | .gleave a sl w => wordOf 0xDC000004 [(a.toNat, 16), (sl.toNat, 13), (w.toNat, 10)]
  | .trig d a sl w b => wordOf 0xE0000000 [(d.toNat, 21), (a.toNat, 16), (sl.toNat, 13), (w.toNat, 10), (b.toNat, 5)]
  | .untrig d a sl w => wordOf 0xE0000001 [(d.toNat, 21), (a.toNat, 16), (sl.toNat, 13), (w.toNat, 10)]
  | .pqreq d a sl w c => wordOf 0xE4000000 [(d.toNat, 21), (a.toNat, 16), (sl.toNat, 13), (w.toNat, 10), (c.toNat, 5)]
  | .pqwait a sl w => wordOf 0xE4000001 [(a.toNat, 16), (sl.toNat, 13), (w.toNat, 10)]
  | .pqtry a sl w c => wordOf 0xE4000002 [(a.toNat, 16), (sl.toNat, 13), (w.toNat, 10), (c.toNat, 5)]
  | .pqgive a sl w b => wordOf 0xE4000003 [(a.toNat, 16), (sl.toNat, 13), (w.toNat, 10), (b.toNat, 5)]
  | .pqswap a sl w b => wordOf 0xE4000004 [(a.toNat, 16), (sl.toNat, 13), (w.toNat, 10), (b.toNat, 5)]
  | .pqdrop a sl w => wordOf 0xE4000005 [(a.toNat, 16), (sl.toNat, 13), (w.toNat, 10)]
  | .pqdone a sl w => wordOf 0xE4000006 [(a.toNat, 16), (sl.toNat, 13), (w.toNat, 10)]
  | .rinj d a sl w b => wordOf 0xF0000000 [(d.toNat, 21), (a.toNat, 16), (sl.toNat, 13), (w.toNat, 10), (b.toNat, 5)]
  | .errd d a sl w => wordOf 0xF0000001 [(d.toNat, 21), (a.toNat, 16), (sl.toNat, 13), (w.toNat, 10)]
  | .errc a sl w => wordOf 0xF0000002 [(a.toNat, 16), (sl.toNat, 13), (w.toNat, 10)]
  | .msav d a sl w b => wordOf 0xF0000003 [(d.toNat, 21), (a.toNat, 16), (sl.toNat, 13), (w.toNat, 10), (b.toNat, 5)]
  | .mscl d a sl w => wordOf 0xF0000004 [(d.toNat, 21), (a.toNat, 16), (sl.toNat, 13), (w.toNat, 10)]
  | .scan d a sl w => wordOf 0xF0000005 [(d.toNat, 21), (a.toNat, 16), (sl.toNat, 13), (w.toNat, 10)]
  | .trce d a sl w => wordOf 0xF4000000 [(d.toNat, 21), (a.toNat, 16), (sl.toNat, 13), (w.toNat, 10)]
  | .mark a sl w => wordOf 0xF4000001 [(a.toNat, 16), (sl.toNat, 13), (w.toNat, 10)]
  | .dump d a sl w b => wordOf 0xF4000002 [(d.toNat, 21), (a.toNat, 16), (sl.toNat, 13), (w.toNat, 10), (b.toNat, 5)]
  | .brk d a sl w => wordOf 0xF4000003 [(d.toNat, 21), (a.toNat, 16), (sl.toNat, 13), (w.toNat, 10)]
  | .trap im => wordOf 0xFC000000 [(im.toNat, 0)]
  | .hent im => wordOf 0xFC001000 [(im.toNat, 0)]
  | .rett => wordOf 0xFC002000 []
  | .srr d r => wordOf 0xFC003000 [(d.toNat, 21), (r.toNat, 0)]
  | .srw a r => wordOf 0xFC004000 [(a.toNat, 16), (r.toNat, 0)]
  | .srs a r => wordOf 0xFC005000 [(a.toNat, 16), (r.toNat, 0)]
  | .src a r => wordOf 0xFC006000 [(a.toNat, 16), (r.toNat, 0)]
  | .tlbi d a n => wordOf 0xFC007000 [(d.toNat, 21), (a.toNat, 16), (n.toNat, 0)]
  | .tlbw => wordOf 0xFC008000 []
  | .wfi => wordOf 0xFC009000 []
  | .udf d a im => wordOf 0xFC00F000 [(d.toNat, 21), (a.toNat, 16), (im.toNat, 0)]
  | _ => none

end Sys2Proof
end

