-- ==== Sys2Proof/Machine/State.lean ====
section
/-!
DEFINITION. The state of one TH48 package, as plain data: everything the spec names, and the
scheduling data by which one deterministic step picks what happens next (log 1). Docstrings
cite the rule that names each piece of state. Numbers that software reads and writes whole are
words; what is only counted, compared or indexed is a natural number.
-/

namespace Sys2Proof.Machine

/-! ## Memory -/

/-- Bytes by key, keys strictly rising, no byte equal to what an unlisted key reads as (0,
log 3). A key is a physical address of R341; a scratchpad byte of cluster g at offset o has the
key 2^60 + g * 2^32 + o (R250). -/
abbrev Memory := List Host.Cell

/-- Page kinds (R251). -/
inductive Kind where
  | so | rc | uo | dv
  deriving DecidableEq, Repr

/-- Privileges (R27, R159). -/
inductive Priv where
  | u | s | h
  deriving DecidableEq, Repr

/-- Through what an agent translates (R346, R413): the level 3 table, the ASID, the VMID, the
privilege it acts at, the cluster whose scratchpad it resolves, the partition whose ranges bound it
(none for the hypervisor, log 17), and the length of that scratchpad where it was captured with the
translation (R129). -/
structure Trans where
  ttb : Nat
  asid : Nat
  vmid : Nat
  priv : Priv
  cluster : Option Nat
  part : Option Nat
  scratch : Option Nat
  deriving DecidableEq, Repr

/-- A cached leaf translation (R347): tag, first page and pages covered, frame, kind, rights. -/
structure TlbEntry where
  vmid : Nat
  asid : Nat
  page : Nat
  pages : Nat
  frame : Nat
  kind : Kind
  r : Bool
  w : Bool
  x : Bool
  u : Bool
  deriving DecidableEq, Repr

/-! ## Control agents -/

/-- A live loop-stack entry (R97). -/
structure LoopEnt where
  start : Word
  fin : Word
  left : Word
  deriving DecidableEq, Repr

/-- One single-copy atomic piece of an access (R252): its VA, key, length, page kind, whether
it has been performed, and the bytes read or to be written. -/
structure Piece where
  va : Word
  key : Nat
  len : Nat
  kind : Kind
  done : Bool
  data : Nat
  bad : Bool
  deriving DecidableEq, Repr

/-- What an outstanding word still has to do (R106, R110, R113, R131). -/
inductive PendOp where
  | load (size : Nat)
  | store
  | amo (p n : Nat) (v : Word)
  | cas (n : Nat) (e v : Word)
  | red (p n : Nat) (v : Word)
  | cadd (v : Word)
  /-- An accepted engine job. -/
  | job (j : Nat)
  /-- A region load (CFGL, CFGR). -/
  | cfg (n : Nat)
  /-- A TAKE or DRAIN of a port, an STRS entering its link, a BLKM. -/
  | take (port : Nat)
  | drain (port : Nat)
  | strs (port : Nat)
  | blkm
  /-- A SCAN of cluster g. -/
  | scan (g : Nat)
  /-- An RCTL command (R328), whether it froze what it acts on, and the clock at its SRW. -/
  | rctl (v : Word) (froze : Bool) (cyc : Nat)
  deriving DecidableEq, Repr

/-- An outstanding word of a control agent: the slot it set (0 none), its destination, whether
the agent issues nothing until it is complete, its pieces, order and scope, and the tag of the
translation that it used (R349). -/
structure Pend where
  id : Nat
  set : Nat
  dest : Option Reg
  holds : Bool
  op : PendOp
  pieces : List Piece
  acq : Bool
  rel : Bool
  scope : Nat
  vmid : Nat
  asid : Nat
  va : Word
  deriving DecidableEq, Repr

/-- A request that a thread be parked at its next instruction boundary (R411). -/
structure ParkReq where
  cause : Nat
  val : Word
  deriving DecidableEq, Repr

/-- Whether a thread may issue. A parked thread keeps its cause, PC and value, the TB of the
park, the queue entry of its record once written, and whether it may resume (R159, R363, R414). -/
inductive RunState where
  | ready
  | parked (cause : Nat) (pc val : Word) (tb : Nat) (entry : Option Nat) (final : Bool)
  /-- A thread killed while parked: it issues nothing and exits as EXIT states (R159). -/
  | dying
  /-- A core that has halted (R160) or has been cut (R381), or a ROM that runs nothing (R355). -/
  | halted
  deriving DecidableEq, Repr

/-- The trap registers of one level (R160). -/
structure TrapSet where
  prev : Nat
  cause : Nat
  pc : Word
  val : Word
  vec : Word
  deriving DecidableEq, Repr

/-- A system core's level, its trap sets and its own registers (R160, R161, R346, R412, R328,
R356, R383, R386, R388; log 14). -/
structure CoreRegs where
  h : Bool
  sSet : TrapSet
  hSet : TrapSet
  soft : Bool
  event : Bool
  bridge : Bool
  inten : Nat
  ttb : Nat
  asid : Nat
  httb : Nat
  tlbVmid : Nat
  psel : Nat
  rctlArg : Word
  rctlArea : Word
  rctlBytes : Nat
  rctlStat : Nat
  holdIdx : Nat
  xstat : Nat
  measIdx : Nat
  thDie : Nat
  thSensor : Nat
  wearSel : Nat
  /-- The next fetch is that of a trap's first word (R160). -/
  atVector : Bool
  deriving DecidableEq, Repr

/-- A must-save range (R153, R380): base, length, the keys and lengths of its pieces of a page, its
place in the order of admission, and the account charged: the hypervisor's or a partition's. -/
structure SaveRange where
  va : Word
  len : Nat
  pages : List (Nat × Nat)
  order : Nat
  hyp : Bool
  part : Nat
  deriving DecidableEq, Repr

/-- A CWAIT that waits (R114): its PC, its counter's key, its target, and whether a value has reached it. -/
structure CounterWait where
  pc : Word
  key : Nat
  target : Nat
  met : Bool
  deriving DecidableEq, Repr

/-- A DUMP as it was issued (R392): its PC, TB, the bytes of its thread section, and whether it froze its region
itself. -/
structure DumpStart where
  pc : Word
  tb : Nat
  first : List Byte
  froze : Bool
  deriving DecidableEq, Repr

/-- A control agent: a sequencer thread, or a system core when `sys` is there. -/
structure Thread where
  /-- g0 to g31; g0 reads 0 whatever stands here (R85). -/
  regs : Vector Word 32
  /-- c0 to c7 (R85). -/
  conds : BitVec 8
  pc : Word
  /-- The loop stack, top first, at most four (R97). -/
  loops : List LoopEnt
  /-- Outstanding words, oldest first. -/
  pend : List Pend
  nextPend : Nat
  /-- Poisoned registers, each with the load's VA (R105). -/
  poison : AMap Word
  /-- Poisoned loads by 32 * slot + register (R105, log 26). -/
  slotPoison : AMap Word
  /-- NBV.MODE (R179). -/
  nbv : Nat
  /-- Launch and region a sequencer thread is bound to (R132). -/
  launch : Nat
  region : Nat
  /-- Keys of the group words it has joined, at most eight (R145). -/
  groups : List Nat
  /-- Tag of the last accepted job (R125). -/
  jobTag : Nat
  /-- Must-save ranges, at most sixteen (R153). -/
  saves : List SaveRange
  /-- It has given up its next turn (R144). -/
  yielded : Bool
  /-- The CWAIT that waits (R114). -/
  waits : Option CounterWait
  /-- The DUMP that waits for a freeze (R392). -/
  dumping : Option DumpStart := none
  run : RunState
  parks : List ParkReq
  sys : Option CoreRegs
  deriving DecidableEq, Repr

/-! ## Homes and engines -/

/-- A place of a queue (R148): its link and generation, holder, and standing. -/
structure Place where
  link : Nat
  gen : Nat
  holder : Nat
  part : Nat
  acquired : Bool
  abandoned : Bool
  deriving DecidableEq, Repr

/-- A trigger binding (R146). -/
structure Trigger where
  thresh : Word
  image : Word
  status : Word
  launch : Nat
  region : Nat
  trans : Trans
  nbv : Nat
  deriving DecidableEq, Repr

/-- A tensor descriptor as its 128 bytes give it (R120). -/
structure Desc where
  valid : Bool
  fmt : Nat
  rank : Nat
  scaled : Bool
  base : Nat
  scale : Nat
  dims : List Nat
  strides : List Int
  deriving DecidableEq, Repr

/-- A footprint entry (R124). -/
structure Foot where
  base : Nat
  len : Nat
  rd : Bool
  wr : Bool
  deriving DecidableEq, Repr

/-- A job card (R123). -/
structure Card where
  kind : Nat
  idem : Bool
  undecl : Bool
  sync : Bool
  scope : Nat
  nfoot : Nat
  collop : Nat
  dst : Nat
  src : Nat
  idx : Nat
  members : Nat
  rank : Nat
  ctr : Word
  inc : Word
  syncw : Word
  groupw : Word
  foots : List Foot
  deriving DecidableEq, Repr

/-- An accepted engine job (R125 to R129). -/
structure Job where
  agent : Nat
  pend : Nat
  card : Card
  cardVa : Word
  tag : Nat
  srcD : Desc
  dstD : Desc
  idxD : Desc
  indices : List Nat
  trans : Trans
  nbv : Nat
  /-- FI of the die that accepted it. -/
  die : Nat
  /-- Earlier jobs and earlier accesses it waits for (R42, R258). -/
  after : List Nat
  afterPend : List (Nat × Nat)
  /-- A collective whose members are not all accepted waits (R127). -/
  gathered : Bool
  /-- Key of a collective's group word, and the number its members got as they were gathered. -/
  group : Nat
  coll : Nat
  /-- Writes performed so far. -/
  pos : Nat
  /-- A collective's elements for this participant, once its members have been read (R126). -/
  data : Option (List Byte)
  /-- Failure met, with the first failing VA (R128, R410). -/
  fail : Option (Nat × Word)
  /-- The launch whose thread issued it (R375). -/
  launch : Option Nat := none
  deriving DecidableEq, Repr

/-- A job record waiting to be written (R410). -/
structure JobRec where
  agent : Nat
  failure : Nat
  cardVa : Word
  va : Word
  tag : Nat
  tb : Nat
  deriving DecidableEq, Repr

/-- A TLBI not yet acknowledged by every cache (R349): the accesses each cache has noted. -/
structure Tlbi where
  core : Nat
  noted : AMap (List (Nat × Nat))
  deriving DecidableEq, Repr

/-! ## The fabric -/

/-- A token (R25, R276, R361): item, kind (0 data, 1 end of stream, 2 group boundary), error tag, network
(0 wide, 1 scalar, 2 bit), payload; the source ports in whose accounting it stands (log 11), a port k of
another region r of the launch as 256 * (r + 1) + k; and the loop index of the entry of the stage where a
poison token arose, which its record reports (R58, log 120). -/
structure Tok where
  item : Nat
  kind : Nat
  tag : Bool
  net : Nat
  pay : Wide
  srcs : List Nat
  loop : Nat := 0xFFFFFFFF
  deriving DecidableEq, Repr

/-- A discard mark or an anti-token (R262 to R264). -/
structure Mark where
  item : Nat
  srcs : List Nat
  deriving DecidableEq, Repr

/-- The buffer of one destination of a context (R54): its tokens from the head, its discard
marks, the anti-tokens on its reverse channel, and the TB of its last movement (R326). -/
structure Hop where
  q : List Tok
  marks : List Mark
  anti : List Mark
  moved : Nat
  deriving DecidableEq, Repr

/-- A result waiting in a tile's skid or at a bank tile's outputs (R25, R291): the source code
of R54 it leaves by and the destinations it has still to enter. -/
structure SkidEnt where
  tok : Tok
  source : Nat
  dests : List Nat
  /-- A result of an item cancelled after its firing began is dropped as it emerges (R262). -/
  drop : Bool
  deriving DecidableEq, Repr

/-- A memory request of an AG tile (R285): its item and loop index, operation and order words,
address and data, the tags it arrived with, what has been performed, and its replies. -/
structure Req where
  item : Nat
  srcs : List Nat
  loopIdx : Nat
  word : Nat
  order : Nat
  addr : Nat
  data : Wide
  /-- Performed, or a null operation (R286). -/
  done : Bool
  /-- No further reply will come. -/
  ended : Bool
  replies : List Tok
  /-- Its replies are dropped (R263). -/
  drop : Bool
  tb : Nat
  /-- Data struck by an uncorrectable error (R363). -/
  bad : Bool
  /-- The 8-byte pieces performed so far, each with what it read (R252). -/
  got : AMap Nat := []
  /-- Where it is performed, once a piece of it has been (R286). -/
  home : Option (Nat × Kind) := none
  deriving DecidableEq, Repr

/-- A ring slot (R289): tag 0 empty, 1 filling, 2 full; bytes filled; kind; the payload of its
error tag; marks, each known or unknown. -/
structure Slot where
  tag : Nat
  item : Nat
  srcs : List Nat
  kind : Nat
  err : Option Wide
  fill : Nat
  bitmap : Option Nat
  zero : Option Bool
  finite : Option Bool
  ovf : Bool
  /-- Bytes carrying an uncorrectable error (R362). -/
  bad : Bool
  /-- The loop index of the tagged token whose payload `err` holds (log 120). -/
  loop : Nat := 0xFFFFFFFF
  deriving DecidableEq, Repr

/-- A ring of a bank tile (R288, R289), the tokens its head slot has emitted, and the write
position of a SWAR buffer (R291). -/
structure Ring where
  base : Nat
  slots : Nat
  size : Nat
  bmap : Bool
  mfmt : Nat
  head : Nat
  tail : Nat
  popped : Nat
  wpos : Nat
  cells : AMap Slot
  deriving DecidableEq, Repr

/-- One item of VOTE (R369), a token that is not data apart from the data token of its number: whether it has
fired and its result, the copies seen and the ports of its tokens. -/
structure VoteItem where
  item : Nat
  kind : Nat := 0
  srcs : List Nat
  fired : Bool
  tok : Option Tok
  seen : List Nat
  deriving DecidableEq, Repr

/-- An outstanding CREQ (R307): the load asked for, or its status once known. -/
structure CReq where
  item : Nat
  srcs : List Nat
  load : Nat
  status : Option Nat
  drop : Bool
  /-- The image VA of the request (R307, R330). -/
  image : Nat := 0
  deriving DecidableEq, Repr

/-- A committed operator context of a tile (R308): its words as loaded and their parts; its
element, constant, fibre and group state; the state of the operator in S1; excess counters;
skid, hops, requests, rings. -/
structure Ctx where
  bank : Bool
  hdr : Nat
  stages : List Nat
  order : Option Nat
  sw : List Nat
  /-- Switch words of held circuit routes that earlier configurations set (R54). -/
  heldSw : List Nat := []
  nmap : List Nat
  ringWords : List (Nat × Nat)
  nbv : Nat
  weight : Nat
  /-- LFLAG (R174). -/
  lflag : Nat
  /-- FIRED and LAST of each input (R265). -/
  fired : AMap (List Mark)
  last : AMap Nat
  looping : Bool
  index : Nat
  mergeTurn : Nat
  ev : AMap Wide
  kreg : AMap Nat
  fib : AMap (Nat × Nat)
  gq : AMap Nat
  gacc : AMap Nat
  dirty : Bool
  /-- Registers struck by an uncorrectable error (R363). -/
  damaged : List Nat
  /-- Tokens held by ORDJ (R283). -/
  held : List Tok
  votes : List VoteItem
  /-- Branch anti-tokens seen by a FORK, with their branches (R263). -/
  forks : List (Nat × Mark)
  creq : Option CReq
  /-- Thread tokens given to a TENTRY and not yet taken (R313). -/
  entry : List Tok
  exc : AMap Nat
  lastBegin : Option Nat
  /-- The cycle at which its skid was last full (R389); the cycles of occupied slots of its FIRE inputs in the
  current window of the arbiter, and in the last one where its weight has not followed yet (R309). -/
  skidAt : Option Nat := none
  occ : Nat := 0
  due : Option Nat := none
  /-- Items whose request it has made, or cancelled, in attempts that have not resolved (R263, R274). -/
  asked : List Mark := []
  skid : List SkidEnt
  hops : AMap Hop
  reqs : List Req
  rings : List Ring
  deriving DecidableEq, Repr

/-- An accumulator area (R183): pairs held, elements as 40-bit codes, overflow, the item it
carries, the first fault (cause, node), TB at the tagging, checksum vectors (R193), and the
operand items whose path ends at the push (R408), each with its failure: the payload of its record
and the loop index that the slot carried. -/
structure Area where
  pairs : Nat
  vals : AMap Nat
  ovf : Bool
  item : Nat
  srcs : List Nat
  fault : Option (Nat × Nat)
  tb : Nat
  csRow : AMap Nat
  csCol : AMap Nat
  popped : List (Mark × Option (Wide × Nat))
  deriving DecidableEq, Repr

/-- A matrix engine included in a region (R183 to R199): its words, its three areas, the pair
or group item in progress, and the state of the draining area (0 free, 1 converting, 2
converted). -/
structure Engine where
  launch : Nat
  region : Nat
  /-- The context of its feeding tiles whose rings it binds (log 12). -/
  ctx : Nat
  words : List Nat
  nbv : Nat
  cur : Area
  drain : Area
  drainState : Nat
  kept : Area
  keptStat : Nat
  busy : Bool
  /-- Groups of the item in progress that have been added (R187, R195). -/
  groups : Nat := 0
  deriving DecidableEq, Repr

/-- A cluster's fabric: contexts by (8y + x) * 4 + c, engines by number. -/
structure Cluster where
  ctxs : AMap Ctx
  engines : AMap Engine
  /-- Committed contexts' turn data are the weights in `ctxs` (R309). -/
  pword : Nat
  /-- The owners of the turns left in each tile's frame, by 8y + x (R309, log 23). -/
  turns : AMap (List Nat) := []
  /-- Offsets of the sync words that SWSETs, SWWAITs, accepted cards and arrivals have named (R116, log 65). -/
  syncs : List Nat := []
  deriving DecidableEq, Repr

/-- An attempt of an item not yet resolved (R364): its row of the stream, attempt number,
whether RINJ made it, whether a poison token has arrived, and the record fields that name it. -/
structure Attempt where
  item : Nat
  row : Option Nat
  no : Nat
  rinj : Bool
  failed : Bool
  /-- Whether its tokens are still to enter (a retry waiting for injection). -/
  waiting : Bool
  deriving DecidableEq, Repr

/-- An open stream of a source port (R138, R139). -/
structure Stream where
  idem : Bool
  retry : Nat
  strs : Bool
  desc : Desc
  rows : Nat
  nextRow : Nat
  eos : Bool
  eosDone : Bool
  /-- STRS tokens issued and not yet in the link, with the word that waits. -/
  waiting : List (Tok × Nat × Nat)
  /-- Accesses of the thread before the STRM (R259). -/
  after : List (Nat × Nat)
  /-- The port block as it was captured (R137, R331). -/
  block : List Byte := []
  deriving DecidableEq, Repr

/-- An outstanding TAKE (R140), with the data tokens it has still to take. -/
structure TakeSt where
  agent : Nat
  pend : Nat
  desc : Desc
  count : Nat
  list : Word
  written : Nat
  /-- The port block as it was captured (R137, R331). -/
  block : List Byte := []
  deriving DecidableEq, Repr

/-- An outstanding DRAIN (R141); the fabric manager's own has no agent (R143). -/
structure DrainSt where
  agent : Option Nat
  pend : Nat
  cap : Nat
  list : Word
  /-- STRS tokens issued before it and not yet in the link, by the word that waits (R141). -/
  ahead : List (Nat × Nat) := []
  /-- The port block as it was captured (R137, R331). -/
  block : List Byte := []
  deriving DecidableEq, Repr

/-- A port of a region (R136, R365): the next item number, its stream, the items numbered
since the last DRAIN in order, those finally failed (with row and last attempt number),
unresolved attempts in injection order, and the outstanding TAKEs and DRAINs. -/
structure Port where
  next : Nat
  stream : Option Stream
  numbered : List Nat
  failed : List (Nat × Option Nat × Nat)
  attempts : List Attempt
  takes : List TakeSt
  drains : List DrainSt
  deriving DecidableEq, Repr

/-- A record of a region's error queue (R152). -/
structure ErrRec where
  cause : Nat
  port : Nat
  item : Nat
  node : Nat
  loopIdx : Nat
  tbLow : Nat
  skip : Bool
  final : Bool
  attempt : Nat
  lost : Nat
  deriving DecidableEq, Repr

/-- A breakpoint slot (R156). -/
structure Brk where
  node : Nat
  anyLoop : Bool
  anyItem : Bool
  loop : Nat
  item : Nat
  deriving DecidableEq, Repr

/-- The active trace of a region (R155, R390). -/
structure Trace where
  buf : Word
  len : Nat
  firings : Bool
  excess : Bool
  wrap : Bool
  written : Nat
  stopped : Bool
  trans : Trans
  /-- Records that were late and that no gap record yet counts (R390). -/
  gap : Nat := 0
  deriving DecidableEq, Repr

/-- A block queue (R312): its tokens with the TB each was queued at, oldest first, and HEAD. -/
structure BlockQ where
  toks : List (Wide × Nat)
  head : Nat
  deriving DecidableEq, Repr

/-- Block mode of a region (R135, R311 to R315). -/
structure BlockMode where
  agent : Nat
  pend : Nat
  nblk : Nat
  age : Nat
  cap : Nat
  imgtab : List Word
  qbase : Word
  queues : List BlockQ
  /-- The block loaded, if any; the load in progress, if any; the block chosen and not yet run. -/
  block : Option Nat
  load : Option Nat
  choice : Option Nat
  next : Nat
  nbv : Nat
  trans : Trans
  /-- The TENTRY tiles of the image loaded, and the tokens of its run that have no number yet (R266,
  R313). -/
  entries : List Nat := []
  rest : List Wide := []
  deriving DecidableEq, Repr

/-- A wave with operations performed (R260, R287): item, ports, loop index, the own and
successor of the operation performed last. -/
structure Wave where
  item : Nat
  srcs : List Nat
  loopIdx : Nat
  own : Nat
  succ : Nat
  /-- The context of the operation performed last (R308). -/
  ctx : Nat := 0
  deriving DecidableEq, Repr

/-- A region of a launch (R30): rectangle; state 0 empty, 1 running, 2 frozen; the cause of
the freeze and its breakpoint slot (R392); whether quiescence is awaited (R327); error queue,
breakpoints, trace, hang timer, ports, block mode, waves. -/
structure Region where
  cluster : Nat
  x0 : Nat
  y0 : Nat
  rows : Nat
  cols : Nat
  image : Word
  state : Nat
  cause : Nat
  slot : Nat
  quiet : Bool
  tbFrz : Nat
  /-- Frozen because package power reached the ballast floor, or for a launch that waits for the clusters (R316). -/
  floorFrz : Bool
  errq : List ErrRec
  lost : Nat
  brks : AMap Brk
  trace : Option Trace
  /-- TB from which the hang timer counts, and TB of the last activity (R323, R325). -/
  timer : Nat
  tbAct : Nat
  ports : AMap Port
  block : Option BlockMode
  waves : List Wave
  deriving DecidableEq, Repr

/-- Where a load reports (R133, R146, R304, R307, R315). -/
inductive LoadFor where
  | word (t p : Nat)
  | placement
  | trigger (status : Word)
  | creq (g x y c : Nat)
  | block
  deriving DecidableEq, Repr

/-- A load in a fabric manager's order (R306): what it loads, the words as read, the tiles that
have staged it, and, once it is decided and still to be reported, its cause and index. -/
structure Load where
  launch : Nat
  region : Nat
  report : LoadFor
  image : Word
  restore : Bool
  nbv : Nat
  trans : Trans
  prio : Nat
  accepted : Bool
  words : List Nat
  /-- Words that could not be read or that an error struck: index, cause (R304, R372). -/
  reads : List (Nat × Nat)
  fault : Option (Nat × Nat)
  staged : List Nat
  deriving DecidableEq, Repr

/-- A captured spawn block (R142). -/
structure Spawn where
  entry : Word
  region : Nat
  cluster : Nat
  params : List Word
  deriving DecidableEq, Repr

/-- A launch (R29, R298 to R305): state 0 queued, 1 running, 2 completed, 3 partial, 4 refused,
5 evicted; what it captured; its pauses; its waiting; the threads of an evicted launch, with what
the device keeps of them beside their records (R334). -/
structure Launch where
  part : Nat
  prio : Nat
  pword : Nat
  trans : Trans
  status : Word
  save : Word
  spawns : List Spawn
  regions : List Region
  state : Nat
  placing : Bool
  /-- Regions whose load of the placement has been queued (R304). -/
  placed : Nat := 0
  /-- Threads issue nothing: PAUSE or EVICT, or the power floor (R316). -/
  paused : Bool
  floor : Bool
  /-- The pause is that of a ballast launch whose clusters another launch waits for (R316). -/
  preempted : Bool := false
  /-- The STATE written when it ends: 2, 3 after a bridge failure (R301), 5 (R316). -/
  final : Nat
  /-- The last thread has exited; its streams drain (R143). -/
  ending : Bool
  saved : Bool
  kept : AMap Thread
  saveTrans : Trans
  since : Nat
  asked : List Nat
  deriving DecidableEq, Repr

/-- What is inside the die bridges on a hop of a held circuit route (R374): the tile, context and side of
the sending hop, its launch, and a token on its way out or an anti-token on its way back. -/
structure Crossing where
  launch : Nat
  g : Nat
  x : Nat
  y : Nat
  c : Nat
  side : Nat
  tok : Option Tok
  anti : Option Mark
  deriving DecidableEq, Repr

/-! ## Partitions and the package -/

/-- A physical range of a partition (R337). -/
structure Range where
  base : Nat
  len : Nat
  exported : Bool
  deriving DecidableEq, Repr

/-- A partition's effective entry (R337). -/
structure PartEntry where
  valid : Bool
  vmid : Nat
  holdPri : Nat
  share : Nat
  cores : Nat
  clusters : Nat
  tdt : Nat
  ranges : List Range
  deriving DecidableEq, Repr

/-- A partition: its entry, its registers (R412) and what its queues hold back. -/
structure Part where
  entry : PartEntry
  trqBase : Word
  trqHead : Nat
  trqTail : Nat
  trqTrans : Trans
  /-- The last record write faulted: none is retried until TRQ.BASE is written (R413). -/
  trqStuck : Bool
  einjNode : Nat
  einjCause : Nat
  einjMode : Nat
  einjItem : Nat
  einjHits : Nat
  hangInt : Nat
  hangBase : Word
  hangs : Nat
  hangNext : Nat
  hangTrans : Trans
  pqLimit : Nat
  walkLimit : Nat
  /-- PM, 64 bytes (R356). -/
  pm : List Byte
  jobRecs : List JobRec
  /-- Failed items queued to the partition OS (R143): launch, region, port, item. -/
  failedItems : List (Nat × Nat × Nat × Nat)
  deriving DecidableEq, Repr

/-- An entry of the hold-up record (R383) with the bytes and the seal in the keep store. -/
structure DirEnt where
  typ : Nat
  state : Nat
  begun : Bool
  poison : Bool
  hyp : Bool
  part : Nat
  thread : Nat
  va : Word
  len : Nat
  tbCut : Nat
  pages : List (Nat × Nat)
  bytes : List Byte
  sealed : List Byte
  deriving DecidableEq, Repr

/-- Hold-up (R377 to R384): registers, phase of the sequence (0 none, 1 detected, 2 trapped, 3
cut), and the record. -/
structure HoldUp where
  budget : Nat
  hyp : Nat
  resBoot : Nat
  res : Nat
  phase : Nat
  cause : Nat
  die : Nat
  tb : Nat
  record : List DirEnt
  recCause : Nat
  admitted : Nat
  /-- The launches placed at detection: partition and status VA (R383). -/
  placed : List (Nat × Word) := []
  deriving DecidableEq, Repr

/-- Heat (R385, R386): readings by 18 * die + sensor in 1/16 °C, maxima since last read, levels
of dies and bands of stacks, throttle steps, warning point and events. -/
structure Heat where
  now : AMap Int
  max : AMap Int
  level : AMap Nat
  band : AMap Nat
  steps : AMap Nat
  warn : Nat
  evWarn : Nat
  evThr : Nat
  evCrit : Nat
  deriving DecidableEq, Repr

/-- Power (R387); energy in tenths of a mJ. -/
structure Power where
  now : Nat
  limit : Nat
  floor : Nat
  pcap : Bool
  steps : Nat
  energy : Nat
  deriving DecidableEq, Repr

/-- Wear of one die (R388): samples, newest first, of slowdown, corrected errors, margin. -/
structure Wear where
  eol : Nat
  roLast : Nat
  roRate : Int
  ue : Nat
  ce : Nat
  margin : Nat
  samples : List (List Nat)
  deriving DecidableEq, Repr

/-- Record mode (R393, R394): registers, log bytes written, and the replay position. -/
structure Rec where
  ctl : Nat
  base : Word
  len : Word
  div : Bool
  ovf : Bool
  mode : Nat
  written : Nat
  /-- The replay is over: it diverged, or its log ended (R395). -/
  ended : Bool
  /-- The counter of free values as the recorded run began, which a replay begins with again (log 130). -/
  seed : Nat := 0
  deriving DecidableEq, Repr

/-- The keep store's boot area and the fuses (R355): the first stage's key, signature and
bytes, and the fused digest. -/
structure Boot where
  key : List Byte
  sig : List Byte
  stage : Option (List Byte)
  fuse : List Byte
  stat : Nat
  deriving DecidableEq, Repr

/-- SPDM sessions and responses (R357): what has been negotiated on each port, open sessions
(id, port, finished), and the responses given, newest first. -/
structure Spdm where
  version : List Nat
  caps : List Nat
  algos : List Nat
  sessions : List (Nat × Nat × Bool)
  nextSession : Nat
  out : List (Nat × List Byte)
  deriving DecidableEq, Repr

/-- A scan running on a cluster (R398). -/
structure Scan where
  core : Nat
  pend : Nat
  tb : Nat
  deriving DecidableEq, Repr

/-! ## The machine -/

/-- Something that happens in its turn (log 1): an event, a turn of an agent, nothing for some
steps. -/
inductive Act where
  | ev (i : Instr)
  /-- A turn of the sequencer of thread t, or of core t. -/
  | turn (t : Nat)
  | wait (n : Nat)
  deriving DecidableEq, Repr

/-- Everything but memory. -/
structure Mach where
  /-- TB (R12) and the model's own clock: counts of TB and fabric cycles a step (log 2). -/
  tb : Nat
  pace : Nat
  cyc : Nat
  cycPace : Nat
  /-- The counter of free values (log 5). -/
  free : Nat
  /-- The scheduler (log 1). -/
  agenda : List Act
  turn : Nat
  cur : Nat
  /-- The thread that each sequencer issued from last (R17). -/
  lastTurn : AMap Nat := []
  /-- Time in ns, below 1000, by which the rate of TB is reckoned while the package joins a domain (R13). -/
  slew : Nat := 0
  /-- Live control agents by THREAD.ID (R13). -/
  thr : AMap Thread
  /-- What threads that have exited leave in their registers until the next spawn there (R404). -/
  exited : AMap Thread := []
  parts : AMap Part
  /-- Place queues by the key of the object word; generations of links by slice and link. -/
  places : AMap (List Place)
  gens : AMap Nat
  /-- Trigger bindings by counter key. -/
  trigs : AMap Trigger
  jobs : AMap Job
  nextJob : Nat
  tlbs : AMap (List TlbEntry)
  tlbis : AMap Tlbi
  nextTlbi : Nat
  launches : AMap Launch
  nextLaunch : Nat
  loads : AMap Load
  nextLoad : Nat
  clusters : AMap Cluster
  /-- Status words of R199 of engines whose region has been released, by 8g + e: one stands until the next
  commit of a region with that engine. -/
  keptStat : AMap Nat := []
  /-- What is inside die bridges on held circuit routes, oldest first (R374). -/
  crossings : List Crossing
  scans : AMap Scan
  /-- Registers of the package (R336, R339, R353, R356, R333, R373, R399). -/
  hptBase : Nat
  hptStat : Nat
  coreSel : Nat
  coreRun : Nat
  hostBase : Nat
  hostLen : Nat
  hostPart : Nat
  meas : List (List Byte)
  preWait : Nat
  brgFailed : Nat
  brgEvents : Nat
  brgTb : Nat
  /-- Failed bridges whose detours are not yet in place (R374). -/
  brgWait : List Nat
  /-- Requests from outside that wait for a detour, oldest first (R374). -/
  inbound : List Inbound := []
  clmap : Nat
  injArm : Bool
  injG : Nat
  hold : HoldUp
  heat : Heat
  power : Power
  wear : AMap Wear
  record : Rec
  boot : Boot
  spdm : Spdm
  /-- Far-memory ranges with a device behind them and packages of the domain (R341); answers
  given to the host and to other packages (R353, R354), newest first: data, or none where the
  request was refused. -/
  farPorts : Nat
  packages : List Nat
  own : Nat
  joinTb : Option Nat
  hostOut : List (Option (List Byte))
  domainOut : List (Option (List Byte))
  deriving DecidableEq, Repr

/-- The state: memory, the byte keys whose data carries an uncorrectable error (R363, rising),
and the rest. -/
structure State where
  mem : Memory
  bad : List Nat
  m : Mach
  deriving DecidableEq, Repr

/-- Why the machine stops with a fault. -/
inductive Fault where
  /-- Raised by a control word when no control agent is there to execute it (`cur` names no
  live agent). Safe: the scheduler of `step` never lets it happen. -/
  | noAgent
  deriving DecidableEq, Repr

/-- Why an instruction has no meaning here. -/
inductive Refusal where
  /-- Raised by an arm of exec that has no meaning yet. Safe: the machine stops. -/
  | notModelled (mnemonic : String)
  deriving DecidableEq, Repr

/-! ## Reset -/

/-- A trap set at reset (R160). -/
def TrapSet.zero : TrapSet := { prev := 0, cause := 0, pc := 0, val := 0, vec := 0 }

/-- A system core's registers as it starts (R339): at H. -/
def CoreRegs.start (httb : Nat) : CoreRegs :=
  { h := true, sSet := .zero, hSet := .zero, soft := false, event := false, bridge := false,
    inten := 0xF, ttb := 0, asid := 0, httb := httb, tlbVmid := 0, psel := 16, rctlArg := 0,
    rctlArea := 0, rctlBytes := 0, rctlStat := 0, holdIdx := 0, xstat := 0, measIdx := 0,
    thDie := 0, thSensor := 0, wearSel := 0, atVector := false }

/-- A control agent as it starts (R85, R106, R142, R339). -/
def Thread.start (pc : Word) (sys : Option CoreRegs) : Thread :=
  { regs := Vector.replicate 32 0, conds := 0, pc := pc, loops := [], pend := [], nextPend := 0,
    poison := [], slotPoison := [], nbv := 0, launch := 0, region := 0, groups := [],
    jobTag := 0, saves := [], yielded := false, waits := none, run := .ready, parks := [], sys := sys }

/-- A core's own translation, before anything is written. -/
def Trans.none : Trans :=
  { ttb := 0, asid := 0, vmid := 0xFF, priv := .h, cluster := Option.none, part := Option.none,
    scratch := Option.none }

/-- Sixty-four zero bytes: a measurement register at reset (R355). -/
def zeros64 : List Byte := List.replicate 64 0

/-- A partition at reset: its entry invalid (R338), its registers at their reset values. -/
def Part.init : Part :=
  { entry := { valid := false, vmid := 0, holdPri := 0, share := 0, cores := 0, clusters := 0,
               tdt := 0, ranges := [] },
    trqBase := 0, trqHead := 0, trqTail := 0, trqTrans := .none, trqStuck := false,
    einjNode := 0, einjCause := 0, einjMode := 0, einjItem := 0, einjHits := 0,
    hangInt := 0x000F4240, hangBase := 0, hangs := 0, hangNext := 0, hangTrans := .none,
    pqLimit := 8192, walkLimit := 32, pm := zeros64, jobRecs := [], failedItems := [] }

/-- Wear registers at reset (R388). -/
def Wear.init : Wear :=
  { eol := 0xFFFFFFFF, roLast := 0, roRate := 0, ue := 0, ce := 0, margin := 0, samples := [] }

/-- The machine right after package reset (R5, R12, R338, R339): core 0 of N runs at H with PC
0 (log 4), every partition entry is invalid, memory lists nothing (log 3). -/
def State.reset : State :=
  { mem := [], bad := [],
    m :=
      { tb := 0, pace := 1, cyc := 0, cycPace := 1, free := 0, agenda := [], turn := 0, cur := 1536,
        thr := [(1536, Thread.start 0 (some (CoreRegs.start 0)))], parts := [], places := [],
        gens := [], trigs := [], jobs := [], nextJob := 0, tlbs := [], tlbis := [],
        nextTlbi := 0, launches := [], nextLaunch := 0, loads := [], nextLoad := 0,
        clusters := [], crossings := [], scans := [], hptBase := 0, hptStat := 0, coreSel := 0, coreRun := 1,
        hostBase := 0, hostLen := 0, hostPart := 0, meas := List.replicate 8 zeros64,
        preWait := 0x000186A0, brgFailed := 0, brgEvents := 0, brgTb := 0, brgWait := [],
        clmap := 2 ^ 192 - 1, injArm := false, injG := 0,
        hold := { budget := 671088640, hyp := 0, resBoot := 30000, res := 30000, phase := 0,
                  cause := 0, die := 0, tb := 0, record := [], recCause := 0, admitted := 0 },
        heat := { now := [], max := [], level := [], band := [], steps := [], warn := 100,
                  evWarn := 0, evThr := 0, evCrit := 0 },
        power := { now := 0, limit := 4400, floor := 0, pcap := false, steps := 0, energy := 0 },
        wear := [],
        record := { ctl := 0, base := 0, len := 0, div := false, ovf := false, mode := 0,
                    written := 0, ended := false },
        boot := { key := [], sig := [], stage := none, fuse := zeros64, stat := 0 },
        spdm := { version := [], caps := [], algos := [], sessions := [], nextSession := 1,
                  out := [] },
        farPorts := 0, packages := [0], own := 0, joinTb := none, hostOut := [],
        domainOut := [] } }

end Sys2Proof.Machine
end

