-- ==== Sys2Proof/Machine/Ops.lean ====
section
/-!
DEFINITION. The named operations every meaning is written over: sparse maps, memory, the
workspace a meaning works in, registers and the loop stack, and taking and returning from a
trap.
-/

namespace Sys2Proof.Machine

/-! ## Sparse maps -/

/-- What a key holds. -/
def aget {α : Type} : AMap α → Nat → Option α
  | [], _ => none
  | (j, v) :: r, k => if j = k then some v else aget r k

/-- A key's value replaced or put in order. -/
def aset {α : Type} : AMap α → Nat → α → AMap α
  | [], k, v => [(k, v)]
  | (j, u) :: r, k, v =>
    if k < j then (k, v) :: (j, u) :: r
    else if k = j then (k, v) :: r
    else (j, u) :: aset r k v

/-- A key taken out. -/
def aerase {α : Type} (m : AMap α) (k : Nat) : AMap α := m.filter (fun p => p.1 != k)

/-- What a key holds, or a value for an absent key. -/
def agetD {α : Type} (m : AMap α) (k : Nat) (d : α) : α := (aget m k).getD d

/-- A present key's value changed. -/
def amod {α : Type} (m : AMap α) (k : Nat) (f : α → α) : AMap α :=
  match aget m k with
  | some v => aset m k (f v)
  | none => m

/-- The first entry that a test accepts. -/
def afind {α : Type} (m : AMap α) (f : Nat → α → Bool) : Option (Nat × α) :=
  m.find? (fun p => f p.1 p.2)

/-- Element k of a list, or a default. -/
def nth {α : Type} (l : List α) (k : Nat) (d : α) : α := l.getD k d

/-- Element k of a list changed. -/
def modNth {α : Type} : List α → Nat → (α → α) → List α
  | [], _, _ => []
  | x :: r, 0, f => f x :: r
  | x :: r, k + 1, f => x :: modNth r k f

/-- Union of two lists of numbers without repeats. -/
def union (a c : List Nat) : List Nat := a ++ c.filter (fun x => !a.contains x)

/-! ## Memory -/

/-- The form every memory has: keys strictly rising, no byte that an unlisted key reads as. -/
abbrev Memory.wf (m : Memory) : Prop :=
  m.Pairwise (fun x y => x.1 < y.1) ∧ ∀ c ∈ m, c.2 ≠ 0

/-- One byte; an unlisted key reads 0 (log 3). -/
def Memory.read : Memory → Nat → Byte
  | [], _ => 0
  | (j, v) :: r, a => if a < j then 0 else if a = j then v else Memory.read r a

/-- n bytes from a key, in one pass. -/
def Memory.run : Nat → Nat → Memory → List Byte
  | 0, _, _ => []
  | n + 1, a, m =>
    let r := m.dropWhile (fun c => c.1 < a)
    Memory.read r a :: Memory.run n (a + 1) r

/-- A byte put before entries of higher keys; a 0 is not listed. -/
def Memory.cons (a : Nat) (v : Byte) (m : Memory) : Memory := if v = 0 then m else (a, v) :: m

/-- A byte written where it belongs; f makes what follows it. -/
def Memory.insert (f : Memory → Memory) (a : Nat) (v : Byte) : Memory → Memory
  | [] => Memory.cons a v (f [])
  | (j, u) :: r =>
    if j < a then (j, u) :: Memory.insert f a v r
    else Memory.cons a v (f (if j = a then r else (j, u) :: r))

/-- One byte written, in the canonical form. -/
def Memory.write (m : Memory) (a : Nat) (v : Byte) : Memory := Memory.insert id a v m

/-- Bytes of rising keys written. -/
def Memory.merge : List (Nat × Byte) → Memory → Memory
  | [], m => m
  | (a, v) :: r, m => Memory.insert (Memory.merge r) a v m

/-- An older write takes its place among newer ones, unless a newer one has its key. -/
def older : List (Nat × Byte) → Nat × Byte → List (Nat × Byte)
  | [], p => [p]
  | q :: r, p => if p.1 < q.1 then p :: q :: r else if p.1 = q.1 then q :: r else q :: older r p

/-- The writes of a log, newest first, done at once. -/
def Memory.applyLog (m : Memory) (log : List (Nat × Byte)) : Memory := Memory.merge (log.foldl older []) m

/-! ## The workspace of a meaning -/

/-- Memory that a loss of supply to the package leaves: the host's, and that of the domain (R341). -/
def survives (k : Nat) : Bool := 0x4000000000000 ≤ k && k < 0xC000000000000

/-- What a meaning works on: everything but memory, the memory it started from, the bytes it
has written (newest first), the poisoned bytes, and whether the package's memory has lost its
supply. -/
structure Work where
  m : Mach
  base : Memory
  log : List (Nat × Byte)
  bad : List Nat
  wiped : Bool

/-- The workspace of a state. -/
def State.work (s : State) : Work := { m := s.m, base := s.mem, log := [], bad := s.bad, wiped := false }

/-- The state a workspace leaves: its writes applied to the memory the step began with. -/
def State.commit (s : State) (w : Work) : State :=
  { mem := Memory.applyLog (if w.wiped then s.mem.filter (fun c => survives c.1) else s.mem) w.log, bad := w.bad, m := w.m }

/-- The outcome of an event: the state its workspace leaves. -/
def State.event (s : State) (f : Work → Work) : Host.Outcome State Fault Refusal :=
  .next (s.commit (f s.work))

/-- A byte as the workspace sees it. -/
def Work.byte (w : Work) (a : Nat) : Byte :=
  match aget w.log a with
  | some v => v
  | none => if w.wiped && !survives a then 0 else w.base.read a

/-- A byte written; a store replaces a poisoned byte (R372). -/
def Work.putByte (w : Work) (a : Nat) (v : Byte) : Work :=
  { w with log := (a, v) :: w.log, bad := w.bad.filter (· != a) }

/-- n bytes from a key as a little-endian number (R2). -/
def Work.read (w : Work) (a : Nat) : Nat → Nat
  | 0 => 0
  | n + 1 => (w.byte a).toNat + 256 * Work.read w (a + 1) n

/-- The low n bytes of a number written from a key (R2). -/
def Work.write (w : Work) (a : Nat) : Nat → Nat → Work
  | 0, _ => w
  | n + 1, v => Work.write (w.putByte a (BitVec.ofNat 8 v)) (a + 1) n (v / 256)

/-- n bytes from a key. -/
def Work.bytes (w : Work) (a n : Nat) : List Byte :=
  if w.log.isEmpty && !w.wiped then Memory.run n a w.base else (List.range n).map (fun k => w.byte (a + k))

/-- Bytes written from a key. -/
def Work.putBytes (w : Work) (a : Nat) : List Byte → Work
  | [] => w
  | v :: r => Work.putBytes (w.putByte a v) (a + 1) r

/-- Whether any of n bytes from a key carries an uncorrectable error. -/
def Work.poisoned (w : Work) (a n : Nat) : Bool := w.bad.any (fun k => a ≤ k && k < a + n)

/-- A number put into a rising list. -/
def insertKey (a : Nat) : List Nat → List Nat
  | [] => [a]
  | c :: r => if a < c then a :: c :: r else if a = c then c :: r else c :: insertKey a r

/-- n bytes from a key carry an uncorrectable error. -/
def Work.mark (w : Work) (a n : Nat) : Work :=
  { w with bad := (List.range n).foldl (fun l i => insertKey (a + i) l) w.bad }

/-- A list of bytes as a little-endian number. -/
def ofBytes : List Byte → Nat
  | [] => 0
  | v :: r => v.toNat + 256 * ofBytes r

/-- The low n bytes of a number, lowest first. -/
def toBytes : Nat → Nat → List Byte
  | 0, _ => []
  | n + 1, v => BitVec.ofNat 8 v :: toBytes n (v / 256)

/-- The next free value's counter, and the counter advanced (log 5). -/
def Work.fresh (w : Work) : Nat × Work := (w.m.free, { w with m := { w.m with free := w.m.free + 1 } })

/-- Everything but memory changed. -/
def Work.mach (w : Work) (f : Mach → Mach) : Work := { w with m := f w.m }

/-! ## Registers -/

/-- g[r]; g0 reads 0 (R85). -/
def Thread.g (t : Thread) (r : Reg) : Word := if r = 0 then 0 else t.regs[r.toNat]'r.isLt

/-- g[r] written; a write to g0 is discarded (R85), and a write removes a poison mark (R105). -/
def Thread.setG (t : Thread) (r : Reg) (v : Word) : Thread :=
  if r = 0 then t
  else
    { t with
      regs := t.regs.set r.toNat v r.isLt
      poison := aerase t.poison r.toNat
      slotPoison := t.slotPoison.filter (fun p => p.1 % 32 != r.toNat) }

/-- c[k] (R85). -/
def Thread.c (t : Thread) (k : CReg) : Bool := t.conds.getLsbD k.toNat

/-- c[k] written. -/
def Thread.setC (t : Thread) (k : CReg) (v : Bool) : Thread :=
  { t with conds := if v then t.conds ||| BitVec.twoPow 8 k.toNat
                    else t.conds &&& ~~~(BitVec.twoPow 8 k.toNat) }

/-- The privilege the agent runs at (R27, R159). -/
def Thread.priv (t : Thread) : Priv :=
  match t.sys with
  | none => .u
  | some c => if c.h then .h else .s

/-- A slot is busy while a word that set it is outstanding (R106). -/
def Thread.busy (t : Thread) (k : BitVec 3) : Bool := k != 0 && t.pend.any (fun p => p.set == k.toNat)

/-- The agent issues nothing until one of its words is complete (R113, R154, R328). -/
def Thread.held (t : Thread) : Bool := t.pend.any (·.holds)

/-- A register is the destination of an outstanding word (R37). -/
def Thread.awaits (t : Thread) (r : Reg) : Bool := r != 0 && t.pend.any (fun p => p.dest == some r)

/-- Whether a word that reads and writes these registers may issue: an interlock holds it
(R37), a poisoned register it reads traps with cause 0x11 (R105). -/
inductive Issue where
  | go
  | hold
  | poison (va : Word)
  deriving DecidableEq, Repr

/-- The load VA of the first poisoned register read. -/
def Thread.poisoned (t : Thread) : List Reg → Option Word
  | [] => none
  | r :: rs => if r = 0 then Thread.poisoned t rs else
    match aget t.poison r.toNat with
    | some va => some va
    | none => Thread.poisoned t rs

/-- The load VA of a poisoned load that set slot k, for a wait on the slot (R105): keys are
32 * slot + register, and a load into g0 leaves its mark here alone (log 26). -/
def Thread.slotPoisoned (t : Thread) (k : Nat) : Option Word :=
  if k = 0 then none
  else (t.slotPoison.find? (fun p => p.1 / 32 == k &&
    (p.1 % 32 == 0 || (aget t.poison (p.1 % 32)).isSome))).map (·.2)

/-- The marks a wait on slot k has reported: a register's own mark stands, g0's is spent. -/
def Thread.spendSlot (t : Thread) (k : Nat) : Thread :=
  { t with slotPoison := aerase t.slotPoison (32 * k) }

/-- The test of R37 and R105 for a word that reads and writes the registers given. -/
def Thread.issue (t : Thread) (reads writes : List Reg) : Issue :=
  if (reads ++ writes).any t.awaits then .hold
  else match t.poisoned reads with
    | some va => .poison va
    | none => .go

/-! ## The program counter and the loop stack -/

/-- End processing of the word at e (R98): the next PC and the stack it leaves. -/
def endProcess (e : Word) : List LoopEnt → Word × List LoopEnt
  | [] => (e + 4, [])
  | l :: r =>
    if l.fin = e then
      if 1 < l.left.toNat then (l.start, { l with left := l.left - 1 } :: r)
      else endProcess e r
    else (e + 4, l :: r)

/-- The word at e completes without a taken branch. -/
def Thread.endAt (t : Thread) (e : Word) : Thread :=
  { t with pc := (endProcess e t.loops).1, loops := (endProcess e t.loops).2 }

/-- The word at PC completes without a taken branch (R98). -/
def Thread.advance (t : Thread) : Thread := t.endAt t.pc

/-- The stack a taken branch to a target leaves (R99). -/
def popTo (target : Word) : List LoopEnt → List LoopEnt
  | [] => []
  | l :: r =>
    if target.toNat < l.start.toNat ∨ l.fin.toNat < target.toNat then popTo target r else l :: r

/-- A taken branch (R96, R99). -/
def Thread.branch (t : Thread) (target : Word) : Thread :=
  { t with pc := target, loops := popTo target t.loops }

/-! ## Traps -/

/-- The trap set a core enters with written, and the core continues at its vector (R159,
R160). -/
def TrapSet.enter (x : TrapSet) (prev cause : Nat) (pc val : Word) : TrapSet :=
  { x with prev := prev, cause := cause, pc := pc, val := val }

/-- Taking a trap at a level (R159, R160): TRAP.CAUSE gets the cause and the privilege the core
was at, TRAP.PC and TRAP.VAL the values given, and the core continues at the level's
TRAP.VEC. The core has one loop stack, which entry and RETT leave as it is (DEDUCED, log 159). -/
def Thread.enter (t : Thread) (c : CoreRegs) (toH : Bool) (cause : Nat) (pc val : Word) : Thread :=
  let prev := if c.h then 2 else 1
  if toH then
    { t with
      pc := c.hSet.vec
      waits := none
      sys := some { c with h := true, hSet := c.hSet.enter prev cause pc val, atVector := true } }
  else
    { t with
      pc := c.sSet.vec
      waits := none
      sys := some { c with h := false, sSet := c.sSet.enter prev cause pc val, atVector := true } }

/-- A sequencer thread parked (R159, R411): its PC, the cause and the value go into its record.
A word that still waits is abandoned: it stands at PC and issues again (R115). -/
def Thread.park (t : Thread) (cause : Nat) (pc val : Word) (tb : Nat) : Thread :=
  { t with run := .parked cause pc val tb none false, waits := none }

/-- A CWAIT that a value has satisfied stays satisfied (R114): its word is complete before anything parks the
thread (R411). -/
def Thread.passWait (t : Thread) : Thread :=
  if t.waits.any (·.met) then { t with waits := none }.advance else t

/-- Taking a trap: one operation for every cause that an agent's own word raises. A sequencer
thread is parked; a core at H enters H, HENT enters H, every other trap of a core at S enters
S (R159). `pc` is where the record or TRAP.PC points: the trapping word, or the next word after
TRAP and HENT (R158). -/
def Thread.trap (t : Thread) (cause : Nat) (pc val : Word) (tb : Nat) : Thread :=
  match t.sys with
  | none => { t.park cause pc val tb with pc := pc }
  | some c => t.enter c (c.h || cause == 0x09) cause pc val

/-- RETT (R158): PC from TRAP.PC of the current level and the privilege PREV names; none where
the privilege may not be resumed, with the cause raised. -/
def Thread.rett (t : Thread) (c : CoreRegs) : Except Nat Thread :=
  let x := if c.h then c.hSet else c.sSet
  if x.prev = 1 then .ok { t with pc := x.pc, sys := some { c with h := false, atVector := false } }
  else if x.prev = 2 then
    if c.h then .ok { t with pc := x.pc, sys := some { c with atVector := false } } else .error 0x06
  else .error 0x01

/-! ## Control words -/

/-- Why a control word does not complete: a trap with its cause and TRAP.VAL that names the
word itself or the word after it, or the agent is held and issues the word again. -/
inductive Stop where
  | trap (cause : Nat) (val : Word)
  | trapAfter (cause : Nat) (val : Word)
  | hold
  deriving DecidableEq, Repr

/-- The body of a control word: it changes the workspace, or stops with nothing changed (R81) but what its
workspace shows to have come through a port (State.kept). -/
abbrev Ctl := StateT Work (Except (Stop × Work))

/-- The word stops. -/
def Ctl.stop {α : Type} (e : Stop) : Ctl α := fun w => .error (e, w)

/-- A trap that names the word (R81). -/
def Ctl.trap {α : Type} (cause : Nat) (val : Word) : Ctl α := Ctl.stop (.trap cause val)

/-- The agent is held; the word issues again. -/
def Ctl.hold {α : Type} : Ctl α := Ctl.stop .hold

/-- The workspace changed. -/
def Ctl.upd (f : Work → Work) : Ctl Unit := fun w => .ok ((), f w)

/-- A thread put into the workspace. -/
def Work.putThr (w : Work) (k : Nat) (t : Thread) : Work :=
  { w with m := { w.m with thr := aset w.m.thr k t } }

/-- A live thread changed. -/
def Work.modThr (w : Work) (k : Nat) (f : Thread → Thread) : Work :=
  { w with m := { w.m with thr := amod w.m.thr k f } }

/-- The acting agent changed. -/
def Ctl.me (f : Thread → Thread) : Ctl Unit := fun w => .ok ((), w.modThr w.m.cur f)

/-- A state with one thread put. -/
def State.putThr (s : State) (k : Nat) (t : Thread) : State :=
  { s with m := { s.m with thr := aset s.m.thr k t } }

/-- The acting agent. -/
def State.me (s : State) : Option Thread := aget s.m.thr s.m.cur

/-- What stays of an attempt v that comes to nothing: what has arrived through a port on its way, the bytes and
the position of the log in record mode and replay (R394, R395), and then the leaves that its walks have found. -/
def Work.keeping (w v : Work) : Work :=
  if v.m.record = w.m.record then w
  else
    let r := w.m.record
    let at_ := r.base.toNat + r.written
    let new := if r.mode = 1 then v.bytes at_ (v.m.record.written - r.written) else []
    { w.putBytes at_ new with m := { w.m with record := v.m.record, tlbs := v.m.tlbs } }

/-- What stays of the attempt of a word that traps or is held (R81). -/
def State.kept (s : State) (w : Work) : State :=
  if w.m.record = s.m.record then s else s.commit (s.work.keeping w)

/-- An agent's word stops: it is held, or traps (R81). -/
def State.stopped (s : State) (k : Nat) (t : Thread) : Stop → State
  | .hold => s
  | .trap cause val => s.putThr k (t.trap cause t.pc val s.m.tb)
  | .trapAfter cause val => s.putThr k (t.trap cause (t.pc + 4) val s.m.tb)

/-- A control word of the acting agent that only reads and writes its registers: it issues when
R37 and R105 allow, and then changes the thread alone. -/
def State.regWord (s : State) (reads writes : List Reg) (f : Thread → Thread) :
    Host.Outcome State Fault Refusal :=
  match s.me with
  | none => .fault .noAgent
  | some t =>
    match t.issue reads writes with
    | .hold => .next s
    | .poison va => .next (s.putThr s.m.cur (t.trap 0x11 t.pc va s.m.tb))
    | .go => .next (s.putThr s.m.cur (f t))

/-- A control word that is illegal as it stands: cause 0x01, TRAP.VAL the word (R81). -/
def State.illegal (s : State) (w : IWord) : Host.Outcome State Fault Refusal :=
  match s.me with
  | none => .fault .noAgent
  | some t => .next (s.putThr s.m.cur (t.trap 0x01 t.pc (w.setWidth 64) s.m.tb))

/-- The word an instruction is encoded as (for TRAP.VAL, R81). -/
def wordOfInstr (i : Instr) : IWord := (encode i).getD 0

/-- A control word whose operands may be ill formed (R82: cause 0x01 first). -/
def State.checked (s : State) (i : Instr) (k : Host.Outcome State Fault Refusal) :
    Host.Outcome State Fault Refusal :=
  if i.wf then k else s.illegal (wordOfInstr i)

/-! ## Privilege (R76, R82) -/

/-- A number names a register (R158). -/
def regNamed (r : Nat) : Bool :=
  r == 0 || r == 1 || r == 0x10 || r == 0x20 || (0x30 ≤ r && r ≤ 0x3A) || (0x40 ≤ r && r ≤ 0x43)
    || (0x50 ≤ r && r ≤ 0x58) || (0x60 ≤ r && r ≤ 0x65) || (0x70 ≤ r && r ≤ 0x74) || (0x80 ≤ r && r ≤ 0x84)
    || (0x86 ≤ r && r ≤ 0x89) || (0x90 ≤ r && r ≤ 0x94) || r == 0xA0 || (0xB0 ≤ r && r ≤ 0xB8)
    || (0xC0 ≤ r && r ≤ 0xCA) || (0xD0 ≤ r && r ≤ 0xD5) || (0xE0 ≤ r && r ≤ 0xE3) || (0xF0 ≤ r && r ≤ 0xF3)
    || (0x100 ≤ r && r ≤ 0x147)

/-- A register that U may read (R76). -/
def regAtU (r : Nat) : Bool := r == 0 || r == 1 || r == 0x10 || r == 0x20

/-- A register that only H reaches: the S set under its second numbers, H.TTB and TLB.VMID, the
partition table, the host window (log 43), H.PSEL, record and replay but ENT.DRAW, SCAN.INJ, and the
cores (R160, R346, R336, R412, R393, R399, R339). -/
def regAtH (r : Nat) : Bool :=
  (0x34 ≤ r && r ≤ 0x37) || r == 0x42 || r == 0x43 || (0xC0 ≤ r && r ≤ 0xC2) || (0xC4 ≤ r && r ≤ 0xC7)
    || (0xD0 ≤ r && r ≤ 0xD3) || r == 0xD5 || r == 0xE3 || (0xF0 ≤ r && r ≤ 0xF3)

/-- The cause with which an access to a register is refused at a privilege: no register first, then
permission (R158). -/
def regRefused (p : Priv) (r : Nat) (write : Bool) : Option Nat :=
  if !regNamed r then some 0x01
  else match p with
    | .u => if (if write then r == 0x10 else regAtU r) then none else some 0x06
    | .s => if regAtH r then some 0x06 else none
    | .h => none

/-- The cause with which an agent is refused a word, whatever its operands hold: a register word's number
and privilege, a system word at U (R76), a word that needs a bound region or a sequencer thread on a
system core (R132). -/
def Thread.refuses (t : Thread) : Instr → Option Nat
  | .srr _ r => regRefused t.priv r.toNat false
  | .srw _ r | .srs _ r | .src _ r => regRefused t.priv r.toNat true
  | .hent _ | .rett | .tlbi _ _ _ | .tlbw | .wfi | .scan _ _ _ _ => if t.sys.isNone then some 0x06 else none
  | .cfgl _ _ _ _ | .cfgr _ _ _ _ | .blkm _ _ _ _ | .strm _ _ _ _ _ | .strs _ _ _ _ | .take _ _ _ _ | .drain _ _ _ _
  | .rinj _ _ _ _ _ | .errd _ _ _ _ | .errc _ _ _ | .trce _ _ _ _ | .mark _ _ _ | .brk _ _ _ _ | .dump _ _ _ _ _ | .spawn _ _ _ _
  | .exit => if t.sys.isSome then some 0x06 else none
  | _ => none

/-- The shape of a control word of any kind: well-formedness, then whether its agent may execute it (R82), then the
wait and set slots and the interlock (R106, R37), then poison (R105), then its body. The body works on the acting
agent's thread as it stood at issue; `advance` says whether the word, once done, passes to the next word itself
(false: the body set PC). -/
def State.ctl (s : State) (i : Instr) (reads writes : List Reg) (set wait : BitVec 3)
    (body : Thread → Ctl Unit) : Host.Outcome State Fault Refusal :=
  match s.me with
  | none => .fault .noAgent
  | some t =>
    if !i.wf then s.illegal (wordOfInstr i)
    else match t.refuses i with
    | some cause => .next (s.putThr s.m.cur (t.trap cause t.pc ((wordOfInstr i).setWidth 64) s.m.tb))
    | none =>
      if t.busy set || t.busy wait then .next s
      else match t.slotPoisoned wait.toNat with
        | some va =>
          .next (s.putThr s.m.cur ((t.spendSlot wait.toNat).trap 0x11 t.pc va s.m.tb))
        | none =>
          match t.issue reads writes with
          | .hold => .next s
          | .poison va => .next (s.putThr s.m.cur (t.trap 0x11 t.pc va s.m.tb))
          | .go =>
            match body t s.work with
            | .ok (_, w) => .next (s.commit w)
            | .error (e, w) => .next ((s.kept w).stopped s.m.cur t e)

end Sys2Proof.Machine
end

