-- ==== Sys2Proof/Machine/Flags.lean ====
section
/-!
DEFINITION. What the condition registers are set from: the relations of CMP and CMPI and the
logic operations of CLOG. No other instruction of the part sets a flag (R85).
-/

namespace Sys2Proof.Machine

/-- The relation of CMP's cw field (R89): 0 eq, 1 ne, 2 lt, 3 ge, 4 ltu, 5 geu. -/
def cmpRel (r : BitVec 3) (x y : Word) : Bool :=
  match r.toNat with
  | 0 => x == y
  | 1 => x != y
  | 2 => x.toInt < y.toInt
  | 3 => y.toInt ≤ x.toInt
  | 4 => x.toNat < y.toNat
  | _ => y.toNat ≤ x.toNat

/-- The relation of CMPI's field [22:21] (R91): 0 eq, 1 ne, 2 lt, 3 ltu. -/
def cmpiRel (r : BitVec 2) (x y : Word) : Bool :=
  match r.toNat with
  | 0 => x == y
  | 1 => x != y
  | 2 => x.toInt < y.toInt
  | _ => x.toNat < y.toNat

/-- The logic operation of CLOG (R73). -/
def logicOp (o : BitVec 3) (m k : Bool) : Bool :=
  match o.toNat with
  | 0 => m && k
  | 1 => m || k
  | 2 => m ^^ k
  | 3 => m && !k
  | 4 => m || !k
  | 5 => !(m ^^ k)
  | 6 => m
  | _ => !m

end Sys2Proof.Machine
end

