-- ==== Sys2Proof/Machine/Alu.lean ====
section
/-!
DEFINITION. Majors 0x00 to 0x0C: the ALU, multiplication and division, conditions and the
immediate forms (R87 to R93). Each meaning computes one value from registers read at issue and
writes one register; the word then completes (R98).
-/

namespace Sys2Proof.Machine

/-! ## The computations -/

/-- The number of leading zero bits of x, 64 when x = 0 (R87). -/
def clz (x : Word) : Nat := if x.toNat = 0 then 64 else 63 - x.toNat.log2

/-- The number of one bits of x (R87). -/
def popc (x : Word) : Nat := (List.range 64).countP (fun k => x.getLsbD k)

/-- t[i] := x[63 - i] (R87). -/
def brev (x : Word) : Word := x.reverse

/-- 8, 16 or 32 bits (R87). -/
def extWidth (w : BitVec 3) : Nat := if w = 0 then 8 else if w = 1 then 16 else 32

/-- The low bits sign-extended (R87). -/
def sext (w : BitVec 3) (x : Word) : Word := (x.setWidth (extWidth w)).signExtend 64

/-- The low bits zero-extended (R87). -/
def zext (w : BitVec 3) (x : Word) : Word := (x.setWidth (extWidth w)).setWidth 64

/-- The shift count: bits [5:0] (R87). -/
def shamt (y : Word) : Nat := y.toNat % 64

/-- Bits [127:64] of the exact signed product (R88). -/
def mulh (x y : Word) : Word := BitVec.ofInt 64 ((x.toInt * y.toInt) / 2 ^ 64)

/-- Bits [127:64] of the exact unsigned product (R88). -/
def mulhu (x y : Word) : Word := w64 (x.toNat * y.toNat / 2 ^ 64)

/-- DIV (R88). -/
def divS (x y : Word) : Word :=
  if y.toInt = 0 then allOnes
  else if x.toInt = -2 ^ 63 ∧ y.toInt = -1 then x
  else BitVec.ofInt 64 (x.toInt.tdiv y.toInt)

/-- DIVU (R88). -/
def divU (x y : Word) : Word := if y.toNat = 0 then allOnes else w64 (x.toNat / y.toNat)

/-- REM (R88). -/
def remS (x y : Word) : Word :=
  if y.toInt = 0 then x
  else if x.toInt = -2 ^ 63 ∧ y.toInt = -1 then 0
  else BitVec.ofInt 64 (x.toInt - y.toInt * (x.toInt.tdiv y.toInt))

/-- REMU (R88). -/
def remU (x y : Word) : Word := if y.toNat = 0 then x else w64 (x.toNat % y.toNat)

/-- The smaller or larger as signed values (R87, R110). -/
def minS (x y : Word) : Word := if x.toInt ≤ y.toInt then x else y
def maxS (x y : Word) : Word := if x.toInt ≤ y.toInt then y else x

/-- The smaller or larger as unsigned values (R87, R110). -/
def minU (x y : Word) : Word := if x.toNat ≤ y.toNat then x else y
def maxU (x y : Word) : Word := if x.toNat ≤ y.toNat then y else x

/-- One 16-bit field of a word replaced (R93). -/
def putField (x : Word) (k : Nat) (v : BitVec 16) : Word :=
  (x &&& ~~~(0xFFFF#64 <<< (16 * k))) ||| (v.setWidth 64 <<< (16 * k))

/-! ## The shapes -/

/-- g[d] := f(g[a], g[b]), and the word completes. -/
def State.alu2 (s : State) (d a b : Reg) (f : Word → Word → Word) :
    Host.Outcome State Fault Refusal :=
  s.regWord [a, b] [d] (fun t => (t.setG d (f (t.g a) (t.g b))).advance)

/-- g[d] := f(g[a]), and the word completes. -/
def State.alu1 (s : State) (d a : Reg) (f : Word → Word) : Host.Outcome State Fault Refusal :=
  s.regWord [a] [d] (fun t => (t.setG d (f (t.g a))).advance)

/-! ## Major 0x00 -/

def execAdd (d a b : Reg) (s : State) := s.alu2 d a b (fun x y => x + y)
def execSub (d a b : Reg) (s : State) := s.alu2 d a b (fun x y => x - y)
def execAnd (d a b : Reg) (s : State) := s.alu2 d a b (fun x y => x &&& y)
def execOr (d a b : Reg) (s : State) := s.alu2 d a b (fun x y => x ||| y)
def execXor (d a b : Reg) (s : State) := s.alu2 d a b (fun x y => x ^^^ y)
def execAndn (d a b : Reg) (s : State) := s.alu2 d a b (fun x y => x &&& ~~~y)
def execShl (d a b : Reg) (s : State) := s.alu2 d a b (fun x y => x <<< shamt y)
def execShr (d a b : Reg) (s : State) := s.alu2 d a b (fun x y => x >>> shamt y)
def execShra (d a b : Reg) (s : State) := s.alu2 d a b (fun x y => x.sshiftRight (shamt y))
def execMin (d a b : Reg) (s : State) := s.alu2 d a b minS
def execMax (d a b : Reg) (s : State) := s.alu2 d a b maxS
def execMinu (d a b : Reg) (s : State) := s.alu2 d a b minU
def execMaxu (d a b : Reg) (s : State) := s.alu2 d a b maxU

/-- LEA: g[a] + (g[b] << cw) (R87). -/
def execLea (d a b : Reg) (sc : BitVec 3) (s : State) :=
  s.alu2 d a b (fun x y => x + (y <<< sc.toNat))

def execClz (d a : Reg) (s : State) := s.alu1 d a (fun x => w64 (clz x))
def execPopc (d a : Reg) (s : State) := s.alu1 d a (fun x => w64 (popc x))
def execBrev (d a : Reg) (s : State) := s.alu1 d a brev

/-- SEXT; widths 3 to 7 are illegal (R72). -/
def execSext (d a : Reg) (w : BitVec 3) (s : State) :=
  s.checked (.sext d a w) (s.alu1 d a (sext w))

/-- ZEXT; widths 3 to 7 are illegal (R72). -/
def execZext (d a : Reg) (w : BitVec 3) (s : State) :=
  s.checked (.zext d a w) (s.alu1 d a (zext w))

/-- CSEL: g[a] when c[cw] is 1, else g[b] (R87). -/
def execCsel (d a b : Reg) (c : CReg) (s : State) :=
  s.regWord [a, b] [d] (fun t => (t.setG d (if t.c c then t.g a else t.g b)).advance)

/-! ## Major 0x01 -/

def execMul (d a b : Reg) (s : State) := s.alu2 d a b (fun x y => x * y)
def execMulh (d a b : Reg) (s : State) := s.alu2 d a b mulh
def execMulhu (d a b : Reg) (s : State) := s.alu2 d a b mulhu
def execDiv (d a b : Reg) (s : State) := s.alu2 d a b divS
def execDivu (d a b : Reg) (s : State) := s.alu2 d a b divU
def execRem (d a b : Reg) (s : State) := s.alu2 d a b remS
def execRemu (d a b : Reg) (s : State) := s.alu2 d a b remU

/-! ## Major 0x02 and CMPI -/

/-- CMP (R89); relations 6 and 7 are illegal. -/
def execCmp (c : CReg) (a b : Reg) (r : BitVec 3) (s : State) :=
  s.checked (.cmp c a b r)
    (s.regWord [a, b] [] (fun t => (t.setC c (cmpRel r (t.g a) (t.g b))).advance))

/-- CLOG (R90): both sources are read before the write. -/
def execClog (n m k : CReg) (o : BitVec 3) (s : State) :=
  s.checked (.clog n m k o)
    (s.regWord [] [] (fun t => (t.setC n (logicOp o (t.c m) (t.c k))).advance))

/-- CMPI (R91). -/
def execCmpi (c : CReg) (r : BitVec 2) (a : Reg) (im : BitVec 16) (s : State) :=
  s.regWord [a] [] (fun t => (t.setC c (cmpiRel r (t.g a) (im.signExtend 64))).advance)

/-! ## Immediate forms -/

def execAddi (d a : Reg) (im : BitVec 16) (s : State) :=
  s.alu1 d a (fun x => x + im.signExtend 64)
def execAndi (d a : Reg) (im : BitVec 16) (s : State) := s.alu1 d a (fun x => x &&& im.setWidth 64)
def execOri (d a : Reg) (im : BitVec 16) (s : State) := s.alu1 d a (fun x => x ||| im.setWidth 64)
def execXori (d a : Reg) (im : BitVec 16) (s : State) := s.alu1 d a (fun x => x ^^^ im.setWidth 64)
def execShli (d a : Reg) (n : BitVec 6) (s : State) := s.alu1 d a (fun x => x <<< n.toNat)
def execShri (d a : Reg) (n : BitVec 6) (s : State) := s.alu1 d a (fun x => x >>> n.toNat)
def execShrai (d a : Reg) (n : BitVec 6) (s : State) :=
  s.alu1 d a (fun x => x.sshiftRight n.toNat)

/-- MOVI (R93). -/
def execMovi (d : Reg) (im : BitVec 16) (s : State) :=
  s.regWord [] [d] (fun t => (t.setG d (im.signExtend 64)).advance)

/-- MOVK: one 16-bit field of g[d] replaced (R93). -/
def execMovk (d : Reg) (k : BitVec 2) (im : BitVec 16) (s : State) :=
  s.regWord [d] [d] (fun t => (t.setG d (putField (t.g d) k.toNat im)).advance)

end Sys2Proof.Machine
end

