-- ==== Sys2Proof/Machine/Num.lean ====
section
/-!
DEFINITION. The number formats and the one rounding of an exact value (R162 to R178). A
floating operand is an exact number, an infinity or NaN; every result is that exact number
rounded once into its format.
-/

namespace Sys2Proof.Machine

/-- An exact value: NaN, an infinity, or a signed fraction n / d with d > 0 (a zero keeps its
sign, R176). -/
inductive FV where
  | nan
  | inf (neg : Bool)
  | num (neg : Bool) (n d : Nat)
  deriving DecidableEq, Repr

/-- The floating formats (R162). -/
inductive NumFmt where
  | fp16 | bf16 | fp32 | fp40 | d8
  deriving DecidableEq, Repr

/-- Exponent and fraction bits of the binary formats (R162, R165). -/
def NumFmt.eb : NumFmt → Nat
  | .fp16 => 5
  | _ => 8
def NumFmt.fb : NumFmt → Nat
  | .fp16 => 10
  | .bf16 => 7
  | .fp40 => 31
  | _ => 23

/-- Bits an element takes. -/
def NumFmt.width : NumFmt → Nat
  | .fp16 => 16
  | .bf16 => 16
  | .fp32 => 32
  | .fp40 => 40
  | .d8 => 8

/-- A signed fraction in lowest terms. -/
def mkNum (neg : Bool) (n d : Nat) : FV := .num neg (n / Nat.gcd n d) (d / Nat.gcd n d)

/-- +0. -/
def FV.zero : FV := .num false 0 1

/-- An integer as an exact value. -/
def FV.ofInt (x : Int) : FV := .num (x < 0) x.natAbs 1

def FV.neg : FV → FV
  | .nan => .nan
  | .inf s => .inf (!s)
  | .num s n d => .num (!s) n d

def FV.abs : FV → FV
  | .nan => .nan
  | .inf _ => .inf false
  | .num _ n d => .num false n d

def FV.isNan : FV → Bool
  | .nan => true
  | _ => false

def FV.isZero : FV → Bool
  | .num _ n _ => n == 0
  | _ => false

def FV.isInf : FV → Bool
  | .inf _ => true
  | _ => false

/-- A zero without its sign (R176, reducers and the matrix engine). -/
def FV.unsign : FV → FV
  | .num s n d => if n = 0 then .num false 0 1 else .num s n d
  | v => v

/-- The sum, exact (R190). `negZero` is the sign of an exact zero sum of operands of opposite
sign (R176: set under rounding 2). -/
def FV.add (negZero : Bool) : FV → FV → FV
  | .nan, _ => .nan
  | _, .nan => .nan
  | .inf s, .inf u => if s = u then .inf s else .nan
  | .inf s, _ => .inf s
  | _, .inf s => .inf s
  | .num s n d, .num u m e =>
    if s = u then mkNum s (n * e + m * d) (d * e)
    else if n * e = m * d then .num negZero 0 1
    else if m * d < n * e then mkNum s (n * e - m * d) (d * e)
    else mkNum u (m * d - n * e) (d * e)

/-- The product, exact. -/
def FV.mul : FV → FV → FV
  | .nan, _ => .nan
  | _, .nan => .nan
  | .inf s, .inf u => .inf (s != u)
  | .inf s, .num u n _ => if n = 0 then .nan else .inf (s != u)
  | .num u n _, .inf s => if n = 0 then .nan else .inf (s != u)
  | .num s n d, .num u m e => mkNum (s != u) (n * m) (d * e)

/-- Multiplied by 2^k (R178). -/
def FV.scale (v : FV) (k : Int) : FV :=
  match v with
  | .num s n d => if 0 ≤ k then mkNum s (n * 2 ^ k.toNat) d else mkNum s n (d * 2 ^ (-k).toNat)
  | w => w

/-- Strictly less, on numbers and infinities; false when either is NaN. -/
def FV.lt : FV → FV → Bool
  | .nan, _ => false
  | _, .nan => false
  | .inf s, .inf u => s && !u
  | .inf s, _ => s
  | _, .inf s => !s
  | .num s n d, .num u m e =>
    if s then
      if u then m * d < n * e else n != 0 || m != 0
    else if u then false
    else n * e < m * d

/-- Equal as numbers (+0 equals -0); false when either is NaN. -/
def FV.eq : FV → FV → Bool
  | .nan, _ => false
  | _, .nan => false
  | .inf s, .inf u => s == u
  | .inf _, _ => false
  | _, .inf _ => false
  | .num s n d, .num u m e => if n = 0 then m == 0 else s == u && n * e == m * d

/-! ## Rounding -/

/-- Whether a magnitude between two neighbours goes to the upper one: remainder r of den after
quotient q (R172): 0 nearest-even, 1 toward zero, 2 down, 3 up. -/
def roundUp (rnd : Nat) (neg : Bool) (q r den : Nat) : Bool :=
  match rnd with
  | 0 => den < 2 * r || (2 * r == den && q % 2 == 1)
  | 1 => false
  | 2 => neg && r != 0
  | _ => !neg && r != 0

/-- floor(log2 (n / d)) for n, d > 0. -/
def ilog2 (n d : Nat) : Int :=
  let e : Int := (n.log2 : Int) - d.log2
  if 0 ≤ e then (if n < d * 2 ^ e.toNat then e - 1 else e)
  else (if n * 2 ^ (-e).toNat < d then e - 1 else e)

/-- n / d divided by 2^k: numerator and denominator. -/
def scaled (n d : Nat) (k : Int) : Nat × Nat :=
  if 0 ≤ k then (n, d * 2 ^ k.toNat) else (n * 2 ^ (-k).toNat, d)

/-- The code of the largest finite magnitude of a binary format. -/
def maxCode (f : NumFmt) : Nat := (2 ^ f.eb - 1) * 2 ^ f.fb - 1

/-- The canonical NaN (R166). -/
def nanCode (f : NumFmt) : Nat :=
  match f with
  | .d8 => 0x80
  | _ => (2 ^ f.eb - 1) * 2 ^ f.fb + 2 ^ (f.fb - 1)

/-- The sign bit of a format. -/
def signBit (f : NumFmt) (neg : Bool) : Nat := if neg then 2 ^ (f.width - 1) else 0

/-- An exact value rounded once into a binary format (R172), with saturation (R175) and, under
NBV 2, a subnormal result written as zero of its sign (R181). -/
def roundBin (f : NumFmt) (rnd : Nat) (sat flush : Bool) : FV → Nat
  | .nan => nanCode f
  | .inf s => signBit f s + (if sat then maxCode f else maxCode f + 1)
  | .num s n d =>
    if n = 0 then signBit f s
    else
      let bias : Int := 2 ^ (f.eb - 1) - 1
      let emin : Int := 1 - bias
      let e : Int := max (ilog2 n d) emin
      let (num, den) := scaled n d (e - f.fb)
      let q := num / den
      let m := if roundUp rnd s q (num % den) den then q + 1 else q
      let code := (e - emin).toNat * 2 ^ f.fb + m
      if maxCode f < code then
        let toInf := rnd == 0 || (rnd == 2 && s) || (rnd == 3 && !s)
        signBit f s + (if toInf && !sat then maxCode f + 1 else maxCode f)
      else if flush && code < 2 ^ f.fb then signBit f s
      else signBit f s + code

/-- The exact value of a binary code; under NBV 2 a subnormal is zero of its sign (R165,
R181). -/
def decodeBin (f : NumFmt) (flush : Bool) (code : Nat) : FV :=
  let s := bitAt code (f.width - 1)
  let e := bits code f.fb f.eb
  let m := bits code 0 f.fb
  let bias : Int := 2 ^ (f.eb - 1) - 1
  if e = 2 ^ f.eb - 1 then (if m = 0 then .inf s else .nan)
  else if e = 0 then
    if m = 0 || flush then .num s 0 1
    else (FV.num s m 1).scale (1 - bias - f.fb)
  else (FV.num s (m + 2 ^ f.fb) 1).scale ((e : Int) - bias - f.fb)

/-! ## D8 (R168 to R171) -/

/-- The magnitude of a finite nonzero D8 code as (numerator, denominator): 1 + 9f / 2^w times
10^E (R168). -/
def d8Mag (m : Nat) : Nat × Nat :=
  let mk (w f : Nat) (e : Int) : Nat × Nat :=
    let n := 2 ^ w + 9 * f
    if 0 ≤ e then (n * 10 ^ e.toNat, 2 ^ w) else (n, 2 ^ w * 10 ^ (-e).toNat)
  if 0x40 ≤ m then mk 5 (m % 32) ((bits m 5 1 : Int) - 1)
  else if 0x20 ≤ m then
    let x : Int := bits m 3 2
    mk 3 (m % 8) (if x < 2 then x - 3 else x - 1)
  else if 0x10 ≤ m then
    let x : Int := bits m 1 3
    mk 1 (m % 2) (if x < 4 then x - 7 else x - 1)
  else if 0x08 ≤ m then
    let x : Int := bits m 0 3
    mk 0 0 (if x < 4 then x - 11 else x + 3)
  else if 0x04 ≤ m then
    let x : Int := bits m 0 2
    mk 0 0 (if x < 2 then x - 13 else x + 9)
  else mk 0 0 (if m = 2 then -14 else 13)

/-- The positive finite codes in increasing value (R169). -/
def d8Order : List Nat :=
  [0x02, 0x04, 0x05] ++ (List.range 4).map (· + 0x08) ++ (List.range 8).map (· + 0x10)
    ++ (List.range 16).map (· + 0x20) ++ (List.range 64).map (· + 0x40)
    ++ (List.range 16).map (· + 0x30) ++ (List.range 8).map (· + 0x18)
    ++ (List.range 4).map (· + 0x0C) ++ [0x06, 0x07, 0x03]

/-- The exact value of a D8 code (R168). -/
def decodeD8 (code : Nat) : FV :=
  let s := bitAt code 7
  let m := code % 128
  if m = 0 then (if s then .nan else .zero)
  else if m = 1 then .inf s
  else .num s (d8Mag m).1 (d8Mag m).2

/-- The neighbours of a magnitude n / d among 0 and the finite codes: the code at or below it,
and the next code above the first, if any. -/
def d8Near (n d : Nat) : Nat → List Nat → Nat × Option Nat
  | lo, [] => (lo, none)
  | lo, c :: r => if (d8Mag c).1 * d ≤ n * (d8Mag c).2 then d8Near n d c r else (lo, some c)

/-- The magnitude of a code, 0 included. -/
def d8MagZ (c : Nat) : Nat × Nat := if c = 0 then (0, 1) else d8Mag c

/-- CVT_D8 (R170). -/
def roundD8 (rnd : Nat) (sat : Bool) : FV → Nat
  | .nan => 0x80
  | .inf s => (if s then 0x80 else 0) + (if sat then 0x03 else 0x01)
  | .num s n d =>
    let (lo, hi) := d8Near n d 0 d8Order
    let exact := (d8MagZ lo).1 * d == n * (d8MagZ lo).2
    let up : Bool := match rnd with
      | 0 => match hi with
        | some h =>
          -- nearest: v - lo against hi - v, a tie to the smaller magnitude
          let (a, e) := d8MagZ lo
          let (c, f) := d8Mag h
          -- 2 v > lo + hi
          decide ((a * f + c * e) * d < 2 * n * (e * f))
        | none => decide (55000000000000 * d < n)
      | 1 => false
      | 2 => s && !exact
      | _ => !s && !exact
    let c := if up then (match hi with
      | some h => h
      | none => if sat then 0x03 else 0x01) else lo
    if c = 0 then 0 else (if s then 0x80 else 0) + c

/-- The binary image of a D8 value: a 12-bit significand, nearest-even, exponent unbounded
(R171). -/
def d8Image : FV → FV
  | .num s n d =>
    if n = 0 then .num s 0 1
    else
      let e := ilog2 n d - 11
      let (num, den) := scaled n d e
      let q := num / den
      let m := if roundUp 0 s q (num % den) den then q + 1 else q
      (FV.num s m 1).scale e
  | v => v

/-! ## Formats in general -/

/-- The exact value of a code (R165, R168). -/
def decodeF (f : NumFmt) (flush : Bool) (code : Nat) : FV :=
  match f with
  | .d8 => decodeD8 (code % 256)
  | _ => decodeBin f flush (code % 2 ^ f.width)

/-- An exact value rounded once into a format (R172). -/
def encodeF (f : NumFmt) (rnd : Nat) (sat flush : Bool) (v : FV) : Nat :=
  match f with
  | .d8 => roundD8 rnd sat v
  | _ => roundBin f rnd sat flush v

/-- A number rounded to an integer (R173). -/
def roundInt (rnd : Nat) (neg : Bool) (n d : Nat) : Int :=
  let q := n / d
  let m := if roundUp rnd neg q (n % d) d then q + 1 else q
  if neg then -(m : Int) else m

/-- The range of an integer type of width w (R164). -/
def intMin (signed : Bool) (w : Nat) : Int := if signed then -(2 ^ (w - 1) : Int) else 0
def intMax (signed : Bool) (w : Nat) : Int := if signed then 2 ^ (w - 1) - 1 else 2 ^ w - 1

/-- An exact integer brought into a type (R164): the code, and whether it was clamped. -/
def fitInt (signed : Bool) (w : Nat) (sat : Bool) (x : Int) : Nat × Bool :=
  let lo := intMin signed w
  let hi := intMax signed w
  if lo ≤ x ∧ x ≤ hi then ((x % 2 ^ w).toNat, false)
  else if sat then (((if x < lo then lo else hi) % 2 ^ w).toNat, true)
  else ((x % 2 ^ w).toNat, false)

/-- A code of width w as a signed number. -/
def toSigned (w c : Nat) : Int := if c % 2 ^ w < 2 ^ (w - 1) then (c % 2 ^ w : Nat) else ((c % 2 ^ w : Nat) : Int) - 2 ^ w

/-- A floating value converted to an integer type (R173): none where the result token carries
cause 0x0B. -/
def toIntType (signed : Bool) (w rnd : Nat) (sat : Bool) : FV → Option (Nat × Bool)
  | .nan => if sat then some (0, true) else none
  | .inf s =>
    if sat then some ((((if s then intMin signed w else intMax signed w) % 2 ^ w)).toNat, true) else none
  | .num s n d =>
    let x := roundInt rnd s n d
    if intMin signed w ≤ x ∧ x ≤ intMax signed w then some (fitInt signed w sat x)
    else if sat then some (fitInt signed w true x) else none

/-- FP40 nearest-even of an exact value, zeros unsigned (R176, R189). -/
def rne40 (flush : Bool) (v : FV) : Nat := roundBin .fp40 0 false flush v.unsign

/-- A sum of FP40 codes and exact values as the matrix engine takes it: exact, zero terms
unsigned, rounded once. -/
def add40 (flush : Bool) (acc : Nat) (x : FV) : Nat :=
  rne40 flush (((decodeBin .fp40 flush acc).unsign).add false x.unsign)

/-- INT40 saturating add (R164, R191): the code and whether it clamped. -/
def addInt40 (acc : Nat) (x : Int) : Nat × Bool := fitInt true 40 true (toSigned 40 acc + x)

end Sys2Proof.Machine
end

