-- ==== Sys2Proof/Machine/Logs.lean ====
section
/-!
DEFINITION. The ways to memory: where the home of a byte lies and what bridges do to a request for it (R10,
R21, R374); the log of record mode (R394) as replay reads it again (R395); and what passes a port on the way to
memory outside the package.
-/

namespace Sys2Proof.Machine

/-! ## Bytes and addresses -/

/-- Zero bytes. -/
def zeroBytes (n : Nat) : List Byte := List.replicate n 0

/-- The n-byte field of a block at an offset. -/
def fieldAt (d : List Byte) (off n : Nat) : Nat := ofBytes ((d.drop off).take n)

/-- The base of the local window and of the scratchpad aperture (R22, R341). -/
def winBase : Nat := 0x7F0000000000
def apBase : Nat := 0xFFF0000000000
def apLen : Nat := 0x1000000

/-- A domain page (R341). -/
def isDomain (pa : Nat) : Bool := 0x8000000000000 ≤ pa && pa < 0xC000000000000

/-- The die of an agent: a cluster's, or for a core its I/O die (8 for N, 9 for S). -/
def agentDie (k : Nat) : Nat := if k < 1536 then k / 192 else if k < 1544 then 8 else 9

/-! ## Homes and the way to them (R10, R21, R374) -/

/-- Near memory (R341). -/
def nearLen : Nat := 0xC000000000

/-- The die of the home of a byte (R21, R341): for memory outside the package the I/O die of its port. The
spec does not say which CXL port serves a far address, nor on which I/O die a CXL port and the host port in
use stand: each port serves 768 GiB of far memory, in order, and the lower eight and the host port stand on N
(DESIGN CHOICE, log 21). A request for another package's memory leaves
by N: sixteen Scatik ports stand on each I/O die and the spec names none for an address (DESIGN CHOICE,
log 111). -/
def homeDie (key : Nat) : Nat :=
  if 2 ^ 60 ≤ key then (key - 2 ^ 60) / 2 ^ 32 / 24
  else if key < nearLen then bits key 21 3
  else if 0x100000000000 + 8 * nearLen ≤ key && key < 0x1C0000000000 then 9
  else 8

/-- The bridges from die a to die b: first along the row, then along the column (R10). N joins row 0
and S row 3, in the column of the other die. -/
def routeOf (a b : Nat) : List Nat :=
  let col := if b < 8 then b % 2 else if a < 8 then a % 2 else 0
  let enter := fun (d : Nat) => if d = 8 then [10 + col] else if d = 9 then [12 + col] else []
  let rowOf := fun (d : Nat) => if d = 8 then 0 else if d = 9 then 3 else d / 2
  let across := if a < 8 && b < 8 && a % 2 ≠ b % 2 then [a / 2] else []
  let lo := Nat.min (rowOf a) (rowOf b)
  let hi := Nat.max (rowOf a) (rowOf b)
  if a = b then [] else enter a ++ across ++ (List.range (hi - lo)).map (fun i => 4 + 3 * col + lo + i) ++ enter b

/-- The two dies of a bridge (R373). -/
def bridgeEnds (b : Nat) : Nat × Nat :=
  if b < 4 then (2 * b, 2 * b + 1)
  else if b < 7 then (2 * (b - 4), 2 * (b - 4) + 2)
  else if b < 10 then (2 * (b - 7) + 1, 2 * (b - 7) + 3)
  else if b < 12 then (8, b - 10)
  else (9, b - 6)

/-- Dies reached from some within a number of hops over the bridges that stand; N and S pass nothing on
(R10). -/
def reach (failed : Nat) : Nat → List Nat → List Nat
  | 0, ds => ds
  | n + 1, ds =>
    let next := (List.range 14).flatMap (fun b =>
      let (x, y) := bridgeEnds b
      if bitAt failed b then []
      else (if ds.contains x && x < 8 then [y] else []) ++ (if ds.contains y && y < 8 then [x] else []))
    reach failed n (union ds next)

/-- Whether a die has a way to another. -/
def reachable (failed a b : Nat) : Bool :=
  let first := if a < 8 then [a] else (List.range 8).filter (fun d => (List.range 14).any (fun k =>
    !bitAt failed k && bridgeEnds k == (a, d)))
  a == b || (reach failed 9 first).contains b

/-- What bridges do to a request from a die to a key: it may go; it waits where its way crosses a
failed bridge whose detour is not yet in place; or no way is left (R374). -/
inductive Way where
  | go | wait | lost
  deriving DecidableEq, Repr

/-- What becomes of traffic from a die to a die. After the cut of a hold-up nothing is performed (R381). -/
def Mach.wayTo (m : Mach) (a b : Nat) : Way :=
  if m.hold.phase = 3 then .wait
  else if m.brgFailed = 0 then .go
  else if (routeOf a b).any (m.brgWait.contains ·) then .wait
  else if reachable m.brgFailed a b then .go
  else .lost

/-- What becomes of a request from a die to a key. -/
def Mach.way (m : Mach) (die key : Nat) : Way := m.wayTo die (homeDie key)


/-! ## Entries -/

/-- Log bytes appended in record mode: a 16-byte head and the payload, padded (R394). -/
def Work.record (w : Work) (src port : Nat) (payload : List Byte) : Work :=
  let r := w.m.record
  let d := toBytes 8 w.m.tb ++ toBytes 4 (src + port * 2 ^ 8 + payload.length * 2 ^ 16) ++ zeroBytes 4 ++ payload
    ++ zeroBytes ((16 - payload.length % 16) % 16)
  if r.mode ≠ 1 || r.ovf || r.ended then w
  else if r.len.toNat < r.written + d.length then w.mach (fun m => { m with record := { m.record with ovf := true } })
  else (w.putBytes (r.base.toNat + r.written) d).mach (fun m =>
    { m with record := { m.record with written := m.record.written + d.length } })

/-- What arrives from outside: recorded under MODE 1, and not taken under MODE 2 (R395). -/
def Work.arrival (w : Work) (src port : Nat) (payload : List Byte) (f : Work → Work) : Work :=
  if w.m.record.mode = 2 then w else f (w.record src port payload)

/-- An entry of the log: TB, source, port, payload, and the bytes it takes. -/
structure LogEntry where
  tb : Nat
  src : Nat
  port : Nat
  payload : List Byte
  size : Nat

/-- The entry at the replay position; none at the end of the log, which is where no whole entry is left
or a head of zeros stands (log 59). -/
def Work.logEntry (w : Work) : Option LogEntry :=
  let r := w.m.record
  let head := w.bytes (r.base.toNat + r.written) 16
  let len := fieldAt head 10 2
  let size := 16 + (len + 15) / 16 * 16
  if r.len.toNat < r.written + 16 || r.len.toNat < r.written + size || head.all (· == 0) then none
  else some { tb := fieldAt head 0 8, src := fieldAt head 8 1, port := fieldAt head 9 1,
              payload := w.bytes (r.base.toNat + r.written + 16) len, size := size }

/-- The entry passed. -/
def Work.passEntry (w : Work) (e : LogEntry) : Work :=
  w.mach (fun m => { m with record := { m.record with written := m.record.written + e.size } })

/-! ## Memory behind a port (R341, R394, R395) -/

/-- The first byte of the payload of an answer, which no other entry has (log 59). -/
def answerMark : Byte := 0xA0

/-- An entry that answers a request of the machine's own: an entropy draw, or what an access got. -/
def LogEntry.answers (e : LogEntry) : Bool := e.src == 1 || e.payload.head? == some answerMark

/-- The source and port of the log by which the answer to an access outside the package arrives: host memory
by the host port, far memory by its CXL port, another package's by a Scatik port. -/
def portOf (key : Nat) : Option (Nat × Nat) :=
  if 0x100000000000 ≤ key && key < 0x1C0000000000 then some (4, (key - 0x100000000000) / nearLen)
  else if 0x4000000000000 ≤ key && key < 0x5000000000000 then some (2, 0)
  else if isDomain key then some (3, Config.scatikPort (bits key 40 10))
  else none

/-- What arrives at a port for an access of n bytes at a key, the bytes of a read or the bare completion of a
write: it is logged under MODE 1. Under MODE 2 the package takes no input: the answer is that of the log at its
TB, awaited until then; another in its place sets DIV (R395). Whether the access may now be performed. -/
def Work.fromPort (w : Work) (key n : Nat) (reads : Bool) : Bool × Work :=
  match portOf key with
  | none => (true, w)
  | some (src, port) =>
    let len := if reads then n else 0
    match w.m.record.mode with
    | 1 => (true, w.record src port (answerMark :: w.bytes key len))
    | 2 =>
      if w.m.record.ended || w.m.record.div then (true, w)
      else match w.logEntry with
        | none => (true, w)
        | some e =>
          if w.m.tb < e.tb || (w.m.tb = e.tb && !e.answers) then (false, w)
          else if w.m.tb = e.tb && e.src = src && e.port = port && e.payload.length = len + 1 then
            (true, (w.passEntry e).putBytes key (e.payload.drop 1))
          else (false, w.mach (fun m => { m with record := { m.record with div := true } }))
    | _ => (true, w)

/-- An access of n bytes at a key that is made at once, with what its port brings. In replay the log answers it
now or has diverged (R395). -/
def Work.portNow (w : Work) (key n : Nat) (reads : Bool) : Work :=
  match w.fromPort key n reads with
  | (true, v) => v
  | (false, v) => v.mach (fun m => { m with record := { m.record with div := true } })

/-- Accesses of runs of keys made at once. -/
def Work.portsNow (reads : Bool) (rs : List (Nat × Nat × Kind)) (w : Work) : Work :=
  rs.foldl (fun u r => u.portNow r.1 r.2.1 reads) w

/-- An access performed, with what its port brings. -/
def Work.throughPort (w : Work) (key n : Nat) (reads : Bool) (go : Work → Work) : Work :=
  match w.fromPort key n reads with
  | (true, v) => go v
  | (false, v) => v

/-- The accesses of runs of keys, each with what its port brings: whether all may now be performed. -/
def Work.fromPorts (reads : Bool) : List (Nat × Nat × Kind) → Work → Bool × Work
  | [], w => (true, w)
  | (k, n, _) :: r, w => match w.fromPort k n reads with
    | (true, v) => Work.fromPorts reads r v
    | (false, v) => (false, v)

end Sys2Proof.Machine
end

