-- ==== Sys2Proof/Machine/Operands.lean ====
section
/-!
DEFINITION. Operands: who acts and through what it translates, effective addresses (R103),
address translation (R341 to R348), and the reading and writing of memory operands and
parameter blocks (R131).
-/

namespace Sys2Proof.Machine

/-! ## Partitions -/

/-- A partition, at its reset values when nothing has been written to it. -/
def Mach.part (m : Mach) (p : Nat) : Part := agetD m.parts p Part.init

/-- Whether a partition exists (R337). -/
def Mach.validPart (m : Mach) (p : Nat) : Bool := (m.part p).entry.valid

/-- A partition changed. -/
def Mach.setPart (m : Mach) (p : Nat) (f : Part → Part) : Mach :=
  { m with parts := aset m.parts p (f (m.part p)) }

/-- A partition changed in a workspace. -/
def Work.setPart (w : Work) (p : Nat) (f : Part → Part) : Work := w.mach (fun m => m.setPart p f)

/-- The valid partition that owns system core k (R338). -/
def Mach.partOfCore (m : Mach) (k : Nat) : Option Nat :=
  (afind m.parts (fun _ q => q.entry.valid && bitAt q.entry.cores k)).map (·.1)

/-- The valid partition that owns cluster g (R338). -/
def Mach.partOfCluster (m : Mach) (g : Nat) : Option Nat :=
  (afind m.parts (fun _ q => q.entry.valid && bitAt q.entry.clusters g)).map (·.1)

/-- A launch. -/
def Mach.launch? (m : Mach) (l : Nat) : Option Launch := aget m.launches l

/-- The partition an agent belongs to: a thread's launch's, a core's own. -/
def Mach.partOf (m : Mach) (k : Nat) (t : Thread) : Option Nat :=
  match t.sys with
  | none => (m.launch? t.launch).map (·.part)
  | some _ => m.partOfCore (k - 1536)

/-- Through what a control agent translates (R346). A core at S in no partition has no ranges:
partition 16 owns nothing (R338). -/
def Mach.transOf (m : Mach) (k : Nat) (t : Thread) : Trans :=
  match t.sys with
  | none =>
    match m.launch? t.launch with
    | some l => { l.trans with priv := .u, cluster := some (k / 8) }
    | none => { Trans.none with priv := .u, part := some 16 }
  | some c =>
    if c.h then { ttb := c.httb, asid := 0, vmid := 0xFF, priv := .h, cluster := none, part := none, scratch := none }
    else
      let p := (m.partOfCore (k - 1536)).getD 16
      { ttb := c.ttb, asid := c.asid, vmid := (m.part p).entry.vmid, priv := .s, cluster := none,
        part := some p, scratch := none }

/-- The translation cache of a control agent (R347): one of each sequencer, one of each
core. -/
def agentCache (k : Nat) : Nat := if k < 1536 then 20000 + k / 8 else 21000 + (k - 1536)

/-! ## The physical map -/

/-- The key of byte o of cluster g's scratchpad. -/
def scratchKey (g o : Nat) : Nat := 2 ^ 60 + g * 2 ^ 32 + o

/-- The partition word in force in a cluster (R248). -/
def Mach.pword (m : Mach) (g : Nat) : Nat :=
  match aget m.clusters g with
  | some c => c.pword
  | none => 0

/-- The scratchpad share of one bank tile, in bytes (R248). -/
def shareOf (pword : Nat) : Nat := 524288 - 32768 * (bits pword 28 4 + bits pword 24 4)

/-- The bytes of a cluster's scratchpad: 32 shares (R250); a cluster that holds no launch has
none. -/
def Mach.scratchLen (m : Mach) (g : Nat) : Nat :=
  match aget m.clusters g with
  | some c => 32 * shareOf c.pword
  | none => 0

/-- Byte offset o of bank tile bt's share, as an offset of the scratchpad (R250). -/
def shareOffset (bt o : Nat) : Nat := (o / 4096) * 2 ^ 17 + bt * 4096 + o % 4096

/-- Whether n bytes at a PA lie in one range of a list. -/
def inRanges (rs : List Range) (pa n : Nat) : Bool :=
  rs.any (fun r => r.base ≤ pa && pa + n ≤ r.base + r.len)

/-- Whether a PA lies in memory that is there (R341). -/
def Mach.present (m : Mach) (pa : Nat) : Bool :=
  pa < 0xC000000000 ||
  (0x100000000000 ≤ pa && pa < 0x1C0000000000 && bitAt m.farPorts ((pa - 0x100000000000) / 0xC000000000)) ||
  (0x4000000000000 ≤ pa && pa < 0x5000000000000) ||
  (0x8000000000000 ≤ pa && pa < 0xC000000000000 && m.packages.contains (bits pa 40 10))

/-- The key of a byte: a domain address of this package is its near memory (R354). -/
def Mach.keyOf (m : Mach) (pa : Nat) : Nat :=
  if isDomain pa && bits pa 40 10 == m.own then pa % 2 ^ 40 else pa

/-! ## Walking the tables (R343, R344) -/

/-- The kind a code names (R251). -/
def kindOf (n : Nat) : Kind := if n = 0 then .so else if n = 1 then .rc else if n = 2 then .uo else .dv

/-- A request at a domain address is refused (R354): no range is exported there to a partition of the VMID
sent with it. Whether another package has exported one is its own affair, a free value (log 110), but no range
of any partition holds an offset past near memory and no partition has the hypervisor's VMID. -/
def Mach.refused (m : Mach) (vmid pa : Nat) : Bool :=
  let o := pa % 2 ^ 40
  isDomain pa &&
    (if bits pa 40 10 == m.own then
       !(m.parts.any (fun q => q.2.entry.valid && q.2.entry.vmid == vmid &&
         q.2.entry.ranges.any (fun r => r.exported && r.base ≤ o && o < r.base + r.len)))
     else vmid == 0xFF || nearLen ≤ o || Config.remoteRefuses m.free (bits pa 40 10) vmid o)

/-- Whether a table lies where the partition may have one (R343); the hypervisor's tables are
bounded by no range (log 17). -/
def Mach.tableOk (m : Mach) (tr : Trans) (pa : Nat) : Bool :=
  match tr.part with
  | none => m.present pa
  | some p => inRanges (m.part p).entry.ranges pa 4096

/-- The bits of an entry that must be 0 (R344). -/
def pteReserved (e : Nat) : Bool := bits e 52 12 != 0 || bits e 7 3 != 0 || bitAt e 2

/-- Why an access is not made: a translation fault or a permission fault (R345); or a table's bytes lie behind
a failed bridge, on a way that waits for a detour, or to which no way is left (R374). -/
inductive XFault where
  | trans
  | perm
  | wait
  | lost
  deriving DecidableEq, Repr

/-- The die from which a cache's misses are walked (R347, R348); none for the device's own accesses (statuses,
records, traces), whose place the spec does not give: they pass every bridge (DESIGN CHOICE, log 155). -/
def cacheDie (c : Nat) : Option Nat :=
  if c < 20000 then some (c / 64 / 24)
  else if c < 21000 then some ((c - 20000) / 24)
  else if c < 22000 then some (if c < 21008 then 8 else 9)
  else if c < 23000 then some (c - 22000)
  else none

/-- The entry of a table at a PA, read at its home (R343), or why it cannot be (R354, R374). -/
def Work.entryAt (w : Work) (die : Option Nat) (vmid pa : Nat) : Except XFault Nat × Work :=
  let key := w.m.keyOf pa
  if w.m.refused vmid pa then (.error .perm, w)
  else match die.elim Way.go (fun d => w.m.way d key) with
    | .wait => (.error .wait, w)
    | .lost => (.error .lost, w)
    | .go => let v := w.portNow key 8 true; (.ok (v.read key 8), v)

/-- A leaf that breaks R342: a VA of the local window must name the byte of the aperture at its offset, and no
other VA may name the aperture. -/
def TlbEntry.misplaced (e : TlbEntry) : Bool :=
  let va := e.page * 4096
  let len := e.pages * 4096
  ((va < winBase + apLen && winBase < va + len) || (e.frame < apBase + apLen && apBase < e.frame + len))
    && e.frame + winBase != apBase + va

/-- A walk from the table at `table`, `level` levels above the last (R343): the leaf it ends at, or why there
is none. -/
def walkFrom (die : Option Nat) (tr : Trans) (va : Nat) : Nat → Nat → Work → Except XFault TlbEntry × Work
  | level, table, w =>
    if !w.m.tableOk tr table then (.error .trans, w)
    else match w.entryAt die tr.vmid (table + 8 * bits va (12 + 9 * level) 9) with
      | (.error f, v) => (.error f, v)
      | (.ok e, v) =>
        if !bitAt e 0 || pteReserved e then (.error .trans, v)
        else if bitAt e 1 then
          let span := 2 ^ (12 + 9 * level)
          let x : TlbEntry :=
            { vmid := tr.vmid, asid := tr.asid, page := va / span * (span / 4096), pages := span / 4096,
              frame := bits e 12 40 * 4096, kind := kindOf (bits e 10 2), r := bitAt e 4, w := bitAt e 5,
              x := bitAt e 6, u := bitAt e 3 }
          if level = 3 || x.frame % span != 0 || x.misplaced then (.error .trans, v) else (.ok x, v)
        else if bits e 2 10 != 0 then (.error .trans, v)
        else match level with
          | 0 => (.error .trans, v)
          | l + 1 => walkFrom die tr va l (bits e 12 40 * 4096) v

/-- A walk of four levels (R343). -/
def walk (w : Work) (die : Option Nat) (tr : Trans) (va : Nat) : Except XFault TlbEntry × Work :=
  walkFrom die tr va 3 tr.ttb w

/-- The PA an entry gives a VA. -/
def TlbEntry.pa (e : TlbEntry) (va : Nat) : Nat := e.frame + (va - e.page * 4096)

/-- An entry covers a VA for a tag (R347). -/
def TlbEntry.hits (e : TlbEntry) (tr : Trans) (va : Nat) : Bool :=
  e.vmid == tr.vmid && e.asid == tr.asid && e.page ≤ va / 4096 && va / 4096 < e.page + e.pages

/-- The capacity of a cache (R347). -/
def cacheSize (c : Nat) : Nat := if c < 20000 then 32 else if c < 22000 then 64 else 4096

/-- The number that stands for no cache: the device's own accesses through a captured
translation (R413) walk every time. -/
def noCache : Nat := 90000

/-- A cache filled with one entry, the oldest giving way (log 7). -/
def Mach.fill (m : Mach) (c : Nat) (e : TlbEntry) : Mach :=
  if c = noCache then m
  else { m with tlbs := aset m.tlbs c ((e :: agetD m.tlbs c []).take (cacheSize c)) }

/-- What an access needs (R345). -/
inductive Need where
  | read | write | both | fetch
  deriving DecidableEq, Repr

/-- The rights a leaf gives suffice (R345). -/
def TlbEntry.allows (e : TlbEntry) (n : Need) (p : Priv) : Bool :=
  (match n with
   | .read => e.r
   | .write => e.w
   | .both => e.r && e.w
   | .fetch => e.x) && (p != .u || e.u)

/-- The checks of R345 after the walk, in their order: the key of the byte, or the fault. A leaf that names a
PA outside the regions of R341 faults for every VA that it covers. -/
def Mach.checkLeaf (m : Mach) (tr : Trans) (va : Nat) (n : Need) (e : TlbEntry) :
    Except XFault Nat :=
  let pa := e.pa va
  if e.misplaced then .error .trans
  else if e.frame < apBase + apLen && apBase < e.frame + 4096 * e.pages then
    match tr.cluster with
    | none => .error .perm
    | some g =>
      if e.frame < apBase || apBase + apLen < e.frame + 4096 * e.pages then .error .perm
      else if tr.scratch.getD (m.scratchLen g) ≤ pa - apBase || e.kind = .dv then .error .trans
      else if e.allows n tr.priv then .ok (scratchKey g (pa - apBase)) else .error .perm
  else
    let frameOk := m.present pa &&
      (match tr.part with
       | none => true
       | some p => inRanges (m.part p).entry.ranges e.frame (4096 * e.pages))
    if !frameOk then .error .perm
    else if isDomain pa && e.kind = .dv then .error .trans
    else if !e.allows n tr.priv || m.refused tr.vmid pa then .error .perm
    else .ok (m.keyOf pa)

/-- The cache of a die's FI (R347). -/
def fiCache (die : Nat) : Nat := 22000 + die

/-- What a cache holds for a VA. -/
def Mach.cached (m : Mach) (c : Nat) (tr : Trans) (va : Nat) : Option TlbEntry :=
  if c = noCache then none else (agetD m.tlbs c []).find? (fun e => e.hits tr va)

/-- The cache that a miss of cache c asks next: behind an AG tile's stands its FI's (R33). -/
def behind (c : Nat) : Nat := if c < 20000 then fiCache (c / 64 / 24) else noCache

/-- The leaf of a VA from a cache, from the one behind it, or from a walk that fills both (R33, R347). -/
def Work.leaf (w : Work) (c : Nat) (tr : Trans) (va : Nat) : Except XFault TlbEntry × Work :=
  match w.m.cached c tr va with
  | some e => (.ok e, w)
  | none =>
    match w.m.cached (behind c) tr va with
    | some e => (.ok e, w.mach (fun m => m.fill c e))
    | none =>
      match walk w (cacheDie c) tr va with
      | (.ok e, v) => (.ok e, v.mach (fun m => (m.fill (behind c) e).fill c e))
      | (.error f, v) => (.error f, v)

/-- An access translated (R345): the key and the kind of its byte, or the fault. -/
def Work.translate (w : Work) (c : Nat) (tr : Trans) (va : Nat) (n : Need) :
    Except XFault (Nat × Kind) × Work :=
  if 2 ^ 48 ≤ va then (.error .trans, w)
  else
    match w.leaf c tr va with
    | (.error f, v) => (.error f, v)
    | (.ok e, v) =>
      match v.m.checkLeaf tr va n e with
      | .ok k => (.ok (k, e.kind), v)
      | .error f => (.error f, v)

/-- n bytes from a VA translated page by page (R104): the runs of keys, each a key, a length and
a kind, or the fault with the lowest faulting VA. `fuel` bounds the pages. -/
def Work.span (c : Nat) (tr : Trans) (need : Need) :
    Nat → Work → Nat → Nat → Except (XFault × Nat) (List (Nat × Nat × Kind)) × Work
  | 0, w, _, _ => (.ok [], w)
  | fuel + 1, w, va, n =>
    if n = 0 then (.ok [], w)
    else
      let here := Nat.min n (4096 - va % 4096)
      match w.translate c tr (va % 2 ^ 64) need with
      | (.error f, v) => (.error (f, va % 2 ^ 64), v)
      | (.ok (k, kind), v) =>
        match Work.span c tr need fuel v (va + here) (n - here) with
        | (.ok rs, u) => (.ok ((k, here, kind) :: rs), u)
        | (.error e, u) => (.error e, u)

/-- n bytes from a VA, all pages translated first. -/
def Work.spanOf (w : Work) (c : Nat) (tr : Trans) (va n : Nat) (need : Need) :
    Except (XFault × Nat) (List (Nat × Nat × Kind)) × Work :=
  Work.span c tr need (n / 4096 + 2) w va n

/-- Bytes of runs of keys. -/
def Work.bytesOf (w : Work) (rs : List (Nat × Nat × Kind)) : List Byte :=
  (rs.map (fun r => w.bytes r.1 r.2.1)).flatten

/-- Bytes written over runs of keys. -/
def Work.putRuns (w : Work) : List (Nat × Nat × Kind) → List Byte → Work
  | [], _ => w
  | r :: rs, d => Work.putRuns (w.putBytes r.1 (d.take r.2.1)) rs (d.drop r.2.1)

/-- Bytes read through a translation at once, with what their ports bring: a device or engine access (R409,
R413). -/
def Work.load (w : Work) (c : Nat) (tr : Trans) (va n : Nat) :
    Except (XFault × Nat) (List Byte) × Work :=
  match w.spanOf c tr va n .read with
  | (.ok rs, v) => let u := v.portsNow true rs; (.ok (u.bytesOf rs), u)
  | (.error e, v) => (.error e, v)

/-- The first VA among runs from a VA that a test accepts. -/
def firstRun (f : Nat → Nat → Kind → Bool) : Nat → List (Nat × Nat × Kind) → Option Nat
  | _, [] => none
  | va, (k, n, kind) :: r => if f k n kind then some va else firstRun f (va + n) r

/-! ## Operands of a control word -/

/-- The cause of a fault of a control agent's access (R103, R345, R374). -/
def xcause (need : Need) : XFault → Nat
  | .perm => 0x06
  | .wait | .lost => 0x11
  | .trans => match need with
    | .read => 0x03
    | .fetch => 0x05
    | _ => 0x04

/-- The acting agent's translation, in a control word's body. -/
def Ctl.trans : Ctl (Nat × Trans) := fun w =>
  match aget w.m.thr w.m.cur with
  | some t => .ok ((agentCache w.m.cur, w.m.transOf w.m.cur t), w)
  | none => .ok ((agentCache w.m.cur, Trans.none), w)

/-- n bytes at a VA translated for the acting agent; a fault is the precise trap of R345, and a walk that
waits for a detour holds the word (R374). -/
def Ctl.span (va n : Nat) (need : Need) : Ctl (List (Nat × Nat × Kind)) := do
  let (c, tr) ← Ctl.trans
  let w ← get
  match w.spanOf c tr va n need with
  | (.ok rs, v) => set v; pure rs
  | (.error (.wait, _), v) => do set v; Ctl.hold
  | (.error (f, at_), v) => do set v; Ctl.trap (xcause need f) (w64 at_)

/-- The way of the acting agent to runs of keys from a VA (R374): the word is held while one waits for a
detour, and traps with cause 0x11 where one is lost. -/
def Ctl.onWay (va : Nat) (rs : List (Nat × Nat × Kind)) : Ctl Unit := fun w =>
  let way := fun (k : Nat) => w.m.way (agentDie w.m.cur) k
  match firstRun (fun k _ _ => way k = .lost) va rs with
  | some at_ => .error (.trap 0x11 (w64 at_), w)
  | none => if rs.any (fun r => way r.1 = .wait) then .error (.hold, w) else .ok ((), w)

/-- Runs of keys from a VA read at once for the acting agent (R374, R394, R395). -/
def Ctl.bytes (va : Nat) (rs : List (Nat × Nat × Kind)) : Ctl (List Byte) := do
  Ctl.onWay va rs
  Ctl.upd (Work.portsNow true rs)
  let w ← get
  pure (w.bytesOf rs)

/-- An outstanding word that is a memory access. -/
def PendOp.access : PendOp → Bool
  | .load _ | .store | .amo _ _ _ | .cas _ _ _ | .red _ _ _ | .cadd _ => true
  | _ => false

/-- An outstanding word whose accesses R255 orders: a memory access, or a TAKE, whose writes are
accesses of its thread (R259). -/
def PendOp.orders : PendOp → Bool
  | .take _ => true
  | o => o.access

/-- No earlier acquire and no earlier access on an SO or DV page is still to be performed:
what an access made at once needs (R255, cases 2 and 3). -/
def Thread.clear (t : Thread) (kind : Kind) : Bool :=
  !t.pend.any (fun p => p.op.orders && (p.acq ||
    ((kind = .so || kind = .dv) && p.pieces.any (fun x => !x.done && (x.kind = .so || x.kind = .dv)))))

/-- An access made at once waits for the acting agent's earlier accesses that must come before
it (R255). -/
def Ctl.clear (rs : List (Nat × Nat × Kind)) : Ctl Unit := fun w =>
  match aget w.m.thr w.m.cur with
  | some t => if rs.all (fun r => t.clear r.2.2) then .ok ((), w) else .error (.hold, w)
  | none => .ok ((), w)

/-- A parameter block of n bytes at a VA (R131): aligned, then readable, then captured. -/
def Ctl.block (va : Word) (n align : Nat) : Ctl (List Byte) := do
  if va.toNat % align ≠ 0 then Ctl.trap 0x02 va
  let rs ← Ctl.span va.toNat n .read
  Ctl.clear rs
  Ctl.bytes va.toNat rs

/-- A block word breaks its rule: cause 0x0D, TRAP.VAL the VA of the word (R131). -/
def Ctl.need (va : Word) (off : Nat) (ok : Bool) : Ctl Unit :=
  if ok then pure () else Ctl.trap 0x0D (va + w64 off)

/-- Whether every byte of a block from an offset on is 0; the offset of the first word that is
not. -/
def firstNonzero (d : List Byte) (off : Nat) : Nat → Option Nat
  | 0 => none
  | n + 1 =>
    if fieldAt d off 4 ≠ 0 then some off else firstNonzero d (off + 4) n

/-- The words of a block from an offset must be 0 (R131). -/
def Ctl.zeros (va : Word) (d : List Byte) (off words : Nat) : Ctl Unit :=
  match firstNonzero d off words with
  | some o => Ctl.trap 0x0D (va + w64 o)
  | none => pure ()

/-- The result register written. -/
def Ctl.result (d : Reg) (v : Word) : Ctl Unit := Ctl.me (fun t => t.setG d v)

/-- The word completes and passes to the next (R98). -/
def Ctl.done : Ctl Unit := Ctl.me (fun t => t.advance)

/-- The earlier accesses of the agent have been performed, as a release needs (R255, case 4); until then
the word is held. -/
def Ctl.released (t : Thread) : Ctl Unit := if t.pend.any (·.op.orders) then Ctl.hold else pure ()

/-- An outstanding word added: its number. -/
def Thread.addPend (t : Thread) (p : Nat → Pend) : Thread :=
  let slot := (p t.nextPend).set
  { t with
    pend := t.pend ++ [p t.nextPend]
    nextPend := t.nextPend + 1
    slotPoison := t.slotPoison.filter (fun q => slot == 0 || q.1 / 32 != slot) }

/-- An outstanding word is complete: its slot clears, its destination is written. -/
def Thread.endPend (t : Thread) (id : Nat) (v : Option Word) : Thread :=
  match t.pend.find? (fun p => p.id == id) with
  | none => t
  | some p =>
    let u := { t with pend := t.pend.filter (fun q => q.id != id) }
    match p.dest, v with
    | some d, some x => u.setG d x
    | _, _ => u

/-- An outstanding word of an agent is complete (R131). -/
def Work.endPend (w : Work) (k id : Nat) (v : Option Word) : Work :=
  w.modThr k (fun t => t.endPend id v)

/-- An agent asked to park at its next instruction boundary (R411). -/
def Work.askPark (w : Work) (k cause : Nat) (val : Word) : Work :=
  w.modThr k (fun t => { t with parks := t.parks ++ [{ cause := cause, val := val }] })

end Sys2Proof.Machine
end

