-- ==== Sys2Proof/Machine/Lanes.lean ====
section
/-!
DEFINITION. Element words that compute on tokens: vector arithmetic (R204 to R217), reducers
(R218 to R221), the sparse words (R237 to R239), and the transcendental functions (R213).
-/

namespace Sys2Proof.Machine

/-! ## Words and lanes -/

/-- An element operation word by its fields (R50). -/
structure StageW where
  op : Nat
  a : Nat
  b : Nat
  dst : Nat
  ty : Nat
  rnd : Nat
  sat : Bool
  early : Bool
  aux : Nat
  deriving DecidableEq, Repr

/-- A stage word's fields (R50). -/
def stageW (w : Nat) : StageW :=
  { op := bits w 24 8, a := bits w 20 4, b := bits w 16 4, dst := bits w 12 4, ty := bits w 9 3,
    rnd := bits w 7 2, sat := bitAt w 6, early := bitAt w 5, aux := bits w 0 5 }

/-- Elements in a lane by type code (R50, R163). -/
def tyCount (ty : Nat) : Nat :=
  match ty with
  | 0 => 1 | 1 => 2 | 2 => 4 | 3 => 1 | 4 => 2 | 5 => 2 | 6 => 4 | _ => 1

/-- Bits of an element. -/
def tyWidth (ty : Nat) : Nat := 32 / tyCount ty

/-- A floating or D8 type. -/
def tyFloat (ty : Nat) : Bool := 3 ≤ ty && ty ≤ 6

/-- A signed integer type; n32 is unsigned. -/
def tySigned (ty : Nat) : Bool := ty != 7

/-- The format of a floating type. -/
def tyFmt (ty : Nat) : NumFmt :=
  match ty with
  | 4 => .bf16
  | 5 => .fp16
  | 6 => .d8
  | _ => .fp32

/-- The n elements of w bits of a token, element 0 lowest (R163). -/
def splitBits (w : Nat) : Nat → Nat → List Nat
  | 0, _ => []
  | n + 1, v => v % 2 ^ w :: splitBits w n (v / 2 ^ w)

/-- Elements of w bits joined, element 0 lowest. -/
def joinBits (w : Nat) : List Nat → Nat
  | [] => 0
  | x :: r => x % 2 ^ w + 2 ^ w * joinBits w r

/-- The elements of a token in a type. -/
def elems (ty : Nat) (v : Wide) : List Nat := splitBits (tyWidth ty) (16 * tyCount ty) v.toNat

/-- A token from elements. -/
def ofElems (w : Nat) (l : List Nat) : Wide := BitVec.ofNat 512 (joinBits w l)

/-- The sixteen lanes of a token, and a token from lanes. -/
def lanes (v : Wide) : List Nat := splitBits 32 16 v.toNat
def ofLanes (l : List Nat) : Wide := ofElems 32 l

/-- Lane k. -/
def lane (v : Wide) (k : Nat) : Nat := bits v.toNat (32 * k) 32

/-- What a stage computes: its result, the LFLAG bits it sets, and whether the result token
carries cause 0x0B (R173). -/
structure Res where
  val : Wide
  flags : Nat
  err : Bool
  deriving DecidableEq, Repr

def Res.plain (v : Wide) : Res := { val := v, flags := 0, err := false }

/-- Elements with the flag each raises: the token and its lane flags. -/
def resOf (ty : Nat) (l : List (Nat × Bool)) : Res :=
  let c := tyCount ty
  { val := ofElems (tyWidth ty) (l.map (·.1)),
    flags := (List.range 16).foldl (fun f k =>
      if ((l.drop (c * k)).take c).any (·.2) then f + 2 ^ k else f) 0,
    err := false }

/-- An operation on every element of one, two or three tokens. -/
def map1 (ty : Nat) (f : Nat → Nat × Bool) (x : Wide) : Res := resOf ty ((elems ty x).map f)
def map2 (ty : Nat) (f : Nat → Nat → Nat × Bool) (x y : Wide) : Res :=
  resOf ty (List.zipWith f (elems ty x) (elems ty y))
def map3 (ty : Nat) (f : Nat → Nat → Nat → Nat × Bool) (x y z : Wide) : Res :=
  resOf ty (List.zipWith (fun p c => f p.1 p.2 c) ((elems ty x).zip (elems ty y)) (elems ty z))

/-! ## Arithmetic on elements -/

/-- An element of an integer type as an integer. -/
def intOf (ty x : Nat) : Int := if tySigned ty then toSigned (tyWidth ty) x else (x : Int)

/-- An exact integer brought into a type (R164). -/
def intRes (ty : Nat) (sat : Bool) (x : Int) : Nat × Bool := fitInt (tySigned ty) (tyWidth ty) sat x

/-- A floating element, and an exact value rounded into a type. -/
def fltOf (ty : Nat) (flush : Bool) (x : Nat) : FV := decodeF (tyFmt ty) flush x
def fltRes (ty rnd : Nat) (sat flush : Bool) (v : FV) : Nat × Bool := (encodeF (tyFmt ty) rnd sat flush v, false)

/-- VADD, VSUB, VMUL on one element (R205). -/
def arithEl (op : Nat) (s : StageW) (flush : Bool) (x y : Nat) : Nat × Bool :=
  if tyFloat s.ty then
    let a := fltOf s.ty flush x
    let b := fltOf s.ty flush y
    let nz := s.rnd == 2
    fltRes s.ty s.rnd s.sat flush (match op with
      | 1 => a.add nz b
      | 2 => a.add nz b.neg
      | _ => a.mul b)
  else
    let a := intOf s.ty x
    let b := intOf s.ty y
    intRes s.ty s.sat (match op with
      | 1 => a + b
      | 2 => a - b
      | _ => a * b)

/-- VFMA on one element (R206). -/
def fmaEl (s : StageW) (flush : Bool) (x y z : Nat) : Nat × Bool :=
  fltRes s.ty s.rnd s.sat flush
    (((fltOf s.ty flush x).mul (fltOf s.ty flush y)).add (s.rnd == 2) (fltOf s.ty flush z))

/-- Strictly less with −0 below +0 (R207). -/
def FV.below : FV → FV → Bool
  | .num s n d, .num u m e => if n = 0 && m = 0 then s && !u else (FV.num s n d).lt (.num u m e)
  | a, b => a.lt b

/-- VMAX and VMIN on one element (R207). -/
def maxEl (isMax : Bool) (s : StageW) (flush : Bool) (x y : Nat) : Nat × Bool :=
  if tyFloat s.ty then
    let a := fltOf s.ty flush x
    let b := fltOf s.ty flush y
    if a.isNan || b.isNan then (nanCode (tyFmt s.ty), false)
    else fltRes s.ty 0 false flush (if a.below b == isMax then b else a)
  else
    let a := intOf s.ty x
    let b := intOf s.ty y
    (if decide (a < b) == isMax then y else x, false)

/-- VABS and VNEG on one element (R208). -/
def absEl (isNeg : Bool) (s : StageW) (flush : Bool) (x : Nat) : Nat × Bool :=
  if tyFloat s.ty then
    let a := fltOf s.ty flush x
    fltRes s.ty 0 s.sat flush (if isNeg then a.neg else a.abs)
  else
    let a := intOf s.ty x
    intRes s.ty s.sat (if isNeg then -a else (a.natAbs : Int))

/-- VSHL, VSHR, VSHRA on one element (R209). -/
def shiftEl (op ty x y : Nat) : Nat × Bool :=
  let w := tyWidth ty
  let n := y % w
  (match op with
   | 0x0C => x * 2 ^ n % 2 ^ w
   | 0x0D => x / 2 ^ n
   | _ => ((toSigned w x / 2 ^ n) % 2 ^ w).toNat, false)

/-- A relation of VCMP (R210): 0 eq, 1 ne, 2 lt, 3 le, 4 gt, 5 ge, 6 uo. -/
def cmpEl (s : StageW) (flush : Bool) (x y : Nat) : Nat × Bool :=
  let rel := s.aux % 8
  let pick := fun (un lt eq : Bool) => match rel with
    | 0 => !un && eq
    | 1 => un || !eq
    | 2 => !un && lt
    | 3 => !un && (lt || eq)
    | 4 => !un && !lt && !eq
    | 5 => !un && !lt
    | _ => un
  let r :=
    if tyFloat s.ty then
      let a := fltOf s.ty flush x
      let b := fltOf s.ty flush y
      pick (a.isNan || b.isNan) (a.lt b) (a.eq b)
    else pick false (intOf s.ty x < intOf s.ty y) (intOf s.ty x == intOf s.ty y)
  (if r then 2 ^ tyWidth s.ty - 1 else 0, false)

/-- VSEL on one element (R211); a condition is its bits (DEDUCED, log 44). -/
def selEl (x y z : Nat) : Nat × Bool := (if z != 0 then x else y, false)

/-! ## Conversion (R212, R173) -/

/-- CV: one element converted; none is cause 0x0B. -/
def cvEl (src dst rnd : Nat) (sat flush : Bool) (x : Nat) : Option (Nat × Bool) :=
  if tyFloat src then
    let v := fltOf src flush x
    if tyFloat dst then some (fltRes dst rnd sat flush v)
    else toIntType (tySigned dst) (tyWidth dst) rnd sat v
  else
    let n := intOf src x
    if tyFloat dst then some (fltRes dst rnd sat flush (FV.ofInt n))
    else some (intRes dst sat n)

/-- VCVT (R212). -/
def vcvt (s : StageW) (flush : Bool) (a b : Wide) : Res :=
  let dst := s.aux % 8
  let part := s.aux / 8
  let cs := tyCount s.ty
  let cd := tyCount dst
  let ea := elems s.ty a
  let eb := elems dst b
  let outs := (List.range (16 * cd)).map (fun n =>
    let k := n / cd
    let e := n % cd
    if cd ≤ cs then cvEl s.ty dst s.rnd s.sat flush (nth ea (k * cs + (if cd < cs then part * cd else 0) + e) 0)
    else if part * cs ≤ e && e < part * cs + cs then
      cvEl s.ty dst s.rnd s.sat flush (nth ea (k * cs + (e - part * cs)) 0)
    else some (nth eb n 0, false))
  if outs.any (·.isNone) then { val := 0, flags := 0, err := true }
  else resOf dst (outs.map (fun o => o.getD (0, false)))

/-! ## Transcendental functions (R213, log 13)

Each is computed to far more bits than the nearest rounding boundary needs, as an exact fraction
strictly between the same two neighbours as the true value, and then rounded once. -/

/-- Fraction bits of the fixed point used. -/
def fx : Nat := 320

/-- The bits of log2 of a fixed-point number in [1, 2), by repeated squaring. -/
def log2Bits : Nat → Nat → Nat → Nat
  | 0, _, acc => acc
  | n + 1, y, acc =>
    let z := y * y / 2 ^ fx
    if 2 ^ (fx + 1) ≤ z then log2Bits n (z / 2) (2 * acc + 1) else log2Bits n z (2 * acc)

/-- log2 of a positive fraction. -/
def log2FV (n d : Nat) : FV :=
  let e := ilog2 n d
  let (num, den) := scaled n d (e - fx)
  let m := num / den
  if m = 2 ^ fx ∧ num % den = 0 then FV.ofInt e
  else
    let f := log2Bits 140 m 0
    -- e + (f + 1/2) / 2^140
    (FV.ofInt (e * 2 ^ 141 + (2 * f + 1 : Nat))).scale (-141)

/-- The product of 2^(2^-i) over the set bits of a fraction f of k bits still to take, where s is
2^(2^-i) of the bit before. -/
def exp2Frac : Nat → Nat → Nat → Nat → Nat
  | 0, _, _, acc => acc
  | k + 1, f, s, acc =>
    let r := Nat.sqrt (s * 2 ^ fx)
    exp2Frac k f r (if bitAt f k then acc * r / 2 ^ fx else acc)

/-- 2^x for a finite value of at most 150 fraction bits. -/
def exp2FV (s : Bool) (n d : Nat) : FV :=
  -- x = t / 2^150
  let t : Int := (if s then -1 else 1) * ((n * 2 ^ 150 / d : Nat) : Int)
  let whole := t / 2 ^ 150
  let f := (t % 2 ^ 150).toNat
  if 200 ≤ whole then .inf false
  else if whole < -300 then .zero
  else if f = 0 then (FV.num false 1 1).scale whole
  else
    let m := exp2Frac 150 f (2 ^ (fx + 1)) (2 ^ fx)
    (FV.num false (2 * m + 1) 1).scale (whole - (fx + 1 : Nat))

/-- 1/√x of a positive fraction: enough bits of the root, with a sticky half below where it is
not exact. -/
def rsqrtFV (n d : Nat) : FV :=
  -- sqrt(d / n) * 2^300
  let q := d * 2 ^ 600 / n
  let r := Nat.sqrt q
  if r * r = q ∧ d * 2 ^ 600 % n = 0 then (FV.num false r 1).scale (-300)
  else (FV.num false (2 * r + 1) 1).scale (-301)

/-- VRCP, VRSQ, VLOG2, VEXP2 of one value (R213). -/
def transFV (op : Nat) (v : FV) : FV :=
  match op, v with
  | _, .nan => .nan
  | 0x12, .inf s => .num s 0 1
  | 0x12, .num s n d => if n = 0 then .inf s else .num s d n
  | 0x13, .inf s => if s then .nan else .zero
  | 0x13, .num s n d => if n = 0 then .inf s else if s then .nan else rsqrtFV n d
  | 0x14, .inf s => if s then .nan else .inf false
  | 0x14, .num s n d => if n = 0 then .inf true else if s then .nan else log2FV n d
  | _, .inf s => if s then .zero else .inf false
  | _, .num s n d => if n = 0 then FV.ofInt 1 else exp2FV s n d

def transEl (s : StageW) (flush : Bool) (x : Nat) : Nat × Bool :=
  fltRes 3 0 s.sat flush (transFV s.op (fltOf 3 flush x))

/-! ## Moving and shaping lanes -/

/-- One bits of a number below 2^n. -/
def popcount (n x : Nat) : Nat := (List.range n).foldl (fun a k => if bitAt x k then a + 1 else a) 0

/-- Leading zero bits of an element of w bits. -/
def leadZeros (w x : Nat) : Nat := if x = 0 then w else w - (x.log2 + 1)

/-- VSHUF (R214). -/
def vshuf (a b : Wide) : Wide := ofLanes ((lanes b).map (fun i => lane a (i % 16)))

/-- VIDX (R214). -/
def vidx (incl : Bool) (a : Wide) : Wide :=
  ofLanes ((List.range 16).map (fun k =>
    ((lanes a).take (if incl then k + 1 else k)).countP (· != 0)))

/-- One word in every lane. -/
def splat (x : Nat) : Wide := ofLanes (List.replicate 16 x)

/-- VPACK (R216). -/
def vpack (s : StageW) (a b : Wide) : Res :=
  if s.ty = 1 then
    let n := fun x => fitInt true 16 s.sat (toSigned 32 x)
    let l := List.zipWith (fun x y => [n x, n y]) (lanes a) (lanes b)
    resOf 1 l.flatten
  else
    let n := fun x => fitInt true 8 s.sat (toSigned 16 x)
    let l := List.zipWith (fun x y =>
      [n (x % 2 ^ 16), n (x / 2 ^ 16), n (y % 2 ^ 16), n (y / 2 ^ 16)]) (lanes a) (lanes b)
    resOf 2 l.flatten

/-- VUNPK (R216). -/
def vunpk (s : StageW) (a : Wide) : Wide :=
  let w := tyWidth s.ty
  let j := s.aux % 2
  let ext := fun (x to_ : Nat) => if bitAt s.aux 1 then x else ((toSigned w x) % 2 ^ to_).toNat
  if s.ty = 1 then ofLanes ((lanes a).map (fun x => ext (bits x (16 * j) 16) 32))
  else ofLanes ((lanes a).map (fun x =>
    ext (bits x (16 * j) 8) 16 + 2 ^ 16 * ext (bits x (16 * j + 8) 8) 16))

/-- VDOT4 (R217) with addend z. -/
def vdot (s : StageW) (flush : Bool) (a b z : Wide) : Res :=
  let c := tyCount s.ty
  let ea := elems s.ty a
  let eb := elems s.ty b
  let lane_ := fun k =>
    let ps := (List.range c).map (fun e => (nth ea (c * k + e) 0, nth eb (c * k + e) 0))
    if s.ty = 2 then
      fitInt true 32 s.sat (ps.foldl (fun t p => t + toSigned 8 p.1 * toSigned 8 p.2) (toSigned 32 (lane z k)))
    else
      let nz := s.rnd == 2
      let sum := ps.foldl (fun t p => t.add nz ((fltOf s.ty flush p.1).mul (fltOf s.ty flush p.2)))
        (fltOf 3 flush (lane z k))
      fltRes 3 s.rnd s.sat flush sum
  resOf 0 ((List.range 16).map lane_)

/-! ## Reducers -/

/-- The exact sum of floating elements, zeros unsigned (R219, R176). -/
def sumFV (l : List FV) : FV := l.foldl (fun t v => t.add false v.unsign) .zero

/-- RSUM of elements (R219): the value, and whether it clamped. -/
def rsumOf (s : StageW) (flush : Bool) (outTy : Nat) (l : List Nat) : Nat × Bool :=
  if tyFloat s.ty then fltRes outTy s.rnd s.sat flush (sumFV (l.map (fltOf s.ty flush))).unsign
  else intRes outTy s.sat (l.foldl (fun t x => t + intOf s.ty x) 0)

/-- Whether element value x beats y strictly, zeros equal (R220). -/
def beats (isMax : Bool) (ty : Nat) (flush : Bool) (x y : Nat) : Bool :=
  if tyFloat ty then
    let a := fltOf ty flush x
    let b := fltOf ty flush y
    if isMax then b.lt a else a.lt b
  else if isMax then intOf ty y < intOf ty x else intOf ty x < intOf ty y

/-- The position of the best element that is no NaN, from position n on (R220). -/
def bestOf (isMax : Bool) (ty : Nat) (flush : Bool) : Nat → List Nat → Option (Nat × Nat) → Option (Nat × Nat)
  | _, [], best => best
  | n, x :: r, best =>
    bestOf isMax ty flush (n + 1) r
      (if tyFloat ty && (fltOf ty flush x).isNan then best
       else match best with
         | none => some (n, x)
         | some (m, y) => if beats isMax ty flush x y then some (n, x) else some (m, y))

/-- The value a choice puts into lane 0 (R218, R220). -/
def bestLane (ty : Nat) (flush : Bool) : Option (Nat × Nat) → Nat
  | none => if ty = 6 then 0x80 else 0x7FC00000
  | some (_, x) =>
    if ty = 6 then encodeF .d8 0 false flush (fltOf 6 flush x)
    else if tyFloat ty then encodeF .fp32 0 false flush (fltOf ty flush x).unsign
    else (intOf ty x % 2 ^ 32).toNat

/-- RSUM, RMAX, RMIN, RARGMX, RARGMN (R219, R220); `bz` says that source B is z. -/
def reduce (s : StageW) (flush : Bool) (bz : Bool) (a b : Wide) : Res :=
  let l := elems s.ty a
  if s.op = 0x40 then
    let r := rsumOf s flush (if tyFloat s.ty then 3 else if s.ty = 7 then 7 else 0) l
    { val := ofLanes [r.1], flags := if r.2 then 1 else 0, err := false }
  else
    let isMax := s.op == 0x41 || s.op == 0x43
    let best := bestOf isMax s.ty flush 0 l none
    let idx := match best with
      | none => 0xFFFFFFFF
      | some (n, _) => if bz then n else lane b n
    Res.plain (ofLanes (if s.op ≤ 0x42 then [bestLane s.ty flush best] else [bestLane s.ty flush best, idx]))

/-- One element of RSCAN over a prefix (R221). -/
def scanEl (s : StageW) (flush : Bool) (l : List Nat) : Nat × Bool :=
  if s.aux % 4 = 0 then rsumOf s flush s.ty l
  else
    match bestOf (s.aux % 4 == 1) s.ty flush 0 l none with
    | none => (nanCode (tyFmt s.ty), false)
    | some (_, x) =>
      if tyFloat s.ty then (encodeF (tyFmt s.ty) 0 false flush (fltOf s.ty flush x).unsign, false)
      else (x, false)

/-- RSCAN (R221). -/
def rscan (s : StageW) (flush : Bool) (a : Wide) : Res :=
  let l := elems s.ty a
  resOf s.ty ((List.range l.length).map (fun n => scanEl s flush (l.take (n + 1))))

/-! ## Sparse words -/

/-- PFXS (R238). -/
def pfxs (w : Nat) (a b : Wide) : Wide :=
  let m := (a &&& b).toNat
  let ones := (List.range 512).filter (fun n => bitAt m n)
  ofLanes ((List.range 16).map (fun k =>
    match ones[16 * w + k]? with
    | some n => popcount 512 (b.toNat % 2 ^ n) * 2 ^ 16 + popcount 512 (a.toNat % 2 ^ n)
    | none => 0xFFFFFFFF))

/-- Insertion into a sorted list. -/
def insertNat (x : Nat) : List Nat → List Nat
  | [] => [x]
  | y :: r => if x ≤ y then x :: y :: r else y :: insertNat x r

def sortNat (l : List Nat) : List Nat := l.foldr insertNat []

/-- A sorted list without repeats. -/
def dedupSorted : List Nat → List Nat
  | x :: y :: r => if x = y then dedupSorted (y :: r) else x :: dedupSorted (y :: r)
  | l => l

/-- The entries of an index list: lanes 0 to 7, empty ones left out (R239). -/
def entries (v : Wide) : List Nat := ((lanes v).take 8).filter (· != 0xFFFFFFFF)

/-- Lanes packed from 0, the rest empty. -/
def packLanes (l : List Nat) : Wide := ofLanes (l ++ List.replicate (16 - l.length) 0xFFFFFFFF)

/-- SMRG, SISX, SUNI (R239). -/
def merge (op aux : Nat) (a b : Wide) : Wide :=
  let x := entries a
  let y := entries b
  match op with
  | 0x53 => packLanes (sortNat (x ++ y))
  | 0x55 => packLanes (dedupSorted (sortNat (x ++ y)))
  | _ =>
    let both := dedupSorted (sortNat (x.filter (y.contains ·)))
    if bitAt aux 0 then
      packLanes (both.map (fun v => ((lanes b).take 8).idxOf v * 2 ^ 16 + ((lanes a).take 8).idxOf v))
    else packLanes both

/-- A fibre window (R240). -/
def window (x fin : Nat) : Wide :=
  ofLanes ((List.range 16).map (fun k => if x + k < fin then x + k else 0xFFFFFFFF))

/-! ## A word of a firing that only computes -/

/-- The result of an element word that changes nothing but a destination register (R205 to
R221, R237 to R239): operands a and b, third operand c (the addend of VFMA and VDOT4, the
condition of VSEL), whether A is a scalar input, whether B is z. -/
def compute (s : StageW) (flush scalarA bz : Bool) (a b c : Wide) : Res :=
  match s.op with
  | 0x01 | 0x02 | 0x03 => map2 s.ty (arithEl s.op s flush) a b
  | 0x04 => map3 s.ty (fmaEl s flush) a b c
  | 0x05 => map2 s.ty (maxEl true s flush) a b
  | 0x06 => map2 s.ty (maxEl false s flush) a b
  | 0x07 => map1 s.ty (absEl false s flush) a
  | 0x08 => map1 s.ty (absEl true s flush) a
  | 0x09 => Res.plain (a &&& b)
  | 0x0A => Res.plain (a ||| b)
  | 0x0B => Res.plain (a ^^^ b)
  | 0x0C | 0x0D | 0x0E => map2 s.ty (shiftEl s.op s.ty) a b
  | 0x0F => map2 s.ty (cmpEl s flush) a b
  | 0x10 => map3 s.ty selEl a b c
  | 0x11 => vcvt s flush a b
  | 0x12 | 0x13 | 0x14 | 0x15 => map1 3 (transEl s flush) a
  | 0x16 => map1 s.ty (fun x => (leadZeros (tyWidth s.ty) x, false)) a
  | 0x17 => map1 s.ty (fun x => (popcount 32 x, false)) a
  | 0x19 => Res.plain (vshuf a b)
  | 0x1A =>
    Res.plain (splat (if scalarA then bits a.toNat (32 * (s.aux % 2)) 32 else lane a (s.aux % 16)))
  | 0x1B => vpack s a b
  | 0x1C => Res.plain (vunpk s a)
  | 0x1D => vdot s flush a b c
  | 0x1E => Res.plain (vidx (bitAt s.aux 0) a)
  | 0x40 | 0x41 | 0x42 | 0x43 | 0x44 => reduce s flush bz a b
  | 0x45 => rscan s flush a
  | 0x50 => Res.plain (if bitAt s.aux 0 then a &&& ~~~b else a &&& b)
  | 0x51 => Res.plain (if bitAt s.aux 0 then a ||| ~~~b else a ||| b)
  | 0x52 => Res.plain (pfxs s.aux a b)
  | 0x53 | 0x54 | 0x55 => Res.plain (merge s.op s.aux a b)
  | _ => Res.plain a

end Sys2Proof.Machine
end

