-- ==== Sys2Proof/Machine/Homes.lean ====
section
/-!
DEFINITION. What the homes do with one location (R21): writes and the trigger bindings they
fire, atomics, counter adds and sync words; and when an outstanding access may be performed
(R255).
-/

namespace Sys2Proof.Machine

/-! ## Loads queued to the fabric managers -/

/-- A load given to the fabric manager (R306): its number, and the workspace with it queued. -/
def Work.queueLoad (w : Work) (l : Load) : Nat × Work :=
  (w.m.nextLoad, w.mach (fun m =>
    { m with loads := aset m.loads m.nextLoad l, nextLoad := m.nextLoad + 1 }))

/-- The binding at a counter fires if the counter's value has reached its threshold (R146): the
binding is removed and its image load queued at the launch's priority (R317). -/
def Work.fireTrigger (w : Work) (key : Nat) : Work :=
  match aget w.m.trigs key with
  | none => w
  | some t =>
    if w.read key 8 < t.thresh.toNat then w
    else
      let v := w.mach (fun m => { m with trigs := aerase m.trigs key })
      (v.queueLoad { launch := t.launch, region := t.region, report := .trigger t.status,
                     image := t.image, restore := false, nbv := t.nbv, trans := t.trans,
                     prio := ((w.m.launch? t.launch).map (·.prio)).getD 4, accepted := false,
                     words := [], reads := [], fault := none, staged := [] }).2

/-- Ring slots whose bytes a plain write touches lose their marks (R290): the hook every write
into scratchpad passes through. The rings are those of the cluster's bank tiles. -/
def Ring.unmark (r : Ring) (lo hi : Nat) : Ring :=
  { r with cells := r.cells.map (fun c =>
      let a := r.base + c.1 * r.size
      if a < hi && lo < a + r.size then
        (c.1, { c.2 with bitmap := none, zero := none, finite := none })
      else c) }

/-- The bank tile and the offset in its share that hold an offset of the scratchpad (R250). -/
def bankOf (o : Nat) : Nat := o / 4096 % 32
def bankOffset (o : Nat) : Nat := o / 2 ^ 17 * 4096 + o % 4096

/-- The position of bank tile number n, in row-major order of the bank tiles (R250, R14). -/
def bankPos (n : Nat) : Nat × Nat := (2 * (n % 4) + (if (n / 4) % 2 = 0 then 1 else 0), n / 4)

/-- The number of the bank tile at a position. -/
def bankNum (x y : Nat) : Nat := 4 * y + x / 2

/-- A waiting CWAIT compares its target with each later value of its counter, and one satisfied stays so
(R114). -/
def Thread.compares (t : Thread) (w : Work) (key n : Nat) : Thread :=
  match t.waits with
  | some x => if key < x.key + 8 && x.key < key + n && x.target ≤ w.read x.key 8 then
      { t with waits := some { x with met := true } } else t
  | none => t

/-- The waiters on what a write of n bytes at a key touched compare (R114). -/
def Work.compared (w : Work) (key n : Nat) : Work :=
  w.mach (fun m => { m with thr := m.thr.map (fun e => (e.1, e.2.compares w key n)) })

/-- What a write of n bytes at a key does beside its bytes: marks of ring slots it touched become
unknown (R290), and a trigger binding on the location may fire (R146). -/
def Work.touched (w : Work) (key n : Nat) : Work :=
  if 2 ^ 60 ≤ key then
    let g := (key - 2 ^ 60) / 2 ^ 32
    let o := (key - 2 ^ 60) % 2 ^ 32
    let (x, y) := bankPos (bankOf o)
    let lo := bankOffset o
    w.mach (fun m => { m with clusters := amod m.clusters g (fun c =>
      { c with ctxs := c.ctxs.map (fun e =>
          if e.1 / 4 == 8 * y + x then
            (e.1, { e.2 with rings := e.2.rings.map (fun r => r.unmark lo (lo + n)) })
          else e) }) })
  else if key % 8 + n ≤ 8 then w.fireTrigger (key / 8 * 8)
  else (List.range ((key % 8 + n + 7) / 8)).foldl (fun u k => u.fireTrigger (key / 8 * 8 + 8 * k)) w

/-- The sync words that a cluster holds, by their offsets in its scratchpad. -/
def Mach.syncsOf (m : Mach) (g : Nat) : List Nat := ((aget m.clusters g).map (·.syncs)).getD []

/-- A byte of a write at an offset of the scratchpad that lies in a sync word's reserved bits: these ignore
writes and read 0 (R116, log 65). -/
def syncKeeps (o : Nat) (v : Byte) : Byte := if o % 16 = 12 then v &&& 3 else if 12 < o % 16 then 0 else v

/-- A byte holds reserved bits of a sync word (R116). -/
def Mach.syncReserves (m : Mach) (a : Nat) : Bool :=
  let o := (a - 2 ^ 60) % 2 ^ 32
  2 ^ 60 ≤ a && 12 ≤ o % 16 && (m.syncsOf ((a - 2 ^ 60) / 2 ^ 32)).contains (o - o % 16)

/-- What a write of a byte at a key leaves there (R116). -/
def Mach.settles (m : Mach) (a : Nat) (v : Byte) : Byte := if m.syncReserves a then syncKeeps (a - 2 ^ 60) v else v

/-- The reserved bits of sync words among n bytes just written at a key ignore the write (R116). -/
def Work.syncMask (w : Work) (key n : Nat) : Work :=
  if key < 2 ^ 60 then w
  else (List.range n).foldl (fun u i =>
    if u.m.syncReserves (key + i) then u.putByte (key + i) (w.m.settles (key + i) (u.byte (key + i))) else u) w

/-- A write of n bytes at a key has been performed: reserved bits of sync words stand, and marks, triggers and
waiters see it. -/
def Work.wrote (w : Work) (key n : Nat) : Work := ((w.syncMask key n).compared key n).touched key n

/-- Bytes written over runs of keys as ordinary stores: triggers, waiters and marks see each run. -/
def Work.deviceWrite (w : Work) (rs : List (Nat × Nat × Kind)) (d : List Byte) : Work :=
  rs.foldl (fun u q => u.wrote q.1 q.2.1) ((w.portsNow false rs).putRuns rs d)

/-- What stands in the way of an access to runs of keys by what walks through a cache (R374). -/
def Mach.wayFault (m : Mach) (c : Nat) (rs : List (Nat × Nat × Kind)) : Option XFault :=
  (cacheDie c).bind (fun die =>
    if rs.any (fun r => m.way die r.1 = .lost) then some .lost
    else if rs.any (fun r => m.way die r.1 = .wait) then some .wait
    else none)

/-- Bytes written through a translation at once. -/
def Work.store (w : Work) (c : Nat) (tr : Trans) (va : Nat) (d : List Byte) :
    Except (XFault × Nat) Unit × Work :=
  match w.spanOf c tr va d.length .write with
  | (.ok rs, v) => match v.m.wayFault c rs with
    | some f => (.error (f, va), v)
    | none => (.ok (), v.deviceWrite rs d)
  | (.error e, v) => (.error e, v)

/-- A write of n bytes meets, before anything that faults, a byte that waits for a detour (R374). -/
def Work.storeWaits (w : Work) (c : Nat) (tr : Trans) (va n : Nat) : Bool :=
  let upTo := match (w.spanOf c tr va n .write).1 with
    | .error (_, at_) => at_ - va
    | .ok _ => n
  match (w.spanOf c tr va n .write).1, w.spanOf c tr va upTo .write with
  | .error (.wait, _), _ => true
  | _, (.ok rs, v) => v.m.wayFault c rs = some .wait
  | _, (.error _, _) => false

/-- Bytes written at once through a captured translation, each write seen by triggers and marks: whether it
was allowed. -/
def Work.deviceStore (w : Work) (c : Nat) (tr : Trans) (va : Nat) (d : List Byte) : Bool × Work :=
  match w.store c tr va d with
  | (.ok _, v) => (true, v)
  | (.error _, v) => (false, v)

/-! ## Atomics (R110) -/

/-- A value at a width of n bytes as a signed number. -/
def signedAt (n v : Nat) : Int := if v < 2 ^ (8 * n - 1) then v else (v : Int) - 2 ^ (8 * n)

/-- The operation of an AMO or RED (codes of R74) at a width of n bytes. -/
def amoOp (p n old v : Nat) : Nat :=
  match p with
  | 0 => (old + v) % 2 ^ (8 * n)
  | 1 => old &&& v
  | 2 => old ||| v
  | 3 => old ^^^ v
  | 4 => if signedAt n old ≤ signedAt n v then old else v
  | 5 => if signedAt n old ≤ signedAt n v then v else old
  | 6 => Nat.min old v
  | 7 => Nat.max old v
  | _ => v

/-- A value made of a location's own bytes written there: bytes that carried an uncorrectable error still carry
it, for no store has replaced them (R372; DESIGN CHOICE, log 131). -/
def Work.update (w : Work) (key n v : Nat) : Work :=
  let u := (w.write key n v).wrote key n
  if w.poisoned key n then u.mark key n else u

/-- An indivisible read-modify-write at a key: the old value, and the location written. -/
def Work.amo (w : Work) (key n p v : Nat) : Nat × Work :=
  (w.read key n, w.update key n (amoOp p n (w.read key n) (v % 2 ^ (8 * n))))

/-- CAS at a key (R110): a failing one writes nothing. -/
def Work.cas (w : Work) (key n e v : Nat) : Nat × Work :=
  if w.read key n = e % 2 ^ (8 * n) then (w.read key n, w.update key n v)
  else (w.read key n, w)

/-! ## Counters (R113) -/

/-- An add at a counter's home: none where it would pass 2^64 - 1. -/
def Work.counterAdd (w : Work) (key : Nat) (v : Word) : Option Work :=
  if 2 ^ 64 ≤ w.read key 8 + v.toNat then none
  else some (w.update key 8 (w.read key 8 + v.toNat))

/-- The add of an engine: one that would overflow leaves the counter at 2^64 - 1 and reports it
(R114). -/
def Work.engineAdd (w : Work) (key : Nat) (v : Word) : Bool × Work :=
  match w.counterAdd key v with
  | some u => (true, u)
  | none => (false, w.update key 8 (2 ^ 64 - 1))

/-! ## Sync words (R116, R117) -/

/-- A sync word's fields: TARGET, COUNT, GEN, ARMED, OVF. -/
structure SyncWord where
  target : Nat
  count : Nat
  gen : Nat
  armed : Bool
  ovf : Bool
  deriving DecidableEq, Repr

/-- The sync word at a key. -/
def Work.syncAt (w : Work) (key : Nat) : SyncWord :=
  { target := w.read key 4, count := w.read (key + 4) 4, gen := w.read (key + 8) 4,
    armed := bitAt (w.read (key + 12) 4) 0, ovf := bitAt (w.read (key + 12) 4) 1 }

/-- The location at a key is a sync word once a SWSET, a SWWAIT or an accepted card names it, or an arrival
comes; its reserved bits read 0 from then on (R116, log 65). -/
def Work.noteSync (w : Work) (key : Nat) : Work :=
  if key < 2 ^ 60 then w
  else (w.mach (fun m => { m with clusters := amod m.clusters ((key - 2 ^ 60) / 2 ^ 32) (fun c =>
    { c with syncs := union c.syncs [(key - 2 ^ 60) % 2 ^ 32] }) })).syncMask (key + 12) 4

/-- The sync word at a key written; reserved bits read 0 (R116). -/
def Work.putSync (w : Work) (key : Nat) (x : SyncWord) : Work :=
  ((((w.noteSync key).write key 4 x.target).write (key + 4) 4 x.count).write (key + 8) 4 x.gen).write (key + 12) 4
    ((if x.armed then 1 else 0) + (if x.ovf then 2 else 0)) |>.wrote key 16

/-- Arrivals of n bytes counted (R117): every whole target passed advances a generation. A word that is
armed with TARGET 0, as only a plain store can leave it, would never end the rule's loop: it keeps COUNT
and advances no generation (DESIGN CHOICE, log 114). -/
def SyncWord.arrive (x : SyncWord) (n : Nat) : SyncWord :=
  if !x.armed then x
  else
    let sum := x.count + n
    let c := Nat.min sum (2 ^ 32 - 1)
    let y := { x with ovf := x.ovf || sum ≥ 2 ^ 32 }
    if x.target = 0 then { y with count := c }
    else { y with count := c % x.target, gen := (x.gen + c / x.target) % 2 ^ 32 }

/-- n bytes have arrived for the sync word at a key. -/
def Work.arrive (w : Work) (key n : Nat) : Work := w.putSync key ((w.syncAt key).arrive n)

/-! ## When an access may be performed (R255) -/

/-- Whether a piece is on an SO or DV page. -/
def Piece.strong (x : Piece) : Bool := x.kind = .so || x.kind = .dv

/-- Piece k of an outstanding access may be performed: no earlier acquire is outstanding (case
3), an access that is a release has no earlier access outstanding (case 4), and on SO and DV
pages the agent's earlier pieces on such pages have been performed, within the access in increasing
address order (case 2, R252). Slots, fences and register dependences have held the issue (cases 1, 5,
6). -/
def Thread.mayPerform (t : Thread) (p : Pend) (k : Nat) : Bool :=
  match p.pieces[k]? with
  | none => false
  | some x =>
    !x.done
    && (t.pend.takeWhile (fun q => q.id != p.id)).all (fun q =>
      !q.op.orders || (!q.acq && !p.rel && !(x.strong && q.pieces.any (fun y => !y.done && y.strong))))
    && (!x.strong || (p.pieces.take k).all (fun y => y.done || !y.strong))

/-- An outstanding word by number. -/
def Thread.pendAt (t : Thread) (id : Nat) : Option Pend := t.pend.find? (fun p => p.id == id)

/-- An outstanding word changed. -/
def Thread.modPend (t : Thread) (id : Nat) (f : Pend → Pend) : Thread :=
  { t with pend := t.pend.map (fun p => if p.id == id then f p else p) }

end Sys2Proof.Machine
end

