-- ==== Sys2Proof/Machine/MemOps.lean ====
section
/-!
DEFINITION. Majors 0x18 to 0x22: loads, stores, atomics, counters, sync words, fences and slot
waits (R103 to R119), and the events that perform what they leave outstanding.
-/

namespace Sys2Proof.Machine

/-! ## Loads and stores -/

/-- Bytes in an access (R47). -/
def sizeOf2 (z : BitVec 2) : Nat := 2 ^ z.toNat

/-- A run of n bytes at a VA and key cut at the naturally aligned 8-byte blocks (R252); `v` is
what is to be stored, from its first byte. -/
def cutPieces : Nat → Nat → Nat → Nat → Kind → Nat → List Piece
  | 0, _, _, _, _, _ => []
  | fuel + 1, va, key, n, kind, v =>
    if n = 0 then []
    else
      let here := Nat.min n (8 - va % 8)
      { va := w64 va, key := key, len := here, kind := kind, done := false,
        data := v % 2 ^ (8 * here), bad := false } ::
        cutPieces fuel (va + here) (key + here) (n - here) kind (v / 2 ^ (8 * here))

/-- The pieces of an access over its runs of keys. -/
def piecesOf : Nat → List (Nat × Nat × Kind) → Nat → List Piece
  | _, [], _ => []
  | va, (key, n, kind) :: r, v =>
    cutPieces 3 va key n kind v ++ piecesOf (va + n) r (v / 2 ^ (8 * n))

/-- The order code as acquire and release (R47). -/
def isAcq (o : BitVec 2) : Bool := o == 1
def isRel (o : BitVec 2) : Bool := o == 2

/-- The page of a VA is in reach and of kind DV, whatever its rights (R345: the kind is checked before
the rights). -/
def Work.onDevice (w : Work) (c : Nat) (tr : Trans) (va : Nat) : Bool :=
  va < 2 ^ 48 && match w.leaf c tr va with
    | (.ok e, v) => e.kind = .dv && (v.m.checkLeaf tr va .read { e with r := true, u := true }).toBool
    | (.error _, _) => false

/-- The lowest byte at which a plain access that is not aligned meets a DV page before anything else faults
(R103, R104, R345): on its first page, or on its second when the first lets it pass. -/
def Work.meetsDevice (w : Work) (c : Nat) (tr : Trans) (va n : Nat) (need : Need) : Option Nat :=
  let next := va - va % 4096 + 4096
  if w.onDevice c tr va then some va
  else if next < va + n && (w.translate c tr va need).1.toBool && w.onDevice c tr next then some next
  else none

/-- The lowest byte of an access whose alignment faults (R103): an acquire or release anywhere, a plain access
on a DV page. -/
def Work.misaligned (w : Work) (c : Nat) (tr : Trans) (va n : Nat) (plain : Bool) (need : Need) : Option Nat :=
  if va % n = 0 then none else if !plain then some va else w.meetsDevice c tr va n need

/-- A load or store at an effective address (R103, R104, R108, R109): checked and translated at
issue, then outstanding until its pieces are performed. -/
def memAccess (d : Reg) (slot : BitVec 3) (va : Word) (z o : BitVec 2) (isStore : Bool) (t : Thread) :
    Ctl Unit := do
  let size := sizeOf2 z
  let need : Need := if isStore then .write else .read
  let (c, tr) ← Ctl.trans
  let w ← get
  match w.misaligned c tr va.toNat size (o = 0) need with
  | some at_ => Ctl.trap 0x02 (w64 at_)
  | none => pure ()
  let rs ← Ctl.span va.toNat size need
  let v := (t.g d).toNat % 2 ^ (8 * size)
  Ctl.me (fun u => (u.addPend (fun id =>
    { id := id, set := slot.toNat, dest := if isStore || d = 0 then none else some d, holds := false,
      op := if isStore then .store else .load size, pieces := piecesOf va.toNat rs v,
      acq := isAcq o, rel := isRel o, scope := 9, vmid := tr.vmid, asid := tr.asid, va := va })).advance)

/-- The address of format M: g[a] + disp6 × size (R103). -/
def addrM (t : Thread) (a : Reg) (z : BitVec 2) (p : BitVec 6) : Word :=
  t.g a + (p.signExtend 64 <<< z.toNat)

def execLd (d a : Reg) (sl w : BitVec 3) (z o : BitVec 2) (p : BitVec 6) (s : State) :=
  s.ctl (.ld d a sl w z o p) [a] [d] sl w (fun t => memAccess d sl (addrM t a z p) z o false t)

def execSt (d a : Reg) (sl w : BitVec 3) (z o : BitVec 2) (p : BitVec 6) (s : State) :=
  s.ctl (.st d a sl w z o p) [a, d] [] sl w (fun t => memAccess d sl (addrM t a z p) z o true t)

def execLdx (d a b : Reg) (sl w : BitVec 3) (z o : BitVec 2) (s : State) :=
  s.ctl (.ldx d a b sl w z o) [a, b] [d] sl w (fun t => memAccess d sl (t.g a + t.g b) z o false t)

def execStx (d a b : Reg) (sl w : BitVec 3) (z o : BitVec 2) (s : State) :=
  s.ctl (.stx d a b sl w z o) [a, b, d] [] sl w (fun t => memAccess d sl (t.g a + t.g b) z o true t)

/-- The value the pieces of a load have read, zero-extended (R108). -/
def joinPieces : List Piece → Nat
  | [] => 0
  | x :: r => x.data + 2 ^ (8 * x.len) * joinPieces r

/-- An outstanding word whose value is here writes its destination, poisoned where the value carries an
uncorrectable error, and its slot clears (R105, R106). -/
def Thread.finish (t : Thread) (p : Pend) (v : Word) (bad : Bool) : Thread :=
  let u := t.endPend p.id (some v)
  if bad then
    let r := match p.dest with
      | some d => d.toNat
      | none => 0
    { u with
      poison := if r = 0 then u.poison else aset u.poison r p.va
      slotPoison := if p.set = 0 then u.slotPoison else aset u.slotPoison (32 * p.set + r) p.va }
  else u

/-- A load whose pieces have all been read is finished. -/
def Thread.finishLoad (t : Thread) (p : Pend) : Thread :=
  t.finish p (w64 (joinPieces p.pieces)) (p.pieces.any (·.bad))

/-- An outstanding access ends without its reply (R354, R374): a load leaves its register poisoned, as
one whose data is bad does; any other word traps with cause 0x11 and its VA at the next boundary.
A store or an atomic may have been performed, as `done` says. -/
def Work.loseAccess (w : Work) (k : Nat) (p : Pend) (done : Bool) : Work :=
  let trap := fun (u : Work) => (u.endPend k p.id none).askPark k 0x11 p.va
  match p.op, p.pieces with
  | .load _, _ => w.modThr k (fun t => t.finishLoad { p with pieces := p.pieces.map (fun x => { x with bad := true }) })
  | .store, _ =>
    trap (if done then p.pieces.foldl (fun u x => if x.done then u else (u.write x.key x.len x.data).wrote x.key x.len) w else w)
  | .amo o n v, x :: _ => trap (if done then (w.amo x.key n o v.toNat).2 else w)
  | .cas n e v, x :: _ => trap (if done then (w.cas x.key n e.toNat v.toNat).2 else w)
  | .red o n v, x :: _ => trap (if done then (w.amo x.key n o v.toNat).2 else w)
  | .cadd v, x :: _ => trap (if done then (w.counterAdd x.key v).getD w else w)
  | _, _ => w

/-- Whether an outstanding word gets bytes back from its home. -/
def PendOp.reads : PendOp → Bool
  | .load _ | .amo _ _ _ | .cas _ _ _ => true
  | _ => false

/-- An outstanding access may go its way, through a port where its memory lies behind one; or it waits for a
detour, or is lost (R374). -/
def Work.onWay (w : Work) (t : Nat) (q : Pend) (x : Piece) (go : Work → Work) : Work :=
  match w.m.way (agentDie t) x.key with
  | .go => w.throughPort x.key x.len q.op.reads go
  | .wait => w
  | .lost => w.loseAccess t q false

/-- Piece k of outstanding access p of agent t is performed, if the order allows: the piece of
a load reads its bytes, the piece of a store writes them; the access whose last piece this was
is complete. -/
def Work.performPiece (w : Work) (t p k : Nat) : Work :=
  match aget w.m.thr t with
  | none => w
  | some th =>
    match th.pendAt p with
    | none => w
    | some q =>
      match q.op, q.pieces[k]? with
      | .load _, some x =>
        if !th.mayPerform q k then w
        else w.onWay t q x <| fun w =>
          let q' := { q with pieces := modNth q.pieces k (fun y =>
            { y with done := true, data := w.read x.key x.len, bad := w.poisoned x.key x.len }) }
          if q'.pieces.all (·.done) then w.modThr t (fun u => u.finishLoad q')
          else w.modThr t (fun u => u.modPend p (fun _ => q'))
      | .store, some x =>
        if !th.mayPerform q k then w
        else w.onWay t q x <| fun w =>
          let q' := { q with pieces := modNth q.pieces k (fun y => { y with done := true }) }
          let v := (w.write x.key x.len x.data).wrote x.key x.len
          if q'.pieces.all (·.done) then v.endPend t p none
          else v.modThr t (fun u => u.modPend p (fun _ => q'))
      | _, _ => w

/-- A piece of a load is performed, and the reply of the last one reaches its thread (R106). -/
def execLoadReply (t p k : Nat) (s : State) := s.event (fun w =>
  match (aget w.m.thr t).bind (·.pendAt p) with
  | some q => match q.op with
    | .load _ => w.performPiece t p k
    | _ => w
  | none => w)

/-- A piece of a store is performed at its home (R106). -/
def execStorePerformed (t p k : Nat) (s : State) := s.event (fun w =>
  match (aget w.m.thr t).bind (·.pendAt p) with
  | some q => match q.op with
    | .store => w.performPiece t p k
    | _ => w
  | none => w)

/-! ## Atomics -/

/-- One single-copy atomic location translated for the acting agent: alignment, then the walk
and rights, then no DV page (R103). -/
def Ctl.location (va : Word) (n : Nat) (need : Need) : Ctl (Nat × Kind) := do
  if va.toNat % n ≠ 0 then Ctl.trap 0x02 va
  let rs ← Ctl.span va.toNat n need
  match rs with
  | (k, _, kind) :: _ => if kind = .dv then Ctl.trap 0x06 va else pure (k, kind)
  | [] => Ctl.trap 0x03 va

/-- An atomic at issue (R110, R112): translated, then outstanding until its home performs it. -/
def atomic (op : PendOp) (d : Reg) (n : Nat) (va : Word) (o : BitVec 2) (scope : Nat) : Ctl Unit := do
  let (k, kind) ← Ctl.location va n .both
  let (_, tr) ← Ctl.trans
  Ctl.me (fun u => (u.addPend (fun id =>
    { id := id, set := 0, dest := if d = 0 then none else some d, holds := false, op := op,
      pieces := [{ va := va, key := k, len := n, kind := kind, done := false, data := 0, bad := false }],
      acq := isAcq o, rel := isRel o, scope := scope, vmid := tr.vmid, asid := tr.asid, va := va })).advance)

/-- .w or .d (R74). -/
def sizeOf1 (z : BitVec 1) : Nat := if z = 0 then 4 else 8

def execAmo (d a b : Reg) (z : BitVec 1) (o : BitVec 2) (p sc : BitVec 4) (s : State) :=
  s.ctl (.amo d a b z o p sc) [a, b] [d] 0 0 (fun t =>
    atomic (.amo p.toNat (sizeOf1 z) (t.g b)) d (sizeOf1 z) (t.g a) o sc.toNat)

def execCas (d a b : Reg) (z : BitVec 1) (o : BitVec 2) (sc : BitVec 4) (s : State) :=
  s.ctl (.cas d a b z o sc) [a, b, d] [d] 0 0 (fun t =>
    atomic (.cas (sizeOf1 z) (t.g d) (t.g b)) d (sizeOf1 z) (t.g a) o sc.toNat)

def execRed (a b : Reg) (z : BitVec 1) (p sc : BitVec 4) (s : State) :=
  s.ctl (.red a b z p sc) [a, b] [] 0 0 (fun t =>
    atomic (.red p.toNat (sizeOf1 z) (t.g b)) 0 (sizeOf1 z) (t.g a) 0 sc.toNat)

/-- The home performs an atomic and returns the old value, zero-extended (R110); one that carries an
uncorrectable error arrives as a load's does (R105, R363). -/
def execAtomicAtHome (t p : Nat) (s : State) := s.event (fun w =>
  match aget w.m.thr t with
  | none => w
  | some th =>
    match th.pendAt p with
    | none => w
    | some q =>
      match q.pieces with
      | x :: _ =>
        if !th.mayPerform q 0 then w
        else w.onWay t q x <| fun w => match q.op with
          | .amo o n v =>
            let r := w.amo x.key n o v.toNat
            r.2.modThr t (fun u => u.finish q (w64 r.1) (w.poisoned x.key n))
          | .cas n e v =>
            let r := w.cas x.key n e.toNat v.toNat
            r.2.modThr t (fun u => u.finish q (w64 r.1) (w.poisoned x.key n))
          | .red o n v => (w.amo x.key n o v.toNat).2.endPend t p none
          | _ => w
      | [] => w)

/-! ## Counters -/

/-- CADD (R113): the thread issues nothing further until the home has acknowledged; a release,
so it is performed after every earlier access. PC stays at the word until then, so an overflow
traps precisely. -/
def execCadd (a b : Reg) (sc : BitVec 4) (s : State) :=
  s.ctl (.cadd a b sc) [a, b] [] 0 0 (fun t => do
    let (k, kind) ← Ctl.location (t.g a) 8 .both
    let (_, tr) ← Ctl.trans
    Ctl.me (fun u => u.addPend (fun id =>
      { id := id, set := 0, dest := none, holds := true, op := .cadd (t.g b),
        pieces := [{ va := t.g a, key := k, len := 8, kind := kind, done := false, data := 0, bad := false }],
        acq := false, rel := true, scope := sc.toNat, vmid := tr.vmid, asid := tr.asid, va := t.g a })))

/-- The counter's home applies a thread's add, and the CADD completes; an add that would
overflow leaves the counter and traps with cause 0x0A, TRAP.VAL the counter VA (R113). -/
def execCounterAddAtHome (t p : Nat) (s : State) := s.event (fun w =>
  match aget w.m.thr t with
  | none => w
  | some th =>
    match th.pendAt p with
    | none => w
    | some q =>
      match q.op, q.pieces with
      | .cadd v, x :: _ =>
        if !th.mayPerform q 0 then w
        else w.onWay t q x <| fun w => match w.counterAdd x.key v with
          | some u => (u.endPend t p none).modThr t (fun y => y.advance)
          | none => w.modThr t (fun y => (y.endPend p none).trap 0x0A y.pc q.va w.m.tb)
      | _, _ => w)

/-- A waiting CWAIT of this PC, counter and target has been satisfied by some value (R114). -/
def Thread.satisfied (t : Thread) (key target : Nat) : Bool :=
  t.waits == some { pc := t.pc, key := key, target := target, met := true }

/-- A counter read at its home for the acting agent, on its way there (R374) and through its port: its value,
and whether it carries an uncorrectable error. -/
def Ctl.readCounter (va : Word) (k : Nat) (kind : Kind) : Ctl (Nat × Bool) := do
  let _ ← Ctl.bytes va.toNat [(k, 8, kind)]
  let w ← get
  pure (w.read k 8, w.poisoned k 8)

/-- A waiting CWAIT of this PC, counter and target that no value has satisfied yet. -/
def Thread.unsatisfied (t : Thread) (key target : Nat) : Bool :=
  t.waits == some { pc := t.pc, key := key, target := target, met := false }

/-- CWAIT (R113, R114): holds the thread until the counter has reached the target; then an acquire. A home that
has been asked answers when a value satisfies it. -/
def execCwait (a b : Reg) (sc : BitVec 4) (s : State) :=
  s.ctl (.cwait a b sc) [a, b] [] 0 0 (fun t => if t.waits.any (fun v => v.met && v.pc == t.pc) then Ctl.me Thread.passWait else do
    let (k, kind) ← Ctl.location (t.g a) 8 .read
    if !t.clear kind then Ctl.hold
    let target := (t.g b).toNat
    let pass : Ctl Unit := do
      Ctl.me (fun u => { u with waits := none })
      Ctl.done
    if t.satisfied k target then pass
    else if t.unsatisfied k target then Ctl.hold
    else do
      let (v, _) ← Ctl.readCounter (t.g a) k kind
      if target ≤ v then pass
      else Ctl.me (fun u => { u with waits := some { pc := t.pc, key := k, target := target, met := false } }))

/-- CTEST (R113): the counter as read at the home; an acquire. A value that carries an uncorrectable error
poisons its register as a load's does (R105, R363). -/
def execCtest (d a : Reg) (sc : BitVec 4) (s : State) :=
  s.ctl (.ctest d a sc) [a] [d] 0 0 (fun t => do
    let (k, kind) ← Ctl.location (t.g a) 8 .read
    if !t.clear kind then Ctl.hold
    let (v, bad) ← Ctl.readCounter (t.g a) k kind
    Ctl.result d (w64 v)
    if bad && d != 0 then Ctl.me (fun u => { u with poison := aset u.poison d.toNat (t.g a) })
    Ctl.done)

/-! ## Sync words -/

/-- The sync word of the acting agent's own scratchpad at a VA (R103): 16-aligned, in the
issuing cluster's share. -/
def Ctl.syncWord (va : Word) (need : Need) : Ctl (Nat × Kind) := do
  if va.toNat % 16 ≠ 0 then Ctl.trap 0x02 va
  if 2 ^ 48 ≤ va.toNat then Ctl.trap (xcause need .trans) va
  let (_, tr) ← Ctl.trans
  let w ← get
  let own := match tr.cluster with
    | some g => winBase ≤ va.toNat && va.toNat + 16 ≤ winBase + w.m.scratchLen g
    | none => false
  if !own then Ctl.trap 0x06 va
  let rs ← Ctl.span va.toNat 16 need
  match rs with
  | (k, _, kind) :: _ => pure (k, kind)
  | [] => Ctl.trap 0x04 va

/-- SWSET (R118). -/
def execSwset (a b : Reg) (sc : BitVec 4) (s : State) :=
  s.ctl (.swset a b sc) [a, b] [] 0 0 (fun t => do
    let (k, kind) ← Ctl.syncWord (t.g a) .both
    if (t.g b).toNat ≥ 2 ^ 32 then Ctl.trap 0x0D (Config.freeTrapVal s.m.free)
    if !t.clear kind then Ctl.hold
    Ctl.upd (fun w => w.putSync k { w.syncAt k with
      target := (t.g b).toNat, count := 0, ovf := false, armed := t.g b != 0 })
    Ctl.done)

/-- SWWAIT (R118): the thread stays at it until the generation has been reached; then an acquire. -/
def execSwwait (a b : Reg) (sc : BitVec 4) (s : State) :=
  s.ctl (.swwait a b sc) [a, b] [] 0 0 (fun t => do
    let (k, kind) ← Ctl.syncWord (t.g a) .read
    if !t.clear kind then Ctl.hold
    Ctl.upd (fun u => u.noteSync k)
    let w ← get
    let ahead := ((w.syncAt k).gen + 2 ^ 32 - (t.g b).toNat % 2 ^ 32) % 2 ^ 32
    if 2 ^ 31 ≤ ahead then pure () else Ctl.done)

/-! ## Fences and slot waits -/

/-- The earlier accesses a FENCE waits for (R119). -/
def fenceWaits (k : BitVec 3) : PendOp → Bool
  | .load _ | .amo _ _ _ | .cas _ _ _ => true
  | .store | .red _ _ _ | .cadd _ => k != 1
  | _ => false

/-- FENCE (R119): holds the thread until the accesses its kind names are performed. -/
def execFence (k : BitVec 3) (sc : BitVec 4) (s : State) :=
  s.ctl (.fence k sc) [] [] 0 0 (fun t =>
    if t.pend.any (fun p => fenceWaits k p.op) then Ctl.hold else Ctl.done)

/-- The slots of a mask (R49). -/
def maskSlots (m : BitVec 7) : List Nat := ((List.range 7).filter (fun k => m.getLsbD k)).map (· + 1)

/-- SBWAIT (R107): holds until every named slot is clear; a slot whose load arrived poisoned
traps with cause 0x11 (R105), the lowest of several with the address of its load (DESIGN CHOICE, log 161). -/
def execSbwait (m : BitVec 7) (s : State) : Host.Outcome State Fault Refusal :=
  match s.me with
  | none => .fault .noAgent
  | some t =>
    if !(Instr.sbwait m).wf then s.illegal (wordOfInstr (.sbwait m))
    else if t.pend.any (fun p => (maskSlots m).contains p.set) then .next s
    else match (maskSlots m).find? (fun k => (t.slotPoisoned k).isSome) with
      | some k =>
        .next (s.putThr s.m.cur ((t.spendSlot k).trap 0x11 t.pc ((t.slotPoisoned k).getD 0) s.m.tb))
      | none => .next (s.putThr s.m.cur t.advance)

end Sys2Proof.Machine
end

