-- ==== Sys2Proof/Machine/Desc.lean ====
section
/-!
DEFINITION. Tensor descriptors and the descriptor table (R120 to R122): their layout and
checks, the ranges a tensor covers, the address of an element; TDSET and TDINV.
-/

namespace Sys2Proof.Machine

/-- Bytes of an element by FMT (R120, R162). -/
def fmtSize (f : Nat) : Nat :=
  match f with
  | 0 => 1 | 1 => 2 | 2 => 4 | 3 => 8 | 4 => 1 | 5 => 2 | 6 => 4 | 7 => 8
  | 8 => 1 | 9 => 2 | 10 => 2 | _ => 4

/-- A descriptor as its bytes lay it out (R120). -/
def parseDesc (d : List Byte) : Desc :=
  let w0 := fieldAt d 0 4
  { valid := bitAt w0 31, fmt := bits w0 24 4, rank := bits w0 20 3, scaled := bitAt w0 16,
    base := fieldAt d 8 8, scale := fieldAt d 0x10 8,
    dims := (List.range 7).map (fun k => fieldAt d (0x18 + 4 * k) 4),
    strides := (List.range 7).map (fun k => (BitVec.ofNat 64 (fieldAt d (0x38 + 8 * k) 8)).toInt) }

/-- The offset of the first failing check of a list in order. -/
def firstFail : List (Nat × Bool) → Option Nat
  | [] => none
  | (o, ok) :: r => if ok then firstFail r else some o

/-- The words of n 4-byte words from an offset that must be 0, as checks. -/
def zeroChecks (d : List Byte) (off n : Nat) : List (Nat × Bool) :=
  (List.range n).map (fun k => (off + 4 * k, fieldAt d (off + 4 * k) 4 == 0))

/-- The offset of the first word of a descriptor that breaks R120. Of a field of 8 bytes its first word is the
word at fault where the bits at fault lie in both or the value as a whole breaks its rule, as a STRIDEk of 0 or
a STRIDE0 that is not the element's size does (DESIGN CHOICE, log 117). -/
def descFault (d : List Byte) : Option Nat :=
  let w0 := fieldAt d 0 4
  let x := parseDesc d
  firstFail (
    [(0, bits w0 28 3 == 0 && x.fmt ≤ 11 && !bitAt w0 23 && 1 ≤ x.rank && bits w0 17 3 == 0
        && (!x.scaled || (8 ≤ x.fmt && x.fmt ≤ 10)) && bits w0 0 16 == 0),
     (4, fieldAt d 4 4 == 0),
     (0x0C, fieldAt d 0x0E 2 == 0),
     (0x10, x.scaled || fieldAt d 0x10 4 == 0),
     (0x14, if x.scaled then fieldAt d 0x16 2 == 0 else fieldAt d 0x14 4 == 0)]
    ++ (List.range 7).map (fun k =>
      let v := fieldAt d (0x18 + 4 * k) 4
      (0x18 + 4 * k, if k < x.rank then 1 ≤ v && v ≤ 2 ^ 31 else v == 0))
    ++ [(0x34, fieldAt d 0x34 4 == 0)]
    ++ ((List.range 7).map (fun k =>
      if k < x.rank then
        [(0x38 + 8 * k, fieldAt d (0x38 + 8 * k) 8 != 0 &&
          (k != 0 || !x.scaled || nth x.strides 0 0 == (fmtSize x.fmt : Int)))]
      else zeroChecks d (0x38 + 8 * k) 2)).flatten
    ++ zeroChecks d 0x70 4)

/-- The dimensions in use, innermost first. -/
def Desc.shape (x : Desc) : List Nat := x.dims.take x.rank

/-- The product of a list. -/
def prod (l : List Nat) : Nat := l.foldl (· * ·) 1

/-- The number of elements. -/
def Desc.count (x : Desc) : Nat := prod x.shape

/-- The byte offset of the element at linear index e, innermost dimension fastest (R120). -/
def elemOffset : Nat → List Nat → List Int → Int
  | e, n :: ns, t :: ts => (e % n : Nat) * t + elemOffset (e / n) ns ts
  | _, _, _ => 0

/-- The VA of element e, as a number modulo 2^64. -/
def Desc.elem (x : Desc) (e : Nat) : Nat :=
  (((x.base : Int) + elemOffset e x.shape x.strides) % 2 ^ 64).toNat

/-- The bounding range (R121): lowest byte and length. -/
def Desc.bound (x : Desc) : Int × Nat :=
  let ext := (x.shape.zip x.strides).map (fun p => ((p.1 : Int) - 1) * p.2)
  let lo := ext.foldl (fun a e => if e < 0 then a + e else a) (x.base : Int)
  let hi := ext.foldl (fun a e => if 0 < e then a + e else a) (x.base : Int) + fmtSize x.fmt
  (lo, (hi - lo).toNat)

/-- Scale bytes of one row of DIM0 elements (R120). -/
def Desc.scaleRow (x : Desc) : Nat := (nth x.dims 0 0 + 31) / 32

/-- The scale range (R121), for a scaled tensor. -/
def Desc.scaleRange (x : Desc) : Option (Int × Nat) :=
  if x.scaled then some ((x.scale : Int), prod (x.shape.drop 1) * x.scaleRow) else none

/-- Rows of a gather or scatter (R126): DIM0 slices, or elements for RANK 1. -/
def Desc.rows (x : Desc) : Nat := if x.rank = 1 then nth x.dims 0 0 else prod (x.shape.drop 1)

/-- The elements of one row. -/
def Desc.rowLen (x : Desc) : Nat := if x.rank = 1 then 1 else nth x.dims 0 0

/-- The key of descriptor id of an agent's partition (R337), or none in no partition (log 33). -/
def Mach.descPa (m : Mach) (part : Option Nat) (id : Nat) : Option Nat :=
  match part with
  | some p => if m.validPart p then some (m.keyOf ((m.part p).entry.tdt + 128 * id)) else none
  | none => none

/-- The package of a descriptor's memory refuses its partition (R354): a table may lie in a domain range. -/
def Mach.descRefused (m : Mach) (part : Option Nat) (id : Nat) : Bool :=
  match part with
  | some p => m.refused (m.part p).entry.vmid ((m.part p).entry.tdt + 128 * id)
  | none => false

/-- A descriptor read, with what its port brings where the table lies behind one (R394, R395). -/
def Work.descIn (w : Work) (part : Option Nat) (id : Nat) : Work :=
  match w.m.descPa part id with
  | some pa => if w.m.descRefused part id then w else w.portNow pa 128 true
  | none => w

/-- Descriptor id of a partition's table, if it may be named by a job (R120, R125). -/
def Work.desc (w : Work) (part : Option Nat) (id : Nat) : Option Desc :=
  match w.m.descPa part id with
  | none => none
  | some pa =>
    let d := w.bytes pa 128
    if !w.m.descRefused part id && (parseDesc d).valid && (descFault d).isNone then some (parseDesc d) else none

/-- The partition of the acting agent. -/
def Work.myPart (w : Work) : Option Nat :=
  match aget w.m.thr w.m.cur with
  | some t => w.m.partOf w.m.cur t
  | none => none

/-- TDSET (R122). A table whose package refuses the partition is a permission fault (R354), with TRAP.VAL the PA
of the entry (DESIGN CHOICE, log 150). -/
def execTdset (d a : Reg) (sl ws : BitVec 3) (b : Reg) (s : State) :=
  s.ctl (.tdset d a sl ws b) [a, b] [d] sl ws (fun t => do
    let va := t.g a
    if va.toNat % 128 ≠ 0 then Ctl.trap 0x02 va
    let rs ← Ctl.span va.toNat 128 .read
    if rs.any (fun r => r.2.2 = .dv) then Ctl.trap 0x06 va
    if !t.clear .rc then Ctl.hold
    let bytes ← Ctl.bytes va.toNat rs
    let w ← get
    match w.m.descPa w.myPart (t.g b).toNat with
    | none => Ctl.result d 0x1000
    | some pa =>
      if (t.g b).toNat > 4095 then Ctl.result d 0x1000
      else if w.m.descRefused w.myPart (t.g b).toNat then Ctl.trap 0x06 (w64 pa)
      else
        match (if (parseDesc bytes).valid then descFault bytes else none) with
        | some o => Ctl.result d (w64 (0x100 + o))
        | none => do
          Ctl.upd (fun u => (u.portNow pa 128 false).putBytes pa bytes)
          Ctl.result d 0
    Ctl.done)

/-- TDINV (R122); a refused table as in TDSET. -/
def execTdinv (d a : Reg) (sl ws : BitVec 3) (s : State) :=
  s.ctl (.tdinv d a sl ws) [a] [d] sl ws (fun t => do
    let w ← get
    match w.m.descPa w.myPart (t.g a).toNat with
    | none => Ctl.result d 0x1000
    | some pa =>
      if (t.g a).toNat > 4095 then Ctl.result d 0x1000
      else if w.m.descRefused w.myPart (t.g a).toNat then Ctl.trap 0x06 (w64 pa)
      else do
        Ctl.upd (fun u => u.portNow pa 4 true)
        let v ← get
        if !bitAt (v.read pa 4) 31 then Ctl.result d 1
        else do
          Ctl.upd (fun u => u.write pa 4 (u.read pa 4 - 2 ^ 31))
          Ctl.result d 0
    Ctl.done)

end Sys2Proof.Machine
end

