-- ==== Sys2Proof/Machine/TrapQueue.lean ====
section
/-!
DEFINITION. Trap queues (R157, R159, R410, R411, R413): what the device writes for a parked
thread and for a failed job, and the events that park a thread and write a record.
-/

namespace Sys2Proof.Machine

/-- A number of flags as bits, flag 0 lowest. -/
def flagBits (n : Nat) (f : Nat → Bool) : Nat :=
  (List.range n).foldl (fun a k => if f k then a + 2 ^ k else a) 0

/-- Section 1 of DUMP: the thread state, 384 bytes (R157). A poisoned register reads 0. -/
def Thread.section1 (t : Thread) : List Byte :=
  let regs := ((List.range 32).map (fun k =>
    toBytes 8 (if (aget t.poison k).isSome then 0 else (t.g (BitVec.ofNat 5 k)).toNat))).flatten
  let busy := flagBits 8 (fun k => k != 0 && t.pend.any (fun p => p.set == k))
  let loops := t.loops.reverse
  let entries := ((List.range 4).map (fun j => match loops[j]? with
    | some l => toBytes 8 l.start.toNat ++ toBytes 8 l.fin.toNat ++ toBytes 8 l.left.toNat
    | none => zeroBytes 24)).flatten
  regs ++ toBytes 8 (t.conds.toNat + 2 ^ 8 * busy + 2 ^ 16 * loops.length)
    ++ toBytes 8 (flagBits 32 (fun k => (aget t.poison k).isSome))
    ++ toBytes 8 t.pc.toNat ++ entries ++ zeroBytes 8

/-- The record of a parked thread (R159). -/
def Thread.record (k : Nat) (t : Thread) (cause : Nat) (pc val : Word) (tb : Nat) : List Byte :=
  toBytes 8 k ++ toBytes 8 (cause % 256) ++ toBytes 8 pc.toNat ++ toBytes 8 val.toNat
    ++ t.section1 ++ toBytes 8 tb ++ zeroBytes 88

/-- A job record (R410). -/
def JobRec.bytes (r : JobRec) : List Byte :=
  toBytes 8 (r.agent + 2 ^ 63) ++ toBytes 8 (0x0D + 256 * r.failure) ++ toBytes 8 r.cardVa.toNat
    ++ toBytes 8 r.va.toNat ++ toBytes 8 r.tag ++ toBytes 8 r.tb ++ zeroBytes 464

/-- A record written at TRQ.TAIL of a partition: the entry it took, or none where it is held
back: TRQ.BASE at 0, the queue full, an earlier write stuck (R159, R413). HEAD = TAIL reads as
an empty queue, so 63 records fill it (log 34). -/
def Work.trqWrite (w : Work) (p : Nat) (rec : List Byte) : Option Nat × Work :=
  let q := w.m.part p
  if q.trqBase = 0 || q.trqStuck || (q.trqTail + 1) % 64 == q.trqHead then (none, w)
  else
    match w.store noCache q.trqTrans (q.trqBase.toNat + 512 * q.trqTail) rec with
    | (.ok (), v) => (some q.trqTail, v.setPart p (fun q => { q with trqTail := (q.trqTail + 1) % 64 }))
    | (.error _, v) => (none, v.setPart p (fun q => { q with trqStuck := true }))

/-- The oldest job record held back in a partition is written (R410); after the cut none is (R381). -/
def execJobRecordWrite (p : Nat) (s : State) := s.event (fun w =>
  match (w.m.part p).jobRecs with
  | [] => w
  | r :: rest =>
    if w.m.hold.phase = 3 then w else
    match w.trqWrite p r.bytes with
    | (some _, v) => v.setPart p (fun q => { q with jobRecs := rest })
    | (none, v) => v)

/-- A parked sequencer thread's record is written to its partition's trap queue (R159), after
the records of its own failed jobs (R410) and after its outstanding memory accesses, whose
results it then holds (DEDUCED, log 35); from the trap of a hold-up on none is (R381). -/
def execTrapRecordWrite (t : Nat) (s : State) := s.event (fun w =>
  match aget w.m.thr t with
  | none => w
  | some th =>
    match th.run, w.m.partOf t th with
    | .parked cause pc val tb none final, some p =>
      if 2 ≤ w.m.hold.phase || th.pend.any (·.op.access) || (w.m.part p).jobRecs.any (fun r => r.agent == t) then w
      else
        match w.trqWrite p (th.record t cause pc val tb) with
        | (some e, v) => v.modThr t (fun u => { u with run := .parked cause pc val tb (some e) final })
        | (none, v) => v
    | _, _ => w)

/-- The oldest request to park an agent is met at its instruction boundary (R411): no word that holds
it is unfinished, and the record's PC is the word that resumption issues. A system core takes the
trap instead, at its own level (R159). -/
def execThreadPark (t : Nat) (s : State) := s.event (fun w =>
  match aget w.m.thr t with
  | none => w
  | some th =>
    match th.parks, th.run with
    | r :: rest, .ready =>
      if th.held || th.dumping.isSome then w
      else w.modThr t (fun u => { u.passWait.trap r.cause u.passWait.pc r.val w.m.tb with parks := rest })
    | _, _ => w)

/-- Whether the word at the boundary of a thread may issue: it is ready, nothing parks it, no
word holds it, and its launch is not paused (R329, R316). -/
def Mach.mayIssue (m : Mach) (t : Thread) : Bool :=
  t.run = .ready && t.parks.isEmpty && !t.held &&
  (match t.sys with
   | some _ => true
   | none => match m.launch? t.launch with
     | some l => !l.paused && !l.floor
     | none => true)

end Sys2Proof.Machine
end

