-- ==== Sys2Proof/Machine/Jobs.lean ====
section
/-!
DEFINITION. Engine jobs: job cards and footprints (R123, R124), acceptance by COPY, GATH, SCAT
and COLL (R125 to R127), FOOT (R130), and the events of an accepted job (R125, R117, R128).
-/

namespace Sys2Proof.Machine

/-! ## The card -/

/-- A card as its 128 bytes lay it out (R123, R124). -/
def parseCard (d : List Byte) : Card :=
  let w0 := fieldAt d 0 4
  let w1 := fieldAt d 4 4
  let w3 := fieldAt d 0x0C 4
  { kind := bits w0 28 4, idem := bitAt w0 27, undecl := bitAt w0 26, sync := bitAt w0 25,
    scope := bits w0 16 4, nfoot := bits w0 12 4, collop := bits w0 8 4,
    dst := bits w1 12 12, src := bits w1 0 12, idx := bits (fieldAt d 8 4) 0 12,
    members := bits w3 16 11, rank := bits w3 0 10,
    ctr := w64 (fieldAt d 0x10 8), inc := w64 (fieldAt d 0x18 8),
    syncw := w64 (fieldAt d 0x20 8), groupw := w64 (fieldAt d 0x28 8),
    foots := (List.range (Nat.min (bits w0 12 4) 5)).map (fun j =>
      { base := fieldAt d (0x30 + 16 * j) 8, len := fieldAt d (0x38 + 16 * j) 4,
        rd := bitAt (fieldAt d (0x3C + 16 * j) 4) 0, wr := bitAt (fieldAt d (0x3C + 16 * j) 4) 1 }) }

/-- Whether a 16-byte object lies in a cluster's scratchpad share of the local window. -/
def Mach.inShare (m : Mach) (g va n : Nat) : Bool :=
  winBase ≤ va && va + n ≤ winBase + m.scratchLen g

/-- The rules of a card's own fields, in word order (R123, R124). A card that is no collective must have
RANK 0 too (DESIGN CHOICE, log 116). Of a field of 8 bytes its first word is the word at fault, whichever
bits break the rule (DESIGN CHOICE, log 117). -/
def cardFields (m : Mach) (g kind : Nat) (d : List Byte) : Option Nat :=
  let c := parseCard d
  let w0 := fieldAt d 0 4
  let coll := kind == 4
  firstFail (
    [(0, c.kind == kind && bits w0 20 5 == 0 && c.scope ≤ 9 && c.nfoot ≤ 5 && bits w0 0 8 == 0
        && (if coll then c.collop ≤ 4 else c.collop == 0) && (!c.undecl || c.nfoot == 0)),
     (4, bits (fieldAt d 4 4) 24 8 == 0),
     (8, bits (fieldAt d 8 4) 12 20 == 0 && (kind == 2 || kind == 3 || c.idx == 0)),
     (0x0C, bits (fieldAt d 0x0C 4) 27 5 == 0 && bits (fieldAt d 0x0C 4) 10 6 == 0 &&
        (if coll then 2 ≤ c.members && c.members ≤ 1024 && c.rank < c.members
         else c.members == 0 && c.rank == 0)),
     (0x10, c.ctr.toNat % 8 == 0 && c.ctr.toNat < 2 ^ 48),
     (0x20, if c.sync then c.syncw.toNat % 16 == 0 && m.inShare g c.syncw.toNat 16
            else c.syncw == 0),
     (0x28, coll || c.groupw == 0)]
    ++ ((List.range 5).map (fun j =>
      let o := 0x30 + 16 * j
      let mode := fieldAt d (o + 12) 4
      if j < c.nfoot then
        [(o, fieldAt d (o + 6) 2 == 0), (o + 8, fieldAt d (o + 8) 4 != 0),
         (o + 12, mode / 4 == 0 && mode != 0)]
      else zeroChecks d o 4)).flatten)

/-! ## Ranges -/

/-- A range a job reads or writes: where the card names its tensor, its first byte, its length,
whether it is written, and whether it is an index tensor. -/
structure JobRange where
  off : Nat
  lo : Int
  len : Nat
  wr : Bool
  idx : Bool
  deriving DecidableEq, Repr

/-- The ranges of a tensor: its elements and its scales (R121). -/
def tensorRanges (off : Nat) (wr : Bool) (x : Desc) : List JobRange :=
  { off := off, lo := x.bound.1, len := x.bound.2, wr := wr, idx := false } ::
    (match x.scaleRange with
     | some (lo, n) => [{ off := off, lo := lo, len := n, wr := wr, idx := false }]
     | none => [])

/-- The ranges of a job in the order of R130: SRC, SRC scales, IDX, DST, DST scales. -/
def jobRanges (kind : Nat) (src dst idx : Desc) : List JobRange :=
  tensorRanges 4 false src
    ++ (if kind = 2 || kind = 3 then
          [{ off := 8, lo := idx.bound.1, len := idx.bound.2, wr := false, idx := true }] else [])
    ++ tensorRanges 4 true dst

/-- Whether entries of one mode cover a range together (R124). -/
def covered (foots : List Foot) (wr : Bool) : Nat → Int → Int → Bool
  | 0, lo, hi => hi ≤ lo
  | fuel + 1, lo, hi =>
    if hi ≤ lo then true
    else match foots.find? (fun f => (if wr then f.wr else f.rd) && (f.base : Int) ≤ lo &&
        lo < (f.base : Int) + f.len) with
      | some f => covered foots wr fuel ((f.base : Int) + f.len) hi
      | none => false

/-- Whether two ranges meet. -/
def meets (a : Int) (n : Nat) (c : Int) (k : Nat) : Bool := a < c + k && c < a + n

/-! ## Checks that reach memory -/

/-- A check of a job: the workspace (translations fill caches), or with it the offset of the card word at fault,
or none where a walk waits for a detour (R374). -/
abbrev Chk := StateT Work (Except (Option Nat × Work))

def Chk.fail {α : Type} (off : Nat) : Chk α := fun w => .error (some off, w)

def Chk.need (off : Nat) (ok : Bool) : Chk Unit := if ok then pure () else Chk.fail off

/-- A rule of the card: the offset of the word that breaks it, if any. -/
def Chk.rule : Option Nat → Chk Unit
  | some o => Chk.fail o
  | none => pure ()

/-- A VA translated with the rights a job needs, on no DV page (R125). A walk to which no way is left fails
as a fault does (DEDUCED, log 132). -/
def Chk.translate (off die : Nat) (tr : Trans) (va : Nat) (n : Need) : Chk Nat := fun w =>
  match w.translate (fiCache die) tr va n with
  | (.ok (k, kind), v) => if kind = .dv then .error (some off, v) else .ok (k, v)
  | (.error .wait, v) => .error (none, v)
  | (.error _, v) => .error (some off, v)

/-- The elements of an index tensor of rank 1 read, on no DV page (R125, R126), each with the failure code
of a lost link or an uncorrectable error, or 0 (R128). -/
def Chk.indices (off die : Nat) (tr : Trans) (x : Desc) : Nat → Nat → Chk (List (Nat × Nat))
  | _, 0 => pure []
  | k, n + 1 => do
    let sz := fmtSize x.fmt
    let w ← get
    match w.spanOf (fiCache die) tr (x.elem k) sz .read with
    | (.ok rs, v) =>
      if rs.any (fun r => r.2.2 = .dv) then do set v; Chk.fail off
      else do
        let u := v.portsNow true rs
        set u
        let r ← Chk.indices off die tr x (k + 1) n
        pure ((ofBytes (u.bytesOf rs), if rs.any (fun q => u.m.way die q.1 = .lost) then 0x09
          else if rs.any (fun q => u.poisoned q.1 q.2.1) then 0x11 else 0) :: r)
    | (.error (.wait, _), v) => fun _ => .error (none, v)
    | (.error _, v) => do set v; Chk.fail off

/-- The failure of a job whose index tensor could not be read whole (R128), with the first failing VA. -/
def indexFail (x : Desc) : Nat → List (Nat × Nat) → Option (Nat × Word)
  | _, [] => none
  | k, p :: r => if p.2 = 0 then indexFail x (k + 1) r else some (p.2, w64 (x.elem k))

/-- A descriptor that a job may name (R120, R125). -/
def Chk.desc (off : Nat) (part : Option Nat) (id : Nat) : Chk Desc := fun w =>
  let v := w.descIn part id
  match v.desc part id with
  | some x => .ok (x, v)
  | none => .error (some off, v)

/-- The rules of a kind about its tensors (R126); all faults of SRC against DST name word 0x04
(R131). GATH and SCAT move whole elements, so their FMT and SCALED must agree, and a tensor
that holds at least the rows asked for will do (log 36); a tensor of RANK 1, whose row is one element, goes
with none of another RANK (DESIGN CHOICE, log 115). The shapes of a collective: SRC and
DST agree in FMT and SCALED; all-reduce and broadcast agree in every DIMk; the DST of an
all-gather holds MEMBERS times the elements of SRC, the SRC of a reduce-scatter MEMBERS times
those of DST (log 37). -/
def kindFault (c : Card) (nbv : Nat) (src dst idx : Desc) : Option Nat :=
  let same := src.fmt == dst.fmt && src.scaled == dst.scaled
  let overlap := meets src.bound.1 src.bound.2 dst.bound.1 dst.bound.2
  let shape := src.rank == dst.rank && src.dims == dst.dims
  let rowsOf := nth idx.dims 0 0
  let idxOk := (idx.fmt == 6 || idx.fmt == 7) && idx.rank == 1
  let dim0 := (src.rank == 1) == (dst.rank == 1) && nth src.dims 0 0 == nth dst.dims 0 0
  match c.kind with
  | 1 => firstFail [(4, same && shape && !overlap)]
  | 2 => firstFail [(4, same && dim0 && rowsOf ≤ dst.rows && !overlap), (8, idxOk)]
  | 3 => firstFail [(4, same && dim0 && rowsOf ≤ src.rows && !overlap), (8, idxOk)]
  | _ =>
    let shapeOk := match c.collop with
      | 2 => dst.count == c.members * src.count
      | 3 => src.count == c.members * dst.count
      | _ => shape
    let reduces := c.collop == 0 || c.collop == 1 || c.collop == 3
    firstFail [(4, same && shapeOk && !overlap && !(reduces && nbv != 0 && src.fmt == 8))]

/-- A participant against the first card accepted for its group word (R127). -/
def groupFault (m : Mach) (key : Nat) (c : Card) (src dst : Desc) : Option Nat :=
  let waiting := (m.jobs.filter (fun j => j.2.card.kind == 4 && j.2.group == key && !j.2.gathered)).map (·.2)
  match waiting with
  | [] => none
  | f :: _ =>
    firstFail [(0, f.card.collop == c.collop),
      (4, f.srcD.fmt == src.fmt && f.srcD.dims == src.dims && f.dstD.dims == dst.dims &&
          f.srcD.scaled == src.scaled),
      (0x0C, f.card.members == c.members && waiting.all (fun j => j.card.rank != c.rank))]

/-- The first bytes of a job's ranges translated (R125); an index tensor's elements are translated as they are
read. -/
def Chk.firstBytes (die : Nat) (tr : Trans) (rs : List JobRange) : Chk Unit := do
  for r in rs do
    if !r.idx then
      let _ ← Chk.translate r.off die tr (r.lo % 2 ^ 64).toNat (if r.wr then .write else .read)
      pure ()

/-- The entries of a card cover a job's ranges (R124). -/
def Chk.covers (c : Card) (rs : List JobRange) : Chk Unit := do
  for r in rs do
    Chk.need r.off (covered c.foots r.wr 6 r.lo (r.lo + r.len))

/-- The group word of a collective, and the card against its first participant's (R127). -/
def Chk.group (die : Nat) (tr : Trans) (c : Card) (src dst : Desc) : Chk Nat := do
  Chk.need 0x28 (c.groupw.toNat % 16 == 0)
  let key ← Chk.translate 0x28 die tr c.groupw.toNat .read
  Chk.need 0x28 (key < nearLen)
  let w ← get
  Chk.rule (groupFault w.m key c src dst)
  pure key

/-- The job an accepted card asks for, all checks made (R125); `foot` makes the checks of FOOT: no
coverage, no indices (R130), and by the model's reading none of the index tensor's pages (DEDUCED, log 160). Of
several faults a card reports the first of: its own fields in word order,
its descriptors, its kind's rules, first-byte translations, CTR, group word, indices, coverage (DESIGN
CHOICE, log 118). Acceptance of a COLL translates GROUPW for reading (DESIGN CHOICE, log 119). The
scratchpad is captured with the translation (R129). -/
def checkCard (k : Nat) (t : Thread) (pend : Nat) (va : Word) (d : List Byte) (kind : Nat)
    (foot : Bool) : Chk Job := do
  let w ← get
  let g := k / 8
  let die := agentDie k
  let tr := w.m.transOf k t
  let part := w.m.partOf k t
  Chk.rule (cardFields w.m g kind d)
  let c := parseCard d
  let src ← Chk.desc 4 part c.src
  let dst ← Chk.desc 4 part c.dst
  let idx ← if kind = 2 ∨ kind = 3 then Chk.desc 8 part c.idx else pure src
  Chk.rule (kindFault c t.nbv src dst idx)
  let rs := jobRanges kind src dst idx
  Chk.firstBytes die tr rs
  if c.ctr ≠ 0 then
    let _ ← Chk.translate 0x10 die tr c.ctr.toNat .both
  let key ← if kind = 4 then Chk.group die tr c src dst else pure 0
  let cover : Chk Unit := if !foot ∧ !c.undecl then Chk.covers c rs else pure ()
  let job := fun (l : List (Nat × Nat)) =>
    ({ agent := k, pend := pend, card := c, cardVa := va, tag := t.jobTag + 1, srcD := src,
       dstD := dst, idxD := idx, indices := l.map (·.1),
       trans := { tr with scratch := tr.cluster.map w.m.scratchLen }, nbv := t.nbv, die := die,
       after := [], afterPend := [], gathered := kind != 4, group := key, coll := 0, pos := 0, data := none,
       fail := indexFail idx 0 l, launch := if t.sys.isSome then none else some t.launch } : Job)
  if (kind = 2 ∨ kind = 3) ∧ !foot then do
    let l ← Chk.indices 8 die tr idx 0 (nth idx.dims 0 0)
    Chk.need 8 (l.all (fun x => x.2 != 0 || x.1 < (if kind = 2 then src.rows else dst.rows)))
    cover
    pure (job l)
  else do
    cover
    pure (job [])

/-! ## Acceptance -/

/-- A footprint entry meets a range of keys or VAs. -/
def Foot.meets (f : Foot) (lo n : Nat) : Bool := f.base < lo + n && lo < f.base + f.len

/-- A declared footprint conflicts with an access to n bytes from a VA: either writes what the other reads or
writes (R258). -/
def Card.bars (c : Card) (va n : Nat) (wr : Bool) : Bool :=
  !c.undecl && c.foots.any (fun f => (f.wr || (wr && f.rd)) && f.meets va n)

/-- The earlier jobs of the same FI and partition whose footprints conflict (R258). -/
def Mach.jobEdges (m : Mach) (j : Job) : List Nat :=
  if j.card.undecl then []
  else (m.jobs.filter (fun q =>
    q.2.die == j.die && q.2.trans.part == j.trans.part && !q.2.card.undecl &&
    q.2.card.foots.any (fun f => j.card.foots.any (fun e =>
      ((f.wr && (e.rd || e.wr)) || (f.rd && e.wr)) && f.meets e.base e.len)))).map (·.1)

/-- An outstanding word has an access, still to be performed, of which a byte lies in a range that a card
declares: its one access, or of a TAKE, whose every write is an access (R259), a write still to be made. -/
def Pend.meets (p : Pend) (c : Card) : Bool :=
  p.op.orders && p.pieces.any (fun x => !(x.done && (match p.op with
    | .take _ => true
    | _ => false)) && c.foots.any (fun f => f.meets x.va.toNat x.len))

/-- The thread's earlier accesses that a footprint orders the job after: each whole access with a byte in
a range that the job declares (R42, R273). -/
def Thread.jobEdges (t : Thread) (k : Nat) (j : Job) : List (Nat × Nat) :=
  if j.card.undecl then []
  else (t.pend.filter (·.meets j.card)).map (fun p => (k, p.id))

/-- A GATH or SCAT, whose index tensor is read at acceptance, is not yet accepted: an access or a job that
a footprint over that tensor orders it after is outstanding (R42, R258; DEDUCED, log 129), or the way to the
tensor waits (R374). -/
def Work.indexWaits (w : Work) (t : Thread) (k : Nat) (j : Job) : Bool :=
  let lo := j.idxD.bound.1.toNat
  let n := j.idxD.bound.2
  let q := { j with card := { j.card with foots := j.card.foots.filter (fun f => f.rd && f.meets lo n) } }
  !(w.m.jobEdges q).isEmpty || !(t.jobEdges k q).isEmpty ||
    (match (w.spanOf (fiCache j.die) j.trans lo n .read).1 with
     | .ok rs => rs.any (fun r => w.m.way j.die r.1 = .wait)
     | .error _ => false)

/-- The jobs of a collective all accepted: they are gathered, under the number of the last (R127). -/
def Mach.gather (m : Mach) (key members : Nat) : Mach :=
  let waits := fun (j : Job) => j.card.kind == 4 && j.group == key && !j.gathered
  if (m.jobs.filter (fun q => waits q.2)).length = members then
    { m with jobs := m.jobs.map (fun q => if waits q.2 then (q.1, { q.2 with gathered := true, coll := m.nextJob }) else q) }
  else m

/-- The jobs of a thread that are outstanding (R125). -/
def Thread.jobsOut (t : Thread) : Nat :=
  (t.pend.filter (fun p => match p.op with
    | .job _ => true
    | _ => false)).length

/-- The card of an engine word: 128-aligned, in the issuing cluster's share (R103), read at
issue. A system core has no cluster and no share (log 38). -/
def Ctl.card (t : Thread) (va : Word) : Ctl (List Byte) := do
  if va.toNat % 128 ≠ 0 then Ctl.trap 0x02 va
  if 2 ^ 48 ≤ va.toNat then Ctl.trap 0x03 va
  let w ← get
  if t.sys.isSome || !w.m.inShare (w.m.cur / 8) va.toNat 128 then Ctl.trap 0x0D va
  Ctl.block va 128 128

/-- A check run in a control word: a failure is cause 0x0D at the card word (R125). -/
def Ctl.check {α : Type} (va : Word) (c : Chk α) : Ctl α := fun w =>
  match c w with
  | .ok r => .ok r
  | .error (none, v) => .error (.hold, v)
  | .error (some o, v) => .error (.trap 0x0D (va + w64 o), v)

/-- An engine word (R125): the card checked and captured, the job accepted and ordered, the tag
written. -/
def engineWord (kind : Nat) (d a : Reg) (sl : BitVec 3) (t : Thread) : Ctl Unit := do
  let va := t.g a
  let bytes ← Ctl.card t va
  let v ← get
  if 16 ≤ t.jobsOut || v.m.hold.phase ≠ 0 then Ctl.hold
  if kind = 2 ∨ kind = 3 then
    let early ← Ctl.check va (checkCard v.m.cur t t.nextPend va bytes kind true)
    if v.indexWaits t v.m.cur early then Ctl.hold
  let w ← get
  let k := w.m.cur
  let job ← Ctl.check va (checkCard k t t.nextPend va bytes kind false)
  Ctl.upd (fun w =>
    let n := w.m.nextJob
    let j := { job with after := w.m.jobEdges job, afterPend := t.jobEdges k job }
    let u := if job.card.sync then w.noteSync (scratchKey (k / 8) (job.card.syncw.toNat - winBase)) else w
    u.mach (fun m =>
      let m' := { m with jobs := aset m.jobs n j, nextJob := n + 1 }
      if kind = 4 then m'.gather j.group j.card.members else m'))
  Ctl.me (fun u =>
    let v := u.addPend (fun id =>
      { id := id, set := sl.toNat, dest := none, holds := false, op := .job w.m.nextJob,
        pieces := [], acq := false, rel := false, scope := job.card.scope, vmid := job.trans.vmid,
        asid := job.trans.asid, va := va })
    ({ v with jobTag := job.tag }.setG d (w64 job.tag)).advance)

def execCopy (d a : Reg) (sl ws : BitVec 3) (s : State) :=
  s.ctl (.copy d a sl ws) [a] [d] sl ws (engineWord 1 d a sl)

def execGath (d a : Reg) (sl ws : BitVec 3) (s : State) :=
  s.ctl (.gath d a sl ws) [a] [d] sl ws (engineWord 2 d a sl)

def execScat (d a : Reg) (sl ws : BitVec 3) (s : State) :=
  s.ctl (.scat d a sl ws) [a] [d] sl ws (engineWord 3 d a sl)

def execColl (d a : Reg) (sl ws : BitVec 3) (s : State) :=
  s.ctl (.coll d a sl ws) [a] [d] sl ws (engineWord 4 d a sl)

/-! ## FOOT -/

/-- The entries FOOT writes: a COLL card gives SRC and DST only (R130). -/
def footEntries (kind : Nat) (job : Job) : List JobRange :=
  if kind = 4 then
    [{ off := 4, lo := job.srcD.bound.1, len := job.srcD.bound.2, wr := false, idx := false },
     { off := 4, lo := job.dstD.bound.1, len := job.dstD.bound.2, wr := true, idx := false }]
  else jobRanges kind job.srcD job.dstD job.idxD

/-- The bytes of one entry. A range of 2^32 bytes or more has no LEN that the spec states: a
free value stands there (log 39). -/
def JobRange.bytes (r : JobRange) (free : Nat) : List Byte :=
  toBytes 8 (r.lo % 2 ^ 64).toNat
    ++ toBytes 4 (if r.len < 2 ^ 32 then r.len else (Config.freeWord free).toNat)
    ++ toBytes 4 (if r.wr then 2 else 1)

/-- FOOT (R130). -/
def execFoot (d a : Reg) (sl ws : BitVec 3) (s : State) :=
  s.ctl (.foot d a sl ws) [a] [d] sl ws (fun t => do
    let va := t.g a
    let bytes ← Ctl.card t va
    let w ← get
    let kind := bits (fieldAt bytes 0 4) 28 4
    if kind = 0 ∨ 4 < kind then Ctl.trap 0x0D va
    let job ← Ctl.check va (checkCard w.m.cur t t.nextPend va bytes kind true)
    let rs ← Ctl.span va.toNat 128 .write
    let es := footEntries kind job
    let w0 := fieldAt bytes 0 4
    let n := es.length
    let w0' := w0 - bits w0 12 4 * 2 ^ 12 + n * 2 ^ 12 - (if bitAt w0 26 then 2 ^ 26 else 0)
    let card := toBytes 4 w0' ++ (bytes.drop 4).take 44
      ++ (es.map (fun r => r.bytes w.m.free)).flatten ++ zeroBytes (16 * (5 - n))
    Ctl.upd (fun u => u.deviceWrite rs card)
    Ctl.result d (w64 n)
    Ctl.done)

/-! ## The moves of a job -/

/-- Element m of a job's writes: (destination VA, source VA, bytes); none past the last. Of SCALED tensors
of RANK 1, where a row is one element and a scale covers 32, GATH and SCAT move no scale (DESIGN CHOICE,
log 112). -/
def Job.move (j : Job) (m : Nat) : Option (Nat × Nat × Nat) :=
  let sz := fmtSize j.srcD.fmt
  match j.card.kind with
  | 1 =>
    let n := j.srcD.count
    if m < n then some (j.dstD.elem m, j.srcD.elem m, sz)
    else match j.srcD.scaleRange with
      | some (lo, k) =>
        if m - n < k then some (j.dstD.scale + (m - n), (lo + (m - n : Nat)).toNat, 1) else none
      | none => none
  | 2 | 3 =>
    let rl := j.srcD.rowLen
    let n := j.indices.length * rl
    let at_ := fun (k : Nat) (i : Nat) => if j.card.kind = 2 then (k, i) else (i, k)
    if m < n then
      let (dr, sr) := at_ (m / rl) (nth j.indices (m / rl) 0)
      some (j.dstD.elem (dr * rl + m % rl), j.srcD.elem (sr * rl + m % rl), sz)
    else if j.srcD.scaled && j.srcD.rank != 1 then
      let sl := j.srcD.scaleRow
      let q := m - n
      if q < j.indices.length * sl then
        let (dr, sr) := at_ (q / sl) (nth j.indices (q / sl) 0)
        some (j.dstD.scale + dr * sl + q % sl, j.srcD.scale + sr * sl + q % sl, 1)
      else none
    else none
  | _ => none

/-- The number of writes a job performs. -/
def Job.moves (j : Job) : Nat :=
  let scales := match j.dstD.scaleRange with
    | some (_, k) => k
    | none => 0
  match j.card.kind with
  | 1 => j.srcD.count + scales
  | 2 | 3 =>
    j.indices.length * j.srcD.rowLen +
      (if j.srcD.scaled && j.srcD.rank != 1 then j.indices.length * j.srcD.scaleRow else 0)
  | _ => j.dstD.count + scales

/-- The failure code of a fault (R410); 0 where a walk waits for a detour (R374). -/
def faultCode : XFault → Nat
  | .trans => 0x03
  | .perm => 0x06
  | .lost => 0x09
  | .wait => 0

/-- The first of n bytes from a key that carries an uncorrectable error, by its place. -/
def Work.firstBad (w : Work) (k n : Nat) : Option Nat := (List.range n).find? (fun i => w.bad.contains (k + i))

/-- The failure of a job at one run of bytes from a VA, with the first failing VA (R128, R410). -/
def Work.runFault (w : Work) (j : Job) (need : Need) (va k n : Nat) (kind : Kind) : Option (Nat × Word) :=
  if kind = .dv then some (0x06, w64 va)
  else match w.m.way j.die k with
    | .wait => some (0, w64 va)
    | .lost => some (0x09, w64 va)
    | .go => if need = .read then (w.firstBad k n).map (fun i => (0x11, w64 (va + i))) else none

/-- The runs of n bytes that a job accesses from a VA, page by page, or its failure (R128); code 0 where it waits
for a detour (R374). -/
def Work.jobSpan (j : Job) (need : Need) :
    Nat → Work → Nat → Nat → Except (Nat × Word) (List (Nat × Nat × Kind)) × Work
  | 0, w, _, _ => (.ok [], w)
  | fuel + 1, w, va, n =>
    if n = 0 then (.ok [], w)
    else
      let here := Nat.min n (4096 - va % 4096)
      match w.translate (fiCache j.die) j.trans (va % 2 ^ 64) need with
      | (.error f, v) => (.error (faultCode f, w64 va), v)
      | (.ok (k, kind), v) => match v.runFault j need va k here kind with
        | some e => (.error e, v)
        | none => match Work.jobSpan j need fuel v (va + here) (n - here) with
          | (.ok rs, u) => (.ok ((k, here, kind) :: rs), u)
          | (.error e, u) => (.error e, u)

/-- Bytes a job reads at a VA, or its failure. -/
def Work.jobRead (w : Work) (j : Job) (va n : Nat) : Except (Nat × Word) (List Byte) × Work :=
  match Work.jobSpan j .read (n / 4096 + 2) w va n with
  | (.error e, v) => (.error e, v)
  | (.ok rs, v) => match Work.fromPorts true rs v with
    | (false, u) => (.error (0, w64 va), u)
    | (true, u) => (.ok (u.bytesOf rs), u)

/-- A write performed over runs of keys: marks and triggers see it (R290, R146), and where it
lies in the issuing cluster's scratchpad a SYNC job's sync word counts it (R117). -/
def Work.jobPut (w : Work) (j : Job) : List (Nat × Nat × Kind) → List Byte → Work
  | [], _ => w
  | (k, n, _) :: rs, d =>
    let v := (w.putBytes k (d.take n)).wrote k n
    let g := j.agent / 8
    let u := if j.card.sync && scratchKey g 0 ≤ k && k < scratchKey (g + 1) 0 then
        v.arrive (scratchKey g (j.card.syncw.toNat - winBase)) n
      else v
    Work.jobPut u j rs (d.drop n)

/-- Bytes a job writes at a VA: its failure, code 0 where the write waits for a detour (R374). -/
def Work.jobWrite (w : Work) (j : Job) (va : Nat) (d : List Byte) : Option (Nat × Word) × Work :=
  match Work.jobSpan j .write (d.length / 4096 + 2) w va d.length with
  | (.error e, v) => (some e, v)
  | (.ok rs, v) => match Work.fromPorts false rs v with
    | (false, u) => (some (0, w64 va), u)
    | (true, u) => (none, u.jobPut j rs d)

/-! ## Collectives -/

/-- An element's bytes in a collective's reduction: its value with its scale (R178). -/
def redValue (fmt : Nat) (flush : Bool) (scale : Int) (d : List Byte) : FV :=
  let f := match fmt with
    | 8 => NumFmt.d8
    | 9 => .bf16
    | 10 => .fp16
    | _ => .fp32
  (decodeF f flush (ofBytes d)).scale scale

/-- The format of a floating FMT. -/
def fmtOf (fmt : Nat) : NumFmt :=
  match fmt with
  | 8 => .d8
  | 9 => .bf16
  | 10 => .fp16
  | _ => .fp32

/-- A sum or maximum of one element over the ranks, in rank order, each step rounded
nearest-even in FMT (R126); zeros are those of IEEE 754 (DEDUCED, log 40). -/
def reduceF (fmt : Nat) (isMax flush : Bool) : FV → List FV → FV
  | acc, [] => acc
  | acc, v :: r =>
    let x :=
      if acc.isNan || v.isNan then .nan
      else if isMax then (if acc.lt v then v else acc)
      else acc.add false v
    reduceF fmt isMax flush (decodeF (fmtOf fmt) flush (encodeF (fmtOf fmt) 0 false flush x)) r

/-- The same on integers of n bytes, wrapping (R126). -/
def reduceI (n : Nat) (signed isMax : Bool) : Nat → List Nat → Nat
  | acc, [] => acc
  | acc, v :: r =>
    reduceI n signed isMax (if isMax then amoOp (if signed then 5 else 7) n acc v else amoOp 0 n acc v) r

/-- What one participant of a gathered collective has read: its job, its elements and its
scale bytes. -/
structure Member where
  job : Job
  elems : List (List Byte)
  scales : List Byte
  deriving DecidableEq, Repr

/-- Elements read in index order. -/
def Work.readElems (j : Job) : Nat → Nat → Work → Except (Nat × Word) (List (List Byte)) × Work
  | _, 0, w => (.ok [], w)
  | k, n + 1, w =>
    match w.jobRead j (j.srcD.elem k) (fmtSize j.srcD.fmt) with
    | (.error e, v) => (.error e, v)
    | (.ok d, v) => match Work.readElems j (k + 1) n v with
      | (.ok r, u) => (.ok (d :: r), u)
      | (.error e, u) => (.error e, u)

/-- What a participant contributes. -/
def Work.readMember (w : Work) (j : Job) : Except (Nat × Word) Member × Work :=
  match Work.readElems j 0 j.srcD.count w with
  | (.error e, v) => (.error e, v)
  | (.ok es, v) =>
    match j.srcD.scaleRange with
    | none => (.ok { job := j, elems := es, scales := [] }, v)
    | some (lo, n) =>
      match v.jobRead j lo.toNat n with
      | (.error e, u) => (.error e, u)
      | (.ok d, u) => (.ok { job := j, elems := es, scales := d }, u)

/-- The scale exponent of element e of a participant. -/
def Member.scaleAt (x : Member) (e : Nat) : Int :=
  let d0 := nth x.job.srcD.dims 0 1
  if x.scales.isEmpty then 0
  else (nth x.scales (e / d0 * x.job.srcD.scaleRow + e % d0 / 32) 0).toInt

/-- The element of a reduction at linear index e of the sources (R126, R178). -/
def reduceAt (fmt collop nbv : Nat) (ms : List Member) (e : Nat) : List Byte :=
  let flush := nbv == 2
  let n := fmtSize fmt
  if fmt < 8 then
    match ms.map (fun x => ofBytes (nth x.elems e [])) with
    | [] => []
    | v :: r => toBytes n (reduceI n (fmt < 4) (collop == 1) v r)
  else
    match ms.map (fun x => redValue fmt flush (x.scaleAt e) (nth x.elems e [])) with
    | [] => []
    | v :: r =>
      let x := reduceF fmt (collop == 1) flush v r
      let s0 := match ms with
        | m :: _ => m.scaleAt e
        | [] => 0
      toBytes n (encodeF (fmtOf fmt) 0 false flush (x.scale (-s0)))

/-- The elements and scale bytes a participant's destination gets, in index order (R126,
R178). Where the part of a reduce-scatter does not begin and end on a block of 32 elements, a scale byte of
the destination is that of rank 0 at the block's first element, and each element is divided by the scale of
its own source block: the spec does not say (DESIGN CHOICE, log 133). -/
def collData (ms : List Member) (j : Job) : List Byte × List Byte :=
  let fmt := j.srcD.fmt
  let n := j.dstD.count
  -- the participant and the source index that destination element e comes from
  let place := fun (e : Nat) => match j.card.collop with
    | 2 => (e / j.srcD.count, e % j.srcD.count)
    | 3 => (0, j.card.rank * n + e)
    | _ => (0, e)
  let reduces := j.card.collop != 2 && j.card.collop != 4
  let elems := ((List.range n).map (fun e =>
    if reduces then reduceAt fmt j.card.collop j.nbv ms (place e).2
    else match ms[(place e).1]? with
      | some m => nth m.elems (place e).2 []
      | none => [])).flatten
  let sl := j.dstD.scaleRow
  let d0 := nth j.dstD.dims 0 1
  let scales := match j.dstD.scaleRange with
    | none => []
    | some (_, k) => (List.range k).map (fun q =>
        let e := q / sl * d0 + q % sl * 32
        match ms[(place e).1]? with
        | some m => BitVec.ofInt 8 (m.scaleAt (place e).2)
        | none => 0)
  (elems, scales)

/-- Members of a gathered collective in rank order. -/
def Mach.members (m : Mach) (j : Job) : List (Nat × Job) :=
  (List.range j.card.members).filterMap (fun r =>
    afind m.jobs (fun _ q => q.card.kind == 4 && q.gathered && q.coll == j.coll && q.card.rank == r &&
      q.data.isNone && q.fail.isNone))

/-- Every member's source read at one moment and every member's result computed (log 37). A
member that cannot be read fails, and the others with it. -/
def readMembers : List (Nat × Job) → Work → Except (Nat × Word) (List Member) × Work
  | [], w => (.ok [], w)
  | (_, j) :: r, w =>
    match w.readMember j with
    | (.error e, v) => (.error e, v)
    | (.ok x, v) => match readMembers r v with
      | (.ok xs, u) => (.ok (x :: xs), u)
      | (.error e, u) => (.error e, u)

/-- A job changed. -/
def Work.modJob (w : Work) (j : Nat) (f : Job → Job) : Work :=
  w.mach (fun m => { m with jobs := amod m.jobs j f })

/-- An access of a job could not be made: the job has failed, or with code 0 nothing happens yet. What a member
of a collective holds is lost to the others with it, so they fail too while they have not read it, with the code and
the VA of the access that failed (DEDUCED, log 37). -/
def Work.jobTrouble (w : Work) (n : Nat) (e : Nat × Word) : Work :=
  if e.1 = 0 then w
  else
    let with_ := match aget w.m.jobs n with
      | some j => if j.card.kind = 4 && j.gathered && j.data.isNone then (w.m.members j).map (·.1) else []
      | none => []
    (union [n] with_).foldl (fun u k => u.modJob k (fun x => { x with fail := some e })) w

/-- The data of a gathered collective read and shared out. -/
def Work.collect (w : Work) (n : Nat) (j : Job) : Work :=
  let ms := w.m.members j
  match readMembers ms w with
  | (.error e, v) => v.jobTrouble n e
  | (.ok xs, v) => ms.foldl (fun u q => u.modJob q.1 (fun x =>
      { x with data := some ((collData xs x).1 ++ (collData xs x).2) })) v

/-! ## Running -/

/-- An accepted job is gathered, and no access of its thread that it comes after is outstanding (R42, R127,
R273). -/
def Mach.jobFree (m : Mach) (j : Job) : Bool :=
  j.gathered && j.afterPend.all (fun q => match aget m.thr q.1 with
    | some t => !t.pend.any (fun p => p.id == q.2 && p.meets j.card)
    | none => true)

/-- A job's access to n bytes from a VA comes after no outstanding job (R258): an edge holds back the accesses
that conflict with the earlier job's footprint, until that job is complete. -/
def Mach.edgeFree (m : Mach) (j : Job) (va n : Nat) (wr : Bool) : Bool :=
  j.after.all (fun k => match aget m.jobs k with
    | some q => !q.card.bars va n wr
    | none => true)

/-- A member of a collective may be read. -/
def Mach.memberFree (m : Mach) (j : Job) : Bool :=
  m.jobFree j && (List.range j.srcD.count).all (fun e => m.edgeFree j (j.srcD.elem e) (fmtSize j.srcD.fmt) false)
  && (match j.srcD.scaleRange with
    | some (lo, n) => m.edgeFree j lo.toNat n false
    | none => true)

/-- A job may move data: nothing it waits for is outstanding, nor what the reading of any member of its
collective waits for, it has not failed, and no hold-up has stopped it (R382). -/
def Mach.jobReady (m : Mach) (j : Job) : Bool :=
  m.hold.phase < 2 && j.fail.isNone && m.jobFree j &&
  (j.card.kind != 4 || j.data.isSome ||
    ((m.members j).length == j.card.members && (m.members j).all (fun q => m.memberFree q.2)))

/-- The accesses of write k of a job come after no outstanding job. -/
def Mach.moveFree (m : Mach) (j : Job) (k : Nat) : Bool :=
  if j.card.kind = 4 then
    let n := j.dstD.count
    if k < n then m.edgeFree j (j.dstD.elem k) (fmtSize j.dstD.fmt) true else m.edgeFree j (j.dstD.scale + (k - n)) 1 true
  else match j.move k with
    | some (dv, sv, sz) => m.edgeFree j sv sz false && m.edgeFree j dv sz true
    | none => true

/-- The bytes and the address of write m of a job: the failure if they cannot be read. -/
def Work.jobFetch (w : Work) (j : Job) (m : Nat) : Except (Nat × Word) (Nat × List Byte) × Work :=
  if j.card.kind = 4 then
    let sz := fmtSize j.dstD.fmt
    let n := j.dstD.count
    match j.data with
    | none => (.error (0, 0), w)
    | some d =>
      if m < n then (.ok (j.dstD.elem m, (d.drop (m * sz)).take sz), w)
      else (.ok (j.dstD.scale + (m - n), (d.drop (n * sz + (m - n))).take 1), w)
  else
    match j.move m with
    | none => (.ok (0, []), w)
    | some (dv, sv, sz) =>
      match w.jobRead j sv sz with
      | (.ok d, v) => (.ok (dv, d), v)
      | (.error e, v) => (.error e, v)

/-- The next write of job n performed, once it comes after no outstanding job (R125, R258); a failure is noted
(R128). -/
def Work.jobStep (w : Work) (n : Nat) : Work :=
  match aget w.m.jobs n with
  | none => w
  | some j =>
    if j.fail.isSome || !w.m.moveFree j j.pos then w
    else match w.jobFetch j j.pos with
      | (.error e, v) => v.jobTrouble n e
      | (.ok (va, d), v) =>
        match v.jobWrite j va d with
        | (some e, u) => u.jobTrouble n e
        | (none, u) => u.modJob n (fun x => { x with pos := x.pos + 1 })

/-- A collective's data read, if it is still to be. -/
def Work.jobData (w : Work) (n : Nat) : Work :=
  match aget w.m.jobs n with
  | some j => if j.card.kind = 4 && j.data.isNone then w.collect n j else w
  | none => w

/-- The next k writes of a job. -/
def Work.jobRun (n : Nat) : Nat → Work → Work
  | 0, w => w
  | k + 1, w => Work.jobRun n k (w.jobStep n)

/-- The word of a job is complete at its thread, if the thread is still there (R125, R129). -/
def Work.endJob (w : Work) (n : Nat) (j : Job) : Work :=
  (w.mach (fun m => { m with jobs := aerase m.jobs n })).modThr j.agent (fun t =>
    { t with pend := t.pend.filter (fun p => p.op != .job n) })

/-- The thread that issued a job, if it has not exited (R128). -/
def Mach.jobAlive (m : Mach) (n : Nat) (j : Job) : Bool :=
  match aget m.thr j.agent with
  | some t => t.pend.any (fun p => p.op == .job n)
  | none => false

/-- Every write of the job is performed; its completion add is made, and the job is complete
(R125). An add that cannot be made fails the job (R128), a way that waits holds it (R374); one that would
overflow parks the thread (R114). -/
def Work.jobEnd (w : Work) (n : Nat) : Work :=
  match aget w.m.jobs n with
  | none => w
  | some j =>
    if j.fail.isSome || j.pos < j.moves then w
    else if j.card.ctr = 0 then w.endJob n j
    else
      match w.translate (fiCache j.die) j.trans j.card.ctr.toNat .both with
      | (.error f, v) => v.jobTrouble n (faultCode f, j.card.ctr)
      | (.ok (k, kind), v) =>
        if kind = .dv then v.jobTrouble n (0x06, j.card.ctr)
        else if v.m.way j.die k = .lost then v.jobTrouble n (0x09, j.card.ctr)
        else if v.m.way j.die k = .wait then v
        else if v.poisoned k 8 then v.jobTrouble n (0x11, j.card.ctr)
        else v.throughPort k 8 true (fun v =>
          let (ok, u) := v.engineAdd k j.card.inc
          let alive := u.m.jobAlive n j
          let x := u.endJob n j
          if ok || !alive then x else x.askPark j.agent 0x0A j.cardVa)

/-- A job performs its writes and completes (R125). -/
def execJobComplete (j : Nat) (s : State) := s.event (fun w =>
  match aget w.m.jobs j with
  | none => w
  | some x =>
    if !w.m.jobReady x then w
    else
      let v := w.jobData j
      ((Work.jobRun j (x.moves - x.pos) v).jobEnd j))

/-- One write of a job is performed; that of a SYNC job counts into its sync word where it falls into the
cluster's scratchpad (R117). A job that has begun may so stand part way while others act (R125, R360). -/
def execSyncWordArrival (j : Nat) (s : State) := s.event (fun w =>
  match aget w.m.jobs j with
  | none => w
  | some x =>
    if !w.m.jobReady x || x.moves ≤ x.pos then w
    else (w.jobData j).jobStep j)

/-- A job that has met a failure fails (R128): no add, its word complete, a job record queued
(R410), its thread parked at its next boundary. -/
def Work.failJob (w : Work) (n : Nat) (j : Job) (code : Nat) (va : Word) : Work :=
  let alive := w.m.jobAlive n j
  let v := w.endJob n j
  let u := match j.trans.part with
    | some p => v.setPart p (fun q => { q with jobRecs := q.jobRecs ++
        [{ agent := j.agent, failure := code, cardVa := j.cardVa, va := va, tag := j.tag, tb := w.m.tb }] })
    | none => v
  if alive then u.askPark j.agent 0x0D j.cardVa else u

def execJobFail (j : Nat) (s : State) := s.event (fun w =>
  match aget w.m.jobs j with
  | none => w
  | some x => match x.fail with
    | none => w
    | some (code, va) => w.failJob j x code va)

/-- The participants of collectives on a group word whose members have not all been accepted
are cancelled (R145, R127): each fails with code 0x0D and no failing address (R410). -/
def Work.cancelColl (w : Work) (key : Nat) : Work :=
  (w.m.jobs.filter (fun q => q.2.card.kind == 4 && q.2.group == key && !q.2.gathered)).foldl
    (fun u q => u.failJob q.1 q.2 0x0D 0) w

end Sys2Proof.Machine
end

