-- ==== Sys2Proof/Machine/Places.lean ====
section
/-!
DEFINITION. Place queues (R148 to R150, R319 to R322), groups (R145) and trigger bindings (R146,
R147).
-/

namespace Sys2Proof.Machine

/-! ## Place queues -/

/-- The home slice of a near-memory key, of the package's 256: 32 of each die (R21). -/
def sliceOf (key : Nat) : Nat := 32 * bits key 21 3 + bits key 12 5

/-- A place's handle (R148). -/
def Place.handle (p : Place) (key : Nat) : Nat :=
  p.gen * 2 ^ 48 + bits key 21 3 * 2 ^ 45 + bits key 12 5 * 2 ^ 40 + p.link * 2 ^ 27

/-- The mirror of a queue written into its object word (R148). -/
def Work.mirror (w : Work) (key : Nat) : Work :=
  let q := agetD w.m.places key []
  let head := (match q with
    | [] => 0
    | p :: _ => p.handle key)
  ((w.write key 8 head).write (key + 8) 4 (q.filter (fun p => !p.abandoned)).length).write (key + 12) 4 0

/-- A queue replaced and mirrored. -/
def Work.putQueue (w : Work) (key : Nat) (q : List Place) : Work :=
  let put := fun (m : Mach) => if q.isEmpty then aerase m.places key else aset m.places key q
  (w.mach (fun m => { m with places := put m })).mirror key

/-- A link freed: its generation advances from 0xFFFF to 1 (R148, R321). -/
def Mach.freeLink (m : Mach) (key : Nat) (p : Place) : Mach :=
  { m with gens := aset m.gens (sliceOf key * 8192 + p.link) (p.gen % 0xFFFF + 1) }

/-- The head advances (R149): it leaves the head place, passes over abandoned ones, and frees
their links. The queue it leaves, and the freed. -/
def headAdvance : List Place → List Place × List Place
  | [] => ([], [])
  | p :: r => (r.dropWhile (·.abandoned), p :: r.takeWhile (·.abandoned))

def Work.advanceHead (w : Work) (key : Nat) : Work :=
  let (q, freed) := headAdvance (agetD w.m.places key [])
  (w.mach (fun m => freed.foldl (fun m p => m.freeLink key p) m)).putQueue key q

/-- Where the place that agent k holds under a handle stands: the object word's key and the
position in its queue. -/
def Mach.findPlace (m : Mach) (k : Nat) (h : Word) : Option (Nat × Nat × Place) :=
  m.places.findSome? (fun e =>
    (List.range e.2.length).findSome? (fun i => match e.2[i]? with
      | some p => if p.holder = k && !p.abandoned && p.handle e.1 = h.toNat then some (e.1, i, p) else none
      | none => none))

/-- The place named by a handle of the acting agent, or cause 0x0B (R149), on its way to the home slice; where
none is left TRAP.VAL names the handle, for the word has no VA (R374; DEDUCED, log 134). -/
def Ctl.place (h : Word) : Ctl (Nat × Nat × Place) := do
  let w ← get
  match w.m.findPlace w.m.cur h with
  | some x =>
    Ctl.onWay h.toNat [(x.1, 16, .so)]
    pure x
  | none => Ctl.trap 0x0B h

/-- One place of a queue changed. -/
def Work.modPlace (w : Work) (key i : Nat) (f : Place → Place) : Work :=
  w.putQueue key (modNth (agetD w.m.places key []) i f)

/-- A place dropped (R149): abandoned, and the head advances if it was there. -/
def Work.dropPlace (w : Work) (key i : Nat) : Work :=
  if i = 0 then w.advanceHead key
  else w.modPlace key i (fun p => { p with abandoned := true })

/-- Every place of an agent dropped, as its exit does (R143, R322): `fuel` is the number of
places in the package. -/
def Work.dropAll (k : Nat) : Nat → Work → Work
  | 0, w => w
  | fuel + 1, w =>
    match w.m.places.findSome? (fun e => ((List.range e.2.length).find? (fun i => match e.2[i]? with
        | some p => p.holder == k && !p.abandoned
        | none => false)).map (fun i => (e.1, i))) with
    | some (key, i) => Work.dropAll k fuel (w.dropPlace key i)
    | none => w

def Work.dropPlaces (w : Work) (k : Nat) : Work :=
  Work.dropAll k ((w.m.places.map (fun e => e.2.length)).foldl (· + ·) 0) w

/-- Links held in one home slice, of all partitions or of one. -/
def Mach.linksIn (m : Mach) (slice : Nat) (f : Place → Bool) : List Nat :=
  (m.places.filter (fun e => sliceOf e.1 == slice)).flatMap (fun e => (e.2.filter f).map (·.link))

/-- PQREQ (R149, R319, R320): the object word is 16-aligned and in near memory (R148); a free
link, of those there are whichever the slice takes (R318, log 41), is put at the tail. -/
def execPqreq (d a : Reg) (sl ws : BitVec 3) (c : CReg) (s : State) :=
  s.ctl (.pqreq d a sl ws c) [a] [d] sl ws (fun t => do
    let va := t.g a
    if va.toNat % 16 ≠ 0 then Ctl.trap 0x0B va
    let (ca, tr) ← Ctl.trans
    let w ← get
    let key ← match w.translate ca tr va.toNat .both with
      | (.error .wait, v) => do set v; Ctl.hold
      | (.error f, v) => do set v; Ctl.trap (xcause .both f) va
      | (.ok (k, _), v) => do
        set v
        if nearLen ≤ k then Ctl.trap 0x0B va
        pure k
    if !t.clear .rc then Ctl.hold
    Ctl.onWay va.toNat [(key, 16, .so)]
    let w ← get
    let part := (w.m.partOf w.m.cur t).getD 16
    let slice := sliceOf key
    let used := w.m.linksIn slice (fun _ => true)
    let free := (List.range 8192).filter (fun n => !used.contains n)
    let mine := (w.m.linksIn slice (fun p => p.part == part)).length
    if free.isEmpty || (w.m.part part).pqLimit ≤ mine then do
      Ctl.me (fun u => (u.setG d 0).setC c false)
      Ctl.done
    else do
      let link := nth free (Config.freeLink w.m.free % free.length) 0
      let q := agetD w.m.places key []
      let p : Place :=
        { link := link, gen := agetD w.m.gens (slice * 8192 + link) 1, holder := w.m.cur,
          part := part, acquired := q.isEmpty, abandoned := false }
      Ctl.upd (fun u => u.putQueue key (q ++ [p]))
      Ctl.me (fun u => (u.setG d (w64 (p.handle key))).setC c q.isEmpty)
      Ctl.done)

/-- PQWAIT (R149): holds until the place is at the head, and acquires it. -/
def execPqwait (a : Reg) (sl ws : BitVec 3) (s : State) :=
  s.ctl (.pqwait a sl ws) [a] [] sl ws (fun t => do
    let (key, i, _) ← Ctl.place (t.g a)
    if i ≠ 0 || !t.clear .rc then Ctl.hold
    Ctl.upd (fun u => u.modPlace key i (fun p => { p with acquired := true }))
    Ctl.done)

/-- PQTRY (R149). -/
def execPqtry (a : Reg) (sl ws : BitVec 3) (c : CReg) (s : State) :=
  s.ctl (.pqtry a sl ws c) [a] [] sl ws (fun t => do
    let (key, i, _) ← Ctl.place (t.g a)
    if !t.clear .rc then Ctl.hold
    if i = 0 then Ctl.upd (fun u => u.modPlace key i (fun p => { p with acquired := true }))
    Ctl.me (fun u => u.setC c (i == 0))
    Ctl.done)

/-- PQGIVE (R149, R150): to a live thread of the same partition; a release of an acquired place (R271). -/
def execPqgive (a : Reg) (sl ws : BitVec 3) (b : Reg) (s : State) :=
  s.ctl (.pqgive a sl ws b) [a, b] [] sl ws (fun t => do
    let (key, i, p) ← Ctl.place (t.g a)
    let w ← get
    let to_ := (t.g b).toNat
    match aget w.m.thr to_ with
    | none => Ctl.trap 0x0B (t.g b)
    | some u =>
      if (w.m.partOf to_ u).getD 16 ≠ p.part || u.run = .halted then Ctl.trap 0x0B (t.g b)
    if p.acquired then Ctl.released t
    Ctl.upd (fun u => u.modPlace key i (fun p => { p with holder := to_, acquired := false }))
    Ctl.done)

/-- PQSWAP (R149): both places in one queue, held by the thread and unacquired. -/
def execPqswap (a : Reg) (sl ws : BitVec 3) (b : Reg) (s : State) :=
  s.ctl (.pqswap a sl ws b) [a, b] [] sl ws (fun t => do
    let (ka, i, p) ← Ctl.place (t.g a)
    let (kb, j, q) ← Ctl.place (t.g b)
    if p.acquired then Ctl.trap 0x0B (t.g a)
    if q.acquired || ka ≠ kb then Ctl.trap 0x0B (t.g b)
    Ctl.upd (fun u => (u.modPlace ka i (fun _ => q)).modPlace ka j (fun _ => p))
    Ctl.done)

/-- PQDROP (R149). -/
def execPqdrop (a : Reg) (sl ws : BitVec 3) (s : State) :=
  s.ctl (.pqdrop a sl ws) [a] [] sl ws (fun t => do
    let (key, i, p) ← Ctl.place (t.g a)
    if p.acquired then Ctl.released t
    Ctl.upd (fun u => u.dropPlace key i)
    Ctl.done)

/-- PQDONE (R149): the place is at the head and acquired; a release; the head advances. -/
def execPqdone (a : Reg) (sl ws : BitVec 3) (s : State) :=
  s.ctl (.pqdone a sl ws) [a] [] sl ws (fun t => do
    let (key, i, p) ← Ctl.place (t.g a)
    if i ≠ 0 || !p.acquired then Ctl.trap 0x0B (t.g a)
    Ctl.released t
    Ctl.upd (fun u => u.advanceHead key)
    Ctl.done)

/-! ## Groups -/

/-- The group word at a VA: 16-aligned and in near memory, else cause 0x0D (R145). -/
def Ctl.groupWord (va : Word) : Ctl Nat := do
  if va.toNat % 16 ≠ 0 then Ctl.trap 0x0D va
  let rs ← Ctl.span va.toNat 16 .both
  match rs with
  | (k, _, _) :: _ =>
    if nearLen ≤ k then Ctl.trap 0x0D va
    Ctl.onWay va.toNat rs
    pure k
  | [] => Ctl.trap 0x0D va

/-- GJOIN (R145). -/
def execGjoin (d a : Reg) (sl ws : BitVec 3) (s : State) :=
  s.ctl (.gjoin d a sl ws) [a] [d] sl ws (fun t => do
    let k ← Ctl.groupWord (t.g a)
    if t.groups.contains k then Ctl.result d (allOnes - 1)
    else if 8 ≤ t.groups.length then Ctl.result d allOnes
    else do
      let w ← get
      Ctl.upd (fun u => (u.write k 4 (u.read k 4 + 1)).write (k + 4) 4 (u.read (k + 4) 4 + 1))
      Ctl.me (fun u => { u with groups := u.groups ++ [k] }.setG d (w64 (w.read k 4)))
    Ctl.done)

/-- An agent leaves a group (R145): the count falls, and the collectives on the word whose
members have not all been accepted are cancelled. -/
def Work.leaveGroup (w : Work) (k key : Nat) : Work :=
  let mine := match aget w.m.thr k with
    | some t => t.groups.contains key
    | none => false
  let v := if mine then
      (w.write key 4 (w.read key 4 + 2 ^ 32 - 1)).modThr k (fun t =>
        { t with groups := t.groups.filter (· != key) })
    else w
  v.cancelColl key

/-- GLEAVE (R145). -/
def execGleave (a : Reg) (sl ws : BitVec 3) (s : State) :=
  s.ctl (.gleave a sl ws) [a] [] sl ws (fun t => do
    let k ← Ctl.groupWord (t.g a)
    Ctl.done
    Ctl.upd (fun u => u.leaveGroup u.m.cur k))

/-! ## Triggers -/

/-- The counter of a trigger word: 8-aligned and in near memory, else cause 0x0D (R146). -/
def Ctl.counter (va : Word) : Ctl Nat := do
  if va.toNat % 8 ≠ 0 then Ctl.trap 0x0D va
  let rs ← Ctl.span va.toNat 8 .read
  match rs with
  | (k, _, _) :: _ =>
    if nearLen ≤ k then Ctl.trap 0x0D va
    Ctl.onWay va.toNat rs
    pure k
  | [] => Ctl.trap 0x0D va

/-- TRIG (R146, R147). Where the counter and the block both fail, the counter's cause is taken: the spec does
not order them (DESIGN CHOICE, log 135). A system core has no launch, so no REGION is one of its launch
(log 42). -/
def execTrig (d a : Reg) (sl ws : BitVec 3) (b : Reg) (s : State) :=
  s.ctl (.trig d a sl ws b) [a, b] [d] sl ws (fun t => do
    let k ← Ctl.counter (t.g a)
    let va := t.g b
    let blk ← Ctl.block va 32 32
    let image := w64 (fieldAt blk 8 8)
    let status := w64 (fieldAt blk 0x10 8)
    Ctl.need va 0x08 (image.toNat % 4 == 0)
    Ctl.need va 0x10 (status.toNat % 8 == 0)
    let w ← get
    let region := fieldAt blk 0x18 1
    let launch := if t.sys.isSome then none else w.m.launch? t.launch
    Ctl.need va 0x18 (fieldAt blk 0x19 3 == 0 && (match launch with
      | some l => region < l.regions.length
      | none => false))
    Ctl.zeros va blk 0x1C 1
    let bound := (aget w.m.trigs k).isSome
    let here := (w.m.trigs.filter (fun e => sliceOf e.1 == sliceOf k)).length
    if !bound && 256 ≤ here then Ctl.result d 4
    else do
      let fires := fieldAt blk 0 8 ≤ w.read k 8
      let tr := w.m.transOf w.m.cur t
      let x : Trigger :=
        { thresh := w64 (fieldAt blk 0 8), image := image, status := status, launch := t.launch,
          region := region, trans := tr, nbv := t.nbv }
      Ctl.upd (fun u => (u.mach (fun m => { m with trigs := aset m.trigs k x })).fireTrigger k)
      Ctl.result d (w64 ((if bound then 1 else 0) + (if fires then 2 else 0)))
    Ctl.done)

/-- UNTRIG (R147). -/
def execUntrig (d a : Reg) (sl ws : BitVec 3) (s : State) :=
  s.ctl (.untrig d a sl ws) [a] [d] sl ws (fun t => do
    let k ← Ctl.counter (t.g a)
    let w ← get
    if (aget w.m.trigs k).isSome then do
      Ctl.upd (fun u => u.mach (fun m => { m with trigs := aerase m.trigs k }))
      Ctl.result d 0
    else Ctl.result d 1
    Ctl.done)

end Sys2Proof.Machine
end

