-- ==== Sys2Proof/Machine/Fabric.lean ====
section
/-!
DEFINITION. The fabric's links: tiles, regions and switch words (R14, R30, R54), tokens entering
and leaving buffers (R406, R264, R265), what is present of an item and when its attempt resolves
(R364 to R366), records of failures (R152), reports of loads (R133, R372), freezes (R327), and the
events TOKEN_HOP and ANTI_TOKEN_HOP (R262 to R268).
-/

namespace Sys2Proof.Machine

/-! ## Tiles and contexts -/

/-- A bank tile stands where x + y is odd (R14). -/
def isBank (x y : Nat) : Bool := (x + y) % 2 == 1

/-- The number of a context of a tile in its cluster. -/
def ctxKey (x y c : Nat) : Nat := (8 * y + x) * 4 + c

/-- The tile and context of a number. -/
def keyX (k : Nat) : Nat := k / 4 % 8
def keyY (k : Nat) : Nat := k / 32
def keyC (k : Nat) : Nat := k % 4

/-- A committed context. -/
def Mach.ctx? (m : Mach) (g x y c : Nat) : Option Ctx :=
  if 8 ≤ x || 8 ≤ y || 4 ≤ c then none
  else (aget m.clusters g).bind (fun k => aget k.ctxs (ctxKey x y c))

/-- A cluster changed. -/
def Work.modCluster (w : Work) (g : Nat) (f : Cluster → Cluster) : Work :=
  w.mach (fun m => { m with clusters := amod m.clusters g f })

/-- A context changed. -/
def Work.modCtx (w : Work) (g x y c : Nat) (f : Ctx → Ctx) : Work :=
  w.modCluster g (fun k => { k with ctxs := amod k.ctxs (ctxKey x y c) f })

/-- The engine stage words of a header (R56). -/
def Ctx.fire (c : Ctx) : Nat := bits c.hdr 16 4
def Ctx.early (c : Ctx) : Nat := bits c.hdr 12 4
def Ctx.role (c : Ctx) : Nat := bits c.hdr 30 2

/-- Stage or slot word j, 1 first; ENOP where there is none (R53). -/
def Ctx.stage (c : Ctx) (j : Nat) : Nat := if j = 0 then 0 else nth c.stages (j - 1) 0

/-- The opcode of S1 and of S6. -/
def Ctx.op1 (c : Ctx) : Nat := bits (c.stage 1) 24 8
def Ctx.op6 (c : Ctx) : Nat := bits (c.stage 6) 24 8

/-- A memory operation stands in S6 (R285). -/
def Ctx.isMem (c : Ctx) : Bool := !c.bank && 0x90 ≤ c.op6 && c.op6 ≤ 0x93

/-- A group word stands in S6 (R242). -/
def Ctx.isGroup (c : Ctx) : Bool := !c.bank && 0x5C ≤ c.op6 && c.op6 ≤ 0x5E

/-- The node and the loop-index register of a stage (R58). -/
def Ctx.nodeOf (c : Ctx) (j : Nat) : Nat × Nat :=
  match c.nmap.find? (fun e => bits e 4 4 == j) with
  | some e => (bits e 8 24, bits e 0 4)
  | none => (0xFFFFFF, 15)

/-- The tile's firing entry (R58): S1's, or the lowest-numbered stage's that has one. -/
def Ctx.firingEntry (c : Ctx) : Nat × Nat :=
  match (List.range 7).find? (fun j => c.nmap.any (fun e => bits e 4 4 == j + 1)) with
  | some j => c.nodeOf (j + 1)
  | none => (0xFFFFFF, 15)

/-- A loop index as records give it: lane 0 of the register, or none (R58, R390). -/
def Ctx.loopIdx (c : Ctx) (e : Nat × Nat) : Nat :=
  if e.2 < 8 then lane (agetD c.ev e.2 0) 0 else 0xFFFFFFFF

/-! ## Regions -/

/-- A tile lies in a region. -/
def Region.has (r : Region) (g x y : Nat) : Bool :=
  r.cluster == g && r.x0 ≤ x && x < r.x0 + r.cols && r.y0 ≤ y && y < r.y0 + r.rows

/-- Where a region stands among the launches. -/
structure Where where
  l : Nat
  r : Nat
  deriving DecidableEq, Repr

/-- Region r of launch l. -/
def Mach.region? (m : Mach) (l r : Nat) : Option Region := (m.launch? l).bind (fun x => x.regions[r]?)

/-- The launch holds its clusters: it runs, or it is being placed (R303). -/
def Launch.holds (l : Launch) : Bool := l.placing || l.state == 1

/-- The region that holds a tile (R30). -/
def Mach.regionAt (m : Mach) (g x y : Nat) : Option (Where × Region) :=
  m.launches.findSome? (fun e =>
    if !e.2.holds then none
    else (List.range e.2.regions.length).findSome? (fun k => match e.2.regions[k]? with
      | some r => if r.has g x y then some ({ l := e.1, r := k }, r) else none
      | none => none))

/-- A launch changed. -/
def Work.modLaunch (w : Work) (l : Nat) (f : Launch → Launch) : Work :=
  w.mach (fun m => { m with launches := amod m.launches l f })

/-- A region changed. -/
def Work.modRegion (w : Work) (p : Where) (f : Region → Region) : Work :=
  w.modLaunch p.l (fun x => { x with regions := modNth x.regions p.r f })

/-- A port changed. -/
def Work.modPort (w : Work) (p : Where) (k : Nat) (f : Port → Port) : Work :=
  w.modRegion p (fun r => { r with ports := amod r.ports k f })

/-- The committed contexts of a region, in row-major order of tiles and by context. -/
def Mach.ctxsOf (m : Mach) (r : Region) : List (Nat × Ctx) :=
  match aget m.clusters r.cluster with
  | some k => k.ctxs.filter (fun e => r.has r.cluster (keyX e.1) (keyY e.1))
  | none => []

/-- The engines that belong to a region. -/
def Mach.enginesOf (m : Mach) (p : Where) (r : Region) : List (Nat × Engine) :=
  match aget m.clusters r.cluster with
  | some k => k.engines.filter (fun e => e.2.launch == p.l && e.2.region == p.r)
  | none => []

/-- Activity in a region returns its hang timer to 0 (R323). -/
def Work.active (w : Work) (p : Where) : Work :=
  w.modRegion p (fun r => { r with timer := w.m.tb, tbAct := w.m.tb })

/-! ## Switch words (R54) -/

structure SwW where
  dst : Nat
  src : Nat
  net : Nat
  depth : Nat
  rep : Bool
  hold : Bool
  kill : Bool
  deriving DecidableEq, Repr

def swW (w : Nat) : SwW :=
  { dst := bits w 13 3, src := bits w 10 3, net := bits w 8 2, depth := bits w 5 3, rep := bitAt w 4,
    hold := bitAt w 3, kill := bitAt w 2 }

/-- A null word (R55). -/
def SwW.null (s : SwW) : Bool := s.dst == s.src && s.dst < 4

/-- The routes of a context: those of held hops that earlier configurations set, and those of its own
switch words for every other destination (R54). A new word for a held destination takes no effect
(DEDUCED, log 122). -/
def Ctx.routes (c : Ctx) : List SwW :=
  let held := (c.heldSw.map swW).filter (fun s => !s.null)
  held ++ (c.sw.map swW).filter (fun s => !s.null && !held.any (fun h => h.dst == s.dst))

/-- The switch words of a context that a later configuration leaves standing (R54). -/
def Ctx.holdWords (c : Ctx) : List Nat :=
  let held := fun (w : Nat) => (swW w).hold && !(swW w).null
  c.heldSw ++ c.sw.filter (fun w => held w && !c.heldSw.any (fun h => (swW h).dst == (swW w).dst))

/-- The route of a destination. -/
def Ctx.route (c : Ctx) (d : Nat) : Option SwW := c.routes.find? (fun s => s.dst == d)

/-- The destinations fed from a source, each with its route. -/
def Ctx.dests (c : Ctx) (src : Nat) : List Nat := (c.routes.filter (fun s => s.src == src)).map (·.dst)

/-- A tied destination (R407). -/
def Ctx.tied (c : Ctx) (d : Nat) : Bool :=
  match c.route d with
  | some s => s.src == 7
  | none => false

/-- The network of a destination. -/
def Ctx.netOf (c : Ctx) (d : Nat) : Nat := ((c.route d).map (·.net)).getD 0

/-- Slots of a buffer (R54). -/
def slotsOf (depth : Nat) : Nat := 2 ^ (depth + 1)

def Hop.empty : Hop := { q := [], marks := [], anti := [], moved := 0 }

def Ctx.hop (c : Ctx) (d : Nat) : Hop := agetD c.hops d Hop.empty

/-- The buffer of a destination changed; an empty one is not kept. -/
def Ctx.modHop (c : Ctx) (d : Nat) (f : Hop → Hop) : Ctx :=
  { c with hops := aset c.hops d (f (c.hop d)) }

/-- A buffer has a free slot. -/
def Ctx.space (c : Ctx) (d : Nat) : Bool :=
  match c.route d with
  | some s => (c.hop d).q.length < slotsOf s.depth
  | none => false

/-- The head token of input i (0 A to 3 D). -/
def Ctx.head (c : Ctx) (i : Nat) : Option Tok := (c.hop (4 + i)).q.head?

/-- The tile beyond a side (0 north, 1 east, 2 south, 3 west), inside the cluster. -/
def neighbour (x y side : Nat) : Option (Nat × Nat) :=
  match side with
  | 0 => if y = 0 then none else some (x, y - 1)
  | 1 => if x = 7 then none else some (x + 1, y)
  | 2 => if y = 7 then none else some (x, y + 1)
  | _ => if x = 0 then none else some (x - 1, y)

/-- The side that faces a side. -/
def opposite (side : Nat) : Nat := (side + 2) % 4

/-- The tile of a region beyond a side of one of its tiles: none across the region's boundary,
where the link is a port (R136) or a hop of a held circuit route (R22). -/
def Region.beyond (r : Region) (x y side : Nat) : Option (Nat × Nat) :=
  (neighbour x y side).bind (fun p => if r.has r.cluster p.1 p.2 then some p else none)

/-- The tile beyond a side of a tile, in its cluster or in the cluster across that side (log 16). -/
def acrossTile (g x y side : Nat) : Option (Nat × Nat × Nat) :=
  match neighbour x y side with
  | some (nx, ny) => some (g, nx, ny)
  | none => (Config.neighbour g side).map (fun h => match side with
    | 0 => (h, x, 7)
    | 1 => (h, 0, y)
    | 2 => (h, x, 0)
    | _ => (h, 7, y))

/-- A hop of a held circuit route between regions of one launch (R22, R54, log 16): the sending hop, its
region, and the region, tile and destinations of one context that take its tokens. -/
structure HeldLink where
  src : Where
  g : Nat
  x : Nat
  y : Nat
  c : Nat
  side : Nat
  dst : Where
  h : Nat
  nx : Nat
  ny : Nat
  dests : List Nat

/-- The held hop that leaves a tile at a side: both ends keep the hop, and both lie in regions of one launch. -/
def Mach.heldLink (m : Mach) (g x y c side : Nat) : Option HeldLink :=
  match m.regionAt g x y, m.ctx? g x y c, acrossTile g x y side with
  | some (p, _), some k, some (h, nx, ny) =>
    if (k.route side).any (·.hold) then
      match m.regionAt h nx ny, m.ctx? h nx ny c with
      | some (q, _), some n =>
        let ds := (n.routes.filter (fun s => s.src == opposite side && s.hold)).map (·.dst)
        if q.l = p.l && q.r != p.r && !ds.isEmpty then
          some { src := p, g := g, x := x, y := y, c := c, side := side, dst := q, h := h, nx := nx, ny := ny, dests := ds }
        else none
      | _, _ => none
    else none
  | _, _, _ => none

/-- A held hop that crosses between dies. -/
def HeldLink.bridged (k : HeldLink) : Bool := k.g / 24 != k.h / 24

/-- What is put into the bridges of a held hop. -/
def HeldLink.crossing (k : HeldLink) (tok : Option Tok) (anti : Option Mark) : Crossing :=
  { launch := k.src.l, g := k.g, x := k.x, y := k.y, c := k.c, side := k.side, tok := tok, anti := anti }

/-- Something enters the bridges of a held hop. -/
def Work.intoBridge (w : Work) (k : HeldLink) (tok : Option Tok) (anti : Option Mark) : Work :=
  w.mach (fun m => { m with crossings := m.crossings ++ [k.crossing tok anti] })

/-- What is inside the bridges of a held hop. -/
def Crossing.on (e : Crossing) (k : HeldLink) : Bool :=
  e.g == k.g && e.x == k.x && e.y == k.y && e.c == k.c && e.side == k.side

/-- The mark by which a thread token and what comes of it stand in the accounting of their run: no port's
(R135, R315). -/
def threadSrc : Nat := 0xFFFFFFFF

/-- Source ports of an item as region `to_` names them, from the names that region `from_` gives them. -/
def carrySrcs (from_ to_ : Nat) (l : List Nat) : List Nat :=
  l.map (fun s => if s = threadSrc then s else if s < 256 then 256 * (from_ + 1) + s else if s / 256 = to_ + 1 then s % 256 else s)

/-- The number of the port at a side of a tile (R136). -/
def Region.portNo (r : Region) (x y side : Nat) : Nat := (y - r.y0) * 32 + (x - r.x0) * 4 + side

/-- The tile and side of a port number, if it names a boundary link. -/
def Region.portAt (r : Region) (p : Nat) : Option (Nat × Nat × Nat) :=
  let x := r.x0 + bits p 2 3
  let y := r.y0 + p / 32
  let side := p % 4
  if p < 256 && r.has r.cluster x y && (r.beyond x y side).isNone then some (x, y, side) else none

/-! ## Tokens -/

/-- A token of a mark's item: items go by number (R262, R264). -/
def Tok.is (t : Tok) (m : Mark) : Bool := t.kind == 0 && t.item == m.item
def Tok.mark (t : Tok) : Mark := { item := t.item, srcs := t.srcs }
def Mark.is (m n : Mark) : Bool := m.item == n.item

/-- One item of one source: the attempt that R265 speaks of (log 11). -/
def Mark.shares (m n : Mark) : Bool :=
  m.item == n.item && ((m.srcs.isEmpty && n.srcs.isEmpty) || m.srcs.any (fun p => n.srcs.contains p))

/-- The payload of a wide poison token (R361). -/
def poisonPay (cause node tb item : Nat) : Wide :=
  ofLanes [node % 2 ^ 24 * 256 + cause, tb % 2 ^ 32, item % 2 ^ 16]

/-- A poison token (R361). -/
def poisonTok (cause node tb item : Nat) (srcs : List Nat) : Tok :=
  { item := item, kind := 0, tag := true, net := 0, pay := poisonPay cause node tb item, srcs := srcs }

/-- A poison token that arises at stage or slot j of a context (R58, R361). -/
def Ctx.poison (c : Ctx) (j cause tb item : Nat) (srcs : List Nat) : Tok :=
  { poisonTok cause (c.nodeOf j).1 tb item srcs with loop := c.loopIdx (c.nodeOf j) }

/-- The poison payload as a network holds it. -/
def poisonOn (net : Nat) (p : Wide) : Wide :=
  match net with
  | 0 => p
  | 1 => BitVec.ofNat 512 (bits p.toNat 0 64)
  | _ => 0

/-- Whether a token is true (R276). -/
def Tok.isTrue (t : Tok) : Bool :=
  match t.net with
  | 2 => bitAt t.pay.toNat 0
  | _ => bits t.pay.toNat 0 32 != 0

/-- A token as it enters a hop of a network (R406, R361). `free` stands for the lane 1 of a
tagged bit token, for which no value is stated. -/
def Tok.convert (t : Tok) (net free : Nat) : Tok :=
  if t.net = net || t.kind ≠ 0 then { t with net := net }
  else if t.tag then
    let full :=
      if t.net = 2 then poisonPay 0 0xFFFFFF free t.item
      else poisonPay (bits t.pay.toNat 0 8) (bits t.pay.toNat 8 24) (bits t.pay.toNat 32 32) t.item
    { t with net := net, pay := poisonOn net full, loop := if t.net = 2 || net = 2 then 0xFFFFFFFF else t.loop }
  else
    let v := match net with
      | 2 => if t.isTrue then 1 else 0
      | _ => if t.net = 2 then t.pay.toNat % 2 else bits t.pay.toNat 0 64
    { t with net := net, pay := BitVec.ofNat 512 v }

/-- The cause, node and TB low word that a tagged token gives a record (R361). -/
def Tok.failure (t : Tok) (free : Nat) : Nat × Nat × Nat :=
  if t.net = 2 then (0, 0xFFFFFF, free)
  else (bits t.pay.toNat 0 8, bits t.pay.toNat 8 24, bits t.pay.toNat 32 32)

/-- The inputs at which stale tokens are dropped (R265, R282): the EARLY mask, or B of KILL. -/
def Ctx.stale (c : Ctx) (d : Nat) : Bool :=
  !c.bank && 4 ≤ d &&
    (bitAt c.early (d - 4) || (c.op1 == 0x7A && bits (c.stage 1) 16 4 == d - 3))

/-- A token enters a buffer: dropped at a discard mark (R264), against an anti-token (R262) or as
stale (R265), else put at the tail. -/
def Ctx.enter (c : Ctx) (d : Nat) (t : Tok) (tb : Nat) : Ctx :=
  let h := c.hop d
  if h.marks.any t.is then
    c.modHop d (fun h => { h with marks := h.marks.eraseP t.is, moved := tb })
  else if h.anti.any t.is then
    c.modHop d (fun h => { h with anti := h.anti.eraseP t.is, moved := tb })
  else if t.kind == 0 && c.stale d && (agetD c.fired (d - 4) []).any t.is then c
  else c.modHop d (fun h => { h with q := h.q ++ [t], moved := tb })

/-- A token enters destinations of a context, converted to each one's network (R406). -/
def Work.enterAll (w : Work) (g x y c : Nat) (ds : List Nat) (t : Tok) : Work :=
  let (n, w) := w.fresh
  let free := (Config.freeWord n).toNat
  w.modCtx g x y c (fun k => ds.foldl (fun k d => k.enter d (t.convert (k.netOf d) free) w.m.tb) k)

/-- The head of a buffer taken. -/
def Ctx.pop (c : Ctx) (d tb : Nat) : Ctx := c.modHop d (fun h => { h with q := h.q.drop 1, moved := tb })

/-! ## Engines and the rings they bind -/

/-- Feeding tile n of engine e (R15). -/
def feedTile (e n : Nat) : Nat × Nat :=
  match e with
  | 0 => (2 * n + 1, 0)
  | 1 => (7, 2 * n)
  | 2 => (2 * n, 7)
  | _ => (0, 2 * n + 1)

/-- The MX word of an opcode among an engine's words, the first one (R226). -/
def Engine.word (e : Engine) (op : Nat) : Nat := (e.words.find? (fun w => bits w 24 8 == op)).getD 0

/-- Grouped mode (R232). -/
def Engine.grouped (e : Engine) : Bool := e.words.any (fun w => bits w 24 8 == 0x63)

/-- The tile and ring of an engine's A, B and result rings (R230). -/
def Engine.ringA (e : Engine) (n : Nat) : (Nat × Nat) × Nat :=
  (feedTile n (bits (e.word 0x61) 20 2), bits (e.word 0x61) 18 2)
def Engine.ringB (e : Engine) (n : Nat) : (Nat × Nat) × Nat :=
  (feedTile n (bits (e.word 0x61) 16 2), bits (e.word 0x61) 14 2)
def Engine.ringC (e : Engine) (n : Nat) : (Nat × Nat) × Nat :=
  (feedTile n (bits (e.word 0x61) 12 2), bits (e.word 0x61) 10 2)

/-- Whether a ring is the A ring of an engine in grouped mode (R403). -/
def Mach.weightRing (m : Mach) (g x y c r : Nat) : Bool :=
  match aget m.clusters g with
  | some k => k.engines.any (fun e => e.2.grouped && e.2.ctx == c && e.2.ringA e.1 == ((x, y), r))
  | none => false

/-! ## What is present of an item (R364, R266) -/

def Tok.counts (t : Tok) : List Mark := if t.kind = 0 then [t.mark] else []

/-- The tokens of a context, but for those whose path has ended in a weight ring (R403). -/
def Ctx.tokens (c : Ctx) (weight : Nat → Bool) : List Mark :=
  (c.hops.flatMap (fun e => e.2.q.flatMap Tok.counts))
  ++ c.skid.flatMap (fun e => e.tok.counts)
  ++ c.reqs.flatMap (fun q => { item := q.item, srcs := q.srcs } :: q.replies.flatMap Tok.counts)
  ++ c.held.flatMap Tok.counts ++ c.entry.flatMap Tok.counts
  ++ (match c.creq with
      | some q => [{ item := q.item, srcs := q.srcs }]
      | none => [])
  ++ (List.range c.rings.length).flatMap (fun n => match c.rings[n]? with
      | some r => if weight n then [] else r.cells.flatMap (fun e =>
          if e.2.tag != 0 && e.2.kind == 0 then [{ item := e.2.item, srcs := e.2.srcs }] else [])
      | none => [])

/-- The anti-tokens and marks of a context. -/
def Ctx.antis (c : Ctx) : List Mark :=
  c.hops.flatMap (fun e => e.2.anti ++ e.2.marks) ++ c.forks.map (·.2)

/-- The tokens an engine holds: open areas and the operand slots whose path ends at the push
(R408). -/
def Area.tokens (a : Area) : List Mark :=
  (if a.pairs != 0 then [{ item := a.item, srcs := a.srcs }] else []) ++ a.popped.map (·.1)

def Engine.tokens (e : Engine) : List Mark := e.cur.tokens ++ e.drain.tokens

def Mach.tokensIn (m : Mach) (p : Where) (r : Region) : List Mark :=
  (m.ctxsOf r).flatMap (fun e => e.2.tokens (m.weightRing r.cluster (keyX e.1) (keyY e.1) (keyC e.1))) ++ (m.enginesOf p r).flatMap (fun e => e.2.tokens)

def Mach.antisIn (m : Mach) (r : Region) : List Mark := (m.ctxsOf r).flatMap (fun e => e.2.antis)

/-! ## Records (R152) and failures -/

/-- The attempt of an item at a port. -/
def Port.attempt (p : Port) (item : Nat) : Option Attempt := p.attempts.find? (fun a => a.item == item && !a.waiting)

/-- Whether an attempt that fails leaves no further attempt (R365). -/
def Port.final (p : Port) (a : Attempt) : Bool :=
  match p.stream with
  | some s => a.rinj || !s.idem || s.strs || s.retry ≤ a.no
  | none => true

/-- A record queued in a region; a full queue drops and counts it. -/
def Region.record (r : Region) (e : ErrRec) : Region :=
  if 64 ≤ r.errq.length then { r with lost := r.lost + 1 }
  else { r with errq := r.errq ++ [{ e with lost := r.lost }], lost := 0 }

/-- The region of a source that a token of region p names, and its port. -/
def Where.source (p : Where) (s : Nat) : Where × Nat := if s < 256 then (p, s) else ({ p with r := s / 256 - 1 }, s % 256)

/-- The record of a tagged token that reaches a sink or, with SKIP, a memory operation. PORT of a token of
no source (a thread token) is a free value (log 46). -/
def Work.queueRecord (w : Work) (p : Where) (t : Tok) (skip : Bool) : Work :=
  let (n, w) := w.fresh
  let free := (Config.freeWord n).toNat
  let (cause, node, tb) := t.failure (free % 2 ^ 32)
  let port := match t.srcs.filter (· != threadSrc) with
    | k :: _ => k
    | [] => free / 2 ^ 32 % 256
  let (at_, port) := p.source port
  let (no, fin) := match ((w.m.region? at_.l at_.r).bind (fun r => aget r.ports port)).bind (fun q =>
      (q.attempt t.item).map (fun a => (a.no, q.final a))) with
    | some x => x
    | none => (0, true)
  w.modRegion p (fun r =>
    r.record { cause := cause, port := port, item := t.item, node := node, loopIdx := t.loop,
               tbLow := tb, skip := skip, final := fin && !skip, attempt := no, lost := 0 })

/-- The attempts of an item at its ports have failed (R364). -/
def Work.failItem (w : Work) (p : Where) (item : Nat) (srcs : List Nat) : Work :=
  (srcs.filter (· != threadSrc)).foldl (fun u k => u.modPort (p.source k).1 (p.source k).2 (fun q => { q with attempts := q.attempts.map (fun a =>
    if a.item == item && !a.waiting then { a with failed := true } else a) })) w

/-- A data token arrives at a sink (R364): a tagged one fails its attempt and queues a record. -/
def Work.sinkArrival (w : Work) (p : Where) (t : Tok) : Work :=
  if t.kind = 0 && t.tag then (w.queueRecord p t false).failItem p t.item t.srcs else w

/-! ## Resolution (R364 to R366) -/

/-- A port after an item's attempt has resolved: completed, retried, or finally failed. -/
def Port.resolve (q : Port) (a : Attempt) : Port :=
  let rest := q.attempts.filter (· != a)
  if !a.failed then { q with attempts := rest }
  else if q.final a then { q with attempts := rest, failed := q.failed ++ [(a.item, a.row, a.no)] }
  else
    { q with attempts := q.attempts.map (fun b =>
        if b == a then { a with no := a.no + 1, failed := false, waiting := true } else b) }

/-- The attempts of a port that have resolved are settled. -/
def Port.settle (q : Port) (k : Nat) (present : List Mark) : Port :=
  (q.attempts.filter (fun a => !a.waiting && !present.any (fun m => m.item == a.item && m.srcs.contains k))).foldl
    Port.resolve q

/-- Marks of items of which no token remains in the region are removed (R264), and FIRED, VOTE and the requests
made drop what has resolved, which nothing of the item in the launch says it has (R265, R369). -/
def Ctx.settle (c : Ctx) (toks present : List Mark) : Ctx :=
  let live := fun (m : Mark) => toks.any (fun t => t.is m)
  { c with
    hops := c.hops.map (fun e => (e.1, { e.2 with marks := e.2.marks.filter live }))
    forks := c.forks.filter (fun f => live f.2)
    fired := c.fired.map (fun e => (e.1, e.2.filter (fun m => present.any (fun t => t.shares m))))
    asked := c.asked.filter (fun m => present.any (fun t => t.shares m))
    votes := c.votes.filter (fun v =>
      if v.kind = 0 then present.any (fun u => u.shares { item := v.item, srcs := v.srcs }) else v.seen.length < 3) }

/-- What stands in other regions of a launch, and inside bridges, of items of a region's ports. -/
def Mach.abroad (m : Mach) (p : Where) : List Mark :=
  match m.launch? p.l with
  | none => []
  | some l =>
    (List.range l.regions.length).flatMap (fun k => match l.regions[k]? with
      | some r =>
        if k = p.r then []
        else (m.tokensIn { p with r := k } r ++ m.antisIn r).map (fun t => { t with srcs := carrySrcs k p.r t.srcs })
      | none => [])
    ++ (m.crossings.filter (fun e => e.launch == p.l)).flatMap (fun e => match m.regionAt e.g e.x e.y with
      | some (q, _) => ((e.tok.map Tok.mark).toList ++ e.anti.toList).map (fun t =>
          if q.r = p.r then t else { t with srcs := carrySrcs q.r p.r t.srcs })
      | none => [])

/-- A region settled after something in its launch has moved. -/
def Work.settleRegion (w : Work) (p : Where) : Work :=
  match w.m.region? p.l p.r with
  | none => w
  | some r =>
    let toks := w.m.tokensIn p r
    let early := toks ++ w.m.antisIn r ++ w.m.abroad p
    let v := w.modCluster r.cluster (fun k => { k with ctxs := k.ctxs.map (fun e =>
      if r.has r.cluster (keyX e.1) (keyY e.1) then (e.1, e.2.settle toks early) else e) })
    let present := toks ++ v.m.antisIn r ++ v.m.abroad p
    v.modRegion p (fun r => { r with ports := r.ports.map (fun e => (e.1, e.2.settle e.1 present)) })

/-- The regions of a launch settled after something in one of them has moved: items pass between them on
held circuit routes. -/
def Work.settle (w : Work) (p : Where) : Work :=
  match w.m.launch? p.l with
  | some l => (List.range l.regions.length).foldl (fun u k => u.settleRegion { p with r := k }) w
  | none => w

/-! ## Launches that end (R301, R305) -/

/-- Through what the device reaches what the submitting core named: at S. -/
def Launch.osTrans (l : Launch) : Trans := { l.trans with priv := .s, cluster := none }

/-- The status dword of a launch written. -/
def Work.writeStatus (w : Work) (l : Launch) (state reason entry cause : Nat) : Work :=
  (w.deviceStore noCache l.osTrans l.status.toNat
    (toBytes 8 (state + reason * 2 ^ 8 + entry % 256 * 2 ^ 16 + cause % 256 * 2 ^ 24))).2

/-- The status words of engines that leave with their region stand until the next commit (R199, R404). -/
def Mach.keepStats (m : Mach) (g : Nat) (es : List (Nat × Engine)) : Mach :=
  { m with keptStat := es.foldl (fun a e =>
      if e.2.keptStat = 0 then aerase a (8 * g + e.1) else aset a (8 * g + e.1) e.2.keptStat) m.keptStat }

/-- A launch ends (R305): its clusters are free and nothing of it is left but what R404 lists, its final status
is written. -/
def Work.finish (w : Work) (l : Nat) (x : Launch) : Work :=
  let gs := x.regions.map (·.cluster)
  ((w.writeStatus x x.final 0 0 0).mach (fun m => gs.foldl (fun m g =>
    m.keepStats g (((aget m.clusters g).map (·.engines)).getD [])) m)).mach (fun m => { m with
    trigs := m.trigs.filter (fun t => t.2.launch != l)
    loads := m.loads.filter (fun d => d.2.launch != l)
    crossings := m.crossings.filter (fun e => e.launch != l)
    clusters := m.clusters.filter (fun c => !gs.contains c.1)
    launches := aerase m.launches l })

/-- A launch whose last thread has exited ends once no port still drains and none of its loads is still to be
decided: no load is dropped (R306, log 84). -/
def Work.tryEnd (w : Work) (l : Nat) : Work :=
  match w.m.launch? l with
  | some x =>
    if x.ending && x.regions.all (fun r => r.ports.all (fun q => q.2.drains.isEmpty))
        && !w.m.loads.any (fun d => d.2.launch == l && d.2.fault.isNone) then w.finish l x
    else w
  | none => w

/-! ## Loads that report (R133, R372) -/

/-- Block mode of a region ends with a status (R135). -/
def Work.endBlock (w : Work) (p : Where) (status : Nat) : Work :=
  match (w.m.region? p.l p.r).bind (·.block) with
  | none => w
  | some b => (w.modRegion p (fun r => { r with block := none })).endPend b.agent b.pend (some (w64 status))

/-- A load has committed or has been discarded: its status goes where the load reports (R133,
R146, R307, R315). A placement's load stays for LAUNCH_PLACEMENT to read where it
failed, and a CREQ's for CREQ_COMPLETE. -/
def Work.endLoad (w : Work) (n status : Nat) : Work :=
  match aget w.m.loads n with
  | none => w
  | some d =>
    let v := w.mach (fun m => { m with loads := aerase m.loads n })
    let failed := { d with accepted := true, fault := some (bits status 0 8, bits status 16 16), staged := [] }
    let told : Work := match d.report with
      | .word t p => v.endPend t p (some (w64 status))
      | .placement =>
        if status = 0 then v else w.mach (fun m => { m with loads := aset m.loads n failed })
      | .trigger a => if a = 0 then v else (v.store noCache d.trans a.toNat (toBytes 8 status)).2
      | .creq _ _ _ _ => w.mach (fun m => { m with loads := aset m.loads n failed })
      | .block =>
        let p : Where := { l := d.launch, r := d.region }
        let ready := fun (r : Region) => { r with block := r.block.map (fun (b : BlockMode) => { b with load := none }) }
        if status = 0 then v.modRegion p ready else v.endBlock p status
    told.tryEnd d.launch

/-! ## Freezes (R327) -/

/-- A context's anti-tokens become marks where they stand (R268). -/
def Hop.mark (h : Hop) (m : Mark) : Hop := if 64 ≤ h.marks.length then h else { h with marks := h.marks ++ [m] }
def Ctx.antiToMarks (c : Ctx) : Ctx :=
  { c with hops := c.hops.map (fun e => (e.1, e.2.anti.foldl Hop.mark { e.2 with anti := [] })) }

/-- The wave of a request, if one of its operations has been performed (R260). -/
def Region.wave (r : Region) (q : Req) : Option Wave :=
  r.waves.find? (fun v => v.loopIdx == q.loopIdx && v.item == q.item)

/-- A request's turn in its wave (R287). -/
def Region.waveOk (r : Region) (q : Req) : Bool :=
  match r.wave q with
  | none => bitAt q.order 0
  | some v => v.own == bits q.order 16 8 || (bits q.order 16 8 == 0xFF && v.succ == bits q.order 24 8)

/-- Request k of a context is issued: it has its turn in its wave, SER finds the node's earlier
operations performed (R287), no earlier acquire is outstanding and a release finds every earlier
access performed (R255). -/
def Ctx.issued (c : Ctx) (r : Region) (k : Nat) (q : Req) : Bool :=
  let before := (c.reqs.take k).filter (fun u => !u.ended)
  r.waveOk q && !(bitAt q.order 4 && !before.isEmpty) && !before.any (fun u => bitAt u.order 2)
    && !(bitAt q.order 3 && !before.isEmpty)

/-- A memory request of a context is outstanding: issued, without its reply. -/
def Ctx.awaits (c : Ctx) (r : Region) : Bool :=
  (List.range c.reqs.length).any (fun k => match c.reqs[k]? with
    | some q => !q.ended && c.issued r k q
    | none => false)

/-- A request that a freeze awaits is outstanding: between the hops of an ECHS none is (R285). -/
def Ctx.outstanding (c : Ctx) (r : Region) : Bool :=
  (List.range c.reqs.length).any (fun k => match c.reqs[k]? with
    | some q => !q.ended && bits q.word 24 8 != 0x93 && c.issued r k q
    | none => false)

/-- Something inside the bridges of a held hop leaves or enters a region (R327, R374). -/
def Mach.touches (m : Mach) (p : Where) (e : Crossing) : Bool :=
  e.launch == p.l && (match m.heldLink e.g e.x e.y e.c e.side with
    | some k => k.src == p || k.dst == p
    | none => false)

/-- Nothing of a region waits for memory, a CREQ, a pair in progress or a token inside a bridge (R327). -/
def Mach.quiescent (m : Mach) (p : Where) (r : Region) : Bool :=
  (m.ctxsOf r).all (fun e => !e.2.outstanding r && (match e.2.creq with
    | some q => q.status.isSome
    | none => true))
  && (m.enginesOf p r).all (fun e => !e.2.busy)
  && !m.crossings.any (m.touches p)

/-- A frozen region is quiescent (R327). One that an uncorrectable error stopped (cause 4) is emptied
then, by FREEZE_QUIESCENT (R363). -/
def Work.frozenIf (w : Work) (p : Where) : Work :=
  match w.m.region? p.l p.r with
  | some r =>
    if r.state = 2 && r.quiet && r.cause ≠ 4 && w.m.quiescent p r then
      w.modRegion p (fun r => { r with quiet := false, tbFrz := w.m.tb })
    else w
  | none => w

/-- Anti-tokens inside the bridges of a region's held hops become marks at the sending hop (R268). -/
def Work.markCrossings (w : Work) (p : Where) : Work :=
  let out := w.m.crossings.filter (fun e => e.anti.isSome && w.m.touches p e)
  out.foldl (fun u e => u.modCtx e.g e.x e.y e.c (fun k => e.anti.toList.foldl (fun k a => k.modHop e.side (fun h => h.mark a)) k))
    (w.mach (fun m => { m with crossings := m.crossings.filter (fun e => !out.contains e) }))

/-- A region freezes (R327): nothing begins, anti-tokens become marks, a load of which a tile
holds staged words is discarded with status 0x11 (R134). The freeze is complete once the region
is quiescent. `cause` and `slot` are those of R392. -/
def Work.freezeAt (w : Work) (p : Where) (cause slot : Nat) : Work :=
  match w.m.region? p.l p.r with
  | none => w
  | some r =>
    if r.state ≠ 1 then w
    else
      let v := w.modCluster r.cluster (fun k => { k with ctxs := k.ctxs.map (fun e =>
        if r.has r.cluster (keyX e.1) (keyY e.1) then (e.1, e.2.antiToMarks) else e) })
      let u := (v.markCrossings p).modRegion p (fun r => { r with state := 2, cause := cause, slot := slot, quiet := true })
      let cut := u.m.loads.filter (fun e => e.2.launch == p.l && e.2.region == p.r && !e.2.staged.isEmpty
        && e.2.fault.isNone)
      ((cut.foldl (fun u e => u.endLoad e.1 0x11) u).settle p).frozenIf p

/-- Every thread bound to a region is asked to park (R156, R324, R363). -/
def Work.parkBound (w : Work) (p : Where) (cause : Nat) (val : Word) : Work :=
  (w.m.thr.filter (fun e => e.2.sys.isNone && e.2.launch == p.l && e.2.region == p.r)).foldl
    (fun u e => u.askPark e.1 cause val) w

/-- The region of a tile, if it runs. -/
def Mach.running (m : Mach) (g x y : Nat) : Option (Where × Region) :=
  match m.regionAt g x y with
  | some (p, r) => if r.state = 1 then some (p, r) else none
  | none => none

/-! ## Anti-tokens (R262, R263) -/

/-- An anti-token put on a hop: it meets its token in the buffer and both vanish, or it stands on
the reverse channel. -/
def Hop.putAnti (h : Hop) (a : Mark) (tb : Nat) : Hop :=
  if h.q.any (fun t => t.is a) then { h with q := h.q.eraseP (fun t => t.is a), moved := tb }
  else { h with anti := h.anti ++ [a] }

/-- An anti-token sent up an input; a tied input takes it (R407). -/
def Ctx.antiUp (c : Ctx) (d : Nat) (a : Mark) (tb : Nat) : Ctx :=
  if c.tied d then c else c.modHop d (fun h => h.putAnti a tb)

/-- The untied inputs of the FIRE mask, 0 A to 3 D. -/
def Ctx.fireIns (c : Ctx) : List Nat := (List.range 4).filter (fun i => bitAt c.fire i && !c.tied (4 + i))

/-- The input a source code of S1 names (R50): 0 A to 3 D. -/
def Ctx.inA (c : Ctx) : Nat := bits (c.stage 1) 20 4 - 1
def Ctx.inB (c : Ctx) : Nat := bits (c.stage 1) 16 4 - 1

/-- A mark left where an anti-token stops. -/
def Ctx.stop (c : Ctx) (d : Nat) (a : Mark) : Ctx := c.modHop d (fun h => h.mark a)

/-- What a producer that cancels item i does at its inputs (R262): each input token of the item is consumed
without executing, and an anti-token goes up each input whose hop has kill set; a hop with kill clear keeps
a mark for a token still to come (R263). A tied input takes no part (R407). -/
def Ctx.cancelIns (c : Ctx) (ins : List Nat) (a : Mark) (tb : Nat) : Ctx :=
  ins.foldl (fun k i =>
    let d := 4 + i
    let had := (k.hop d).q.any (fun t => t.is a)
    let n := if had then k.modHop d (fun h => { h with q := h.q.eraseP (fun t => t.is a), moved := tb }) else k
    if k.tied d then k
    else if (k.route d).any (·.kill) then n.modHop d (fun h => { h with anti := h.anti ++ [a] })
    else if had then n
    else n.stop d a) c

/-- A producer that has not begun a firing for the item (R262). -/
def Ctx.cancel (c : Ctx) (a : Mark) (tb : Nat) : Ctx :=
  if c.op1 = 0xB1 then { c with entry := c.entry.eraseP (fun t => t.is a) }
  else if c.op1 = 0x76 then
    -- ORDJ: the order token is consumed, a held token discarded, and the anti-token goes up iA (R283)
    let h := c.hop (4 + c.inB)
    let k := if h.q.any (fun t => t.is a) then c.modHop (4 + c.inB) (fun h => { h with q := h.q.eraseP (fun t => t.is a), moved := tb })
      else c.stop (4 + c.inB) a
    ({ k with held := k.held.eraseP (fun t => t.is a) } : Ctx).antiUp (4 + k.inA) a tb
  else if c.op1 = 0x7C then
    -- VOTE: copies at the heads are consumed, and the anti-token goes up the other inputs (R369)
    let k := c.fireIns.foldl (fun k i =>
      if (k.head i).any (fun t => t.is a) then k.modHop (4 + i) (fun h => { h with q := h.q.drop 1, moved := tb })
      else k.antiUp (4 + i) a tb) c
    { k with votes := k.votes.filter (fun v => v.kind != 0 || !a.is { item := v.item, srcs := v.srcs }) }
  else c.cancelIns c.fireIns a tb

/-- A memory operation that takes its place in wave order without an access or a reply (R286). -/
def Ctx.nullOp (c : Ctx) (a : Mark) (tb : Nat) : Ctx :=
  { c with reqs := c.reqs ++ [{ item := a.item, srcs := a.srcs, loopIdx := c.loopIdx (c.nodeOf 6), word := c.stage 6,
                                order := c.order.getD 0xFFFFFF01, addr := 0, data := 0, done := true, ended := false,
                                replies := [], drop := true, tb := tb, bad := false }] }

/-- An operation that loads: ELD or ECHS, which is cancelled while it is not issued (R263). -/
def Ctx.loads (c : Ctx) : Bool := c.op6 == 0x90 || c.op6 == 0x93

/-- A FORK's branches: every destination of the S6 result and of the S3 tap (R279). -/
def Ctx.branches (c : Ctx) : List Nat := c.dests 4 ++ c.dests 5

/-- A FORK holds branches' marks of 64 items (R264). -/
def Ctx.forkRoom (c : Ctx) (a : Mark) : Bool :=
  c.forks.any (fun f => f.2.is a) || (c.forks.map (fun f => f.2.item)).eraseDups.length < 64

/-- The branches at which a FORK keeps a mark for a token: it is dropped there, and the marks are spent (R264). -/
def Ctx.stopped (c : Ctx) (d : Nat) (t : Tok) : Bool := c.op1 == 0x72 && c.forks.any (fun f => f.1 == d && t.is f.2)

/-- A request of an item, made or cancelled, is noted until the attempt resolves (R263, R274). -/
def Ctx.ask (c : Ctx) (a : Mark) : Ctx := { c with asked := c.asked ++ [a] }

/-- The results that wait for their destinations do not fill the six entries of the skid (R25). Each context of a
tile has six of its own, as R308 keeps contexts apart (DESIGN CHOICE, log 154). STEER and LEXIT give one result a
firing, every other word may give two that share an entry. -/
def Ctx.skidFree (c : Ctx) : Bool :=
  let n := (c.skid.filter (fun e => e.source == 4)).length
  let m := (c.skid.filter (fun e => e.source == 5)).length
  if c.op1 = 0x74 || c.op1 = 0x79 then n + m < 6 else n < 6 && m < 6

/-- A context k whose skid may have lost entries in cycle cyc: that it was full is noted for R389. -/
def Ctx.skidFrom (c k : Ctx) (cyc : Nat) : Ctx :=
  if !c.skidFree && k.skidFree then { k with skidAt := some cyc } else k

/-- An anti-token reaches the producer of destination d of a pipeline tile (R262, R263). -/
def Ctx.antiAtProducer (c : Ctx) (d src : Nat) (a : Mark) (tb : Nat) : Ctx :=
  if c.skid.any (fun e => e.source == src && e.dests.contains d && e.tok.is a) then
    -- the firing has begun: its result for this destination is discarded
    let hit := fun (e : SkidEnt) => e.source == src && e.dests.contains d && e.tok.is a
    { c with skid := (c.skid.map (fun e =>
        if hit e then { e with dests := e.dests.filter (· != d) } else e)).filter (fun e => !e.dests.isEmpty) }
  else if c.op1 = 0x72 then
    let forks := (d, a) :: c.forks.filter (fun f => !(f.1 == d && f.2.is a))
    if c.branches.all (fun b => forks.any (fun f => f.1 == b && f.2.is a)) then
      { c with forks := forks.filter (fun f => !f.2.is a) }.cancel a tb
    else if c.forkRoom a then { c with forks := forks }
    else c
  else if c.isMem && (!c.loads || c.reqs.any (fun q => a.is { item := q.item, srcs := q.srcs }) || c.asked.any a.is)
      || c.op1 = 0x78 || c.op1 = 0x79 || c.op1 = 0xB2 then c.stop d a
  else if c.isMem then ((c.cancel a tb).nullOp a tb).ask a
  else if c.op1 = 0xB0 && (match c.creq with
      | some q => a.is { item := q.item, srcs := q.srcs }
      | none => false) then
    { c with creq := c.creq.map (fun q => { q with drop := true }) }
  else c.cancel a tb

/-- An anti-token reaches the memory operation that replies into destination d (R263): an operation that
loads and is not issued makes no access, and every reply for the item is dropped; at one that has been issued
and has replied it stops. -/
def Ctx.antiAtReply (c : Ctx) (r : Region) (d : Nat) (a : Mark) (tb : Nat) : Ctx :=
  match c.reqs.findIdx? (fun q => a.is { item := q.item, srcs := q.srcs } && !q.drop) with
  | some k => { c with reqs := modNth c.reqs k (fun q =>
      { q with drop := true, done := q.done || (c.loads && !c.issued r k q) }) }
  | none => if c.loads && !c.asked.any a.is then ((c.cancel a tb).nullOp a tb).ask a else c.stop d a

/-- The held hop whose tokens a tile takes from a side. -/
def Mach.heldInto (m : Mach) (g x y c side : Nat) : Option HeldLink :=
  (acrossTile g x y side).bind (fun t => (m.heldLink t.1 t.2.1 t.2.2 c (opposite side)).bind (fun k =>
    if k.h = g && k.nx = x && k.ny = y then some k else none))

/-- An anti-token leaves a region up a held hop: at once inside a die, else into the bridge (R374), where it and
its token both vanish (R262). -/
def Work.antiAcross (w : Work) (k : HeldLink) (a : Mark) : Work :=
  let b := { a with srcs := carrySrcs k.dst.r k.src.r a.srcs }
  let v := w.active k.dst
  if k.bridged then
    match v.m.crossings.find? (fun e => e.on k && e.tok.any (·.is b)) with
    | some e => v.mach (fun m => { m with crossings := m.crossings.erase e })
    | none => v.intoBridge k none (some b)
  else (v.modCtx k.g k.x k.y k.c (fun n => n.modHop k.side (fun p => p.putAnti b w.m.tb))).active k.src

/-- An anti-token inside the bridges of a held hop comes out at the sending end. -/
def Work.antiOut (w : Work) (k : HeldLink) : Work :=
  match w.m.crossings.find? (fun e => e.on k && e.anti.isSome) with
  | some e => if w.m.wayTo (k.h / 24) (k.g / 24) = .go then
      ((w.mach (fun m => { m with crossings := m.crossings.erase e })).modCtx k.g k.x k.y k.c (fun n =>
        e.anti.toList.foldl (fun n b => n.modHop k.side (fun p => p.putAnti b w.m.tb)) n)).active k.src
    else w
  | none => w

/-- The first anti-token of destination h moves one hop, vanishes or becomes a mark (R262). -/
def Work.antiHop (w : Work) (r : Region) (g x y c h : Nat) (k : Ctx) (a : Mark) : Work :=
  let tb := w.m.tb
  let off := fun (k : Ctx) => k.modHop h (fun p => { p with anti := p.anti.drop 1 })
  match k.route h with
  | none => w.modCtx g x y c off
  | some s =>
    if s.src = 7 then w.modCtx g x y c off
    else if !s.kill || k.bank && 4 ≤ s.src then w.modCtx g x y c (fun k => (off k).stop h a)
    else if s.src < 4 then
      match r.beyond x y s.src with
      | some (nx, ny) =>
        match w.m.ctx? g nx ny c with
        | some _ =>
          if (k.dests s.src).length = 1 then
            (w.modCtx g x y c off).modCtx g nx ny c (fun n =>
              n.modHop (opposite s.src) (fun p => p.putAnti a tb))
          else w.modCtx g x y c (fun k => (off k).stop h a)
        | none => w.modCtx g x y c (fun k => (off k).stop h a)
      | none =>
        match w.m.heldInto g x y c s.src with
        | some l => if (k.dests s.src).length = 1 then (w.modCtx g x y c off).antiAcross l a
          else w.modCtx g x y c (fun k => (off k).stop h a)
        | none => w.modCtx g x y c (fun k => (off k).stop h a)
    else if s.src = 6 then w.modCtx g x y c (fun k => (off k).antiAtReply r h a tb)
    else w.modCtx g x y c (fun k => k.skidFrom ((off k).antiAtProducer h s.src a tb) w.m.cyc)

/-- ANTI_TOKEN_HOP (R262): the first anti-token of a destination's reverse channel moves; with none there, one
that is inside the bridges behind the destination comes out. -/
def execAntiTokenHop (g x y c h : Nat) (s : State) := s.event (fun w =>
  match w.m.running g x y, w.m.ctx? g x y c with
  | some (p, r), some k =>
    match (k.hop h).anti with
    | a :: _ => ((w.antiHop r g x y c h k a).settle p)
    | [] => match (k.route h).bind (fun s => if s.src < 4 then w.m.heldInto g x y c s.src else none) with
      | some l => (w.antiOut l).settle p
      | none => w
  | _, _ => w)

/-! ## Tokens that move (R406) -/

/-- A token enters the bridges of a held hop; it and an anti-token of its item inside both vanish (R262). -/
def Work.tokenIn (w : Work) (k : HeldLink) (t : Tok) : Work :=
  match w.m.crossings.find? (fun e => e.on k && e.anti.any t.is) with
  | some e => w.mach (fun m => { m with crossings := m.crossings.erase e })
  | none => w.intoBridge k (some t) none

/-- The far end of a held hop takes what comes out of its bridges: in a region that runs, or that a freeze has
not yet brought to rest (R327). -/
def Mach.lands (m : Mach) (k : HeldLink) : Bool :=
  match m.region? k.dst.l k.dst.r with
  | some r => r.state == 1 || (r.state == 2 && r.quiet)
  | none => false

/-- A token moves on a held hop between regions (R22): inside a die it passes from the hop into the far
tile's buffers; between dies it enters the bridges while the far buffers have a slot for it and for what is
inside, and the oldest inside comes out into them (R374, log 16). `moves` says that the sending region runs. -/
def Work.crossHop (w : Work) (k : HeldLink) (moves : Bool) (q : List Tok) : Work :=
  let inside := w.m.crossings.filter (fun e => e.on k && e.tok.isSome)
  let room := fun (n : Nat) => match w.m.ctx? k.h k.nx k.ny k.c with
    | some u => k.dests.all (fun d => match u.route d with
        | some s => (u.hop d).q.length + n < slotsOf s.depth
        | none => false)
    | none => false
  let fits := moves && (w.m.running k.h k.nx k.ny).isSome && room inside.length
  let took := fun (v : Work) => (v.modCtx k.g k.x k.y k.c (fun u => u.pop k.side w.m.tb)).active k.src
  let give := fun (v : Work) (t : Tok) =>
    (v.enterAll k.h k.nx k.ny k.c k.dests { t with srcs := carrySrcs k.src.r k.dst.r t.srcs }).active k.dst
  let q := if fits then q else []
  if !k.bridged then
    match q with
    | t :: _ => give (took w) t
    | [] => w
  else if w.m.wayTo (k.g / 24) (k.h / 24) ≠ .go then w
  else
    let (n, w) := w.fresh
    match (if w.m.lands k && room 0 then inside.head? else none), q with
    | some e, ts =>
      if !ts.isEmpty && Config.bridgeEnters n then
        match ts with
        | t :: _ => (took w).tokenIn k t
        | [] => w
      else e.tok.toList.foldl give (w.mach (fun m => { m with crossings := m.crossings.erase e }))
    | none, t :: _ => (took w).tokenIn k t
    | none, [] => w

/-- The head of an output hop crosses its link into the next tile's buffers, all of which have
space. Where nothing takes the link, its path ends there (R364). -/
def Work.linkHop (w : Work) (p : Where) (r : Region) (g x y c h : Nat) (k : Ctx) : Work :=
  match (k.hop h).q, r.beyond x y h with
  | t :: _, some (nx, ny) =>
    let ds := match w.m.ctx? g nx ny c with
      | some n => n.dests (opposite h)
      | none => []
    if ds.isEmpty then (w.modCtx g x y c (fun k => k.pop h w.m.tb)).sinkArrival p t
    else
      let fits := match w.m.ctx? g nx ny c with
        | some n => ds.all n.space
        | none => false
      if fits then (w.modCtx g x y c (fun k => k.pop h w.m.tb)).enterAll g nx ny c ds t else w
  | q, none => match w.m.heldLink g x y c h with
    | some l => w.crossHop l true q
    | none => w
  | [], some _ => w

/-- The oldest result of a source in the skid enters the destinations that have space. -/
def Work.skidHop (w : Work) (g x y c src : Nat) (k : Ctx) : Work :=
  match k.skid.find? (fun e => e.source == src) with
  | none => w
  | some e =>
    let now := e.dests.filter k.space
    let rest := e.dests.filter (fun d => !k.space d)
    let left := fun (l : List SkidEnt) =>
      if rest.isEmpty then l.erase e else l.map (fun f => if f == e then { e with dests := rest } else f)
    let v := w.modCtx g x y c (fun k => { k with
      skid := left k.skid, skidAt := if k.skidFree then k.skidAt else some w.m.cyc })
    v.enterAll g x y c now e.tok

/-- The next reply of the oldest request leaves (R285); a dropped one goes nowhere, and a tagged
one with no destination ends its path (R364). -/
def Work.replyHop (w : Work) (p : Where) (g x y c : Nat) (k : Ctx) : Work :=
  match k.reqs with
  | [] => w
  | q :: qs =>
    match q.replies with
    | [] => if q.ended then w.modCtx g x y c (fun k => { k with reqs := qs }) else w
    | t :: ts =>
      let ds := k.dests 6
      let left := if ts.isEmpty && q.ended then qs else { q with replies := ts } :: qs
      let take := fun (u : Work) => u.modCtx g x y c (fun k => { k with reqs := left })
      if q.drop then take w
      else if ds.isEmpty then (take w).sinkArrival p t
      else if ds.all k.space then (take w).enterAll g x y c ds t
      else w

/-- TOKEN_HOP (R406): h from 0 to 3 names an output hop whose head crosses its link, 4 the oldest
S6 result in the skid, 5 the oldest S3 tap, 6 the next memory reply. -/
def execTokenHop (g x y c h : Nat) (s : State) := s.event (fun w =>
  match w.m.regionAt g x y, w.m.ctx? g x y c with
  | some (p, r), some k =>
    if r.state ≠ 1 then
      -- what is inside a bridge lands whether or not its sending region runs (R327)
      match (if h < 4 then w.m.heldLink g x y c h else none) with
      | some l => ((w.crossHop l false []).settle p).frozenIf p
      | none => w
    else if h < 4 then (w.linkHop p r g x y c h k).settle p
    else if h < 6 then (w.skidHop g x y c h k).settle p
    else (w.replyHop p g x y c k).settle p
  | _, _ => w)

end Sys2Proof.Machine
end

