-- ==== Sys2Proof/Machine/Fire.lean ====
section
/-!
DEFINITION. Firings (R25, R201 to R244, R276 to R287, R307, R310, R313, R314, R369, R371): which
tokens a tile's firing rule takes and what S1 gives, what stages S1 to S6 do, where the result
goes, the excess and trace of a firing (R389, R390) and breakpoints (R391); non-data tokens
(R277).
-/

namespace Sys2Proof.Machine

/-! ## What a firing takes -/

/-- A firing about to begin: the inputs consumed, the tokens its stages read on A to D, what S1
gives, whether the stages run, the result sources used (4 the S6 result, 5 the S3 tap), the
inputs up which an anti-token goes, a token accounted as at a sink, and what changes in the
context's own state. -/
structure Plan where
  use : List Nat
  toks : List (Option Tok)
  p : Tok
  runs : Bool
  out : List Nat
  antis : List Nat
  sink : Option Tok
  upd : Ctx → Ctx

/-- Heads of inputs, one for each, all data tokens of one item (R25). -/
def Ctx.set (c : Ctx) (ins : List Nat) : Option (List (Nat × Tok)) :=
  let hs := ins.filterMap (fun i => (c.head i).map (fun t => (i, t)))
  match hs with
  | (_, t) :: _ =>
    if hs.length = ins.length && hs.all (fun h => h.2.kind == 0 && h.2.item == t.item) then some hs
    else none
  | [] => none

/-- Sources of a result: those of the tokens of its item, lowest letter first (log 11). -/
def srcsOf (item : Nat) (hs : List (Nat × Tok)) : List Nat :=
  (hs.filter (fun h => h.2.item == item)).foldl (fun a h => union a h.2.srcs) []

/-- The token of input i in a firing: a consumed one, or the zero token of a tied input (R407). -/
def Ctx.tokAt (c : Ctx) (hs : List (Nat × Tok)) (item i : Nat) : Option Tok :=
  match hs.find? (fun h => h.1 == i) with
  | some h => some h.2
  | none =>
    if bitAt c.fire i && c.tied (4 + i) then
      some { item := item, kind := 0, tag := false, net := c.netOf (4 + i), pay := 0, srcs := [] }
    else none

/-- A token that carries nothing. -/
def Tok.zero : Tok := { item := 0, kind := 0, tag := false, net := 0, pay := 0, srcs := [] }

/-- A plan in which S1 gives p, of the item and sources of the tokens taken. -/
def Ctx.plan (c : Ctx) (hs : List (Nat × Tok)) (p : Tok) : Plan :=
  let item := match hs with
    | (_, t) :: _ => t.item
    | [] => p.item
  let q := { p with item := item, srcs := srcsOf item hs }
  { use := hs.map (·.1), toks := (List.range 4).map (c.tokAt hs item), p := q, runs := !q.tag && q.kind == 0,
    out := [4, 5], antis := [], sink := none, upd := id }

/-- The first tagged token of a firing set, A to D (R222). -/
def firstTag (hs : List (Nat × Tok)) : Option Tok :=
  (List.range 4).findSome? (fun i => (hs.find? (fun h => h.1 == i && h.2.tag)).map (·.2))

/-- A data token at the head of an input. -/
def Ctx.dataAt (c : Ctx) (i : Nat) : Option Tok := (c.head i).filter (fun t => t.kind == 0)

/-- What input i gives a firing for an item: its head, or the zero token of a tied input, which is not consumed
(R407). -/
def Ctx.offers (c : Ctx) (item i : Nat) : Option (List (Nat × Tok) × Tok) :=
  if c.tied (4 + i) then
    some ([], { item := item, kind := 0, tag := false, net := c.netOf (4 + i), pay := 0, srcs := [] })
  else match c.dataAt i with
    | some t => if t.item = item then some ([(i, t)], t) else none
    | none => none

/-- The tokens two inputs give, in letter order. -/
def inOrder (a b : Nat) (ha hb : List (Nat × Tok)) : List (Nat × Tok) := if a < b then ha ++ hb else hb ++ ha

/-- The plan of R222 where a token taken is tagged; otherwise the plan given. -/
def Ctx.tagged (c : Ctx) (hs : List (Nat × Tok)) (k : Plan) : Plan :=
  match firstTag hs with
  | some t => c.plan hs t
  | none => k

/-- Every lane all ones, or zero. -/
def boolWide (v : Bool) : Wide := if v then BitVec.allOnes 512 else 0

/-- FIRED and LAST of inputs after a firing for an item (R265). -/
def Ctx.fire1 (ins : List Nat) (m : Mark) (c : Ctx) : Ctx :=
  { c with
    fired := ins.foldl (fun a i => aset a i (agetD a i [] ++ [m])) c.fired
    last := ins.foldl (fun a i => aset a i m.item) c.last }

/-- An early firing for the item of the first token (R282): the early inputs whose head is of the
item are consumed with the rest, and an anti-token goes up the others. -/
def Ctx.earlyPlan (c : Ctx) (need early : List Nat) (hs : List (Nat × Tok)) (p : Tok) : Plan :=
  let item := match hs with
    | (_, t) :: _ => t.item
    | [] => 0
  let also := (early.filter (fun i => !need.contains i)).filterMap (fun i => match c.head i with
    | some t => if t.kind == 0 && t.item == item then some (i, t) else none
    | none => none)
  let all := (hs ++ also)
  let k := c.plan all { p with item := item }
  let m : Mark := { item := item, srcs := k.p.srcs }
  { k with
    antis := early.filter (fun i => !all.any (fun h => h.1 == i))
    upd := Ctx.fire1 early m }

/-- EJOIN.and and .or (R282): the heads of the two inputs that hold the older item decide. A
tagged head decides nothing; where the other decides, only a tag on a further FIRE input makes the result
tagged, and where none decides the first tag of all (R222). -/
def joinLogic (isOr : Bool) (hs others : List (Nat × Tok)) (both : Bool) : Option Tok :=
  let gives := fun (v : Bool) (l : List (Nat × Tok)) => some ((firstTag l).getD { Tok.zero with pay := boolWide v })
  if hs.any (fun h => !h.2.tag && h.2.isTrue == isOr) then gives isOr others
  else if both then gives (!isOr) (hs ++ others)
  else none

/-- EJOIN.sel (R282): the selector and every FIRE input that is neither data input (or, without early firing,
all of them) hold the item. A tagged selector is the result; otherwise a tag among the tokens that the firing
uses is (R222, log 98). -/
def Ctx.selPlan (c : Ctx) (early : List Nat) (q : Nat) : Option Plan :=
  let a := c.inA
  let b := c.inB
  let others := c.fireIns.filter (fun i => i != b && i != q)
  -- with every other input tied the selector is false, and the chosen input's head gives the item
  let lead := if early.isEmpty then c.set c.fireIns
    else if others.isEmpty then (c.dataAt q).map (fun t => [(q, t)])
    else c.set others
  lead.bind (fun hs =>
    let item := match hs with
      | (_, t) :: _ => t.item
      | [] => 0
    (c.tokAt hs item a).bind (fun sel =>
      let chosen := if sel.isTrue then b else q
      let result := fun (hs : List (Nat × Tok)) (t : Tok) => if sel.tag then sel else (firstTag hs).getD t
      if early.isEmpty then some (c.plan hs (result hs ((c.tokAt hs item chosen).getD Tok.zero)))
      else if others.isEmpty then hs.head?.map (fun h => c.earlyPlan [q] early hs h.2)
      else if sel.tag then some (c.earlyPlan others early hs sel)
      else (c.offers item chosen).map (fun o =>
        c.earlyPlan (chosen :: others) early (hs ++ o.1) (result (hs ++ o.1) o.2))))

/-- EJOIN (R282), early or not. `old` ranks items by the injection of their attempts (R265). -/
def Ctx.ejoin (c : Ctx) (old : Tok → Nat) : Option Plan :=
  let aux := bits (c.stage 1) 0 5
  let a := c.inA
  let b := c.inB
  let early := (List.range 4).filter (fun i => bitAt c.early i)
  if bits aux 0 2 = 0 then c.selPlan early (bits aux 2 2)
  else
    let isOr := bits aux 0 2 = 2
    if early.isEmpty then
      (c.set c.fireIns).bind (fun hs =>
        let two := [a, b].filterMap (fun i => (c.tokAt hs 0 i).map (fun t => (i, t)))
        (joinLogic isOr two (hs.filter (fun h => h.1 != a && h.1 != b)) true).map (fun t => c.plan hs t))
    else
      let hd := [a, b].filterMap (fun i => (c.dataAt i).map (fun t => (i, t)))
      let lead := match hd with
        | [(i, t), (j, u)] => if t.item == u.item || old t ≤ old u then some (i, t) else some (j, u)
        | [h] => some h
        | _ => none
      lead.bind (fun h =>
        let others := c.fireIns.filter (fun i => i != a && i != b)
        let mine := hd.filter (fun e => e.2.item == h.2.item)
        (if others.isEmpty then some [] else c.set others).bind (fun os =>
          if os.any (fun e => e.2.item != h.2.item) then none
          else (joinLogic isOr mine os (mine.length == 2)).map (fun t =>
            c.earlyPlan (mine.map (·.1)) early (mine ++ os) t)))

/-- Tokens of iA that ORDJ takes in, up to 16 held (R283). -/
def Ctx.absorb : Nat → Nat → Ctx → Ctx
  | 0, _, c => c
  | n + 1, tb, c =>
    match c.head c.inA with
    | some t =>
      if t.kind = 0 && c.held.length < 16 then
        Ctx.absorb n tb { c.pop (4 + c.inA) tb with held := c.held ++ [t] }
      else c
    | none => c

/-- The end value of EOS (R279). -/
def Tok.ended (t : Tok) : Bool :=
  t.kind == 0 && !t.tag && (if t.net = 2 then bitAt t.pay.toNat 0 else bits t.pay.toNat 0 32 == 0xFFFFFFFF)

/-- What the firing rule of a tile takes now, for every word but VOTE and CREQ (R25, R279, R282 to
R284, R310, R313). `pick` settles MERGE's first choice between two heads. An early JOIN whose FIRE inputs
outside EARLY are all tied never fires, for no head fixes its item, while EJOIN.sel with only its selector left
tied does, by the chosen input's head: the spec does not say (DESIGN CHOICE, log 136). -/
def Ctx.ready (c : Ctx) (old : Tok → Nat) (pick : Nat) : Option Plan :=
  let s := c.stage 1
  let a := c.inA
  let b := c.inB
  let aux := bits s 0 5
  let at_ := fun (hs : List (Nat × Tok)) (i : Nat) =>
    (c.tokAt hs (match hs with
      | (_, t) :: _ => t.item
      | [] => 0) i).getD Tok.zero
  match c.op1 with
  | 0x70 =>
    if bitAt s 5 then
      let early := (List.range 4).filter (fun i => bitAt c.early i)
      let need := c.fireIns.filter (fun i => !early.contains i)
      (c.set need).map (fun hs => c.earlyPlan need early hs ((firstTag hs).getD (at_ hs a)))
    else (c.set c.fireIns).map (fun hs => c.tagged hs (c.plan hs (at_ hs a)))
  | 0x71 => c.ejoin old
  | 0x72 | 0xB3 => (c.set c.fireIns).map (fun hs => c.tagged hs (c.plan hs (at_ hs a)))
  | 0x73 =>
    let can := c.fireIns.filter (fun i => (i == a || i == b) && (match c.head i with
      | some t => t.kind == 0
      | none => false))
    let i := match can with
      | [j] => some j
      | j :: _ => some (if c.mergeTurn = 1 then b else if c.mergeTurn = 2 then a
          else if pick % 2 = 0 then j else (if j = a then b else a))
      | [] => none
    i.bind (fun i => (c.head i).map (fun t =>
      { c.plan [(i, t)] t with upd := fun k => { k with mergeTurn := if i = a then 1 else 2 } }))
  | 0x74 | 0x79 => (c.set c.fireIns).map (fun hs =>
      match firstTag hs with
      | some t => { c.plan hs t with out := [4] }
      | none =>
        if (at_ hs a).isTrue then { c.plan hs (at_ hs b) with out := [4] }
        else { c.plan hs (at_ hs b) with runs := false, out := [5] })
  | 0x75 => (c.set c.fireIns).map (fun hs =>
      -- a false condition consumes the value; a tag on a further FIRE input is the result all the same (R222)
      let k := c.plan hs (at_ hs b)
      if (at_ hs a).tag then c.plan hs (at_ hs a)
      else if (at_ hs a).isTrue then c.tagged hs k
      else match firstTag (hs.filter (fun h => h.1 != b)) with
        | some t => { c.plan hs t with sink := if k.p.tag then some k.p else none }
        | none => { k with runs := false, out := [], sink := some k.p })
  | 0x76 =>
    -- a tied order stream takes the held tokens as they came, a tied iA gives zero tokens (R407)
    if c.tied (4 + b) then
      c.held.head?.map (fun t =>
        let k := c.plan [] t
        { k with toks := k.toks.set a (some t), p := { k.p with srcs := t.srcs }, upd := fun q => { q with held := q.held.erase t } })
    else (c.dataAt b).bind (fun o =>
      if c.tied (4 + a) then (c.offers o.item a).map (fun z => c.tagged [(b, o)] (c.plan [(b, o)] z.2))
      else (c.held.find? (fun t => t.item == o.item)).map (fun t =>
        let k := c.plan [(b, o)] (if a < b && t.tag || !o.tag then t else o)
        { k with
          toks := k.toks.set a (some t)
          p := { k.p with srcs := union t.srcs o.srcs }
          upd := fun q => { q with held := q.held.erase t } }))
  | 0x77 =>
    let hs := c.fireIns.filterMap (fun i => (c.head i).map (fun t => (i, t)))
    if hs.isEmpty || hs.length ≠ c.fireIns.length || hs.any (fun h => h.2.kind != 0) then none
    else match firstTag hs with
      | some t => some { c.plan hs t with p := t }
      | none => some (c.plan hs Tok.zero)
  | 0x78 =>
    let cond := bits aux 0 2
    let reg := bits aux 2 3
    -- a tagged firing computes nothing: the state moves, the index does not (R222, log 98)
    let setIdx := fun (n : Nat) (k : Ctx) =>
      { k with looping := true, index := n, ev := aset k.ev reg (splat (n % 2 ^ 32)), damaged := k.damaged.filter (· != reg) }
    if !c.looping then (c.dataAt a).map (fun t =>
      { c.plan [(a, t)] t with upd := if t.tag then fun k => { k with looping := true } else setIdx 0 })
    else (c.dataAt cond).bind (fun t =>
      if t.isTrue then
        (c.offers t.item b).map (fun o =>
          let hs := inOrder cond b [(cond, t)] o.1
          let k := c.tagged hs (c.plan hs o.2)
          { k with upd := if (firstTag hs).isSome then id else setIdx (c.index + 1) })
      else
        let k := { c.plan [(cond, t)] t with upd := fun k => { k with looping := false } }
        some (if t.tag then k else { k with runs := false, out := [] }))
  | 0x7A =>
    ((if c.tied (4 + a) then c.dataAt b else c.dataAt a).map (·.item)).bind (fun item =>
      (c.offers item a).bind (fun (ha, t) =>
        let m := fun (k : Plan) => Ctx.fire1 (if c.tied (4 + b) then [] else [b]) { item := item, srcs := k.p.srcs }
        if !t.tag && t.isTrue then
          match c.offers item b with
          | some (hb, v) =>
            let k := c.plan (inOrder a b ha hb) v
            some { k with runs := false, out := [], sink := some k.p, upd := m k }
          | none =>
            let k := c.plan ha t
            some { k with runs := false, out := [], sink := some k.p, antis := [b], upd := m k }
        else (c.offers item b).map (fun (hb, v) =>
          let hs := inOrder a b ha hb
          let k := if t.tag then c.plan hs t else c.tagged hs (c.plan hs v)
          { k with upd := m k })))
  | 0x7B => (c.set c.fireIns).map (fun hs =>
      let k := c.tagged hs (c.plan hs (at_ hs a))
      { k with runs := false, out := [], sink := some k.p })
  | 0x7D => (c.set c.fireIns).map (fun hs =>
      let t := at_ hs a
      let e := { Tok.zero with kind := 1 }
      c.tagged hs (c.plan hs (if t.ended then e else t)))
  | 0xB1 =>
    match c.entry with
    | t :: _ =>
      some { use := [], toks := List.replicate 4 none, p := t, runs := !t.tag, out := [4, 5], antis := [],
             sink := none, upd := fun k => { k with entry := k.entry.drop 1 } }
    | [] => none
  | 0xB2 => (c.set c.fireIns).map (fun hs => { c.plan hs (at_ hs a) with runs := false, out := [] })
  | _ => (c.set c.fireIns).map (fun hs => c.tagged hs (c.plan hs Tok.zero))

/-! ## Stages (R201, R202) -/

/-- A firing under way: the context with what its stages have written, p, the poison token of a
stage that failed, the value at the S3 tap, constants written for the next firing (R214), and the
partition's injection registers (R370). -/
structure Run where
  c : Ctx
  p : Wide
  bad : Option Tok
  tap : Wide
  tapBad : Option Tok
  kNew : List (Nat × Nat)
  part : Part

/-- What does not change during a firing. -/
structure Fire where
  toks : List (Option Tok)
  item : Nat
  srcs : List Nat
  tb : Nat
  free : Wide

/-- The registers a source names, as `damaged` numbers them (R363). -/
def damageOf (src aux : Nat) : List Nat :=
  if 5 ≤ src && src ≤ 12 then [src - 5] else if src = 13 then [8 + aux % 4] else []

/-- A source's value (R201). -/
def Run.read (r : Run) (f : Fire) (src aux : Nat) : Wide :=
  if src = 0 then r.p
  else if src ≤ 4 then (match nth f.toks (src - 1) none with
    | some t => t.pay
    | none => f.free)
  else if src ≤ 12 then agetD r.c.ev (src - 5) 0
  else if src = 13 then splat (agetD r.c.kreg (aux % 4) 0)
  else if src = 14 then ofLanes (List.range 16)
  else 0

/-- The addend or condition of VFMA, VDOT4 and VSEL (R206, R211). -/
def Run.third (r : Run) (s : StageW) : Wide :=
  if bitAt s.aux 4 then agetD r.c.ev (bits s.aux 2 2) 0 else r.p

/-- The poison token of a stage. -/
def Run.fail (r : Run) (f : Fire) (j cause : Nat) : Run :=
  { r with bad := some (r.c.poison j cause f.tb f.item f.srcs) }

/-- A destination register written (R201). -/
def Run.put (r : Run) (dst : Nat) (v : Wide) : Run :=
  let c := if 1 ≤ dst && dst ≤ 8 then
      { r.c with ev := aset r.c.ev (dst - 1) v, damaged := r.c.damaged.filter (· != dst - 1) }
    else r.c
  { r with c := c, p := v }

/-- FOPEN, FADV, FEND, FCLOS (R240). -/
def Run.fibre (r : Run) (s : StageW) (a b : Wide) : Run :=
  let i := s.aux % 4
  let (pos, fin) := agetD r.c.fib i (0, 0)
  let set := fun (r : Run) (v : Nat × Nat) => { r with c := { r.c with fib := aset r.c.fib i v } }
  match s.op with
  | 0x58 =>
    let q := (lane a 0, Nat.max (lane a 0) (lane b 0))
    let r := set r q
    ({ r with c := { r.c with damaged := r.c.damaged.filter (· != 12 + i) } } : Run).put s.dst (window q.1 q.2)
  | 0x59 =>
    let q := (Nat.min (pos + lane a 0) fin, fin)
    (set r q).put s.dst (window q.1 q.2)
  | 0x5A =>
    r.put s.dst (if fin ≤ pos then ofLanes [0xFFFFFFFF, 0] else ofLanes [0, fin - pos])
  | _ => (set r (0, 0)).put s.dst (ofLanes [pos, fin])

/-- The exact value of an element of a group word: D8 as its binary image (R241). -/
def groupVal (ty : Nat) (flush : Bool) (x : Nat) : FV :=
  if ty = 6 then d8Image (decodeD8 x) else fltOf ty flush x

/-- The elements of lane k. -/
def laneElems (ty k : Nat) (v : Wide) : List Nat := ((elems ty v).drop (k * tyCount ty)).take (tyCount ty)

/-- A group word's data firing (R242). -/
def Run.group (r : Run) (s : StageW) (flush : Bool) (a b : Wide) : Run :=
  let ks := List.range 16
  let c := match s.op with
    | 0x5C => { r.c with gq := ks.foldl (fun q k => aset q k
        ((laneElems s.ty k a).foldl (fun t x => add40 flush t (groupVal s.ty flush x)) (agetD q k 0))) r.c.gq }
    | 0x5E => { r.c with gacc := ks.foldl (fun q k => aset q k
        (((laneElems s.ty k a).zip (laneElems s.ty k b)).foldl (fun t (x : Nat × Nat) =>
          add40 flush t (decodeBin .fp40 flush (rne40 flush
            ((groupVal s.ty flush x.1).mul (groupVal s.ty flush x.2))))) (agetD q k 0))) r.c.gacc }
    | _ => { r.c with gacc := ks.foldl (fun q k => aset q k
        (add40 flush (agetD q k 0) (fltOf 3 flush (lane a k)))) r.c.gacc }
  { r with c := { c with dirty := true } }

/-- EINJ (R371). -/
def Run.einj (r : Run) (f : Fire) (j : Nat) (a : Wide) : Run :=
  let q := r.part
  if q.einjMode ≠ 0 && q.einjNode == (r.c.nodeOf j).1 && (q.einjMode == 3 || f.item == q.einjItem) then
    let cause := if 1 ≤ q.einjCause && q.einjCause ≤ 0x0B then q.einjCause else 0x0A
    { r.fail f j cause with part := { q with
        einjHits := (q.einjHits + 1) % 2 ^ 32
        einjMode := if q.einjMode = 1 then 0 else q.einjMode } }
  else { r with p := a }

/-- The registers a stage word reads, as `damaged` numbers them: the addend of VFMA, VDOT4 and VSEL, the fibre
register of FADV, FEND and FCLOS (FOPEN replaces it), the group state. -/
def StageW.reads (s : StageW) : List Nat :=
  damageOf s.a s.aux ++ damageOf s.b s.aux
    ++ (if (s.op == 0x04 || s.op == 0x1D || s.op == 0x10) && bitAt s.aux 4 then [bits s.aux 2 2] else [])
    ++ (if 0x59 ≤ s.op && s.op ≤ 0x5B then [12 + s.aux % 4] else [])
    ++ (if 0x5C ≤ s.op && s.op ≤ 0x5E then [16] else [])

/-- The registers a stage word writes. -/
def StageW.writes (s : StageW) : List Nat :=
  (if 1 ≤ s.dst && s.dst ≤ 8 then [s.dst - 1] else [])
    ++ (if s.op == 0x58 || s.op == 0x59 || s.op == 0x5B then [12 + s.aux % 4] else [])
    ++ (if 0x5C ≤ s.op && s.op ≤ 0x5E then [16] else [])
    ++ (if s.op == 0x1F then [8 + s.aux % 4] else [])

/-- The registers that stage j of a context reads and writes: in S1 CARRY writes its index register, and VOTE
counts in its own. -/
def Ctx.regUse (c : Ctx) (j : Nat) : List Nat × List Nat :=
  let s := stageW (c.stage j)
  if j = 1 && s.op == 0x78 then ([], [bits s.aux 2 3])
  else if j = 1 && s.op == 0x7C then (if bitAt s.aux 3 then ([s.aux % 8], [s.aux % 8]) else ([], []))
  else if j = 1 && 0x70 ≤ s.op && s.op < 0xB8 then ([], [])
  else (s.reads, s.writes)

/-- Cycles from a firing to the next that the register order asks for: k − j + 1 where the next reads in Sj what
the one before writes in Sk (R202). -/
def Ctx.regDelay (c : Ctx) : Nat :=
  let js := (List.range 6).map (· + 1)
  js.foldl (fun d k => js.foldl (fun d j =>
    if (c.regUse j).1.any ((c.regUse k).2.contains ·) then Nat.max d (k + 1 - j) else d) d) 0

/-- The register order lets a context begin a firing at a cycle (R202). -/
def Ctx.regOk (c : Ctx) (cyc : Nat) : Bool :=
  match c.lastBegin with
  | some b => b + c.regDelay ≤ cyc
  | none => true

/-- Stage j of a firing. -/
def Run.stage (f : Fire) (dataflow : Bool) (r : Run) (j : Nat) : Run :=
  if r.bad.isSome then r
  else if j = 1 && dataflow then r
  else
    let s := stageW (r.c.stage j)
    let flush := r.c.nbv == 2
    let a := r.read f s.a s.aux
    let b := r.read f s.b s.aux
    if r.c.damaged.any (s.reads.contains ·) then r.fail f j 0x01
    else if 0x90 ≤ s.op && s.op ≤ 0x93 then r
    else if 0x58 ≤ s.op && s.op ≤ 0x5B then r.fibre s a b
    else if 0x5C ≤ s.op && s.op ≤ 0x5E then r.group s flush a b
    else if s.op = 0xB8 then r.einj f j a
    else if s.op = 0x1F then { r.put s.dst a with kNew := r.kNew ++ [(s.aux % 4, lane a 0)] }
    else
      let scalarA := 1 ≤ s.a && s.a ≤ 4 && r.c.netOf (s.a + 3) == 1
      let x := compute s flush scalarA (s.b == 15) a b (r.third s)
      if x.err then r.fail f j 0x0B
      else
        let q := r.put s.dst x.val
        { q with c := { q.c with lflag := q.c.lflag ||| x.flags } }

/-- Stages S1 to S6 in order; the S3 tap holds p after S3, untagged where only a later stage fails: R222 and
R173 speak of the result alone (DESIGN CHOICE, log 137). -/
def Run.all (f : Fire) (dataflow : Bool) (r : Run) : Run :=
  let r3 := [1, 2, 3].foldl (Run.stage f dataflow) r
  let r6 := [4, 5, 6].foldl (Run.stage f dataflow) { r3 with tap := r3.p, tapBad := r3.bad }
  let c := { r6.c with
    kreg := r6.kNew.foldl (fun m e => aset m e.1 e.2) r6.c.kreg
    damaged := r6.c.damaged.filter (fun d => !r6.kNew.any (fun e => 8 + e.1 == d)) }
  { r6 with c := c }

/-! ## Group boundaries (R242) -/

/-- The accumulators as FP32 lanes. -/
def Ctx.groupOut (c : Ctx) (s : StageW) : Wide :=
  let flush := c.nbv == 2
  ofLanes ((List.range 16).map (fun k =>
    encodeF .fp32 s.rnd (s.sat) flush (decodeBin .fp40 flush (agetD c.gacc k 0))))

/-- Group state cleared. -/
def Ctx.groupClear (c : Ctx) : Ctx :=
  { c with gq := [], gacc := [], dirty := false, damaged := c.damaged.filter (· != 16) }

/-- A non-data token at a group word: the context and the token emitted, if any. -/
def Ctx.groupEdge (c : Ctx) (t : Tok) (tb : Nat) : Ctx × Option Tok :=
  let s := stageW (c.stage 6)
  let flush := c.nbv == 2
  let out := fun (k : Ctx) => some { t with kind := 0, tag := false, net := 0, pay := k.groupOut s }
  let poison := fun (cause : Nat) => some (c.poison 6 cause tb t.item t.srcs)
  if c.damaged.contains 16 then
    if t.kind = 1 && !c.dirty then (c, none) else (c, poison 0x01)
  else if t.kind = 1 then
    if c.dirty then (c.groupClear, out c) else (c, none)
  else if s.op = 0x5C then
    let v := lane t.pay 0
    if !bitAt s.aux 0 && bits v 24 8 != 0 then (c.groupClear, poison 0x07)
    else
      let val := if bitAt s.aux 0 then decodeBin .bf16 flush (bits v 16 16) else d8Image (decodeD8 (bits v 16 8))
      let k := { c with
        gacc := (List.range 16).foldl (fun m n => aset m n
          (add40 flush (agetD m n 0) (decodeBin .fp40 flush (rne40 flush
            ((decodeBin .fp40 flush (agetD c.gq n 0)).mul val))))) c.gacc
        gq := [] }
      if bitAt (lane t.pay 1) 0 then (k.groupClear, out k) else (k, none)
  else (c.groupClear, out c)

/-! ## Memory requests (R285, R286) -/

/-- The request a firing of an AG tile leaves: the access, or a null operation whose reply is the tagged
token (R286). An ECHS gives its first reply at once: the address of its first node, or the end of stream
(R285). -/
def Ctx.request (c : Ctx) (r : Run) (f : Fire) (tag : Option Tok) (tb : Nat) : Req :=
  let s := stageW (c.stage 6)
  let size := match s.op with
    | 0x92 => if bitAt s.aux 0 then 8 else 4
    | 0x93 => 8
    | _ => match s.aux % 4 with
      | 0 => 64
      | 1 => 8
      | _ => 4
  let a := bits (r.read f s.a s.aux).toNat 0 64
  let addr := if s.op = 0x93 then a else a / size * size
  { item := f.item, srcs := f.srcs, loopIdx := r.c.loopIdx (c.nodeOf 6), word := c.stage 6,
    order := c.order.getD 0xFFFFFF01, addr := addr, data := r.read f s.b s.aux,
    done := tag.isSome, ended := false, replies := (match tag with
      | some t => [t]
      | none =>
        if s.op = 0x93 then
          let first : Tok := { item := f.item, kind := if a = 0 then 1 else 0, tag := false, net := 1,
                               pay := BitVec.ofNat 512 a, srcs := f.srcs }
          [first]
        else []), drop := false, tb := tb, bad := false }

/-! ## Excess, traces and breakpoints -/

/-- A 16-byte record written into a region's trace (R155, R390). A write that faults stops the trace: the spec
does not say (DESIGN CHOICE, log 138). -/
def Work.tracePut (w : Work) (p : Where) (d0 d1 : Nat) : Work :=
  match (w.m.region? p.l p.r).bind (·.trace) with
  | none => w
  | some t =>
    if t.stopped || (!t.wrap && t.len < t.written + 16) then
      w.modRegion p (fun r => { r with trace := r.trace.map (fun t => { t with stopped := true }) })
    else
      let off := if t.wrap then t.written % t.len else t.written
      match w.store noCache t.trans (t.buf.toNat + off) (toBytes 8 d0 ++ toBytes 8 d1) with
      | (.ok (), v) => v.modRegion p (fun r => { r with trace := r.trace.map (fun t =>
          { t with written := t.written + 16, stopped := !t.wrap && t.len ≤ t.written + 16 }) })
      | (.error _, v) => v.modRegion p (fun r => { r with trace := r.trace.map (fun t =>
          { t with stopped := true }) })

/-- The gap record of the records that were late takes the next free slot (R390). -/
def Work.traceGap (w : Work) (p : Where) : Work :=
  match (w.m.region? p.l p.r).bind (·.trace) with
  | none => w
  | some t =>
    if t.gap = 0 then w
    else (w.modRegion p (fun r => { r with trace := r.trace.map (fun t => { t with gap := 0 }) })).tracePut p t.gap
      (4 * 2 ^ 60 + w.m.tb % 2 ^ 28 * 2 ^ 32 + 0xFFFFFFFF)

/-- The record of an event: written, after a gap record where earlier ones were late, or late itself (R390,
log 121). -/
def Work.traceRec (w : Work) (p : Where) (d0 d1 : Nat) : Work :=
  let (n, w) := w.fresh
  if Config.traceLate n then
    w.modRegion p (fun r => { r with trace := r.trace.map (fun t => { t with gap := t.gap + 1 }) })
  else (w.traceGap p).tracePut p d0 d1

/-! ## VOTE (R369) -/

/-- Two copies agree. -/
def agree (t u : Tok) : Bool := !t.tag && !u.tag && t.kind == u.kind && t.pay == u.pay

/-- VOTE keeps counts in a register that an uncorrectable error has struck (R363). -/
def Ctx.voteStruck (c : Ctx) : Bool := bitAt (c.stage 1) 3 && c.damaged.contains (bits (c.stage 1) 0 3)

/-- A disagreement counted, when counts are kept; a struck register is not written (R363). -/
def Ctx.voteCount (c : Ctx) (copy item : Nat) (absent : Bool) : Ctx :=
  let aux := bits (c.stage 1) 0 5
  if !bitAt aux 3 || c.voteStruck then c
  else
    let old := lanes (agetD c.ev (aux % 8) 0)
    let bump := fun (l : List Nat) (k : Nat) => modNth l k (fun v => Nat.min (v + 1) 0xFFFFFFFF)
    let up := if copy = 3 then bump (bump (bump old 0) 1) 2 else bump old copy
    let l3 := item + copy * 2 ^ 16 + (if absent then 2 ^ 18 else 0)
    { c with ev := aset c.ev (aux % 8) (ofLanes (modNth up 3 (fun _ => l3))) }

/-- The record of an item, or a new one. -/
def Ctx.vote (c : Ctx) (t : Tok) : VoteItem :=
  (c.votes.find? (fun v => v.item == t.item && v.kind == t.kind)).getD
    { item := t.item, kind := t.kind, srcs := t.srcs, fired := false, tok := none, seen := [] }

def Ctx.putVote (c : Ctx) (v : VoteItem) : Ctx :=
  { c with votes := c.votes.filter (fun u => !(u.item == v.item && u.kind == v.kind)) ++ [v] }

/-- Of two tokens at a VOTE, the first was injected before the second (R265). A token that is not data has no
attempt; it carries the number of the data token after it (R138), and goes by the numbers (DESIGN CHOICE, log
152). -/
def Tok.before (old : Mark → Nat) (i j : Tok) : Bool :=
  if i.kind = 0 && j.kind = 0 then old i.mark < old j.mark
  else
    let d := (j.item + 65536 - i.item) % 65536
    if d = 0 then i.kind != 0 && j.kind == 0 else d < 32768

/-- The copies of a VOTE: the inputs of its FIRE mask in letter order (R369). -/
def Ctx.copies (c : Ctx) : List Nat := (List.range 4).filter (fun i => bitAt c.fire i)

/-- Copy n of an item, as it stands at its head; a tied copy of a data token is always there (R407). -/
def Ctx.copyOf (c : Ctx) (t : Tok) (n : Nat) : Option Tok :=
  let i := nth c.copies n 0
  if c.tied (4 + i) then (if t.kind = 0 then some { Tok.zero with item := t.item, net := c.netOf (4 + i) } else none)
  else (c.head i).filter (fun u => u.item == t.item && u.kind == t.kind)

/-- An item of VOTE fires with p, of the copies taken; `none_` says that none agreed, and all are counted, else a
copy that disagrees and is taken or tied is (R369). The context it leaves, and what leaves S1: a firing that
counts in a struck register is tagged there (R363). -/
def Ctx.voteFire (c : Ctx) (t p : Tok) (taken : List Nat) (none_ : Bool) (tb : Nat) : Ctx × Tok :=
  let v := c.vote t
  let ins := c.copies
  let idle := (List.range 3).filter (fun n => c.tied (4 + nth ins n 0) && !taken.contains n)
  let k := (taken.foldl (fun k n => if k.tied (4 + nth ins n 0) then k else k.pop (4 + nth ins n 0) tb) c).putVote
    { v with fired := true, tok := some p, seen := union v.seen (taken ++ idle) }
  let odd := (taken ++ idle).filter (fun n => !(c.copyOf t n).all (agree p))
  (if none_ then k.voteCount 3 t.item false else odd.foldl (fun k n => k.voteCount n t.item false) k,
    if c.voteStruck && (none_ || !odd.isEmpty) then c.poison 1 0x01 tb t.item p.srcs else p)

/-- A VOTE's next step: the context it leaves, and what it fires, if anything, with the tokens taken. No firing
begins, and no item is taken up, while 16 unresolved items are held. Two tied copies always agree, and no firing
begins on them alone (R407): the copy that is not tied comes with them, counted where it disagrees (DESIGN CHOICE,
log 153). -/
def Ctx.voteStep (c : Ctx) (old : Mark → Nat) (tb : Nat) : Option (Ctx × Option (Tok × List (Nat × Tok))) :=
  let ins := c.copies
  let heads := (List.range 3).filterMap (fun n => (c.head (nth ins n 0)).map (fun t => (n, t)))
  let room := c.votes.length < 16
  -- a copy of an item that has fired
  match heads.find? (fun h => (c.vote h.2).fired && !(c.vote h.2).seen.contains h.1) with
  | some (n, t) =>
    let v := c.vote t
    let k := (c.pop (4 + nth ins n 0) tb).putVote { v with seen := n :: v.seen }
    some (if v.tok.any (agree t) then k else k.voteCount n t.item false, none)
  | none =>
    -- a copy passed over by a later item on its input
    let later := fun (i : Tok) => heads.find? (fun h =>
      !(c.vote i).seen.contains h.1 && i.before old h.2)
    let held := c.votes.map (fun v => { Tok.zero with item := v.item, kind := v.kind, srcs := v.srcs })
    let known := held ++ (if room then heads.map (·.2) else [])
    match known.findSome? (fun i => (later i).map (fun h => (i, h.1))) with
    | some (i, n) =>
      let v := c.vote i
      some ((c.putVote { v with seen := n :: v.seen }).voteCount n i.item true, none)
    | none =>
      if !room then none
      else
        let tied := fun (n : Nat) => c.tied (4 + nth ins n 0)
        let pairs := fun (t : Tok) (alone : Bool) => [(0, 1), (0, 2), (1, 2)].findSome? (fun (q : Nat × Nat) =>
          match c.copyOf t q.1, c.copyOf t q.2 with
          | some a, some b => if agree a b && (tied q.1 && tied q.2) == alone then some (q, a, b) else none
          | _, _ => none)
        let take := fun (l : List (Nat × Tok)) => l.map (fun e => (nth ins e.1 0, e.2))
        match heads.findSome? (fun h => pairs h.2 false) with
        | some ((i, j), a, b) =>
          let p := { (if tied i then b else a) with srcs := union a.srcs b.srcs }
          let f := c.voteFire p p [i, j] false tb
          some (f.1, some (f.2, take [(i, a), (j, b)]))
        | none => match heads.findSome? (fun h => (pairs h.2 true).map (fun e => (h, e))) with
          | some ((n, t), (i, j), a, b) =>
            let p := { a with srcs := t.srcs }
            let f := c.voteFire t p [i, j, n] false tb
            some (f.1, some (f.2, take [(i, a), (j, b), (n, t)]))
          | none => heads.findSome? (fun h =>
            match c.copyOf h.2 0, c.copyOf h.2 1, c.copyOf h.2 2 with
            | some t, some u, some v =>
              let p := c.poison 1 0x05 tb h.2.item (union t.srcs (union u.srcs v.srcs))
              let f := c.voteFire h.2 p [0, 1, 2] true tb
              some (f.1, some (f.2, take [(0, t), (1, u), (2, v)]))
            | _, _, _ => none)

/-! ## What may begin -/

/-- Ranks items by the order in which their attempts, at their source port in whichever region of the launch, or
their thread tokens, were injected (R265). -/
def Mach.age (m : Mach) (p : Where) (r : Region) (a : Mark) : Nat :=
  match a.srcs with
  | s :: _ =>
    if s = threadSrc then (a.item + 65536 - (r.block.map (·.next)).getD 0) % 65536
    else match ((m.region? (p.source s).1.l (p.source s).1.r).bind (fun q => aget q.ports (p.source s).2)) with
      | some q => q.attempts.findIdx (fun b => b.item == a.item && !b.waiting)
      | none => 0
  | [] => a.item

/-- What a context's firing rule lets it do now: something that is no firing, a firing, a request of CREQ. -/
inductive Begin where
  | step (k : Ctx)
  | fire (k : Ctx) (q : Plan)
  | ask (t : Tok)

/-- What a context may begin. `old` ranks items by the injection of their attempts, `pick` settles MERGE's first
choice. CREQ asks when its token is at the head of iA, and fires, as every word does, with a token of the item at
every FIRE input (R25, R307). -/
def Ctx.begins (k : Ctx) (old : Mark → Nat) (tb pick : Nat) : Option Begin :=
  if k.op1 = 0x7C then
    (k.voteStep old tb).map (fun e => match e with
      | (k', none) => .step k'
      | (k', some (t, hs)) => .fire k'
          { use := [], toks := (List.range 4).map (k.tokAt hs t.item), p := t, runs := !t.tag && t.kind == 0,
            out := [4, 5], antis := [], sink := none, upd := id })
  else if k.op1 = 0xB0 then
    let full := (k.set k.fireIns).bind (fun hs => (k.tokAt hs (hs.head?.map (·.2.item) |>.getD 0) k.inA).map (fun t => (hs, t)))
    match k.creq with
    | none =>
      match (if k.tied (4 + k.inA) then full.map (·.2) else k.dataAt k.inA) with
      | none => none
      | some t => if t.tag then full.map (fun e => .fire k (k.tagged e.1 (k.plan e.1 t))) else some (.ask t)
    | some q => match q.status, full with
      | some v, some (hs, t) =>
        let pl := k.tagged hs (k.plan hs { t with net := 1, pay := BitVec.ofNat 512 v })
        some (.fire { k with creq := none } (if q.drop then { pl with runs := false, out := [] } else pl))
      | _, _ => none
  else if k.op1 = 0x76 then
    let k := Ctx.absorb 16 tb k
    match k.ready (fun t => old t.mark) pick with
    | some q => some (.fire k q)
    | none => some (.step k)
  else (k.ready (fun t => old t.mark) pick).map (.fire k)

/-- A context's firing rule lets it fire. -/
def Ctx.fires (k : Ctx) (old : Mark → Nat) (tb : Nat) : Bool :=
  match k.begins old tb 0 with
  | some (.fire _ _) => true
  | _ => false

/-- A context is ready: its firing rule is met, a skid slot is free and the register order lets it start
(R309). -/
def Ctx.isReady (k : Ctx) (old : Mark → Nat) (tb cyc : Nat) : Bool :=
  !k.bank && k.skidFree && k.regOk cyc && k.fires old tb

/-- The contexts committed on a tile. -/
def Mach.onTile (m : Mach) (g x y : Nat) : List (Nat × Ctx) :=
  (List.range 4).filterMap (fun n => (m.ctx? g x y n).map (fun k => (n, k)))

/-- The contexts of a tile with their weights as the last window's occupancies leave them (R309); one committed
since keeps the weight of its commit. -/
def reweighted (cs : List (Nat × Ctx)) : List (Nat × Ctx) :=
  let ds := cs.filterMap (fun e => e.2.due)
  let sum := ds.foldl (· + ·) 0
  cs.map (fun e => match e.2.due with
    | some o => (e.1, { e.2 with due := none, weight := if sum = 0 then e.2.weight else 1 + (16 - ds.length) * o / sum })
    | none => e)

/-- The owners of a frame's turns: context c has W[c] of them, interleaved by context number (R309). -/
def turnOwners (cs : List (Nat × Ctx)) : List Nat :=
  (List.range 16).flatMap (fun n => (cs.filter (fun e => n < e.2.weight)).map (·.1))

/-- The owners of the turns left in a tile's frame: of the frame under way, those still committed; after its last
turn, of a new one, by the weights that then stand (R309, log 23). -/
def Mach.frame (m : Mach) (g x y : Nat) : List Nat :=
  let cs := reweighted (m.onTile g x y)
  let left := (agetD (((aget m.clusters g).map (·.turns)).getD []) (8 * y + x) []).filter (fun c => cs.any (·.1 == c))
  if left.isEmpty then turnOwners cs else left

/-! ## A firing noted -/

/-- The code an excess is charged to (R389): the input without whose token the firing rule is not met, which came
last and found its buffer empty; the first full output hop, where the skid was full in the cycle before; the
register order; else the turns of other contexts (log 27). `now` is the cycle of the firing, `step` the cycles of
a step. -/
def Ctx.excessCode (c : Ctx) (old : Mark → Nat) (tb pace now step : Nat) : Nat :=
  let late := c.fireIns.filter (fun i => (c.hop (4 + i)).q.length == 1 && tb ≤ (c.hop (4 + i)).moved + pace
    && !(c.modHop (4 + i) (fun h => { h with q := [] })).fires old tb)
  let last := late.foldl (fun (m : Option Nat) i => match m with
    | none => some i
    | some j => if (c.hop (4 + j)).moved < (c.hop (4 + i)).moved then some i else some j) none
  let out := if c.skidAt.any (fun a => now ≤ a + step) then
      ((List.range 4).find? (fun d => (c.route d).isSome && !c.space d)).or ((List.range 4).find? (fun d => (c.route d).isSome))
    else none
  match last, out with
  | some i, _ => i
  | none, some d => 4 + d
  | none, none => if c.lastBegin.any (fun b => 0 < c.regDelay && now < b + c.regDelay + step) then 8 else 9

/-- A firing takes its tile's turn (R309), its interval is charged (R389) and its trace records written (R390).
`k0` is the context as its heads stood before the firing rule took any. -/
def Work.noteFiring (w : Work) (p : Where) (r : Region) (g x y c : Nat) (k k0 : Ctx) (item : Nat) : Work :=
  let now := w.m.cyc
  let ii := bits k.hdr 22 8
  let e := match k.lastBegin with
    | some b => (now - b) - ii
    | none => 0
  let code := k0.excessCode (w.m.age p r) w.m.tb w.m.pace now w.m.cycPace
  let v := (w.modCluster g (fun h => { h with turns := aset h.turns (8 * y + x) ((w.m.frame g x y).drop 1) })).modCtx g x y c (fun k =>
    { k with
      lastBegin := some now
      exc := if e = 0 then k.exc else aset k.exc code (Nat.min (agetD k.exc code 0 + e) (2 ^ 32 - 1)) })
  let (node, reg) := k.firingEntry
  let d0 := node + (x - r.x0) * 2 ^ 24 + (y - r.y0) * 2 ^ 27 + c * 2 ^ 30 + item * 2 ^ 32
  let d1 := k.loopIdx (node, reg) + w.m.tb % 2 ^ 28 * 2 ^ 32
  match r.trace with
  | none => v
  | some t =>
    let u := if t.firings then v.traceRec p d0 (d1 + 1 * 2 ^ 60) else v
    if t.excess && 0 < e then
      u.traceRec p (d0 + code * 2 ^ 48 + Nat.min e 4095 * 2 ^ 52) (d1 + 2 * 2 ^ 60)
    else u

/-- The breakpoint slot a firing matches (R391). -/
def Region.brkHit (r : Region) (k : Ctx) (item : Nat) : Option Nat :=
  let nodes := (List.range 6).filterMap (fun j =>
    if k.nmap.any (fun e => bits e 4 4 == j + 1) then some (k.nodeOf (j + 1)).1 else none)
  (r.brks.find? (fun e => nodes.contains e.2.node
    && (e.2.anyLoop || e.2.loop == k.loopIdx k.firingEntry)
    && (e.2.anyItem || e.2.item == item))).map (·.1)

/-- After a firing: activity, a matching breakpoint freezes the region and parks its threads with
cause 0x07 (R156), and the region settles. -/
def Work.afterFiring (w : Work) (p : Where) (r : Region) (k : Ctx) (item : Nat) : Work :=
  let v := (w.active p).settle p
  match r.brkHit k item with
  | some n => (v.freezeAt p 2 n).parkBound p 0x07 (w64 n)
  | none => v

/-! ## Results -/

/-- A result put into the skid for its destinations, but those at which a FORK has a mark for it (R264). -/
def Ctx.emit (c : Ctx) (src : Nat) (t : Tok) : Ctx :=
  let all := c.dests src
  let ds := all.filter (fun d => !c.stopped d t)
  let k := { c with forks := c.forks.filter (fun f => !(all.contains f.1 && c.stopped f.1 t && t.is f.2)) }
  if ds.isEmpty then k
  else { k with skid := k.skid ++ [{ tok := t, source := src, dests := ds, drop := false }] }

/-- Results leave by the S6 result and the S3 tap; a result with no destination of either kind
ends its path (R364). -/
def Work.emitAll (w : Work) (p : Where) (g x y c : Nat) (k : Ctx) (rs : List (Nat × Tok)) : Work :=
  let v := rs.foldl (fun u e => u.modCtx g x y c (fun k => k.emit e.1 e.2)) w
  match rs with
  | [] => v
  | (_, t) :: _ =>
    if rs.all (fun e => (k.dests e.1).isEmpty) && !k.isMem then v.sinkArrival p t else v

/-- The header of queue q of block mode written in memory (R312). -/
def Work.blockHeader (w : Work) (b : BlockMode) (q : Nat) (e : BlockQ) : Work :=
  let old := match e.toks with
    | (_, tb) :: _ => tb
    | [] => 0
  (w.store noCache b.trans (b.qbase.toNat + 64 * q)
    (toBytes 4 e.toks.length ++ toBytes 4 e.head ++ toBytes 8 old ++ zeroBytes 48)).2

/-- A thread token as memory holds it (R311). -/
def threadEntry (t : Wide) : List Byte :=
  toBytes 4 (lane t 0) ++ zeroBytes 4 ++ toBytes 16 (bits t.toNat 32 128) ++ zeroBytes 8

/-- A thread token appended to queue q with the current TB, and its entry and header written
(R311, R312). -/
def Work.pushThread (w : Work) (p : Where) (q : Nat) (t : Wide) : Work :=
  match (w.m.region? p.l p.r).bind (·.block) with
  | none => w
  | some b =>
    let e := nth b.queues q { toks := [], head := 0 }
    let e' : BlockQ := { e with toks := e.toks ++ [(t, w.m.tb)] }
    let slot := b.qbase.toNat + 64 * b.nblk + 32 * b.cap * q + 32 * ((e.head + e.toks.length) % b.cap)
    let v := w.modRegion p (fun r => { r with block := r.block.map (fun b =>
      { b with queues := modNth b.queues q (fun _ => e') }) })
    ((v.store noCache b.trans slot (threadEntry t)).2).blockHeader b q e'

/-- A thread token is well formed (R311). -/
def threadOk (t : Wide) : Bool :=
  let n := bits (lane t 0) 20 3
  bits (lane t 0) 23 9 == 0 && n ≤ 4 && t.toNat / 2 ^ (32 * (n + 1)) == 0

/-- TEXIT (R314); the first tagged token of its firing set fails the thread (R222). -/
def Work.texit (w : Work) (p : Where) (k : Ctx) (q : Plan) : Work :=
  let a := (nth q.toks k.inA none).getD Tok.zero
  let b := (nth q.toks k.inB none).getD Tok.zero
  match q.toks.findSome? (fun t => t.filter (·.tag)) with
  | some t => w.sinkArrival p { t with srcs := q.p.srcs }
  | none =>
    let v := b.pay.toNat % 2 ^ 64
    let nblk := match (w.m.region? p.l p.r).bind (·.block) with
      | some m => m.nblk
      | none => 0
    if v / 2 ^ 32 ≠ 0 || bits v 10 21 ≠ 0 || !threadOk a.pay || nblk ≤ v % 1024 then
      w.sinkArrival p (k.poison 1 0x06 w.m.tb a.item q.p.srcs)
    else if bitAt v 31 then w
    else w.pushThread p (v % 1024) a.pay

/-- A firing carried out (R25): its tokens leave their inputs, its anti-tokens go up, its stages
run, its memory operation is requested, and its results wait in the skid. `k0` is the context before its firing
rule took anything. -/
def Work.fire (w : Work) (p : Where) (r : Region) (g x y c : Nat) (k0 k : Ctx) (q : Plan) : Work :=
  let tb := w.m.tb
  let (n, w) := w.fresh
  let pt := (w.m.launch? p.l).map (·.part) |>.getD 16
  let item := q.p.item
  let a : Mark := { item := item, srcs := q.p.srcs }
  let took := q.use.foldl (fun k i => k.pop (4 + i) tb) k
  let k1 := q.upd (q.antis.foldl (fun k i => k.antiUp (4 + i) a tb) took)
  let f : Fire := { toks := q.toks, item := item, srcs := q.p.srcs, tb := tb, free := Config.freeWide n }
  let dataflow := 0x70 ≤ k.op1 && k.op1 < 0xB8
  let start : Run := { c := k1, p := q.p.pay, bad := none, tap := q.p.pay, tapBad := none, kNew := [],
                       part := w.m.part pt }
  let run := if q.runs then Run.all f dataflow start else start
  let tag := if q.p.tag then some q.p else run.bad
  let res := fun (v : Wide) (b : Option Tok) => match b with
    | some t => t
    | none => { q.p with net := if q.runs then 0 else q.p.net, pay := v }
  let s6 := res run.p run.bad
  let s3 := res run.tap run.tapBad
  let mem := k.isMem && q.out.contains 4 && q.p.kind == 0
  let k2 := if mem then { run.c with reqs := run.c.reqs ++ [k.request run f tag tb] }.ask a else run.c
  -- at a group word a data firing sends nothing, and another kind of token acts as it does there (R242)
  let group := k.isGroup && q.out.contains 4 && tag.isNone
  let edge := if group && q.p.kind ≠ 0 then k2.groupEdge q.p tb else (k2, none)
  let injects := q.runs && k.stages.any (fun s => bits s 24 8 == 0xB8)
  let v := w.modCtx g x y c (fun _ => edge.1)
  let v := if injects then v.setPart pt (fun _ => run.part) else v
  let u := match q.sink with
    | some t => v.sinkArrival p t
    | none => v
  let u := if mem && tag.isSome then u.queueRecord p (tag.getD q.p) true else u
  let outs := (if q.out.contains 4 then [(4, s6)] else []) ++ (if q.out.contains 5 then [(5, s3)] else [])
  let u := if k.op1 = 0xB2 then u.texit p k q else u
  let u := if group then edge.2.toList.foldl (fun u e => u.emitAll p g x y c k [(4, e)]) u else u
  let u := if group && q.p.kind ≠ 1 then u else u.emitAll p g x y c k outs
  (u.noteFiring p r g x y c k k0 item).afterFiring p r k item

/-! ## The events -/

/-- CREQ sends its request (R307): the load is queued, or its status is known at once. -/
def Work.sendCreq (w : Work) (p : Where) (g x y c : Nat) (k : Ctx) (t : Tok) : Work :=
  let v := t.pay.toNat % 2 ^ 64
  let target := bits v 48 8
  match w.m.launch? p.l with
  | none => w
  | some l =>
    let ok := bits v 56 8 == 0 && v % 4 == 0 && target != p.r && target < l.regions.length
    let q : CReq := { item := t.item, srcs := t.srcs, load := w.m.nextLoad, status := none, drop := false, image := bits v 0 48 }
    if ok then
      (w.queueLoad { launch := p.l, region := target, report := .creq g x y c, image := w64 (bits v 0 48),
                     restore := false, nbv := k.nbv, trans := { l.trans with priv := .u, cluster := some g },
                     prio := l.prio, accepted := false, words := [], reads := [], fault := none, staged := [] }).2.modCtx g x y c
        (fun k => { k with creq := some q })
    else w.modCtx g x y c (fun k => { k with creq := some { q with status := some 0x13 } })

/-- The arbiter gives a tile's turn to context c: no firing has begun there in this cycle, and from the turn's
owner on, in number order, c is the first context that is ready (R309). A turn stands for each firing, so that no
cycle in which nothing was ready takes one from a context (log 23). -/
def Mach.hasTurn (m : Mach) (p : Where) (r : Region) (x y c : Nat) : Bool :=
  let cs := m.onTile r.cluster x y
  let owner := (m.frame r.cluster x y).headD 0
  let able := (cs.filter (fun e => e.2.isReady (m.age p r) m.tb m.cyc)).map (·.1)
  cs.all (fun e => e.2.lastBegin != some m.cyc)
    && ((able.filter (owner ≤ ·)) ++ able.filter (· < owner)).head? == some c

/-- TILE_FIRING (R25): a context that is ready and has the tile's turn fires. -/
def execTileFiring (g x y c : Nat) (s : State) := s.event (fun w =>
  match w.m.running g x y, w.m.ctx? g x y c with
  | some (p, r), some k =>
    if k.bank || !k.skidFree || !k.regOk w.m.cyc then w
    else match k.begins (w.m.age p r) w.m.tb (Config.freeWord w.m.free).toNat with
      | none => w
      | some (.step k') => (w.modCtx g x y c (fun _ => k')).settle p
      | some (.ask t) => w.sendCreq p g x y c k t
      | some (.fire k' q) => if w.m.hasTurn p r x y c then w.fire p r g x y c k k' q else w
  | _, _ => w)

/-- The inputs of a tile's firing rule, for tokens that are not data (R277, R279, R283, R284). A tied input gives
none and is left out, so that the untied inputs decide: the spec does not say (DESIGN CHOICE, log 139). -/
def Ctx.ruleIns (c : Ctx) : List Nat :=
  match c.op1 with
  | 0x73 | 0x7A | 0x76 => (List.range 4).filter (fun i => (i == c.inA || i == c.inB) && !c.tied (4 + i))
  | 0x78 => if c.looping then [] else [c.inA]
  | _ => c.fireIns

/-- NON_DATA_TOKEN_FIRING (R277): tokens of one kind at every input of the firing rule are
consumed, and one of that kind leaves by the S6 result and the S3 tap. SINK consumes them (R279);
group words act on them (R242); ORDJ passes an end of stream only when it holds nothing (R283). -/
def execNonDataTokenFiring (g x y c : Nat) (s : State) := s.event (fun w =>
  match w.m.running g x y, w.m.ctx? g x y c with
  | some (p, _), some k =>
    let ins := k.ruleIns
    let hs := ins.filterMap (fun i => (k.head i).map (fun t => (i, t)))
    match hs with
    | [] => w
    | (_, t) :: _ =>
      if k.bank || !k.skidFree || k.op1 == 0x7C || t.kind == 0 || hs.length ≠ ins.length
          || hs.any (fun h => h.2.kind != t.kind) || (k.op1 == 0x76 && t.kind == 1 && !k.held.isEmpty) then w
      else
        let k1 := ins.foldl (fun k i => k.pop (4 + i) w.m.tb) k
        if k.op1 = 0x7B then ((w.modCtx g x y c (fun _ => k1)).active p).settle p
        else if k.isGroup then
          let s6 := stageW (k.stage 6)
          let trig := if 1 ≤ s6.a && s6.a ≤ 4 then ((hs.find? (fun h => h.1 + 1 == s6.a)).map (·.2)).getD t else t
          let (k2, out) := k1.groupEdge trig w.m.tb
          let v := w.modCtx g x y c (fun _ => k2)
          let u := match out with
            | some e => v.emitAll p g x y c k [(4, e)]
            | none => v
          let u := if t.kind = 1 then u.emitAll p g x y c k [(4, t), (5, t)] else u
          (u.active p).settle p
        else
          (((w.modCtx g x y c (fun _ => k1)).emitAll p g x y c k [(4, t), (5, t)]).active p).settle p
  | _, _ => w)

end Sys2Proof.Machine
end

