-- ==== Sys2Proof/Machine/Bank.lean ====
section
/-!
DEFINITION. Rings and bank operations (R40, R288 to R293, R362, R403): BRD, BWR, RPUSH, RPOP and
SWAR, each the event of one bank slot of a bank tile's context.
-/

namespace Sys2Proof.Machine

/-! ## Slots -/

def Slot.empty : Slot :=
  { tag := 0, item := 0, srcs := [], kind := 0, err := none, fill := 0, bitmap := none, zero := none,
    finite := none, ovf := false, bad := false }

def Ring.slot (r : Ring) (k : Nat) : Slot := agetD r.cells k Slot.empty

/-- A slot put; an empty one is not kept. -/
def Ring.put (r : Ring) (k : Nat) (s : Slot) : Ring :=
  { r with cells := if s.tag = 0 then aerase r.cells k else aset r.cells k s }

def Ring.next (r : Ring) (k : Nat) : Nat := (k + 1) % r.slots

/-- A ring of a context changed. -/
def Work.modRing (w : Work) (g x y c r : Nat) (f : Ring → Ring) : Work :=
  w.modCtx g x y c (fun k => { k with rings := modNth k.rings r f })

/-- The key of byte o of a bank tile's share (R250). -/
def shareKey (g x y o : Nat) : Nat := scratchKey g (shareOffset (bankNum x y) o)

/-- The share offset of byte b of slot k. -/
def Ring.at (r : Ring) (k b : Nat) : Nat := r.base + k * r.size + b

/-- Runs of 8 bytes from a share offset, as many at a time as their 4 KiB piece holds. -/
def Work.shareRuns (w : Work) (g x y : Nat) : Nat → Nat → Nat → List Byte
  | 0, _, _ => []
  | f + 1, o, n =>
    if n = 0 then []
    else
      let k := Nat.min n (512 - o / 8 % 512)
      w.bytes (shareKey g x y o) (8 * k) ++ Work.shareRuns w g x y f (o + 8 * k) (n - k)

/-- n runs of 8 bytes from a share offset. -/
def Work.shareBytes (w : Work) (g x y o n : Nat) : List Byte := w.shareRuns g x y (n / 512 + 2) o n

/-- The bytes of slot k. -/
def Work.slotBytes (w : Work) (g x y : Nat) (r : Ring) (k : Nat) : List Byte :=
  w.shareBytes g x y (r.at k 0) (r.size / 8)

/-- Bytes of a token written at a share offset. -/
def Work.sharePut (w : Work) (g x y o : Nat) (d : List Byte) : Work :=
  (w.putBytes (shareKey g x y o) d).syncMask (shareKey g x y o) d.length

/-- Whether bytes of a slot carry an uncorrectable error (R362). -/
def Work.slotBad (w : Work) (g x y : Nat) (r : Ring) (k : Nat) : Bool :=
  (r.slot k).bad || (List.range (r.size / 64)).any (fun j => w.poisoned (shareKey g x y (r.at k (64 * j))) 64)

/-! ## Marks (R188, R289) -/

/-- Bytes of an element of a mark format (R288). -/
def markSize (f : Nat) : Nat :=
  match f with
  | 1 | 2 => 1
  | 3 | 4 | 6 => 2
  | _ => 4

/-- Bytes cut into elements of n bytes. -/
def cutElems (n : Nat) : Nat → List Byte → List Nat
  | 0, _ => []
  | k + 1, d => if d.isEmpty then [] else ofBytes (d.take n) :: cutElems n k (d.drop n)

/-- An element is a zero; an element is an infinity or a NaN. -/
def markZero (f x : Nat) : Bool :=
  match f with
  | 3 | 4 => x % 2 ^ 15 == 0
  | 5 => x % 2 ^ 31 == 0
  | _ => x == 0
def markWild (f x : Nat) : Bool :=
  match f with
  | 2 => x == 0x80 || x == 0x01 || x == 0x81
  | 3 => bits x 7 8 == 255
  | 4 => bits x 10 5 == 31
  | 5 => bits x 23 8 == 255
  | _ => false

/-- A filled slot's marks, from its bytes. -/
def Slot.marked (s : Slot) (r : Ring) (bytes : Unit → List Byte) : Slot :=
  if r.mfmt = 0 then { s with bitmap := none, zero := none, finite := none }
  else
    let d := bytes ()
    let es := cutElems (markSize r.mfmt) (d.length) d
    { s with
      bitmap := if r.bmap && es.length ≤ 4096 then
          some ((es.foldl (fun (a : Nat × Nat) x => (a.1 + (if markZero r.mfmt x then 0 else a.2), 2 * a.2)) (0, 1)).1)
        else none
      zero := some (es.all (markZero r.mfmt))
      finite := some (!es.any (markWild r.mfmt)) }

/-! ## A bank slot's operation -/

/-- The word of bank slot q of a running bank tile's context, if it is the operation asked for. -/
def Mach.bankOp (m : Mach) (g x y c q op : Nat) : Option (Where × Ctx × Nat × Nat × Ring) :=
  match m.running g x y, m.ctx? g x y c with
  | some (p, _), some k =>
    let s := k.stage q
    if k.bank && 1 ≤ q && bits s 24 8 == op then
      (k.rings[bits s 0 2]?).map (fun r => (p, k, s, bits s 0 2, r))
    else none
  | _, _ => none

/-- Bytes of a token of a network (R137). -/
def netBytes (net : Nat) : Nat := if net = 1 then 8 else 64

/-- After a bank operation has fired (R323). -/
def Work.bankDone (w : Work) (p : Where) : Work := (w.active p).settle p

/-- The tail slot is tagged full and the tail advances. -/
def Ring.push (r : Ring) (s : Slot) : Ring := { r.put r.tail { s with tag := 2 } with tail := r.next r.tail }

/-- The head slot is emptied and the head advances. -/
def Ring.pop (r : Ring) : Ring := { r.put r.head Slot.empty with head := r.next r.head, popped := 0 }

/-! ## RPUSH (R291, R292) -/

/-- A filling tail slot closed: the rest is written zero and the slot is tagged full. A slot that is tagged, or
that is closed as tagged, holds the payload in its first 64 bytes. -/
def Work.closeSlot (w : Work) (g x y c n : Nat) (r : Ring) (err : Option Tok) : Work :=
  let s := r.slot r.tail
  let poison := err.filter (fun _ => s.err.isNone)
  let lead := if s.err.isSome || poison.isSome then Nat.max s.fill (Nat.min r.size 64) else s.fill
  let z := poison.toList.foldl (fun u e => u.sharePut g x y (r.at r.tail 0) (toBytes (Nat.min r.size 64) e.pay.toNat)) w
  let v := (List.range ((r.size - lead) / 8)).foldl (fun u j =>
    u.sharePut g x y (r.at r.tail (lead + 8 * j)) (zeroBytes 8)) z
  let s' := (match poison with
    | some e => { s with err := some e.pay, loop := e.loop, fill := r.size }
    | none => ({ s with fill := r.size } : Slot))
  v.modRing g x y c n (fun r => r.push (s'.marked r (fun _ => v.slotBytes g x y r r.tail)))

/-- A data token pushed into the tail slot. -/
def Work.pushData (w : Work) (p : Where) (g x y c d n : Nat) (k : Ctx) (r : Ring) (t : Tok) : Work :=
  let s := r.slot r.tail
  let wb := netBytes (k.netOf d)
  let weight := w.m.weightRing g x y c n
  let srcs := if weight then [] else t.srcs
  let s0 : Slot := if s.tag = 0 then { Slot.empty with tag := 1, item := t.item, srcs := srcs } else s
  let took := w.modCtx g x y c (fun k => k.pop d w.m.tb)
  let arrived := if weight then took.sinkArrival p t else took
  let full := poisonPay (bits t.pay.toNat 0 8) (bits t.pay.toNat 8 24) (bits t.pay.toNat 32 32) t.item
  let v := if s0.err.isSome then arrived
    else if t.tag then arrived.sharePut g x y (r.at r.tail 0) (toBytes (Nat.min r.size 64) full.toNat)
    else arrived.sharePut g x y (r.at r.tail s0.fill) (toBytes wb t.pay.toNat)
  let s1 := { s0 with
    fill := s0.fill + wb
    err := if s0.err.isSome then s0.err else if t.tag then some full else none
    loop := if s0.err.isSome then s0.loop else if t.tag then t.loop else s0.loop }
  if r.size ≤ s1.fill then
    v.modRing g x y c n (fun r => r.push (s1.marked r (fun _ => v.slotBytes g x y r r.tail)))
  else v.modRing g x y c n (fun r => r.put r.tail s1)

def execRpush (g x y c q : Nat) (s : State) := s.event (fun w =>
  match w.m.bankOp g x y c q 0xA2 with
  | none => w
  | some (p, k, wd, n, r) =>
    let d := 3 + bits wd 20 4
    match (k.hop d).q with
    | [] => w
    | t :: _ =>
      let sl := r.slot r.tail
      if sl.tag = 2 then w
      else if t.kind ≠ 0 then
        if sl.tag = 1 then (w.closeSlot g x y c n r none).bankDone p
        else
          let e : Slot := { Slot.empty with item := t.item, srcs := [], kind := t.kind, fill := r.size }
          (((w.modCtx g x y c (fun k => k.pop d w.m.tb)).modRing g x y c n (fun r => r.push e)).bankDone p)
      else if sl.tag = 1 && sl.item ≠ t.item then
        (w.closeSlot g x y c n r (some (k.poison q 0x06 w.m.tb sl.item sl.srcs))).bankDone p
      else (w.pushData p g x y c d n k r t).bankDone p)

/-! ## RPOP (R291, R362) -/

/-- Tokens leave at a source of a bank tile: a tagged one with no destination ends its path. -/
def Work.bankEmit (w : Work) (p : Where) (g x y c src : Nat) (k : Ctx) (t : Tok) : Work :=
  let ds := k.dests src
  if ds.isEmpty then w.sinkArrival p t else w.enterAll g x y c ds t

def execRpop (g x y c q : Nat) (s : State) := s.event (fun w =>
  match w.m.bankOp g x y c q 0xA3 with
  | none => w
  | some (p, k, _, n, r) =>
    let sl := r.slot r.head
    let ds := k.dests 6
    let net := match ds with
      | d :: _ => k.netOf d
      | [] => 0
    if sl.tag ≠ 2 || !ds.all k.space then w
    else
      let t0 : Tok := { item := sl.item, kind := sl.kind, tag := false, net := net, pay := 0, srcs := sl.srcs }
      let pop := fun (u : Work) => u.modRing g x y c n Ring.pop
      if sl.kind ≠ 0 then ((pop w).bankEmit p g x y c 6 k t0).bankDone p
      else match sl.err with
        | some e => ((pop w).bankEmit p g x y c 6 k { t0 with tag := true, net := 0, pay := e, loop := sl.loop }).bankDone p
        | none =>
          let wb := netBytes net
          let t := if w.slotBad g x y r r.head then k.poison q 0x01 w.m.tb sl.item sl.srcs
            else { t0 with pay := BitVec.ofNat 512 (ofBytes (w.shareBytes g x y (r.at r.head (wb * r.popped)) (wb / 8))) }
          let v := if r.size ≤ wb * (r.popped + 1) then pop w
            else w.modRing g x y c n (fun r => { r with popped := r.popped + 1 })
          (v.bankEmit p g x y c 6 k t).bankDone p)

/-! ## BRD and BWR (R291, R293) -/

/-- A slot and a chunk lie in a ring. -/
def Ring.inside (r : Ring) (slot chunk : Nat) : Bool := slot < r.slots && 64 * chunk < r.size

def execBrd (g x y c q : Nat) (s : State) := s.event (fun w =>
  match w.m.bankOp g x y c q 0xA0 with
  | none => w
  | some (p, k, wd, _, r) =>
    let d := 3 + bits wd 20 4
    match (k.hop d).q with
    | [] => w
    | t :: _ =>
      if !(k.dests 4).all k.space then w
      else
        let v := w.modCtx g x y c (fun k => k.pop d w.m.tb)
        let slot := bits t.pay.toNat 0 6
        let chunk := bits t.pay.toNat 6 10
        let out :=
          if t.kind ≠ 0 || t.tag then t
          else if !r.inside slot chunk then k.poison q 0x06 w.m.tb t.item t.srcs
          else match (r.slot slot).err with
            | some e => { item := (r.slot slot).item, kind := 0, tag := true, net := 0, pay := e,
                          srcs := (r.slot slot).srcs, loop := (r.slot slot).loop }
            | none =>
              if w.slotBad g x y r slot then k.poison q 0x01 w.m.tb t.item t.srcs
              else { t with net := 0, pay := BitVec.ofNat 512 (ofBytes (w.shareBytes g x y (r.at slot (64 * chunk)) 8)) }
        (v.bankEmit p g x y c 4 k out).bankDone p)

def execBwr (g x y c q : Nat) (s : State) := s.event (fun w =>
  match w.m.bankOp g x y c q 0xA1 with
  | none => w
  | some (p, k, wd, n, r) =>
    let da := 3 + bits wd 20 4
    let db := 3 + bits wd 16 4
    let zero := fun (d : Nat) (t : Tok) => if k.tied d then some { t with tag := false, net := k.netOf d, pay := 0 }
      else (k.hop d).q.head?
    let heads := match (k.hop da).q.head?, (k.hop db).q.head? with
      | some t, some u => some (t, u)
      | some t, none => (zero db t).map (fun u => (t, u))
      | none, some u => (zero da u).map (fun t => (t, u))
      | none, none => none
    match heads with
    | none => w
    | some (t, u) =>
      if t.kind ≠ u.kind || t.item ≠ u.item then w
      else
        let took := w.modCtx g x y c (fun k =>
          let k := if k.tied da then k else k.pop da w.m.tb
          if k.tied db then k else k.pop db w.m.tb)
        let slot := bits t.pay.toNat 0 6
        let chunk := bits t.pay.toNat 6 10
        let pub := bitAt t.pay.toNat 31
        let sl := r.slot slot
        if t.kind ≠ 0 then took.bankDone p
        else if t.tag then (took.sinkArrival p t).bankDone p
        else if u.tag then (took.sinkArrival p u).bankDone p
        else if !r.inside slot chunk || sl.tag ≠ 0 || (pub && slot ≠ r.tail) then
          (took.sinkArrival p (k.poison q 0x06 w.m.tb u.item u.srcs)).bankDone p
        else
          let o := r.at slot (64 * chunk)
          let v := (took.sharePut g x y o (toBytes 64 u.pay.toNat)).wrote (shareKey g x y o) 64
          if pub then
            let srcs := if w.m.weightRing g x y c n then [] else u.srcs
            let e : Slot := { Slot.empty with item := u.item, srcs := srcs, fill := r.size }
            (v.modRing g x y c n (fun r => r.push e)).bankDone p
          else v.bankDone p)

/-! ## SWAR (R291) -/

def execSwar (g x y c q : Nat) (s : State) := s.event (fun w =>
  match w.m.bankOp g x y c q 0xA4 with
  | none => w
  | some (p, k, wd, n, r) =>
    let d := 3 + bits wd 20 4
    match (k.hop d).q with
    | [] => w
    | t :: _ =>
      let took := w.modCtx g x y c (fun k => k.pop d w.m.tb)
      if t.kind ≠ 0 then took.bankDone p
      else if t.tag then (took.sinkArrival p t).bankDone p
      else
        let wb := netBytes (k.netOf d)
        let o := r.base + r.wpos
        let v := (took.sharePut g x y o (toBytes wb t.pay.toNat)).wrote (shareKey g x y o) wb
        let u := v.arrive (shareKey g x y (16 * bits wd 2 3)) wb
        (u.modRing g x y c n (fun r => { r with wpos := (r.wpos + wb) % (r.slots * r.size) })).bankDone p)

end Sys2Proof.Machine
end

