-- ==== Sys2Proof/Machine/Requests.lean ====
section
/-!
DEFINITION. Memory requests of AG tiles performed in wave order (R260, R285 to R287), their
timeouts (R286), and page walks (R348).
-/

namespace Sys2Proof.Machine

/-- The cache of a tile (R347). -/
def tileCache (g x y : Nat) : Nat := g * 64 + 8 * y + x

/-- Through what a launch's fabric translates in cluster g (R346): at U. -/
def Launch.fabricTrans (l : Launch) (g : Nat) : Trans := { l.trans with priv := .u, cluster := some g }

/-- Bytes of a request's access (R285). -/
def Req.size (q : Req) : Nat :=
  match bits q.word 24 8 with
  | 0x92 => if bitAt q.word 0 then 8 else 4
  | 0x93 => 8
  | _ => match bits q.word 0 2 with
    | 0 => 64
    | 1 => 8
    | _ => 4

/-- What a request needs of its page. -/
def Req.need (q : Req) : Need :=
  match bits q.word 24 8 with
  | 0x91 => .write
  | 0x92 => .both
  | _ => .read

/-- The address a request accesses next: for ECHS the next-pointer field of its node, an exact sum (R6). -/
def Req.va (q : Req) : Nat :=
  if bits q.word 24 8 = 0x93 then (q.addr + 8 * bits q.word 0 5) / 8 * 8 else q.addr

/-- A request changed. -/
def Work.modReq (w : Work) (g x y c k : Nat) (f : Req → Req) : Work :=
  w.modCtx g x y c (fun u => { u with reqs := modNth u.reqs k f })

/-- A request has been performed, or stands as a null operation: its wave goes on from it, or
ends (R287). Requests of the wave that this lets go are issued now. -/
def Work.waveStep (w : Work) (p : Where) (r : Region) (c : Nat) (q : Req) : Work :=
  let next : Wave := { item := q.item, srcs := q.srcs, loopIdx := q.loopIdx, own := bits q.order 24 8,
                       succ := bits q.order 8 8, ctx := c }
  let others := r.waves.filter (fun v => !(v.loopIdx == q.loopIdx && v.item == q.item))
  let v := w.modRegion p (fun r => { r with waves := if bitAt q.order 1 then others else others ++ [next] })
  v.modCluster r.cluster (fun k => { k with ctxs := k.ctxs.map (fun e =>
    if r.has r.cluster (keyX e.1) (keyY e.1) then
      (e.1, { e.2 with reqs := e.2.reqs.map (fun u =>
        if !u.ended && u.loopIdx == q.loopIdx && u.item == q.item then { u with tb := w.m.tb }
        else u) })
    else e) })

/-- A request ends with a last reply. -/
def Work.endReq (w : Work) (p : Where) (r : Region) (g x y c k : Nat) (q : Req) (t : Option Tok) : Work :=
  let add := match t with
    | some u => [u]
    | none => []
  ((w.modReq g x y c k (fun u => { u with done := true, ended := true, replies := u.replies ++ add })).waveStep
    p r c q).frozenIf p

/-- A reply token of a request. -/
def Req.tok (q : Req) (net : Nat) (pay : Wide) : Tok :=
  { item := q.item, kind := 0, tag := false, net := net, pay := pay, srcs := q.srcs }

/-- On SO and DV pages an agent's accesses are performed in issue order (R251): whether an earlier
request of the context, not yet performed, lies on such a page. -/
def Work.strongBefore (w : Work) (tr : Trans) (c : Ctx) (k : Nat) : Bool :=
  (c.reqs.take k).any (fun u => !u.ended && (match (walk w none tr u.va).1 with
    | .ok e => e.kind = .so || e.kind = .dv
    | .error _ => false))

/-- A hop of an ECHS to the next node of its chain: a firing of its own (R285), which waits for no input, charged
and traced, at which a breakpoint takes effect (R389 to R391). -/
def Work.chainHop (w : Work) (p : Where) (r : Region) (g x y c k : Nat) (u : Ctx) (q : Req) (next : Nat) : Work :=
  let v := w.modReq g x y c k (fun s => { s with
    addr := next, tb := w.m.tb, replies := s.replies ++ [q.tok 1 (BitVec.ofNat 512 next)] })
  (v.noteFiring p r g x y c u { u with hops := [] } q.item).afterFiring p r u q.item

/-- The 8-byte pieces of a request's access that are left. -/
def Req.left (q : Req) : List Nat := (List.range ((q.size + 7) / 8)).filter (fun i => (aget q.got i).isNone)

/-- The pieces performed now, of those asked for: on an SO page in increasing address order, on a DV page all at
once, for an access there is never split, elsewhere in any order (R251, R252). -/
def Req.now (q : Req) (kind : Kind) (asked : List Nat) : List Nat :=
  let some_ := q.left.filter (fun i => asked.isEmpty || asked.contains i)
  match kind with
  | .dv => if some_ == q.left then some_ else []
  | .so => q.left.takeWhile (some_.contains ·)
  | _ => some_

/-- Pieces of an ELD or EST performed at a key: a load's are read, a store's written. -/
def Work.reqPieces (q : Req) (key : Nat) : List Nat → Work → Req × Work
  | [], w => (q, w)
  | i :: r, w =>
    let a := key + 8 * i
    let n := Nat.min 8 (q.size - 8 * i)
    if bits q.word 24 8 = 0x91 then
      Work.reqPieces { q with got := aset q.got i 0 } key r ((w.write a n (bits q.data.toNat (64 * i) 64)).wrote a n)
    else Work.reqPieces { q with got := aset q.got i (w.read a n), bad := q.bad || w.poisoned a n } key r w

/-- What the pieces of a load have read. -/
def Req.value (q : Req) : Nat := q.got.foldl (fun s e => s + e.2 * 2 ^ (64 * e.1)) 0

/-- Where a request is performed, and the kind of its page. Once a piece is performed, the others follow where its
translation led, so that no fault meets an access that has begun (R286). -/
def Work.reqHome (w : Work) (g x y : Nat) (tr : Trans) (q : Req) : Except XFault (Nat × Kind) × Work :=
  match q.home with
  | some h => (.ok h, w)
  | none => w.translate (tileCache g x y) tr q.va q.need

/-- Request k is performed at its home (R285), an ELD or EST by pieces (R252): where its order does not allow it yet,
nothing happens but its walk. -/
def Work.performReq (w : Work) (p : Where) (r : Region) (g x y c k : Nat) (asked : List Nat) (u : Ctx) (q : Req)
    (tr : Trans) : Work :=
  let op := bits q.word 24 8
  let fail := fun (w : Work) (cause : Nat) =>
    w.endReq p r g x y c k q (some { poisonTok cause (u.nodeOf 6).1 w.m.tb q.item q.srcs with loop := q.loopIdx })
  -- a null operation (R286), and the end of a chain
  if q.done || (op = 0x93 && q.addr = 0) then w.endReq p r g x y c k q none
  else
    match w.reqHome g x y tr q with
    | (.error .trans, v) => fail v 0x02
    | (.error .perm, v) => fail v 0x03
    | (.error .lost, v) => fail v 0x09
    | (.error .wait, v) => v
    | (.ok (key, kind), v) =>
      if (kind = .so || kind = .dv) && v.strongBefore tr u k then v
      else if v.m.way (g / 24) key = .wait then v
      else if v.m.way (g / 24) key = .lost then fail v 0x09
      else if op = 0x92 && kind = .dv then fail v 0x03
      else if op = 0x92 then v.throughPort key q.size true fun v =>
        if q.bad || v.poisoned key q.size then fail v 0x01
        else
          let a := v.amo key q.size (bits q.word 1 4) (bits q.data.toNat 0 64)
          a.2.endReq p r g x y c k q (some (q.tok 1 (BitVec.ofNat 512 a.1)))
      else if op = 0x93 then v.throughPort key q.size true fun v =>
        if q.bad || v.poisoned key q.size then fail v 0x01
        else if v.read key 8 = 0 then v.endReq p r g x y c k q (some { q.tok 1 0 with kind := 1 })
        else v.chainHop p r g x y c k u q (v.read key 8)
      else
        let now := q.now kind asked
        if now.isEmpty then v
        else match Work.fromPorts (op != 0x91) (now.map (fun i => (key + 8 * i, Nat.min 8 (q.size - 8 * i), kind))) v with
          | (false, v) => v
          | (true, v) =>
            let (q', v) := Work.reqPieces q key now v
            if !q'.left.isEmpty then v.modReq g x y c k (fun _ => { q' with home := some (key, kind) })
            else if op = 0x91 then
              let (n, v) := v.fresh
              v.endReq p r g x y c k q' (some (q.tok 0 (Config.freeWide n)))
            else if q'.bad then fail v 0x01
            else v.endReq p r g x y c k q' (some (q.tok (if q.size = 64 then 0 else 1) (BitVec.ofNat 512 q'.value)))

/-- MEMORY_REPLY (R285): a request of an AG tile's context is performed in its turn, whole or in part, and its
reply waits to leave in request order. -/
def execMemoryReply (g x y c : Nat) (o : ReplyRun) (s : State) := s.event (fun w =>
  match w.m.regionAt g x y, w.m.ctx? g x y c with
  | some (p, r), some u =>
    match u.reqs[o.request]?, w.m.launch? p.l with
    | some q, some l =>
      if q.ended || r.state = 0 || !u.issued r o.request q || (r.state ≠ 1 && bits q.word 24 8 == 0x93) then w
      else (w.performReq p r g x y c o.request o.pieces u q (l.fabricTrans g)).settle p
    | _, _ => w
  | _, _ => w)

/-- MEMORY_REPLY_TIMEOUT (R286): a request with no reply within 50 µs on its package, or 2 ms
across the domain, ends with cause 0x08 and no access; one of which a piece is performed does not. -/
def execMemoryReplyTimeout (g x y c k : Nat) (s : State) := s.event (fun w =>
  match w.m.regionAt g x y, w.m.ctx? g x y c with
  | some (p, r), some u =>
    match u.reqs[k]?, w.m.launch? p.l with
    | some q, some l =>
      let remote := match (walk w none (l.fabricTrans g) q.va).1 with
        | .ok e => isDomain (e.pa q.va)
        | .error _ => false
      if q.ended || q.done || q.home.isSome || r.state = 0 || !u.issued r k q
          || w.m.tb < q.tb + (if remote then Config.domainTimeout else Config.memoryTimeout) then w
      else
        (w.endReq p r g x y c k q (some { poisonTok 0x08 (u.nodeOf 6).1 w.m.tb q.item q.srcs with loop := q.loopIdx })).settle p
    | _, _ => w
  | _, _ => w)

/-- PAGE_WALK (R348): a walk for an agent's next fetch, a tile's oldest request not yet performed,
or a job's next write; a leaf it finds fills the cache. What a fault means stands with the access
that meets it. -/
def execPageWalk (o : Walker) (s : State) := s.event (fun w =>
  match o with
  | .agent t => match aget w.m.thr t with
    | some th => (w.leaf (agentCache t) (w.m.transOf t th) th.pc.toNat).2
    | none => w
  | .tile g x y c => match w.m.regionAt g x y, w.m.ctx? g x y c with
    | some (p, _), some u => match u.reqs.find? (fun q => !q.ended), w.m.launch? p.l with
      | some q, some l => (w.leaf (tileCache g x y) (l.fabricTrans g) q.va).2
      | _, _ => w
    | _, _ => w
  | .job j => match aget w.m.jobs j with
    | some x =>
      let va := match x.move x.pos with
        | some (dv, _, _) => dv
        | none => x.dstD.elem x.pos
      (w.leaf (fiCache x.die) x.trans va).2
    | none => w)

end Sys2Proof.Machine
end

