-- ==== Sys2Proof/Machine/Engine.lean ====
section
/-!
DEFINITION. The matrix engines (R183 to R200, R226 to R234, R292, R403, R408): pairs in dense
mode, items in grouped mode, conversion, checksums, pushes of C tiles, and non-data slots.
-/

namespace Sys2Proof.Machine

/-! ## Configuration -/

/-- An empty accumulator area: +0 in every element (R183). -/
def Area.empty : Area :=
  { pairs := 0, vals := [], ovf := false, item := 0, srcs := [], fault := none, tb := 0, csRow := [],
    csCol := [], popped := [] }

/-- The fields of MXCFG (R227). -/
structure MxCfg where
  afmt : Nat
  bfmt : Nat
  ofmt : Nat
  rnd : Nat
  sat : Bool
  asc : Bool
  bsc : Bool
  kt : Nat
  deriving DecidableEq, Repr

def mxCfg (w : Nat) : MxCfg :=
  { afmt := bits w 19 3, bfmt := bits w 16 3, ofmt := bits w 13 3, rnd := bits w 11 2, sat := bitAt w 10,
    asc := bitAt w 9, bsc := bitAt w 8, kt := bits w 0 8 }

def Engine.cfg (e : Engine) : MxCfg := mxCfg (e.word 0x60)

/-- Bytes of an operand element (R228). -/
def mxBytes (f : Nat) : Nat := if f = 4 then 4 else if f = 2 || f = 3 || f = 5 then 2 else 1

/-- An integer operand format. -/
def mxIsInt (f : Nat) : Bool := f == 0 || f == 5

/-- Bytes of an output element (R229). -/
def mxOut (f : Nat) : Nat := if f = 0 || f = 4 then 4 else if f = 3 || f = 6 then 1 else 2

/-- The floating format of an operand code and of an output code. -/
def mxFmt (f : Nat) : NumFmt :=
  match f with
  | 1 => .d8
  | 2 => .bf16
  | 3 => .fp16
  | _ => .fp32
def mxOutFmt (f : Nat) : NumFmt :=
  match f with
  | 1 => .bf16
  | 2 => .fp16
  | 3 => .d8
  | _ => .fp32

/-- The first and second words of MXGRP (R232). -/
def Engine.grpWord (e : Engine) (part : Nat) : Nat :=
  (e.words.find? (fun w => bits w 24 8 == 0x63 && bits w 21 1 == part)).getD 0

/-- Element n of w bytes of a list of bytes. -/
def elemAt (d : List Byte) (w n : Nat) : Nat := ofBytes ((d.drop (n * w)).take w)

/-- A scale byte at an offset, 0 where the operand carries none (R178). -/
def scaleAt (d : List Byte) (has : Bool) (o : Nat) : Int := if has then (nth d o 0).toInt else 0

/-- A floating operand: its value or D8 image, with its scale (R171, R178). -/
def mxVal (f : Nat) (flush : Bool) (scale : Int) (code : Nat) : FV :=
  (if f = 1 then d8Image (decodeD8 code) else decodeF (mxFmt f) flush code).scale scale

/-! ## Tiles of a pair (R229) -/

/-- Element (i, k) of an A operand. -/
def MxCfg.aVal (c : MxCfg) (flush : Bool) (d : List Byte) (i k : Nat) : FV :=
  let w := mxBytes c.afmt
  mxVal c.afmt flush (scaleAt d c.asc (2048 * w + i)) (elemAt d w (32 * i + k))

/-- Element (k, j) of a B operand. -/
def MxCfg.bVal (c : MxCfg) (flush : Bool) (d : List Byte) (k j : Nat) : FV :=
  let w := mxBytes c.bfmt
  mxVal c.bfmt flush (scaleAt d c.bsc (4096 * w + 4 * k + j / 32)) (elemAt d w (128 * k + j))

/-- Integer elements. -/
def MxCfg.aInt (c : MxCfg) (d : List Byte) (i k : Nat) : Int :=
  toSigned (8 * mxBytes c.afmt) (elemAt d (mxBytes c.afmt) (32 * i + k))
def MxCfg.bInt (c : MxCfg) (d : List Byte) (k j : Nat) : Int :=
  toSigned (8 * mxBytes c.bfmt) (elemAt d (mxBytes c.bfmt) (128 * k + j))

/-- The index k of the 32 products of a pair. -/
def ks32 : List Nat := List.range 32

/-- An FP32 value in an area, held as the FP40 code of the same value, the one form that R167 gives (DESIGN CHOICE,
log 163). -/
def f32To40 (v : FV) : Nat := roundBin .fp40 0 false false v

/-- A value rounded nearest-even in FP32 (R181, R193). -/
def rne32 (flush : Bool) (v : FV) : FV := decodeBin .fp32 flush (roundBin .fp32 0 false flush v)

/-- FP32 addition. -/
def add32 (flush : Bool) (a b : FV) : FV := rne32 flush (a.add false b)

/-- The sum of one run of 8 products under NBV 2 (R181). -/
def run8 (p : List FV) : FV :=
  let at_ := fun k => nth p k FV.zero
  let a := add32 true
  a (a (a (at_ 0) (at_ 1)) (a (at_ 2) (at_ 3))) (a (a (at_ 4) (at_ 5)) (a (at_ 6) (at_ 7)))

/-- An accumulator element after a pair's products (R189, R190, R192, R181). -/
def accumulate (nbv acc : Nat) (ps : List FV) : Nat :=
  match nbv with
  | 0 => add40 false acc (decodeBin .fp40 false (rne40 false
      (ps.foldl (fun a p => a.add false p.unsign) FV.zero)))
  | 1 => f32To40 ((ps.map (rne32 false)).foldl (add32 false) (decodeBin .fp40 false acc))
  | _ =>
    let qs := ps.map (rne32 true)
    f32To40 ([0, 1, 2, 3].foldl (fun a n => add32 true a (run8 (qs.drop (8 * n)))) (decodeBin .fp40 false acc))

/-- The element of an area at a position. -/
def Area.at (a : Area) (i j : Nat) : Nat := agetD a.vals (128 * i + j) 0

/-- Every position of a tile. -/
def tilePos : List (Nat × Nat) := (List.range 64).flatMap (fun i => (List.range 128).map (fun j => (i, j)))

/-- A tile's values from a function of position; zeros are not listed. -/
def tileOf (f : Nat → Nat → Nat) : AMap Nat :=
  (tilePos.map (fun p => (128 * p.1 + p.2, f p.1 p.2))).filter (fun e => e.2 != 0)

/-- The area after an unfaulted dense pair. -/
def Area.pair (a : Area) (c : MxCfg) (nbv : Nat) (chk : Bool) (da db : List Byte) : Area :=
  let flush := nbv == 2
  if mxIsInt c.afmt then
    let sum := fun (i j : Nat) => ks32.foldl (fun s k => s + c.aInt da i k * c.bInt db k j) 0
    let clamp := tilePos.any (fun p => (addInt40 (a.at p.1 p.2) (sum p.1 p.2)).2)
    let col := fun (k : Nat) => (List.range 64).foldl (fun s i => s + c.aInt da i k) 0
    let row := fun (k : Nat) => (List.range 128).foldl (fun s j => s + c.bInt db k j) 0
    let put := fun (m : AMap Nat) (n : Nat) (x : Int) =>
      aset m n (((BitVec.ofNat 128 (agetD m n 0)).toInt + x) % 2 ^ 128).toNat
    { a with
      vals := tileOf (fun i j => (addInt40 (a.at i j) (sum i j)).1)
      ovf := a.ovf || clamp
      csRow := if chk then (List.range 128).foldl (fun m j =>
        put m j (ks32.foldl (fun s k => s + col k * c.bInt db k j) 0)) a.csRow else a.csRow
      csCol := if chk then (List.range 64).foldl (fun m i =>
        put m i (ks32.foldl (fun s k => s + c.aInt da i k * row k) 0)) a.csCol else a.csCol }
  else
    let va := fun i k => c.aVal flush da i k
    let vb := fun k j => c.bVal flush db k j
    let s32 := fun (l : List FV) => l.foldl (add32 flush) FV.zero
    let m32 := fun (x y : FV) => rne32 flush (x.mul y)
    let col := fun (k : Nat) => s32 ((List.range 64).map (fun i => va i k))
    let row := fun (k : Nat) => s32 ((List.range 128).map (fun j => vb k j))
    let put := fun (m : AMap Nat) (n : Nat) (x : FV) =>
      aset m n (f32To40 (add32 flush (decodeBin .fp40 false (agetD m n 0)) x))
    { a with
      vals := tileOf (fun i j => accumulate nbv (a.at i j) (ks32.map (fun k => (va i k).mul (vb k j))))
      csRow := if chk then (List.range 128).foldl (fun m j =>
        put m j (s32 (ks32.map (fun k => m32 (col k) (vb k j))))) a.csRow else a.csRow
      csCol := if chk then (List.range 64).foldl (fun m i =>
        put m i (s32 (ks32.map (fun k => m32 (va i k) (row k))))) a.csCol else a.csCol }

/-- A faulted pair adds a chunk of +0 (R189, R198). -/
def Area.zeroPair (a : Area) (c : MxCfg) : Area :=
  if mxIsInt c.afmt then a
  else { a with vals := tileOf (fun i j => add40 false (a.at i j) FV.zero) }

/-! ## Engines and their rings -/

/-- The node of an error born in engine e (R198). -/
def mxNode (e : Nat) : Nat := 0xFFFFF0 + e

/-- A ring named by its tile and number, in a context. -/
def Mach.ringOf (m : Mach) (g c : Nat) (q : (Nat × Nat) × Nat) : Option Ring :=
  (m.ctx? g q.1.1 q.1.2 c).bind (fun k => k.rings[q.2]?)

def Work.modRingOf (w : Work) (g c : Nat) (q : (Nat × Nat) × Nat) (f : Ring → Ring) : Work :=
  w.modRing g q.1.1 q.1.2 c q.2 f

/-- An engine changed. -/
def Work.modEngine (w : Work) (g e : Nat) (f : Engine → Engine) : Work :=
  w.modCluster g (fun k => { k with engines := amod k.engines e f })

/-- An engine that has words, in a region that runs: an engine without words is idle (R226). -/
def Mach.engine (m : Mach) (g e : Nat) : Option (Where × Region × Engine) :=
  ((aget m.clusters g).bind (fun k => aget k.engines e)).bind (fun x =>
    (m.region? x.launch x.region).bind (fun r =>
      if r.state = 0 || x.words.isEmpty then none else some ({ l := x.launch, r := x.region }, r, x)))

/-- A full current area becomes the draining area once that is free (R185). -/
def Engine.roll (e : Engine) : Engine :=
  if e.cfg.kt ≤ e.cur.pairs && e.drainState = 0 then { e with drain := e.cur, drainState := 1, cur := .empty }
  else e

/-- The failure of a slot as an engine reads it: its tag's payload, or a struck byte (R198). -/
def Work.slotFault (w : Work) (g e : Nat) (q : (Nat × Nat) × Nat) (r : Ring) (k : Nat) : Option Wide :=
  let s := r.slot k
  match s.err with
  | some p => some p
  | none => if w.slotBad g q.1.1 q.1.2 r k then some (poisonPay 0x01 (mxNode e) w.m.tb s.item) else none

/-- The cause and node of a payload. -/
def faultOf (p : Wide) : Nat × Nat := (bits p.toNat 0 8, bits p.toNat 8 24)

/-- The bytes of slot k of a named ring. -/
def Work.ringBytes (w : Work) (g : Nat) (q : (Nat × Nat) × Nat) (r : Ring) (k : Nat) : List Byte :=
  w.slotBytes g q.1.1 q.1.2 r k

/-! ## Pairs (R184) -/

/-- The A and B rings of an engine, where both heads are full. -/
def Mach.heads (m : Mach) (g e : Nat) (x : Engine) : Option (Ring × Ring) :=
  match m.ringOf g x.ctx (x.ringA e), m.ringOf g x.ctx (x.ringB e) with
  | some a, some b => if (a.slot a.head).tag = 2 && (b.slot b.head).tag = 2 then some (a, b) else none
  | _, _ => none

/-- MX_PAIR_START (R184): both heads full of data, and the current area empty or open. -/
def execMxPairStart (g e : Nat) (s : State) := s.event (fun w =>
  match w.m.engine g e with
  | some (p, r, x) =>
    if r.state ≠ 1 || x.grouped || x.busy || x.cfg.kt ≤ x.cur.pairs then w
    else match w.m.heads g e x with
      | some (a, b) =>
        if (a.slot a.head).kind ≠ 0 || (b.slot b.head).kind ≠ 0 then w
        else (w.modEngine g e (fun x => { x with busy := true })).active p
      | none => w
  | none => w)

/-- The pair in progress ends (R184, R189, R198): it is added to the current area, both heads are
popped, and a full area drains. The item that the C tile carries is that of the last A tile (R186), with
the sources of every slot popped for it under that number; other items end when it is pushed (R408). -/
def Work.pairEnd (w : Work) (g e : Nat) (x : Engine) (a b : Ring) : Work :=
  let qa := x.ringA e
  let qb := x.ringB e
  let sa := a.slot a.head
  let sb := b.slot b.head
  let fa := w.slotFault g e qa a a.head
  let fb := w.slotFault g e qb b b.head
  let chk := x.words.any (fun v => bits v 24 8 == 0x62)
  let area := if fa.isSome || fb.isSome then x.cur.zeroPair x.cfg
    else x.cur.pair x.cfg x.nbv chk (w.ringBytes g qa a a.head) (w.ringBytes g qb b b.head)
  let first := match fa, fb with
    | some p, _ => some (faultOf p)
    | none, some p => some (faultOf p)
    | none, none => none
  let popped := x.cur.popped ++ [({ item := sa.item, srcs := sa.srcs }, fa.map (·, sa.loop)),
    ({ item := sb.item, srcs := sb.srcs }, fb.map (·, sb.loop))]
  let area := { area with
    pairs := x.cur.pairs + 1
    item := sa.item
    srcs := (popped.filter (fun m => m.1.item == sa.item)).foldl (fun l m => union l m.1.srcs) []
    fault := if area.fault.isSome then area.fault else first
    tb := if area.fault.isSome then area.tb else w.m.tb
    popped := popped }
  ((w.modEngine g e (fun x => ({ x with cur := area, busy := false } : Engine).roll)).modRingOf g x.ctx qa
    Ring.pop).modRingOf g x.ctx qb Ring.pop

/-- MX_PAIR_END (R184): a pair, once begun, runs to its end, in a freeze too (R187). -/
def execMxPairEnd (g e : Nat) (s : State) := s.event (fun w =>
  match w.m.engine g e with
  | some (p, _, x) =>
    if !x.busy then w
    else match w.m.heads g e x with
      | some (a, b) => (((w.pairEnd g e x a b).settle p).frozenIf p)
      | none => w
  | none => w)

/-! ## Conversion (R185, R193, R194) -/

/-- An element converted to the output format, and whether it was clamped (R172, R191). -/
def MxCfg.convert (c : MxCfg) (nbv acc : Nat) : Nat × Bool :=
  if 4 ≤ c.ofmt then fitInt true (8 * mxOut c.ofmt) true (toSigned 40 acc)
  else
    let v := decodeBin .fp40 false acc
    (encodeF (mxOutFmt c.ofmt) c.rnd c.sat (nbv == 2) (if nbv = 0 then v.unsign else v), false)

/-- The bytes of a converted tile (R229). -/
def Area.bytes (a : Area) (c : MxCfg) (nbv : Nat) : List Byte :=
  (tilePos.map (fun p => toBytes (mxOut c.ofmt) (c.convert nbv (a.at p.1 p.2)).1)).flatten

/-- One comparison of R194 on floating sums. -/
def csPass (tol x y : FV) : Bool :=
  (x.isNan && y.isNan) || x.eq y ||
  (!x.isNan && !y.isNan && !x.isInf && !y.isInf &&
    (let d := (x.add false y.neg).abs
     let m := if x.abs.lt y.abs then y.abs else x.abs
     let t := tol.mul m
     !tol.isNan && !(tol.lt FV.zero) && (d.lt t || d.eq t)))

/-- Whether every comparison of a tile passes (R194). -/
def Area.checked (a : Area) (c : MxCfg) (nbv tolhi : Nat) : Bool :=
  let rows := List.range 64
  let cols := List.range 128
  if mxIsInt c.afmt then
    let v := fun i j => toSigned 40 (a.at i j)
    let cs := fun (m : AMap Nat) (k : Nat) => (BitVec.ofNat 128 (agetD m k 0)).toInt
    a.ovf || (cols.all (fun j => rows.foldl (fun s i => s + v i j) 0 == cs a.csRow j)
      && rows.all (fun i => cols.foldl (fun s j => s + v i j) 0 == cs a.csCol i))
  else
    let flush := nbv == 2
    let tol := decodeBin .fp32 false (tolhi * 2 ^ 16)
    let v := fun i j => rne32 flush (decodeBin .fp40 false (a.at i j))
    let sum := fun (l : List FV) => l.foldl (add32 flush) FV.zero
    let cs := fun (m : AMap Nat) (k : Nat) => decodeBin .fp40 false (agetD m k 0)
    cols.all (fun j => csPass tol (sum (rows.map (fun i => v i j))) (cs a.csRow j))
      && rows.all (fun i => csPass tol (sum (cols.map (fun j => v i j))) (cs a.csCol i))

/-- The draining area at the end of conversion: its overflow flag, which a clamp of the conversion sets
too (R191), and a checksum fault, for a tile without that flag (R194). -/
def Engine.convert (x : Engine) (e tb : Nat) : Engine :=
  let c := x.cfg
  let a := x.drain
  let clamp := 4 ≤ c.ofmt && tilePos.any (fun p => (c.convert x.nbv (a.at p.1 p.2)).2)
  let chk := x.words.find? (fun v => bits v 24 8 == 0x62)
  let b := { a with ovf := a.ovf || clamp }
  let bad := match chk with
    | some v => !b.checked c x.nbv (bits v 0 16)
    | none => false
  { x with
    drainState := 2
    drain := if bad && b.fault.isNone then { b with fault := some (0x04, mxNode e), tb := tb } else b }

/-- The converted tile is pushed into the result ring if its tail slot is empty (R185, R186,
R198, R199): a tagged one holds its payload as R292 has it (DEDUCED, log 47) and no loop index (DEDUCED, log 120),
and goes into the kept area; the items that end at the engine arrive (R408). -/
def Work.pushTile (w : Work) (p : Where) (g e : Nat) (x : Engine) : Work :=
  let q := x.ringC e
  match w.m.ringOf g x.ctx q with
  | none => w
  | some r =>
    if x.drainState ≠ 2 || (r.slot r.tail).tag ≠ 0 then w
    else
      let a := x.drain
      let pay := a.fault.map (fun f => poisonPay f.1 f.2 a.tb a.item)
      let put := fun (u : Work) (o : Nat) (d : List Byte) =>
        (List.range ((d.length + 63) / 64)).foldl (fun u n =>
          u.sharePut g q.1.1 q.1.2 (r.at r.tail (o + 64 * n)) ((d.drop (64 * n)).take 64)) u
      let w1 := put w 0 (a.bytes x.cfg x.nbv)
      let w2 := match pay with
        | some v => put w1 0 (toBytes 64 v.toNat)
        | none => w1
      let sl : Slot := { Slot.empty with item := a.item, srcs := a.srcs, err := pay, fill := r.size, ovf := a.ovf }
      let w3 := w2.modRingOf g x.ctx q (fun r => r.push (sl.marked r (fun _ => w2.slotBytes g q.1.1 q.1.2 r r.tail)))
      let kept := fun (x : Engine) => match a.fault with
        | some f => { x with kept := a, keptStat := f.1 * 2 ^ 24 + a.item * 2 ^ 8 + (if a.ovf then 2 else 0) + 1 }
        | none => x
      let w4 := w3.modEngine g e (fun x => ({ kept x with drain := .empty, drainState := 0 } : Engine).roll)
      let own : Mark := { item := a.item, srcs := a.srcs }
      let w5 := (a.popped.filter (fun m => !(m.1.is own))).foldl (fun u m => match m.2 with
        | some v => u.sinkArrival p
            { item := m.1.item, kind := 0, tag := true, net := 0, pay := v.1, srcs := m.1.srcs, loop := v.2 }
        | none => u) w4
      (w5.active p).settle p

/-- MX_CONVERSION_END (R185). -/
def execMxConversionEnd (g e : Nat) (s : State) := s.event (fun w =>
  match w.m.engine g e with
  | some (p, r, x) =>
    if r.state ≠ 1 || x.drainState ≠ 1 then w
    else
      let y := x.convert e w.m.tb
      (w.modEngine g e (fun _ => y)).pushTile p g e y
  | none => w)

/-- MX_DEFERRED_PUSH (R185): a converted tile is pushed once the tail slot is empty. -/
def execMxDeferredPush (g e : Nat) (s : State) := s.event (fun w =>
  match w.m.engine g e with
  | some (p, r, x) => if r.state = 1 then w.pushTile p g e x else w
  | none => w)

/-! ## Grouped mode (R195 to R197, R233, R234) -/

/-- Slot n from the head. -/
def Ring.ahead (r : Ring) (n : Nat) : Nat := (r.head + n) % r.slots

/-- Slots from the head that are full data slots, up to the ring's number. -/
def Ring.run (r : Ring) : Nat → Nat → Nat
  | 0, n => n
  | f + 1, n => if (r.slot (r.ahead n)).tag = 2 && (r.slot (r.ahead n)).kind = 0 then r.run f (n + 1) else n

/-- How a weight stream ends after its last full data slot: the engine waits for a slot, or the
stream has ended (R233). -/
def Ring.runWaits (r : Ring) : Bool :=
  let n := r.run r.slots 0
  n < r.slots && (r.slot (r.ahead n)).tag != 2

/-- A group: its value and its positions. -/
structure Group where
  value : Nat
  pos : List Nat
  deriving DecidableEq, Repr

/-- The n positions packed in words, low half first. -/
def positions (ws : List Nat) (n : Nat) : List Nat :=
  (ws.flatMap (fun v => [v % 2 ^ 16, bits v 16 16])).take n

/-- Positions rise (R197). -/
def rising : List Nat → Bool
  | x :: y :: r => x < y && rising (y :: r)
  | _ => true

/-- The groups of a row before the first that breaks grouped order, and whether one does (R197,
R233). -/
def rowGroups (bf16 : Bool) (k : Nat) : Nat → List Nat → Nat → Nat → List Group × Bool
  | 0, _, _, _ => ([], false)
  | _ + 1, [], _, _ => ([], false)
  | f + 1, h :: rest, count, total =>
    let n := h % 2 ^ 16
    let nw := (n + 1) / 2
    let ps := positions rest n
    let padOk := n % 2 == 0 || bits (nth rest (nw - 1) 0) 16 16 == 0
    let ok := n != 0 && (bf16 || bits h 24 8 == 0) && nw ≤ rest.length && rising ps && ps.all (· < k) && padOk
      && count < (if bf16 then 1024 else 252) && total + n ≤ 65536
    if !ok then ([], true)
    else
      let (gs, bad) := rowGroups bf16 k f (rest.drop nw) (count + 1) (total + n)
      ({ value := bits h 16 16, pos := ps } :: gs, bad)

/-- The 32-bit words of a list of bytes. -/
def wordsOf : Nat → List Byte → List Nat
  | 0, _ => []
  | n + 1, d => if d.isEmpty then [] else ofBytes (d.take 4) :: wordsOf n (d.drop 4)

/-- The rows of a weight stream: each row's groups, and whether anything broke grouped order.
`ws` are the words there are. -/
def streamRows (bf16 : Bool) (k rows : Nat) (ws : List Nat) : List (List Group) × Bool :=
  let dir := (List.range rows).map (fun i => ws[i]?)
  let len := fun (o : Option Nat) => bits (o.getD 0) 0 17
  let starts := (dir.foldl (fun (a : List Nat × Nat) o => (a.1 ++ [a.2], a.2 + len o)) ([], rows)).1
  let each := (dir.zip starts).map (fun (p : Option Nat × Nat) =>
    match p.1 with
    | none => ([], true)
    | some d =>
      if bits d 17 15 != 0 || 34304 < len p.1 then ([], true)
      else
        let body := (ws.drop p.2).take (len p.1)
        let (gs, bad) := rowGroups bf16 k (body.length + 1) body 0 0
        (gs, bad || body.length < len p.1))
  (each.map (·.1), each.any (·.2))

/-- The words a stream needs, by its directory: the end of the last row that is read. -/
def streamNeed (rows : Nat) (ws : List Nat) : Nat :=
  ((List.range rows).foldl (fun (a : Nat × Nat) i =>
    let d := nth ws i 0
    let n := bits d 0 17
    (if bits d 17 15 = 0 && n ≤ 34304 && n != 0 then a.2 + n else a.1, a.2 + n)) (rows, rows)).1

/-- Bytes of an item's activations (R234). -/
def itemBytes (bw v k : Nat) (bsc : Bool) : Nat := v * k * bw + (if bsc then v * ((k + 31) / 32) else 0)

/-- Element (row, vector) of an item (R195). -/
def groupElem (c : MxCfg) (bf16 : Bool) (k : Nat) (gs : List Group) (d : List Byte) (v : Nat) (j : Nat) : Nat :=
  let w := mxBytes c.bfmt
  let act := fun (p : Nat) =>
    mxVal c.bfmt false (scaleAt d c.bsc (v * k * w + j * ((k + 31) / 32) + p / 32)) (elemAt d w (j * k + p))
  gs.foldl (fun acc g =>
    let q := g.pos.foldl (fun q p => add40 false q (act p)) 0
    let val := if bf16 then decodeBin .bf16 false g.value else d8Image (decodeD8 g.value)
    add40 false acc (decodeBin .fp40 false (rne40 false ((decodeBin .fp40 false q).mul val)))) 0

/-- The first failure of slots from the head. -/
def Work.firstFault (w : Work) (g e : Nat) (q : (Nat × Nat) × Nat) (r : Ring) (n : Nat) : Option Wide :=
  (List.range n).findSome? (fun k => w.slotFault g e q r (r.ahead k))

/-- A grouped item. -/
structure Item where
  /-- Its C tile's area once every group has been added. -/
  area : Area
  /-- The B slots it takes. -/
  slots : Nat
  /-- Its rows' groups, and its vectors: none where a faulted slot makes it +0. -/
  groups : List (List Group)
  vecs : Nat
  /-- Its activations. -/
  acts : List Byte
  deriving DecidableEq, Repr

/-- The boundaries of a grouped item, in the order in which they are computed: rows, vectors, groups
(R195). -/
def Item.total (t : Item) : Nat := (t.groups.map (fun gs => t.vecs * gs.length)).foldl (· + ·) 0

/-- The groups of element (i, j) among the first n boundaries. -/
def Item.upTo (t : Item) (n i j : Nat) : List Group :=
  let before := ((t.groups.take i).map (fun gs => t.vecs * gs.length)).foldl (· + ·) 0
  let gs := nth t.groups i []
  gs.take (n - (before + j * gs.length))

/-- A grouped item computed (R195, R198): none while the engine waits at a slot. Among its activation slots
one that is not data is ring misuse too, and goes with the item (DESIGN CHOICE, log 140). With a faulted slot among
the directory's, the later weight slots are neither read nor awaited (DESIGN CHOICE, log 164). -/
def Work.groupItem (w : Work) (g e : Nat) (x : Engine) (a b : Ring) : Option Item :=
  let c := x.cfg
  let qa := x.ringA e
  let qb := x.ringB e
  let w1 := x.grpWord 0
  let bf16 := bitAt w1 20
  let v := bits w1 13 7 + 1
  let rows := bits w1 7 6 + 1
  let k := bits (x.grpWord 1) 0 16 + 1
  let nb := (itemBytes (mxBytes c.bfmt) v k c.bsc + b.size - 1) / b.size
  let full := a.run a.slots 0
  let slotsFor := fun (words : Nat) => (4 * words + a.size - 1) / a.size
  let dirSlots := Nat.min (slotsFor rows) full
  let dirFault := w.firstFault g e qa a dirSlots
  let stream := ((List.range full).map (fun n => w.ringBytes g qa a (a.ahead n))).flatten
  let ws := wordsOf stream.length stream
  let need := if full < slotsFor rows then slotsFor rows else slotsFor (streamNeed rows ws)
  let slots := (List.range nb).map (fun n => b.slot (b.ahead n))
  if !slots.all (fun s => s.tag == 2) then none
  else if dirFault.isNone && full < need && a.runWaits then none
  else
    let wf := if dirFault.isSome then dirFault else w.firstFault g e qa a (Nat.min need full)
    let af := w.firstFault g e qb b nb
    let item := (b.slot b.head).item
    let misuse := slots.any (fun s => s.item != item || s.kind != 0)
    let (gs, broken) := streamRows bf16 k rows ws
    let fault := match wf, af with
      | some p, _ => some (faultOf p)
      | none, some p => some (faultOf p)
      | none, none => if misuse then some (0x06, mxNode e) else if broken then some (0x07, mxNode e) else none
    let d := ((List.range nb).map (fun n => w.ringBytes g qb b (b.ahead n))).flatten
    let vals := if wf.isSome || af.isSome then [] else
      tileOf (fun i j => if i < rows && j < v then groupElem c bf16 k (nth gs i []) d v j else 0)
    let mine := (slots.filter (fun s => s.item == item)).foldl (fun l s => union l s.srcs) []
    let others := (slots.filter (fun s => s.item != item && s.kind == 0)).map (fun s =>
      (({ item := s.item, srcs := s.srcs } : Mark), some (poisonPay 0x06 (mxNode e) w.m.tb s.item, 0xFFFFFFFF)))
    some {
      area := { Area.empty with
        pairs := 1
        vals := vals
        item := item
        srcs := mine
        fault := fault
        tb := w.m.tb
        popped := others }
      slots := nb
      groups := if wf.isSome || af.isSome then [] else gs
      vecs := v
      acts := d }

/-- A grouped item's area in the place of the current one: an error that struck that one while it was open
arose first, and stays (R198, R363; DEDUCED, log 141). -/
def Area.over (t cur : Area) : Area :=
  if cur.fault.isSome then { t with fault := cur.fault, tb := cur.tb } else t

/-- The current area of an item after its first n boundaries. -/
def Item.part (t : Item) (c : MxCfg) (bf16 : Bool) (k n : Nat) : Area :=
  { Area.empty with vals := tileOf (fun i j =>
      if j < t.vecs then groupElem c bf16 k (t.upTo n i j) t.acts t.vecs j else 0) }

/-- MX_GROUP_ITEM (R195): the engine adds the next groups of the item at the head of the B ring, as many as
the event names, or all that are left of it. Between two groups a freeze takes effect, and the engine goes on from
there (R187). With its last group the C tile is full, and the item's activation slots are popped. Slots of
another item among them end there with cause 0x06 (DESIGN CHOICE, log 48). -/
def execMxGroupItem (g : Nat) (o : GroupRun) (s : State) := s.event (fun w =>
  match w.m.engine g o.engine with
  | some (p, r, x) =>
    if r.state ≠ 1 || !x.grouped || x.cur.pairs ≠ 0 then w
    else match w.m.ringOf g x.ctx (x.ringA o.engine), w.m.ringOf g x.ctx (x.ringB o.engine) with
      | some a, some b =>
        if (b.slot b.head).tag ≠ 2 || (b.slot b.head).kind ≠ 0 then w
        else match w.groupItem g o.engine x a b with
          | none => w
          | some t =>
            if o.groups ≠ 0 && x.groups + o.groups < t.total then
              let part := t.part x.cfg (bitAt (x.grpWord 0) 20) (bits (x.grpWord 1) 0 16 + 1) (x.groups + o.groups)
              w.modEngine g o.engine (fun x => { x with cur := part.over x.cur, groups := x.groups + o.groups })
            else
              let v := (w.modEngine g o.engine (fun x => ({ x with cur := t.area.over x.cur, groups := 0 } : Engine).roll)).modRingOf g x.ctx
                (x.ringB o.engine) (fun r => (List.range t.slots).foldl (fun r _ => r.pop) r)
              v.settle p
      | _, _ => w
  | none => w)

/-! ## Non-data slots (R292, R403) -/

/-- MX_NON_DATA_SLOT: non-data slots of one kind at both heads, or in grouped mode at the head of B
alone. An open area first drains as though it were full; then the slots are popped and one of their
kind is pushed. -/
def execMxNonDataSlot (g e : Nat) (s : State) := s.event (fun w =>
  match w.m.engine g e with
  | some (p, r, x) =>
    match w.m.ringOf g x.ctx (x.ringA e), w.m.ringOf g x.ctx (x.ringB e), w.m.ringOf g x.ctx (x.ringC e) with
    | some a, some b, some c =>
      let sa := a.slot a.head
      let sb := b.slot b.head
      let met := if x.grouped then sb.tag = 2 && sb.kind != 0
        else sa.tag = 2 && sb.tag = 2 && sb.kind != 0 && sa.kind == sb.kind
      if r.state ≠ 1 || x.busy || !met then w
      else if x.cur.pairs ≠ 0 then
        if x.cur.pairs < x.cfg.kt then
          w.modEngine g e (fun x => ({ x with cur := { x.cur with pairs := x.cfg.kt } } : Engine).roll)
        else w
      else if x.drainState ≠ 0 || (c.slot c.tail).tag ≠ 0 then w
      else
        let sl : Slot := { Slot.empty with
          item := (if x.grouped then sb.item else sa.item), kind := sb.kind, fill := c.size }
        let v := if x.grouped then w else w.modRingOf g x.ctx (x.ringA e) Ring.pop
        let v := (v.modRingOf g x.ctx (x.ringB e) Ring.pop).modRingOf g x.ctx (x.ringC e) (fun r => r.push sl)
        v.settle p
    | _, _, _ => w
  | none => w)

end Sys2Proof.Machine
end

