-- ==== Sys2Proof/Machine/Ports.lean ====
section
/-!
DEFINITION. Ports and streams (R136 to R141, R151, R152, R366, R409): STRM, STRS, TAKE, DRAIN, RINJ,
ERRD, ERRC, and the events by which ports inject, re-inject, take and drain.
-/

namespace Sys2Proof.Machine

/-! ## Ports of a region -/

def Port.empty : Port :=
  { next := 0, stream := none, numbered := [], failed := [], attempts := [], takes := [], drains := [] }

def Region.port (r : Region) (p : Nat) : Port := agetD r.ports p Port.empty

/-- A port changed, made if it is not yet there. -/
def Work.putPort (w : Work) (p : Where) (k : Nat) (f : Port → Port) : Work :=
  w.modRegion p (fun r => { r with ports := aset r.ports k (f (r.port k)) })

/-- The context a source port feeds: its tile, context, destinations and network (R136). -/
structure PortIn where
  x : Nat
  y : Nat
  c : Nat
  dests : List Nat
  net : Nat

/-- A source port: the lowest-numbered context of its tile that routes tokens from its side. -/
def Mach.source (m : Mach) (r : Region) (p : Nat) : Option PortIn :=
  (r.portAt p).bind (fun (x, y, side) =>
    (List.range 4).findSome? (fun c => (m.ctx? r.cluster x y c).bind (fun k =>
      match k.dests side with
      | d :: ds => some { x := x, y := y, c := c, dests := d :: ds, net := k.netOf d }
      | [] => none)))

/-- A sink port: the tile, context and side of its output hop, and its network. -/
def Mach.sinkAt (m : Mach) (r : Region) (p : Nat) : Option (Nat × Nat × Nat × Nat × Nat) :=
  (r.portAt p).bind (fun (x, y, side) =>
    (List.range 4).findSome? (fun c => (m.ctx? r.cluster x y c).bind (fun k =>
      (k.route side).map (fun s => (x, y, c, side, s.net)))))

/-- Whether a number names a source port on the wide or scalar network, and a sink port (R136). -/
def Mach.isSource (m : Mach) (r : Region) (p : Nat) : Bool :=
  match m.source r p with
  | some s => s.net < 2
  | none => false
def Mach.isSink (m : Mach) (r : Region) (p : Nat) : Bool :=
  match m.sinkAt r p with
  | some (_, _, _, _, net) => net < 2
  | none => false

/-! ## Tensors as packed bytes (R137) -/

/-- The elements that bytes o to o + n - 1 of a packed tensor fall in: VA and length. -/
def Desc.packed (x : Desc) (o n : Nat) : List (Nat × Nat) :=
  let sz := fmtSize x.fmt
  ((List.range (n / sz)).map (fun k => o / sz + k)).filter (· < x.count) |>.map (fun e => (x.elem e, sz))

/-- The bytes of a tensor. -/
def Desc.bytes (x : Desc) : Nat := x.count * fmtSize x.fmt

/-- The cause of the error token of an item that a port cannot read or write (R409), and the cause with which
it parks a thread. Where no way is left, they are the issuer's fates of R374 (DEDUCED, log 142). -/
def portCause : XFault → Nat
  | .trans => 0x02
  | .perm => 0x03
  | .wait | .lost => 0x09
def portPark : XFault → Nat
  | .trans => 0x04
  | .perm => 0x06
  | .wait | .lost => 0x11

/-- Elements translated through a launch's translation for a port on a die: the runs of keys, or the fault
with its VA. A DV page is a fault of permission (R409); the way to each run may wait, or be lost (R374). -/
def Work.elemRuns (die : Nat) (tr : Trans) (need : Need) :
    List (Nat × Nat) → Work → Except (XFault × Nat) (List (Nat × Nat × Kind)) × Work
  | [], w => (.ok [], w)
  | (va, n) :: r, w =>
    match w.spanOf (fiCache die) tr va n need with
    | (.error e, v) => (.error e, v)
    | (.ok rs, v) =>
      if rs.any (fun q => q.2.2 = .dv) then (.error (.perm, va), v)
      else if rs.any (fun q => v.m.way die q.1 = .lost) then (.error (.lost, va), v)
      else if rs.any (fun q => v.m.way die q.1 = .wait) then (.error (.wait, va), v)
      else match Work.elemRuns die tr need r v with
        | (.ok qs, u) => (.ok (rs ++ qs), u)
        | (.error e, u) => (.error e, u)

/-- The node of a token that a port fails (R409). -/
def portNode : Nat := 0xFFFFFF

/-- The token of row k of a stream as its port reads it: a row it cannot read enters as a poison
token (R409); a row whose bytes carry an uncorrectable error enters with cause 0x01 (DEDUCED, log
49). None while the row's bytes wait for a detour (R374). -/
def Work.rowTok (w : Work) (l : Launch) (g port net item row : Nat) (x : Desc) : Option Tok × Work :=
  let wb := netBytes net
  match Work.elemRuns (g / 24) (l.fabricTrans g) .read (x.packed (row * wb) wb) w with
  | (.error (.wait, _), v) => (none, v)
  | (.error (f, _), v) => (some (poisonTok (portCause f) portNode w.m.tb item [port]), v)
  | (.ok rs, u) =>
    let v := u.portsNow true rs
    if rs.any (fun q => v.poisoned q.1 q.2.1) then (some (poisonTok 0x01 portNode w.m.tb item [port]), v)
    else (some { item := item, kind := 0, tag := false, net := net,
                 pay := BitVec.ofNat 512 (ofBytes (v.bytesOf rs)), srcs := [port] }, v)

/-! ## The words -/

/-- The bound region of the acting thread; on a system core the word raises cause 0x06 (R132). -/
def Ctl.bound (i : Instr) (t : Thread) : Ctl (Where × Region × Launch) := do
  if t.sys.isSome then Ctl.trap 0x06 ((wordOfInstr i).setWidth 64)
  let w ← get
  match w.m.launch? t.launch with
  | some l => match l.regions[t.region]? with
    | some r => pure ({ l := t.launch, r := t.region }, r, l)
    | none => Ctl.trap 0x06 ((wordOfInstr i).setWidth 64)
  | none => Ctl.trap 0x06 ((wordOfInstr i).setWidth 64)

/-- Requirements of a block in word order: the first that fails traps with cause 0x0D (R131). -/
def Ctl.needs (va : Word) : List (Nat × Bool) → Ctl Unit
  | [] => pure ()
  | (o, ok) :: r => do
    Ctl.need va o ok
    Ctl.needs va r

/-- An outstanding word of this chapter added, and the thread passes on (R131). -/
def Ctl.outstand (sl : BitVec 3) (d : Reg) (op : PendOp) (va : Word) (pieces : List Piece := []) : Ctl Nat := fun w =>
  match aget w.m.thr w.m.cur with
  | none => .ok (0, w)
  | some t =>
    .ok (t.nextPend, w.modThr w.m.cur (fun t => (t.addPend (fun id =>
      { id := id, set := sl.toNat, dest := if d = 0 then none else some d, holds := false, op := op,
        pieces := pieces, acq := false, rel := false, scope := 9, vmid := 0, asid := 0, va := va })).advance))

/-- The accesses of a thread that a stream's reads come after (R259). -/
def Thread.accesses (t : Thread) (k : Nat) : List (Nat × Nat) :=
  (t.pend.filter (fun p => p.op.orders)).map (fun p => (k, p.id))

/-- The element writes and the list entry of the token that a TAKE writes in place i: VA and length. -/
def takeBytes (x : Desc) (wb list i : Nat) : List (Nat × Nat) :=
  x.packed (i * wb) wb ++ (if list = 0 then [] else [((list + 2 * i) % 2 ^ 64, 2)])

/-- What a TAKE may write, as pieces of one access of its thread (R259): the elements and list entries of its
COUNT tokens, each with the place of its token and the kind that its page has at issue (DESIGN CHOICE, log
143). The port performs them. -/
def Work.takePieces (w : Work) (die : Nat) (tr : Trans) (x : Desc) (wb list count : Nat) : List Piece :=
  (List.range count).flatMap (fun i => (takeBytes x wb list i).map (fun e =>
    { va := w64 e.1, key := 0, len := e.2, done := false, data := i, bad := false,
      kind := match (w.translate (fiCache die) tr e.1 .write).1 with
        | .ok (_, kind) => kind
        | .error _ => .rc }))

/-- Tokens written, and tokens that may still come: the pieces of the written places are performed, those of
places that no token will reach are dropped. -/
def Pend.written (p : Pend) (n left : Nat) : Pend :=
  { p with pieces := (p.pieces.filter (·.data < n + left)).map (fun x => { x with done := x.data < n }) }

/-- A TAKE's write to runs of keys keeps its place among the thread's accesses on SO and DV pages (R251, R255). -/
def Thread.takeMay (t : Thread) (id : Nat) (rs : List (Nat × Nat × Kind)) : Bool :=
  !rs.any (fun r => r.2.2 = .so || r.2.2 = .dv) ||
    (t.pend.takeWhile (fun q => q.id != id)).all (fun q =>
      !q.op.orders || !q.pieces.any (fun y => !y.done && y.strong))

/-- STRM (R138). -/
def execStrm (d a : Reg) (sl ws : BitVec 3) (idem : BitVec 1) (s : State) :=
  s.ctl (.strm d a sl ws idem) [a] [d] sl ws (fun t => do
    let (p, r, _) ← Ctl.bound (.strm d a sl ws idem) t
    let va := t.g a
    let b ← Ctl.block va 32 32
    Ctl.upd (fun u => u.descIn u.myPart (bits (fieldAt b 0 4) 0 12))
    let w ← get
    let w0 := fieldAt b 0 4
    let port := bits w0 16 8
    let retry := bits w0 24 4
    let part := w.m.partOf w.m.cur t
    let desc := w.desc part (bits w0 0 12)
    Ctl.needs va [(0, bits w0 28 4 == 0 && bits w0 12 3 == 0 && w.m.isSource r port && desc.isSome &&
        (if idem = 1 then retry ≤ 7 || retry == 15 else retry == 0) && (r.port port).stream.isNone),
      (4, fieldAt b 4 4 == 0), (8, fieldAt b 8 4 == 0), (0x0C, fieldAt b 0x0C 4 == 0)]
    Ctl.zeros va b 0x10 4
    match desc, w.m.source r port with
    | some x, some src =>
      let wb := netBytes src.net
      let st : Stream := { idem := idem == 1, retry := if retry = 15 then 2 else retry, strs := false,
                           desc := x, rows := (x.bytes + wb - 1) / wb, nextRow := 0,
                           eos := bitAt w0 15, eosDone := false, waiting := [],
                           after := t.accesses w.m.cur, block := b }
      Ctl.upd (fun u => u.putPort p port (fun q => { q with stream := some st }))
      Ctl.result d (w64 (r.port port).next)
      Ctl.done
    | _, _ => Ctl.trap 0x0D va)

/-- A descriptor that no stream reads, for the stream of STRS. -/
def Desc.none_ : Desc :=
  { valid := false, fmt := 0, rank := 0, scaled := false, base := 0, scale := 0, dims := [], strides := [] }

/-- STRS (R139): the next number is set aside for the token at issue, in issue order, and the word completes
when the token enters, which is when R23 and R266 let the port number it. The payload of a token that is not
data is a free value (log 45). A token of kind 1 or 2 on a port with no stream opens one, as a data token does
(DESIGN CHOICE, log 123). -/
def execStrs (d a : Reg) (sl ws : BitVec 3) (s : State) :=
  s.ctl (.strs d a sl ws) [a] [d] sl ws (fun t => do
    let (p, r, _) ← Ctl.bound (.strs d a sl ws) t
    let va := t.g a
    let b ← Ctl.block va 128 128
    let w ← get
    let w0 := fieldAt b 0 4
    let port := bits w0 16 8
    let kind := bits w0 0 2
    let open_ := match (r.port port).stream with
      | some st => !st.strs
      | none => false
    Ctl.need va 0 (bits w0 24 8 == 0 && bits w0 2 14 == 0 && kind != 3 && w.m.isSource r port && !open_)
    Ctl.zeros va b 4 15
    match w.m.source r port with
    | some src =>
      let n := (r.port port).next
      let pay := if kind = 0 then BitVec.ofNat 512 (fieldAt b 0x40 (netBytes src.net))
        else Config.freeWide w.m.free
      let tok : Tok := { item := n, kind := kind, tag := false, net := src.net, pay := pay,
                         srcs := if kind = 0 then [port] else [] }
      let k := w.m.cur
      let id ← Ctl.outstand sl d (.strs port) va
      Ctl.upd (fun u => (u.fresh).2.putPort p port (fun q =>
        let st := q.stream.getD { idem := false, retry := 0, strs := true, desc := Desc.none_, rows := 0,
                                  nextRow := 0, eos := false, eosDone := false, waiting := [], after := [] }
        { q with
          stream := some { st with waiting := st.waiting ++ [(tok, k, id)] }
          next := if kind = 0 then (n + 1) % 65536 else n
          numbered := if kind = 0 then q.numbered ++ [n] else q.numbered }))
    | none => Ctl.trap 0x0D va)

/-- TAKE (R140). -/
def execTake (d a : Reg) (sl ws : BitVec 3) (s : State) :=
  s.ctl (.take d a sl ws) [a] [d] sl ws (fun t => do
    let (p, r, l) ← Ctl.bound (.take d a sl ws) t
    let va := t.g a
    let b ← Ctl.block va 32 32
    Ctl.upd (fun u => u.descIn u.myPart (bits (fieldAt b 0 4) 0 12))
    let w ← get
    let w0 := fieldAt b 0 4
    let port := bits w0 16 8
    let count := fieldAt b 4 4
    let desc := w.desc (w.m.partOf w.m.cur t) (bits w0 0 12)
    let room := match desc, w.m.sinkAt r port with
      | some x, some (_, _, _, _, net) => count * netBytes net ≤ x.bytes
      | _, _ => false
    Ctl.needs va [(0, bits w0 24 8 == 0 && bits w0 12 4 == 0 && w.m.isSink r port && desc.isSome && room),
      (4, count != 0)]
    Ctl.zeros va b 0x10 4
    match desc, w.m.sinkAt r port with
    | some x, some (_, _, _, _, net) =>
      let k := w.m.cur
      let list := fieldAt b 8 8
      let id ← Ctl.outstand sl d (.take port) va
        (w.takePieces (r.cluster / 24) (l.fabricTrans r.cluster) x (netBytes net) list count)
      Ctl.upd (fun u => u.putPort p port (fun q => { q with takes := q.takes ++
        [{ agent := k, pend := id, desc := x, count := count, list := w64 list, written := 0, block := b }] }))
    | _, _ => Ctl.trap 0x0D va)

/-- Nothing has been numbered since the last DRAIN, and no stream has anything to inject: a STRM that is still to
number its first row keeps a DRAIN waiting (DEDUCED, log 162). -/
def Port.idle (q : Port) : Bool :=
  q.numbered.isEmpty && (match q.stream with
    | some st => st.strs && st.waiting.isEmpty
    | none => true)

/-- RINJ (R151). An item that STRS numbered has no row of a tensor to read again and is never re-read
(R139): once it has finally failed nothing is injected and the answer is a free value (log 50). -/
def execRinj (d a : Reg) (sl ws : BitVec 3) (b : Reg) (s : State) :=
  s.ctl (.rinj d a sl ws b) [a, b] [d] sl ws (fun t => do
    let (p, r, _) ← Ctl.bound (.rinj d a sl ws b) t
    let w ← get
    let port := (t.g a).toNat
    let item := (t.g b).toNat
    if 256 ≤ port || 65536 ≤ item || !w.m.isSource r port then
      Ctl.trap 0x0D (Config.freeTrapVal w.m.free)
    let q := r.port port
    match q.stream with
    | none => Ctl.result d 2
    | some st => match q.failed.find? (fun f => f.1 == item) with
      | none => Ctl.result d 1
      | some f =>
        if st.strs then Ctl.result d (Config.freeWord w.m.free)
        else do
          Ctl.upd (fun u => u.putPort p port (fun q => { q with
            failed := q.failed.erase f
            attempts := q.attempts ++ [{ item := item, row := f.2.1, no := f.2.2 + 1, rinj := true,
                                         failed := false, waiting := true }] }))
          Ctl.result d 0
    Ctl.done)

/-- A record as memory holds it (R152). -/
def ErrRec.bytes (e : ErrRec) : List Byte :=
  toBytes 4 (e.cause % 256 * 2 ^ 24 + e.port % 256 * 2 ^ 16 + e.item % 2 ^ 16)
    ++ toBytes 4 (e.node % 2 ^ 24) ++ toBytes 4 e.loopIdx ++ toBytes 4 e.tbLow
    ++ toBytes 4 ((if e.skip then 2 ^ 9 else 0) + (if e.final then 2 ^ 8 else 0) + e.attempt % 256)
    ++ toBytes 4 e.lost ++ zeroBytes 8

/-- ERRD (R152). -/
def execErrd (d a : Reg) (sl ws : BitVec 3) (s : State) :=
  s.ctl (.errd d a sl ws) [a] [d] sl ws (fun t => do
    let (p, r, _) ← Ctl.bound (.errd d a sl ws) t
    let va := t.g a
    if va.toNat % 32 ≠ 0 then Ctl.trap 0x02 va
    match r.errq with
    | [] => Ctl.result d allOnes
    | e :: rest => do
      let rs ← Ctl.span va.toNat 32 .write
      Ctl.clear rs
      Ctl.onWay va.toNat rs
      Ctl.upd (fun u => (u.deviceWrite rs e.bytes).modRegion p (fun r => { r with errq := rest }))
      Ctl.result d (w64 rest.length)
    Ctl.done)

/-- ERRC (R152). -/
def execErrc (a : Reg) (sl ws : BitVec 3) (s : State) :=
  s.ctl (.errc a sl ws) [a] [] sl ws (fun t => do
    let (p, _, _) ← Ctl.bound (.errc a sl ws) t
    let w ← get
    if 256 ≤ (t.g a).toNat then Ctl.trap 0x0D (Config.freeTrapVal w.m.free)
    Ctl.upd (fun u => u.modRegion p (fun r =>
      { r with errq := r.errq.filter (fun e => e.port != (t.g a).toNat) }))
    Ctl.done)

/-! ## Injection (R138, R366) -/

/-- The first attempt of an item. -/
def Attempt.first (item : Nat) (row : Option Nat) : Attempt :=
  { item := item, row := row, no := 0, rinj := false, failed := false, waiting := false }

/-- An accepted load of a region is still to be decided: what a port injects now would follow it
(R134). -/
def Mach.loadPending (m : Mach) (p : Where) : Bool :=
  m.loads.any (fun e => e.2.launch == p.l && e.2.region == p.r && e.2.accepted && e.2.fault.isNone)

/-- A running region's source port that has space. -/
def Work.inlet (w : Work) (l r p : Nat) : Option (Launch × Region × PortIn) :=
  match w.m.launch? l, w.m.region? l r with
  | some x, some q =>
    match w.m.source q p with
    | some src =>
      match w.m.ctx? q.cluster src.x src.y src.c with
      | some k =>
        if q.state = 1 && !x.paused && !x.floor && !w.m.loadPending { l := l, r := r } && src.dests.all k.space
        then some (x, q, src) else none
      | none => none
    | none => none
  | _, _ => none

/-- A token put into the buffers a source port feeds. -/
def Work.inject (w : Work) (p : Where) (r : Region) (src : PortIn) (t : Tok) : Work :=
  ((w.enterAll r.cluster src.x src.y src.c src.dests t).active p).settle p

/-- Earlier accesses that a stream's reads come after have been performed (R259). -/
def Mach.performed (m : Mach) (l : List (Nat × Nat)) : Bool :=
  l.all (fun q => match aget m.thr q.1 with
    | some t => !t.pend.any (fun p => p.id == q.2)
    | none => true)

/-- A number may not be taken yet: an earlier item of it is unresolved (R23), or something of the item
half the numbers away remains in the region (R266). -/
def Port.busy (q : Port) (n : Nat) : Bool :=
  q.attempts.any (fun a => a.item == n || (a.item == (n + 32768) % 65536 && !a.waiting))

/-- SOURCE_PORT_INJECT (R138, R139): the port's next token, where its number is free (R23, R266). The payload
of an end of stream is a free value, as that of every token that is not data (log 45). -/
def execSourcePortInject (l r p : Nat) (s : State) := s.event (fun w =>
  match w.inlet l r p with
  | none => w
  | some (x, q, src) =>
    let pt := q.port p
    let at_ : Where := { l := l, r := r }
    match pt.stream with
    | none => w
    | some st =>
      if st.strs then
        match st.waiting with
        | [] => w
        | (t, k, id) :: rest =>
          if t.kind = 0 && pt.busy t.item then w
          else
            let put := fun (q : Port) => { q with
              stream := some { st with waiting := rest }
              attempts := if t.kind = 0 then q.attempts ++ [Attempt.first t.item none] else q.attempts }
            let v := (w.putPort at_ p put).endPend k id (some (w64 (if t.kind = 0 then t.item else 0)))
            v.inject at_ q src t
      else if pt.attempts.any (·.waiting) || !w.m.performed st.after then w
      else if st.nextRow < st.rows then
        if pt.busy pt.next then w
        else
          let n := pt.next
          let put := fun (q : Port) => { q with
            stream := some { st with nextRow := st.nextRow + 1 }
            next := (n + 1) % 65536
            numbered := q.numbered ++ [n]
            attempts := q.attempts ++ [Attempt.first n (some st.nextRow)] }
          match w.rowTok x q.cluster p src.net n st.nextRow st.desc with
          | (none, v) => v
          | (some t, v) => (v.putPort at_ p put).inject at_ q src t
      else if st.eos && !st.eosDone && (!st.idem || pt.attempts.isEmpty) then
        let t : Tok := { item := pt.next, kind := 1, tag := false, net := src.net, pay := Config.freeWide w.m.free,
                         srcs := [] }
        ((w.fresh).2.putPort at_ p (fun q => { q with stream := some { st with eosDone := true } })).inject at_ q src t
      else w)

/-- ITEM_REINJECT (R366, R151): a further attempt of item n is read again and injected, once no other item
of its number is left in the region (R23, R266). -/
def execItemReinject (l r p n : Nat) (s : State) := s.event (fun w =>
  match w.inlet l r p with
  | none => w
  | some (x, q, src) =>
    let pt := q.port p
    match pt.stream, pt.attempts.find? (fun a => a.item == n && a.waiting) with
    | some st, some a =>
      if (pt.attempt n).isSome then w else
      match a.row with
      | none => w
      | some row =>
        match w.rowTok x q.cluster p src.net n row st.desc with
        | (none, v) => v
        | (some t, v) => (v.putPort { l := l, r := r } p (fun q => { q with
            attempts := q.attempts.erase a ++ [{ a with waiting := false }] })).inject { l := l, r := r } q src t
    | _, _ => w)

/-! ## Taking (R140, R409) -/

/-- The first TAKE of a port ends: its word completes with what was written and why (R140). -/
def Work.endTake (w : Work) (p : Where) (port : Nat) (k : TakeSt) (written why : Nat) : Work :=
  (w.putPort p port (fun q => { q with takes := q.takes.drop 1 })).endPend k.agent k.pend
    (some (w64 (written % 2 ^ 32 + why * 2 ^ 32)))

/-- A TAKE has taken one more data token, with n tokens written in all: it completes with its last, a
tagged one counted among them. -/
def Work.countTake (w : Work) (p : Where) (port : Nat) (k : TakeSt) (n : Nat) : Work :=
  if k.count ≤ 1 then w.endTake p port k n 0
  else (w.modThr k.agent (fun t => t.modPend k.pend (fun q => q.written n (k.count - 1)))).putPort p port (fun q =>
    { q with takes := modNth q.takes 0 (fun k => { k with written := n, count := k.count - 1 }) })

/-- A token's bytes and its item number written in the next place of a TAKE, the head token having been taken:
the item fails with the fault that its bytes meet, and the thread is parked with the fault that a write of the
TAKE meets (R140, R409). The token stands at its head while a write waits for a detour, or for the thread's earlier
accesses. -/
def Work.takeWrite (w took : Work) (at_ : Where) (p : Nat) (x : Launch) (g wb : Nat) (k : TakeSt) (t : Tok) : Work :=
  let die := g / 24
  let tr := x.fabricTrans g
  let may := fun (u : Work) (rs : List (Nat × Nat × Kind)) => match aget u.m.thr k.agent with
    | some y => y.takeMay k.pend rs
    | none => true
  match Work.elemRuns die tr .write (k.desc.packed (k.written * wb) wb) took with
  | (.error (.wait, _), v) => w.keeping v
  | (.error (f, va), v) =>
    let bad := poisonTok (portCause f) portNode took.m.tb t.item t.srcs
    (((v.sinkArrival at_ bad).endTake at_ p k k.written 0).askPark k.agent (portPark f) (w64 va)).settle at_
  | (.ok rs, v) =>
    if !may v rs then w.keeping v
    else
      let u := v.deviceWrite rs (toBytes wb t.pay.toNat)
      let n := k.written + 1
      if k.list = 0 then (u.countTake at_ p k n).settle at_
      else match Work.elemRuns die tr .write [((k.list.toNat + 2 * k.written) % 2 ^ 64, 2)] u with
        | (.error (.wait, _), u2) => w.keeping u2
        | (.ok ls, u2) =>
          if may u2 ls then ((u2.deviceWrite ls (toBytes 2 t.item)).countTake at_ p k n).settle at_ else w.keeping u2
        | (.error (f, va), u2) => ((u2.endTake at_ p k n 0).askPark k.agent (portPark f) (w64 va)).settle at_

/-- TAKE_TOKEN (R140): the first TAKE of a sink port takes the head token. -/
def execTakeToken (l r p : Nat) (s : State) := s.event (fun w =>
  match w.m.launch? l, w.m.region? l r with
  | some x, some q =>
    let at_ : Where := { l := l, r := r }
    match w.m.sinkAt q p, (q.port p).takes with
    | some (tx, ty, c, side, net), k :: _ =>
      match (w.m.ctx? q.cluster tx ty c).bind (fun u => (u.hop side).q.head?) with
      | none => w
      | some t =>
        if q.state ≠ 1 then w
        else
          let took := (w.modCtx q.cluster tx ty c (fun u => u.pop side w.m.tb)).active at_
          if t.kind ≠ 0 then (took.endTake at_ p k k.written (if t.kind = 1 then 1 else 2)).settle at_
          else if t.tag then ((took.sinkArrival at_ t).countTake at_ p k k.written).settle at_
          else w.takeWrite took at_ p x q.cluster (netBytes net) k t
    | _, _ => w
  | _, _ => w)

/-! ## Draining (R141, R143) -/

/-- The list of a DRAIN written, up to a fault with its VA. -/
def Work.drainList (die : Nat) (tr : Trans) : Nat → List Nat → Work → Option (XFault × Nat) × Work
  | _, [], w => (none, w)
  | va, n :: r, w =>
    match Work.elemRuns die tr .write [(va % 2 ^ 64, 2)] w with
    | (.ok ls, v) => Work.drainList die tr (va + 2) r (v.deviceWrite ls (toBytes 2 n))
    | (.error e, v) => (some e, v)

/-- Everything that the first DRAIN of a port waits to see injected is injected, of an STRS stream the tokens
issued before that DRAIN, and every item numbered is completed or finally failed (R141). -/
def Port.drained (q : Port) : Bool :=
  q.attempts.isEmpty && (match q.stream with
    | some st =>
      if st.strs then st.waiting.all (fun t => !((q.drains.head?.map (·.ahead)).getD []).contains t.2)
      else st.rows ≤ st.nextRow && (!st.eos || st.eosDone)
    | none => true)

/-- The STRS tokens of a port not yet in the link. -/
def Port.unsent (q : Port) : List (Tok × Nat × Nat) := (q.stream.map (·.waiting)).getD []

/-- The finally failed items in the order they were numbered. Two items of one number, after the numbers
wrapped, stand once in the list and count twice in g[d] (DESIGN CHOICE, log 124). -/
def Port.failedInOrder (q : Port) : List Nat :=
  q.numbered.eraseDups.filter (fun n => q.failed.any (fun f => f.1 == n))

/-- The stream of a port closed and its accounting begun anew: an STRS token issued after the DRAIN and not
yet in the link begins the next stream (R141). -/
def Port.close (q : Port) : Port :=
  { q with
    stream := if q.unsent.isEmpty then none else q.stream
    numbered := (q.unsent.filter (fun t => t.1.kind == 0)).map (·.1.item)
    failed := [] }

/-- The first DRAIN of a drained port completes, once its list does not wait for a detour (R374); the fabric
manager's own queues the failed items to the partition OS (R143). -/
def Work.drainPort (w : Work) (x : Launch) (l r p : Nat) (q : Region) (k : DrainSt) : Work :=
  let at_ : Where := { l := l, r := r }
  let fs := (q.port p).failedInOrder
  let v := w.putPort at_ p (fun q => { q.close with drains := q.drains.drop 1 })
  match k.agent with
  | none => v.setPart x.part (fun y => { y with failedItems := y.failedItems ++ fs.map (fun n => (l, r, p, n)) })
  | some a =>
    let (fault, u) := if k.list = 0 then (none, v)
      else Work.drainList (q.cluster / 24) (x.fabricTrans q.cluster) k.list.toNat (fs.take k.cap) v
    let z := u.endPend a k.pend (some (w64 (q.port p).failed.length))
    match fault with
    | some (.wait, _) => w.keeping u
    | some (f, va) => z.askPark a (portPark f) (w64 va)
    | none => z

/-- DRAIN (R141): one that has nothing to wait for is complete at once. -/
def execDrain (d a : Reg) (sl ws : BitVec 3) (s : State) :=
  s.ctl (.drain d a sl ws) [a] [d] sl ws (fun t => do
    let (p, r, l) ← Ctl.bound (.drain d a sl ws) t
    let va := t.g a
    let b ← Ctl.block va 32 32
    let w ← get
    let w0 := fieldAt b 0 4
    let port := bits w0 16 8
    Ctl.need va 0 (bits w0 24 8 == 0 && bits w0 0 16 == 0 && w.m.isSource r port)
    Ctl.zeros va b 0x10 4
    if (r.port port).idle then do
      Ctl.upd (fun u => u.putPort p port (fun q => { q with stream := none }))
      Ctl.result d 0
      Ctl.done
    else do
      let k := w.m.cur
      let id ← Ctl.outstand sl d (.drain port) va
      let x : DrainSt := { agent := some k, pend := id, cap := fieldAt b 4 4, list := w64 (fieldAt b 8 8),
                            ahead := (r.port port).unsent.map (·.2), block := b }
      let now := (r.port port).drains.isEmpty && { r.port port with drains := [x] }.drained
      Ctl.upd (fun u =>
        let v := u.putPort p port (fun q => { q with drains := q.drains ++ [x] })
        if now then v.drainPort l p.l p.r port r x else v))

end Sys2Proof.Machine
end

