-- ==== Sys2Proof/Machine/Images.lean ====
section
/-!
DEFINITION. Configuration images (R50 to R62, R79, R182, R183, R203, R204, R226 to R236, R278 to R291,
R369, R371, R407): how an image's words lie, every check a load makes of them, and the contexts
and engines they give.
-/

namespace Sys2Proof.Machine

/-! ## CRC-32C (R60) -/

/-- One bit of the reflected Castagnoli division. -/
def crcBit (c : Nat) : Nat := if c % 2 = 1 then c / 2 ^^^ 0x82F63B78 else c / 2

def crcByte (c : Nat) (b : Byte) : Nat :=
  (List.range 8).foldl (fun c _ => crcBit c) (c ^^^ b.toNat)

/-- The CRC-32C of bytes in address order. -/
def crc32c (d : List Byte) : Nat := (d.foldl crcByte 0xFFFFFFFF) ^^^ 0xFFFFFFFF

/-! ## A tile's words -/

/-- The words of one tile of an image, each with its index: position, header, stage or bank
words, order word, ring descriptors, switch words, node-map entries, and the pad halves. -/
structure TileCfg where
  x : Nat
  y : Nat
  bank : Bool
  idx : Nat
  hdr : Nat
  sts : List (Nat × Nat)
  order : List (Nat × Nat)
  rings : List (Nat × Nat × Nat)
  sw : List (Nat × Nat)
  nm : List (Nat × Nat)
  pads : List (Nat × Nat)
  deriving DecidableEq, Repr

/-- Words at an index. -/
def wordAt (ws : List Nat) (k : Nat) : Nat := nth ws k 0

/-- n stage words from an index: a memory operation's order word goes with it (R52). -/
def takeStages (ws : List Nat) : Nat → Nat → List (Nat × Nat) × List (Nat × Nat) × Nat
  | 0, k => ([], [], k)
  | n + 1, k =>
    let w := wordAt ws k
    if 0x90 ≤ bits w 24 8 && bits w 24 8 ≤ 0x93 then
      let (s, o, e) := takeStages ws n (k + 2)
      ((k, w) :: s, (k + 1, wordAt ws (k + 1)) :: o, e)
    else
      let (s, o, e) := takeStages ws n (k + 1)
      ((k, w) :: s, o, e)

/-- n switch words from an index, two to a word (R55). -/
def takeSwitch (ws : List Nat) (n k : Nat) : List (Nat × Nat) × List (Nat × Nat) × Nat :=
  ((List.range n).map (fun j => (k + j / 2, bits (wordAt ws (k + j / 2)) (16 * (j % 2)) 16)),
   if n % 2 = 1 then [(k + n / 2, bits (wordAt ws (k + n / 2)) 16 16)] else [],
   k + (n + 1) / 2)

def takeWords (ws : List Nat) (n k : Nat) : List (Nat × Nat) × Nat :=
  ((List.range n).map (fun j => (k + j, wordAt ws (k + j))), k + n)

/-- What stands at one tile's place: its words and the index after them, or a header that does not give
their number (R56, R57). -/
inductive ParsedTile where
  | tile (t : TileCfg) (next : Nat)
  | bad (at_ cause : Nat)
  deriving DecidableEq, Repr

/-- The words of the tile at a position that start at index k. An image that ends before CEND, which would
stand at index `lim`, has no word there (R61, cause 0x03). -/
def parseTile (ws : List Nat) (lim x y : Nat) (bank : Bool) (k : Nat) : ParsedTile :=
  if lim ≤ k then .bad lim 0x03
  else
    let h := wordAt ws k
    if bank then
      if 4 < bits h 29 3 then .bad k 0x05
      else
        let (s, k1) := takeWords ws (bits h 26 3) (k + 1)
        let rs := (List.range (bits h 29 3)).map (fun j => (k1 + 2 * j, wordAt ws (k1 + 2 * j), wordAt ws (k1 + 2 * j + 1)))
        let (sw, pads, k2) := takeSwitch ws (bits h 21 5) (k1 + 2 * bits h 29 3)
        let (nm, k3) := takeWords ws (bits h 17 4) k2
        .tile { x := x, y := y, bank := true, idx := k, hdr := h, sts := s, order := [], rings := rs, sw := sw,
                nm := nm, pads := pads } k3
    else if bits h 9 3 = 0 || bits h 9 3 = 7 then .bad k 0x05
    else
      let (s, o, k1) := takeStages ws (bits h 9 3) (k + 1)
      let (sw, pads, k2) := takeSwitch ws (bits h 4 5) k1
      let (nm, k3) := takeWords ws (bits h 0 4) k2
      .tile { x := x, y := y, bank := false, idx := k, hdr := h, sts := s, order := o, rings := [], sw := sw,
              nm := nm, pads := pads } k3

/-- The tiles of an image from index k, row-major: those whose words stand, and the index after the last,
or the fault at which the words of no further tile can be told. -/
def parseTiles (ws : List Nat) (lim parity : Nat) : List (Nat × Nat) → Nat → List TileCfg × Except (Nat × Nat) Nat
  | [], k => ([], .ok k)
  | (i, j) :: r, k =>
    match parseTile ws lim i j ((i + j + parity) % 2 == 1) k with
    | .bad at_ cause => ([], .error (at_, cause))
    | .tile t k1 =>
      if lim < k1 then ([t], .error (lim, 0x03))
      else
        let (ts, out) := parseTiles ws lim parity r k1
        (t :: ts, out)

/-! ## Legal places (R79) -/

/-- An opcode is legal in stage j of a role (0 AG, 1 CP, 2 RD). -/
def placeOk (role j op : Nat) : Bool :=
  if op = 0x04 || op = 0x1D || (0x12 ≤ op && op ≤ 0x15) then j == 2 || j == 5
  else if op ≤ 0x1F then true
  else if 0x40 ≤ op && op ≤ 0x45 then role == 2 && j == 6
  else if 0x50 ≤ op && op ≤ 0x55 then true
  else if 0x58 ≤ op && op ≤ 0x5B then role == 0 && j ≤ 5
  else if 0x5C ≤ op && op ≤ 0x5E then role == 2 && j == 6
  else if 0x70 ≤ op && op ≤ 0x7D then j == 1
  else if 0x90 ≤ op && op ≤ 0x93 then role == 0 && j == 6
  else if 0xB0 ≤ op && op ≤ 0xB3 then j == 1
  else op == 0xB8

/-! ## Fields by operation (R204, R236, R278 to R285, R310, R369, R371) -/

/-- aux where it only selects kN for a source 13. -/
def auxK (s : StageW) : Bool := if s.a = 13 || s.b = 13 then s.aux < 4 else s.aux == 0

/-- aux of VFMA, VSEL and VDOT4: the addend or condition in [4:2]. -/
def auxThird (s : StageW) : Bool :=
  (bitAt s.aux 4 || bits s.aux 2 2 == 0) && (s.a == 13 || s.b == 13 || s.aux % 4 == 0)

/-- A word that gives aux its own meaning names no constant. -/
def noK (s : StageW) : Bool := s.a != 13 && s.b != 13

/-- Rounding only for the floating types and D8. -/
def rndF (s : StageW) : Bool := s.rnd == 0 || tyFloat s.ty

/-- A vector or reducer word's fields (R204). -/
def vectorOk (s : StageW) (scalarA : Bool) : Bool :=
  let b0 := s.b == 0
  let r0 := s.rnd == 0
  let s0 := !s.sat
  match s.op with
  | 0x00 => s.a == 0 && b0 && s.dst == 0 && s.ty == 0 && r0 && s0 && s.aux == 0
  | 0x01 | 0x02 | 0x03 => rndF s && auxK s
  | 0x04 => (s.ty == 3 || s.ty == 4 || s.ty == 5) && auxThird s
  | 0x05 | 0x06 => r0 && s0 && auxK s
  | 0x07 | 0x08 => b0 && r0 && auxK s
  | 0x09 | 0x0A | 0x0B => (s.ty == 0 || s.ty == 7) && r0 && s0 && auxK s
  | 0x0C | 0x0D => (s.ty ≤ 2 || s.ty == 7) && r0 && s0 && auxK s
  | 0x0E => s.ty ≤ 2 && r0 && s0 && auxK s
  | 0x0F => r0 && s0 && noK s && s.aux < 7 && (s.aux != 6 || tyFloat s.ty)
  | 0x10 => r0 && s0 && auxThird s
  | 0x11 =>
    let d := s.aux % 8
    let part := s.aux / 8
    let cs := tyCount s.ty
    let cd := tyCount d
    noK s && d != s.ty && (r0 || tyFloat s.ty || tyFloat d) &&
      (if cd < cs then part < cs / cd && b0 else if cs < cd then part < cd / cs else part == 0 && b0)
  | 0x12 | 0x13 | 0x14 | 0x15 => s.ty == 3 && b0 && r0 && auxK s
  | 0x16 | 0x17 => (s.ty ≤ 2 || s.ty == 7) && b0 && r0 && s0 && auxK s
  | 0x18 => s.ty == 0 && b0 && r0 && s0 && auxK s
  | 0x19 => s.ty == 0 && r0 && s0 && auxK s
  | 0x1A => s.ty == 0 && b0 && r0 && s0 && noK s && (if scalarA then s.aux < 2 else s.aux < 16)
  | 0x1B => (s.ty == 1 || s.ty == 2) && r0 && auxK s
  | 0x1C => (s.ty == 1 || s.ty == 2) && b0 && r0 && s0 && noK s && s.aux < 4
  | 0x1D => (s.ty == 2 || s.ty == 4 || s.ty == 6) && (r0 || s.ty != 2) && (s0 || s.ty == 2) && auxThird s
  | 0x1E => s.ty == 0 && b0 && r0 && s0 && noK s && s.aux < 2
  | 0x1F => s.ty == 0 && b0 && r0 && s0 && noK s && s.aux < 4
  | 0x40 => b0 && rndF s && (s0 || !tyFloat s.ty) && auxK s
  | 0x41 | 0x42 => b0 && r0 && s0 && auxK s
  | 0x43 | 0x44 => r0 && s0 && auxK s && (s.b == 15 || s.ty == 0 || s.ty == 3 || s.ty == 7)
  | 0x45 => b0 && rndF s && (s0 || !tyFloat s.ty) && noK s && s.aux < 3
  | _ => false

/-- A sparse, fibre or group word's fields (R236). -/
def sparseOk (s : StageW) : Bool :=
  let plain := s.ty == 7 && s.rnd == 0 && !s.sat
  noK s && (match s.op with
    | 0x50 | 0x51 => plain && s.aux < 2
    | 0x52 => plain
    | 0x53 | 0x55 => plain && s.aux == 0
    | 0x54 => plain && s.aux < 2
    | 0x58 => plain && s.aux < 4
    | 0x59 => plain && s.b == 0 && s.aux < 4
    | 0x5A | 0x5B => plain && s.a == 0 && s.b == 0 && s.aux < 4
    | 0x5C => s.dst == 0 && s.b == 0 && (s.ty == 3 || s.ty == 4 || s.ty == 6) && s.aux < 2
    | 0x5D => s.dst == 0 && s.b == 0 && s.ty == 3 && s.aux == 0
    | 0x5E => s.dst == 0 && 5 ≤ s.b && s.b ≤ 12 && (s.ty == 3 || s.ty == 4) && s.aux == 0
    | _ => false)

/-- The fire mask of a header has an input (0 A to 3 D). -/
def fireHas (h i : Nat) : Bool := bitAt h (16 + i)
def earlyHas (h i : Nat) : Bool := bitAt h (12 + i)

/-- A dataflow operator's fields (R278 to R284, R307, R310, R313, R314, R369): sources 1 to 4 where
it names them, every input it names in the FIRE mask. `net` gives the network of an input. -/
def dataflowOk (s : StageW) (h : Nat) (net : Nat → Nat) : Bool :=
  let named := fun (v : Nat) => 1 ≤ v && v ≤ 4 && fireHas h (v - 1)
  let one := named s.a && s.b == 0
  let two := named s.a && named s.b
  let none_ := s.a == 0 && s.b == 0
  s.dst == 0 && s.ty == 0 && s.rnd == 0 && !s.sat && (!s.early || s.op == 0x70 || s.op == 0x71) &&
  (match s.op with
   | 0x70 | 0x72 | 0x7B | 0x7D => one && s.aux == 0
   | 0x71 => two && (match s.aux % 4 with
     | 0 => let q := bits s.aux 2 2
            s.aux < 16 && fireHas h q && q + 1 != s.a && q + 1 != s.b
     | 1 | 2 => s.aux < 4
     | _ => false)
   | 0x73 | 0x74 | 0x75 | 0x76 | 0x79 | 0x7A => two && s.aux == 0
   | 0x77 => none_ && s.aux == 0
   | 0x78 => two && fireHas h (s.aux % 4)
   | 0x7C => none_ && s.aux < 16 && bits h 12 4 == 0 && ((List.range 4).filter (fireHas h)).length == 3
   | 0xB0 => one && s.aux == 0 && net (s.a - 1) == 1
   | 0xB1 => none_ && s.aux == 0 && bits h 16 4 == 0
   | 0xB2 => two && s.aux == 0
   | 0xB3 => one && s.aux < 16
   | _ => false)

/-- A memory operation's fields (R285). -/
def memOk (s : StageW) : Bool :=
  s.dst == 0 && s.ty == 0 && s.rnd == 0 && !s.sat && noK s &&
  (match s.op with
   | 0x90 => s.b == 0 && s.aux < 3
   | 0x91 => s.aux < 3
   | 0x92 => s.aux / 2 ≤ 8
   | _ => s.b == 0)

/-- Sources name inputs of the FIRE mask, none an early one, and those of vector words none on the
scalar network (VBCAST apart) or the bit network (R203). -/
def sourcesOk (s : StageW) (h : Nat) (net : Nat → Nat) : Bool :=
  let usesA := s.op != 0x00 && s.op != 0x5A && s.op != 0x5B
  let ok := fun (v : Nat) =>
    if 1 ≤ v && v ≤ 4 then
      fireHas h (v - 1) && !earlyHas h (v - 1) &&
        (0x45 < s.op || (net (v - 1) == 0 || (s.op == 0x1A && net (v - 1) == 1)))
    else true
  (!usesA || ok s.a) && ok s.b

/-- A stage word may stand in stage j of a tile (R51, R79, R182, R203, R204, R225, R236, R244). -/
def stageOk (h nbv j w : Nat) (net : Nat → Nat) : Bool :=
  let s := stageW w
  let dataflow := (0x70 ≤ s.op && s.op ≤ 0x7D) || (0xB0 ≤ s.op && s.op ≤ 0xB3)
  placeOk (bits h 30 2) j s.op && s.dst ≤ 8 && (!s.early || (j == 1 && (s.op == 0x70 || s.op == 0x71))) &&
  (nbv == 0 || (s.ty != 6 && !(s.op == 0x11 && s.aux % 8 == 6))) &&
  (if dataflow then dataflowOk s h net
   else sourcesOk s h net &&
    (if s.op ≤ 0x45 then vectorOk s (1 ≤ s.a && s.a ≤ 4 && net (s.a - 1) == 1)
     else if s.op ≤ 0x5E then sparseOk s
     else if s.op ≤ 0x93 then memOk s
     else s.b == 0 && s.dst == 0 && s.ty == 0 && s.rnd == 0 && !s.sat && s.aux == 0))

/-- An order word (R287). -/
def orderOk (o : Nat) : Bool := bits o 24 8 != 0xFF && bits o 5 3 == 0

/-! ## Switch words (R54, R55, R280, R291, R407) -/

/-- The network of destination d by a tile's switch words; 0 where none names it, or where its code is
one that R54 rejects at the switch word. -/
def TileCfg.net (t : TileCfg) (d : Nat) : Nat :=
  match (t.sw.map (fun s => swW s.2)).find? (fun s => !s.null && s.dst == d) with
  | some s => s.net % 3
  | none => 0

/-- A tied destination. -/
def TileCfg.tied (t : TileCfg) (d : Nat) : Bool :=
  (t.sw.map (fun s => swW s.2)).any (fun s => !s.null && s.dst == d && s.src == 7)

/-- The opcode of stage or slot word j, 1 first. -/
def TileCfg.op (t : TileCfg) (j : Nat) : Nat := bits ((nth t.sts (j - 1) (0, 0)).2) 24 8

/-- The fields of one switch word are those R54 gives for its tile. -/
def swOk (t : TileCfg) (w : Nat) : Bool :=
  let s := swW w
  s.net != 3 && s.depth ≤ 3 && w % 4 == 0 &&
  (s.null || !((t.bank && s.src == 5) || (!t.bank && s.src == 6 && bits t.hdr 30 2 != 0)))

/-- Faults of the switch words of a tile, each at its word (R54, R55). A null word is checked as any other, and with
rep 0 it is an earlier word of its source, whose fields a later rep word extends (DESIGN CHOICE, log 158). -/
def TileCfg.switchFaults (t : TileCfg) : List (Nat × Nat) :=
  let sw := t.sw.map (fun s => (s.1, s.2, swW s.2))
  let live := sw.filter (fun s => !s.2.2.null)
  let at_ := fun (f : SwW → Bool) => ((live.filter (fun s => f s.2.2)).map (fun s => (s.1, (0x07 : Nat))) : List (Nat × Nat))
  let pos := List.range sw.length
  let nthS := fun (k : Nat) => nth sw k (0, 0, swW 0)
  let dup := pos.filter (fun k => !(nthS k).2.2.null && (List.range k).any (fun m =>
    !(nthS m).2.2.null && (nthS m).2.2.dst == (nthS k).2.2.dst))
  let rep := pos.filter (fun k => (nthS k).2.2.rep && !(List.range k).any (fun m =>
    !(nthS m).2.2.rep && (nthS m).2.2.src == (nthS k).2.2.src))
  let fire := (List.range 4).filter (fun i => fireHas t.hdr i)
  let onlyTied := !t.bank && !fire.isEmpty && fire.all (fun i => t.tied (4 + i))
  let outs := live.filter (fun s => s.2.2.src == 4 || s.2.2.src == 5)
  let fork := !t.bank && t.op 1 != 0x72 && 2 ≤ outs.length && outs.any (fun s => s.2.2.kill)
  let ops := t.sts.map (fun s => stageW s.2)
  let has := fun (o : Nat) => ops.any (fun s => s.op == o)
  let heads := live.filter (fun s => s.2.2.src == 6)
  let nets2 := heads.any (fun s => heads.any (fun u => u.2.2.net != s.2.2.net))
  let eats := fun (d : Nat) => ops.any (fun s =>
    ((s.op == 0xA2 || s.op == 0xA4) && s.a + 3 == d) || (s.op == 0xA1 && (s.a + 3 == d || s.b + 3 == d)))
  let starved := ops.any (fun s => 0xA0 ≤ s.op && s.op ≤ 0xA4 && s.op != 0xA3 && t.tied (s.a + 3) &&
    (s.op != 0xA1 || t.tied (s.b + 3)))
  (sw.filter (fun s => !swOk t s.2.1)).map (fun s => (s.1, 0x07))
    ++ (t.pads.filter (fun p => p.2 != 0)).map (fun p => (p.1, 0x07))
    ++ dup.map (fun k => ((nthS k).1, 0x07)) ++ rep.map (fun k => ((nthS k).1, 0x07))
    ++ (if onlyTied || (t.bank && starved) then at_ (fun s => s.src == 7 && 4 ≤ s.dst) else [])
    ++ (if t.bank then [] else at_ (fun s => s.src == 7 && 4 ≤ s.dst && earlyHas t.hdr (s.dst - 4)))
    ++ (if fork then (outs.take 1).map (fun s => (s.1, 0x07)) else [])
    ++ (if t.bank then
        at_ (fun s => (s.src == 6 && !has 0xA3) || (s.src == 4 && !has 0xA0))
        ++ (if nets2 then heads.map (fun s => (s.1, 0x07)) else [])
        ++ at_ (fun s => (s.src == 6 || s.src == 4) && s.net == 2)
        ++ at_ (fun s => s.net == 2 && 4 ≤ s.dst && eats s.dst)
      else [])

/-! ## Headers, stages and node maps -/

/-- The EARLY mask of a header is what S1 allows (R56, R282). -/
def earlyOk (h s1 : Nat) : Bool :=
  let s := stageW s1
  let early := bits h 12 4
  let bit := fun (v : Nat) => (if 1 ≤ v && v ≤ 4 then 2 ^ (v - 1) else 0 : Nat)
  (List.range 4).all (fun i => !earlyHas h i || fireHas h i) &&
  (if s.early && s.op == 0x70 then early != 0 && !bitAt early (s.a - 1)
   else if s.early && s.op == 0x71 then
     early == (if s.aux % 4 = 0 then bit s.b ||| 2 ^ bits s.aux 2 2 else bit s.a ||| bit s.b)
   else early == 0)

/-- Faults of node-map entries (R58). -/
def TileCfg.nodeFaults (t : TileCfg) : List (Nat × Nat) :=
  let ok := fun (k : Nat) =>
    let e := (nth t.nm k (0, 0)).2
    let st := bits e 4 4
    1 ≤ st && st ≤ t.sts.length && (bits e 0 4 < 8 || bits e 0 4 == 15) &&
      !(List.range k).any (fun m => bits (nth t.nm m (0, 0)).2 4 4 == st)
  ((List.range t.nm.length).filter (fun k => !ok k)).map (fun k => ((nth t.nm k (0, 0)).1, 0x0B))

/-- A ring descriptor as a ring (R288, R289). -/
def ringOf (w0 w1 : Nat) : Ring :=
  { base := bits w0 19 13 * 64, slots := bits w0 13 6 + 1, size := (bits w0 3 10 + 1) * 64, bmap := bitAt w1 31,
    mfmt := bits w1 28 3, head := 0, tail := 0, popped := 0, wpos := 0, cells := [] }

/-- Bytes of a ring. -/
def Ring.len (r : Ring) : Nat := r.slots * r.size

/-- Faults of ring descriptors (R288), each at the word that breaks a rule. -/
def TileCfg.ringFaults (t : TileCfg) (share : Nat) : List (Nat × Nat) :=
  (List.range t.rings.length).flatMap (fun k =>
    let (i, w0, w1) := nth t.rings k (0, 0, 0)
    let r := ringOf w0 w1
    let lap := (List.range k).any (fun m =>
      let q := ringOf (nth t.rings m (0, 0, 0)).2.1 (nth t.rings m (0, 0, 0)).2.2
      q.base < r.base + r.len && r.base < q.base + q.len)
    (if bits w0 13 6 = 0 || bits w0 0 3 != 0 || share < r.base + r.len || lap then [(i, 0x05)] else [])
      ++ (if bits w1 0 28 != 0 || (bitAt w1 31 && bits w1 28 3 == 0) then [(i + 1, 0x05)] else []))

/-- A bank word's fields (R291). -/
def bankOk (s : StageW) (rings : Nat) : Bool :=
  let src := fun (v : Nat) => 1 ≤ v && v ≤ 4
  if s.op = 0x00 then s.a == 0 && s.b == 0 && s.dst == 0 && s.ty == 0 && s.rnd == 0 && !s.sat && !s.early && s.aux == 0
  else
    s.dst == 0 && s.ty == 0 && s.rnd == 0 && !s.sat && !s.early && s.aux % 4 < rings &&
    (match s.op with
     | 0xA0 | 0xA2 => src s.a && s.b == 0 && s.aux < 4
     | 0xA1 => src s.a && src s.b && s.aux < 4
     | 0xA3 => s.a == 0 && s.b == 0 && s.aux < 4
     | 0xA4 => src s.a && s.b == 0
     | _ => false)

/-- Faults of the bank words of a tile (R291), each at its word. -/
def TileCfg.bankFaults (t : TileCfg) : List (Nat × Nat) :=
  let ops := t.sts.map (fun s => (s.1, stageW s.2))
  let pos := List.range ops.length
  let at_ := fun (k : Nat) => nth ops k (0, stageW 0)
  let same := fun (k : Nat) => (List.range k).any (fun m =>
    let a := (at_ k).2
    let c := (at_ m).2
    (a.op == c.op && (a.op == 0xA3 || a.op == 0xA0)) ||
    (a.op == c.op && (a.op == 0xA2 || a.op == 0xA4) && a.aux % 4 == c.aux % 4))
  let swar := fun (k : Nat) => (at_ k).2.op == 0xA4 &&
    (ops.any (fun o => (o.2.op == 0xA2 || o.2.op == 0xA3) && o.2.aux % 4 == (at_ k).2.aux % 4) ||
     t.rings.any (fun r =>
       let q := ringOf r.2.1 r.2.2
       let o := 16 * ((at_ k).2.aux / 4)
       q.base < o + 16 && o < q.base + q.len))
  (pos.filter (fun k => !bankOk (at_ k).2 t.rings.length || same k || swar k)).map (fun k => ((at_ k).1, 0x06))

/-- Every fault of a tile's words (R61). -/
def TileCfg.faults (t : TileCfg) (nbv share : Nat) : List (Nat × Nat) :=
  if t.bank then
    (if bits t.hdr 0 17 != 0 then [(t.idx, 0x05)] else []) ++ t.bankFaults
      ++ (if nbv != 0 then (t.sts.filter (fun s => bits s.2 9 3 == 6)).map (fun s => (s.1, 0x06)) else [])
      ++ t.ringFaults share ++ t.switchFaults ++ t.nodeFaults
  else
    let s1 := (nth t.sts 0 (0, 0)).2
    let net := fun (i : Nat) => t.net (4 + i)
    (if bits t.hdr 30 2 = 3 || bits t.hdr 22 8 = 0 || !earlyOk t.hdr s1 then [(t.idx, 0x05)] else [])
      ++ ((List.range t.sts.length).filter (fun k =>
          !stageOk t.hdr nbv (k + 1) (nth t.sts k (0, 0)).2 net)).map (fun k => ((nth t.sts k (0, 0)).1, 0x06))
      ++ (t.order.filter (fun o => !orderOk o.2)).map (fun o => (o.1, 0x06))
      ++ t.switchFaults ++ t.nodeFaults

/-! ## The MX section (R226 to R234) -/

/-- The words of one engine, each with its index; or, where the order of R226 breaks among them, those before
that place. -/
structure MxWords where
  e : Nat
  ws : List (Nat × Nat)
  whole : Bool := true
  deriving DecidableEq, Repr

/-- One engine's words from the front of a section, what follows them, and the index of the word at which
their order breaks; `stop` is the index of the word after the section (R226). -/
def takeEngine (stop i c : Nat) (r : List (Nat × Nat)) : MxWords × List (Nat × Nat) × Option Nat :=
  let e := bits c 22 2
  let mine := fun (p : Nat × Nat) (o : Nat) => bits p.2 24 8 == o && bits p.2 22 2 == e
  let broken := fun (ws : List (Nat × Nat)) (rest : List (Nat × Nat)) =>
    (({ e := e, ws := ws, whole := false } : MxWords), rest, some ((rest.head?.map (·.1)).getD stop))
  match r with
  | [] => broken [(i, c)] []
  | g :: r1 =>
    if !mine g 0x61 then broken [(i, c)] r
    else
      let chk := (r1.take 1).filter (fun k => mine k 0x62)
      let head := (i, c) :: g :: chk
      match r1.drop chk.length with
      | k :: q =>
        if !mine k 0x63 then ({ e := e, ws := head }, k :: q, none)
        else if bitAt k.2 21 then broken head (k :: q)
        else match q with
          | m :: q2 => if mine m 0x63 && bitAt m.2 21 then ({ e := e, ws := head ++ [k, m] }, q2, none)
            else broken (head ++ [k]) q
          | [] => broken (head ++ [k]) []
      | [] => ({ e := e, ws := head }, [], none)

/-- The MX section split by engine in the order of R226, and the index of the first word that breaks
the order. -/
def splitMx (stop : Nat) : Nat → List (Nat × Nat) → List MxWords × Option Nat
  | 0, _ => ([], none)
  | _, [] => ([], none)
  | fuel + 1, (i, c) :: r =>
    if bits c 24 8 ≠ 0x60 then ([], some i)
    else
      let (me, rest, bad) := takeEngine stop i c r
      let next := match rest with
        | k :: _ => if bits k.2 22 2 ≤ me.e then some k.1 else none
        | [] => none
      match bad, next with
      | some k, _ => ([me], some k)
      | none, some k => ([me], some k)
      | none, none =>
        let (ms, bad) := splitMx stop fuel rest
        (me :: ms, bad)

/-- Word of an opcode among an engine's words. -/
def MxWords.word (m : MxWords) (op : Nat) : Option (Nat × Nat) := m.ws.find? (fun w => bits w.2 24 8 == op)
def MxWords.grouped (m : MxWords) : Bool := (m.word 0x63).isSome
/-- The modes that an engine's words may still set: one, unless their order breaks before it is told. -/
def MxWords.modes (m : MxWords) : List Bool :=
  if m.grouped then [true] else if m.whole then [false] else [false, true]

/-- A region's extent in its cluster: origin, columns and rows. -/
structure Extent where
  x0 : Nat
  y0 : Nat
  cols : Nat
  rows : Nat
  deriving DecidableEq, Repr

def Region.extent (r : Region) : Extent := { x0 := r.x0, y0 := r.y0, cols := r.cols, rows := r.rows }
def Extent.has (r : Extent) (x y : Nat) : Bool := r.x0 ≤ x && x < r.x0 + r.cols && r.y0 ≤ y && y < r.y0 + r.rows

/-- All four feeding tiles of an engine lie in the region (R59). -/
def Extent.includes (r : Extent) (e : Nat) : Bool :=
  (List.range 4).all (fun n => r.has (feedTile e n).1 (feedTile e n).2)

/-- The rings an MXRING word binds: cluster tile, ring number (R230). -/
def mxRings (e w : Nat) : List ((Nat × Nat) × Nat) :=
  [(feedTile e (bits w 20 2), bits w 18 2), (feedTile e (bits w 16 2), bits w 14 2), (feedTile e (bits w 12 2), bits w 10 2)]

/-- The rings that an engine's words bind: none where its MXRING is missing. -/
def MxWords.rings (m : MxWords) : List ((Nat × Nat) × Nat) := (m.word 0x61).toList.flatMap (fun g => mxRings m.e g.2)

/-- The tile of an image at a position of its cluster. -/
def tileAt (r : Extent) (ts : List TileCfg) (x y : Nat) : Option TileCfg :=
  ts.find? (fun t => t.x + r.x0 == x && t.y + r.y0 == y)

/-- The ring of an image. -/
def imageRing (r : Extent) (ts : List TileCfg) (q : (Nat × Nat) × Nat) : Option Ring :=
  (tileAt r ts q.1.1 q.1.2).bind (fun t => (t.rings[q.2]?).map (fun d => ringOf d.2.1 d.2.2))

/-- MXCFG's fields (R227, R228, R182). -/
def mxCfgOk (c : MxCfg) (grouped : Bool) (nbv : Nat) : Bool :=
  let int := mxIsInt c.bfmt
  c.afmt ≤ 5 && c.bfmt ≤ 5 && c.ofmt ≤ 6 && 1 ≤ c.kt &&
  (if grouped then c.afmt == 0 && !c.asc && c.kt == 1 && !int else mxIsInt c.afmt == int) &&
  (if int then 4 ≤ c.ofmt && c.rnd == 0 && !c.sat else c.ofmt ≤ 3) &&
  (!c.asc || (1 ≤ c.afmt && c.afmt ≤ 3)) && (!c.bsc || (1 ≤ c.bfmt && c.bfmt ≤ 3)) &&
  (nbv == 0 || (c.afmt != 1 && c.bfmt != 1 && c.ofmt != 3))

/-- Bytes of dense operand tiles and of the C tile (R229). -/
def MxCfg.aLen (c : MxCfg) : Nat := 2048 * mxBytes c.afmt + (if c.asc then 64 else 0)
def MxCfg.bLen (c : MxCfg) : Nat := 4096 * mxBytes c.bfmt + (if c.bsc then 128 else 0)
def MxCfg.cLen (c : MxCfg) : Nat := 8192 * mxOut c.ofmt

/-- Whether every feeding tile of an engine holds the areas of the included engines that it feeds, in `acsh`
accumulator units (R183). -/
def Extent.areasOk (r : Extent) (acsh e : Nat) : Bool :=
  (List.range 4).all (fun n =>
    ((List.range 4).filter (fun o => r.includes o && (List.range 4).any (fun k => feedTile o k == feedTile e n))).length
      ≤ acsh)

/-- Faults of an engine's words (R226 to R232), of those that stand where their order breaks (R61); `all` are
the words of every engine, `acsh` the accumulator units of each bank tile (R183). -/
def MxWords.faults (m : MxWords) (r : Extent) (ts : List TileCfg) (nbv acsh : Nat)
    (all : List MxWords) : List (Nat × Nat) :=
  let wi := fun (op : Nat) => (m.word op).getD (0, 0)
  let c := mxCfg (wi 0x60).2
  let rs := mxRings m.e (wi 0x61).2
  let ringAt := fun (k : Nat) => (rs[k]?).bind (imageRing r ts)
  let size := fun (k : Nat) => match ringAt k with
    | some q => q.size
    | none => 0
  let before := (all.filter (fun o => o.e < m.e)).flatMap (·.rings)
  let ops := fun (q : (Nat × Nat) × Nat) (o : Nat) => match tileAt r ts q.1.1 q.1.2 with
    | some t => t.sts.any (fun s => bits s.2 24 8 == o && bits s.2 0 2 == q.2)
    | none => false
  let qa := nth rs 0 ((0, 0), 0)
  let qb := nth rs 1 ((0, 0), 0)
  let qc := nth rs 2 ((0, 0), 0)
  let g1 := ((m.ws.find? (fun w => bits w.2 24 8 == 0x63 && !bitAt w.2 21)).getD (0, 0))
  let g2 := ((m.ws.find? (fun w => bits w.2 24 8 == 0x63 && bitAt w.2 21)).getD (0, 0))
  let item := itemBytes (mxBytes c.bfmt) (bits g1.2 13 7 + 1) (bits g2.2 0 16 + 1) c.bsc
  let ringsOk := bits (wi 0x61).2 0 10 == 0 && qa != qb && qa != qc && qb != qc
    && rs.all (fun q => (imageRing r ts q).isSome) && !rs.any (before.contains ·)
    && c.cLen ≤ size 2
    && m.modes.any (fun grouped =>
        if grouped then (match ringAt 1 with
          | some q => item ≤ q.len
          | none => false)
        else c.aLen ≤ size 0 && c.bLen ≤ size 1)
    && !ops qa 0xA3 && !ops qb 0xA3 && !ops qc 0xA2
  (if !r.includes m.e || !m.modes.any (mxCfgOk c · nbv) || !r.areasOk acsh m.e then [((wi 0x60).1, 0x09)] else [])
    ++ (if ringsOk || (m.word 0x61).isNone then [] else [((wi 0x61).1, 0x09)])
    ++ (match m.word 0x62 with
        | some k => if bits k.2 16 6 != 0 || m.grouped || (mxIsInt c.afmt && bits k.2 0 16 != 0) then [(k.1, 0x09)] else []
        | none => [])
    ++ (if m.grouped && (bits g1.2 0 7 != 0 || nbv != 0) then [(g1.1, 0x09)] else [])
    ++ (if m.grouped && m.whole && (bits g2.2 16 5 != 0 || nbv != 0) then [(g2.1, 0x09)] else [])

/-- An included engine without MX words is idle and holds three areas like any other (R183). One whose areas
find no room is reported where its words would stand (DESIGN CHOICE, log 51). -/
def idleFaults (r : Extent) (acsh stop : Nat) (ms : List MxWords) : List (Nat × Nat) :=
  ((List.range 4).filter (fun e => r.includes e && !ms.any (fun m => m.e == e) && !r.areasOk acsh e)).map (fun e =>
    (match (ms.find? (fun m => e < m.e)).bind (fun m => m.ws.head?) with
     | some w => w.1
     | none => stop, 0x09))

/-- An element opcode that is allocated (R79, R83). -/
def allocated (op : Nat) : Bool :=
  (List.range 3).any (fun role => (List.range 6).any (fun j => placeOk role (j + 1) op))
    || (0x60 ≤ op && op ≤ 0x63) || (0xA0 ≤ op && op ≤ 0xA4)

/-- The cause for a word of the MX section that breaks its order (R83, R226). -/
def mxCause (mws : List (Nat × Nat)) (i : Nat) : Nat :=
  match mws.find? (fun w => w.1 == i) with
  | some w => if allocated (bits w.2 24 8) then 0x09 else 0x06
  | none => 0x09

/-- Words of the MX section that stand wrong whatever stands beside them: an opcode that is not allocated
(R83), a word of an engine that the region does not include, or an MXCFG whose fields no mode allows (R61,
R227). -/
def mxWordFaults (r : Extent) (nbv : Nat) (ws : List (Nat × Nat)) : List (Nat × Nat) :=
  (ws.filter (fun w => !allocated (bits w.2 24 8) || !r.includes (bits w.2 22 2) ||
    (bits w.2 24 8 == 0x60 && !mxCfgOk (mxCfg w.2) true nbv && !mxCfgOk (mxCfg w.2) false nbv))).map (fun w =>
      (w.1, mxCause ws w.1))

/-- SWAR words on rings that an engine binds (R291); one that has no MXRING binds none. -/
def swarFaults (r : Extent) (ts : List TileCfg) (ms : List MxWords) : List (Nat × Nat) :=
  let bound := ms.flatMap (·.rings)
  ts.flatMap (fun t => (t.sts.filter (fun s => t.bank && bits s.2 24 8 == 0xA4 &&
    bound.contains ((t.x + r.x0, t.y + r.y0), bits s.2 0 2))).map (fun s => (s.1, 0x06)))

/-! ## A whole image (R59, R61) -/

/-- What an image gives: its tiles, its engines, and its faults. -/
structure Image where
  tiles : List TileCfg
  mx : List MxWords
  faults : List (Nat × Nat)
  deriving DecidableEq, Repr

/-- Positions of a region, row-major: (column, row). -/
def Extent.cells (r : Extent) : List (Nat × Nat) :=
  (List.range r.rows).flatMap (fun j => (List.range r.cols).map (fun i => (i, j)))

/-- The words of the MX section: up to CEND or the index it should stand at. -/
def takeMx (ws : List Nat) (lim : Nat) : Nat → Nat → List (Nat × Nat)
  | 0, _ => []
  | fuel + 1, k =>
    if lim ≤ k || bits (wordAt ws k) 16 16 == 0xD1CE then [] else (k, wordAt ws k) :: takeMx ws lim fuel (k + 1)

/-- An image's words checked against a region, a partition word and an NBV (R61). -/
def parseImage (r : Extent) (pword nbv : Nat) (ws : List Nat) : Image :=
  let h := wordAt ws 0
  let n := wordAt ws 1
  let f0 := (if bits h 16 16 != 0xD1C0 || bits h 0 8 != 0x04 || bitAt h 9 then [(0, 0x01)] else [])
    ++ (if bits h 13 3 + 1 != r.rows || bits h 10 3 + 1 != r.cols || bits h 8 1 != (r.x0 + r.y0) % 2 then
        [(0, 0x02)] else [])
  if !f0.isEmpty then { tiles := [], mx := [], faults := f0 }
  else if n < 5 || 65535 < n then { tiles := [], mx := [], faults := [(1, 0x03)] }
  else
    let lim := n - 2
    let share := shareOf pword
    match parseTiles ws lim (bits h 8 1) r.cells 2 with
    | (ts, .error e) =>
      { tiles := ts, mx := [], faults := e :: (ts.flatMap (fun t => t.faults nbv share)).filter (fun f => f.1 < e.1) }
    | (ts, .ok k) =>
      let mws := takeMx ws lim ws.length k
      let stop := k + mws.length
      let (ms, bad) := splitMx stop 5 mws
      let cend := wordAt ws stop
      let crc := crc32c ((ws.take (n - 1)).flatMap (toBytes 4))
      let fs := ts.flatMap (fun t => t.faults nbv share)
        ++ (match bad with
            | some i => [(i, mxCause mws i)]
            | none => [])
        ++ ms.flatMap (fun m => m.faults r ts nbv (bits pword 24 4) ms)
        ++ mxWordFaults r nbv mws
        ++ (if bad.isNone then idleFaults r (bits pword 24 4) stop ms else [])
        ++ swarFaults r ts ms
        ++ (if stop ≠ lim || bits cend 16 16 != 0xD1CE || bits cend 0 16 != n % 2 ^ 16 then [(stop, 0x03)] else [])
        ++ (if wordAt ws (n - 1) != crc then [(n - 1, 0x04)] else [])
      { tiles := ts, mx := ms, faults := fs }

/-- The fault with the lowest index, the first among equals (R61). -/
def lowestFault : List (Nat × Nat) → Option (Nat × Nat)
  | [] => none
  | f :: r => some (r.foldl (fun m g => if g.1 < m.1 then g else m) f)

/-! ## What a commit makes (R202, R240, R241, R265, R289, R310, R389) -/

/-- The context a tile's words give at commit. -/
def TileCfg.ctx (t : TileCfg) (nbv : Nat) : Ctx :=
  let s1 := (nth t.sts 0 (0, 0)).2
  { bank := t.bank, hdr := t.hdr, stages := t.sts.map (·.2), order := (t.order.head?).map (·.2), sw := t.sw.map (·.2),
    nmap := t.nm.map (·.2), ringWords := t.rings.map (fun r => (r.2.1, r.2.2)), nbv := nbv,
    weight := if !t.bank && bits s1 24 8 == 0xB3 then bits s1 0 4 + 1 else 1, lflag := 0, fired := [], last := [],
    looping := false, index := 0, mergeTurn := 0, ev := [], kreg := [], fib := [], gq := [], gacc := [],
    dirty := false, damaged := [], held := [], votes := [], forks := [], creq := none, entry := [], exc := [],
    lastBegin := none, skid := [], hops := [], reqs := [],
    rings := t.rings.map (fun r => ringOf r.2.1 r.2.2) }

/-- The context number of an image's bank tiles: that of its first pipeline header (log 12). -/
def Image.bankCtx (m : Image) : Nat :=
  match m.tiles.find? (fun t => !t.bank) with
  | some t => bits t.hdr 20 2
  | none => 0

/-- The context number a tile's words load. -/
def Image.ctxNo (m : Image) (t : TileCfg) : Nat := if t.bank then m.bankCtx else bits t.hdr 20 2

/-- Held hops of an old context stay, with what they hold (R54). -/
def Ctx.heldFrom (new old : Ctx) : Ctx :=
  { new with
    heldSw := old.holdWords
    hops := old.hops.filter (fun h => old.holdWords.any (fun w => (swW w).dst == h.1)) }

/-- What a commit does to every context of its region: no mark and no number of early joins stays (R268). -/
def Ctx.freshen (c : Ctx) : Ctx :=
  { c with hops := c.hops.map (fun h => (h.1, { h.2 with marks := [] })), fired := [], last := [], forks := [] }

/-- The kept-tile status that an earlier region left in the engines of a cluster clears as a region commits
there (R199). -/
def Mach.clearStats (m : Mach) (r : Region) : Mach :=
  { m with keptStat := m.keptStat.filter (fun e => e.1 / 8 != r.cluster || !r.extent.includes (e.1 % 8)) }

/-- The engine an engine's words give at commit (R183, R199). -/
def MxWords.engine (m : MxWords) (l r ctx nbv : Nat) : Engine :=
  { launch := l, region := r, ctx := ctx, words := m.ws.map (·.2), nbv := nbv, cur := .empty, drain := .empty,
    drainState := 0, kept := .empty, keptStat := 0, busy := false }

/-- The words of every included engine of an image: none for an idle one (R183, R226). -/
def Image.engines (m : Image) (r : Extent) : List MxWords :=
  ((List.range 4).filter r.includes).map (fun e => (m.mx.find? (fun x => x.e == e)).getD { e := e, ws := [] })

/-- A region's fabric replaced by an image (R61). An engine that the image leaves idle keeps what another
context number set in it. -/
def Work.commitImage (w : Work) (p : Where) (r : Region) (m : Image) (nbv : Nat) : Work :=
  let v := m.tiles.foldl (fun u t =>
    let x := t.x + r.x0
    let y := t.y + r.y0
    let c := m.ctxNo t
    let new := t.ctx nbv
    let made := match u.m.ctx? r.cluster x y c with
      | some old => new.heldFrom old
      | none => new
    u.modCluster r.cluster (fun k => { k with ctxs := aset k.ctxs (ctxKey x y c) made })) w
  let old := ((v.m.enginesOf p r).filter (fun e => e.2.ctx == m.bankCtx)).map (·.1)
  let u := v.modCluster r.cluster (fun k =>
    let left := k.engines.filter (fun e => !old.contains e.1)
    let own := (m.engines r.extent).filter (fun e => !e.ws.isEmpty || (aget left e.e).isNone)
    { k with
      engines := own.foldl (fun a e => aset a e.e (e.engine p.l p.r m.bankCtx nbv)) left
      ctxs := k.ctxs.map (fun e => if r.has r.cluster (keyX e.1) (keyY e.1) then (e.1, e.2.freshen) else e) }) |>.mach (·.clearStats r)
  let replaced := fun (c : Nat) => m.tiles.any (fun t => m.ctxNo t == c)
  u.modRegion p (fun r => { r with
    state := if r.state = 0 then 1 else r.state, timer := w.m.tb, waves := r.waves.filter (fun v => !replaced v.ctx) })

end Sys2Proof.Machine
end

