-- ==== Sys2Proof/Machine/Saves.lean ====
section
/-!
DEFINITION. Context images (R330 to R332): a region's state written as sections of bytes, and read
back. Where the spec's table of sections names a content but not its bytes, the order is that of
the code below, and what the spec names nowhere (the sources of a token, tokens an operator
holds, an engine's words) stands with the state it belongs to (log 15).
-/

namespace Sys2Proof.Machine

/-! ## Writing fields -/

/-- What the slots of R331 have no place for, of a token, a mark or a slot: the sources in whose accounting it
stands, its network, and the loop index of a poison token. KIND 10 lists it in the order of the image
(log 15). -/
structure Side where
  srcs : List Nat
  net : Nat
  loop : Nat
  deriving DecidableEq, Repr

def Side.none : Side := { srcs := [], net := 0, loop := 0xFFFFFFFF }

/-- Bytes being written, the offsets of the VAs among them (R330), and what KIND 10 lists beside them. -/
structure Buf where
  d : List Byte
  rel : List Nat
  side : List Side

def Buf.new : Buf := { d := [], rel := [], side := [] }
def Buf.num (b : Buf) (n x : Nat) : Buf := { b with d := b.d ++ toBytes n x }
def Buf.raw (b : Buf) (x : List Byte) : Buf := { b with d := b.d ++ x }
/-- An 8-byte VA, listed for relocation when it is not 0. -/
def Buf.va (b : Buf) (x : Nat) : Buf :=
  { b with d := b.d ++ toBytes 8 x, rel := if x = 0 then b.rel else b.rel ++ [b.d.length] }
def Buf.beside (b : Buf) (x : Side) : Buf := { b with side := b.side ++ [x] }
def Buf.flag (b : Buf) (x : Bool) : Buf := b.num 1 (if x then 1 else 0)
/-- A list: its length, then its elements. -/
def Buf.list {α : Type} (b : Buf) (f : Buf → α → Buf) (l : List α) : Buf := l.foldl f (b.num 4 l.length)
def Buf.opt {α : Type} (b : Buf) (f : Buf → α → Buf) : Option α → Buf
  | none => b.flag false
  | some x => f (b.flag true) x

/-! ## Reading fields -/

/-- Bytes still to be read, and what KIND 10 still lists beside them. -/
abbrev Rd := StateM (List Byte × List Side)

def Rd.raw (n : Nat) : Rd (List Byte) := fun d => (d.1.take n, (d.1.drop n, d.2))
def Rd.num (n : Nat) : Rd Nat := fun d => (ofBytes (d.1.take n), (d.1.drop n, d.2))
def Rd.flag : Rd Bool := fun d => (ofBytes (d.1.take 1) != 0, (d.1.drop 1, d.2))
def Rd.beside : Rd Side := fun d => (d.2.headD .none, (d.1, d.2.drop 1))
def Rd.times {α : Type} (f : Rd α) : Nat → Rd (List α)
  | 0 => pure []
  | n + 1 => do
    let x ← f
    let r ← Rd.times f n
    pure (x :: r)
/-- A list; a length beyond the bytes left reads as nothing. -/
def Rd.list {α : Type} (f : Rd α) : Rd (List α) := do
  let n ← Rd.num 4
  let d ← get
  Rd.times f (if n ≤ d.1.length then n else 0)
def Rd.opt {α : Type} (f : Rd α) : Rd (Option α) := do
  let b ← Rd.flag
  if b then
    let x ← f
    pure (some x)
  else pure none

/-! ## Tokens, marks and maps -/

/-- A token slot of 72 bytes (R331). -/
def Buf.tok (b : Buf) (t : Tok) : Buf :=
  ((b.num 64 t.pay.toNat).num 8 (t.item + t.kind % 4 * 2 ^ 16 + (if t.tag then 2 ^ 18 else 0))).beside
    { srcs := t.srcs, net := t.net, loop := t.loop }
def Rd.tok : Rd Tok := do
  let p ← Rd.num 64
  let v ← Rd.num 8
  let x ← Rd.beside
  pure { item := bits v 0 16, kind := bits v 16 2, tag := bitAt v 18, net := x.net, pay := BitVec.ofNat 512 p,
         srcs := x.srcs, loop := x.loop }

/-- An item number (R331). -/
def Buf.mark (b : Buf) (m : Mark) : Buf := (b.num 2 m.item).beside { Side.none with srcs := m.srcs }
def Rd.mark : Rd Mark := do
  let v ← Rd.num 2
  let x ← Rd.beside
  pure { item := v, srcs := x.srcs }

/-- A number of n bytes by key. -/
def Buf.map (n : Nat) (b : Buf) (m : AMap Nat) : Buf := b.list (fun b e => (b.num 4 e.1).num n e.2) m
def Rd.map (n : Nat) : Rd (AMap Nat) := Rd.list (do
  let k ← Rd.num 4
  let v ← Rd.num n
  pure (k, v))

/-! ## Sections -/

/-- A section before its header is written. -/
structure Sec where
  kind : Nat
  x : Nat
  y : Nat
  c : Nat
  buf : Buf

/-- A section as bytes: 16 of header, the content, padding to 64 (R331). -/
def Sec.bytes (s : Sec) : List Byte :=
  let n := (16 + s.buf.d.length + 63) / 64 * 64
  toBytes 4 (s.kind + s.x * 2 ^ 16 + s.y * 2 ^ 19 + s.c * 2 ^ 22) ++ toBytes 4 n ++ zeroBytes 8 ++ s.buf.d
    ++ zeroBytes (n - 16 - s.buf.d.length)

/-- KIND 1: the configuration words of a context as loaded (R59), then those of the held hops it kept. -/
def Ctx.words (c : Ctx) : List Nat :=
  let nsw := if c.bank then bits c.hdr 21 5 else bits c.hdr 4 5
  let stages := c.stages.flatMap (fun s =>
    if 0x90 ≤ bits s 24 8 && bits s 24 8 ≤ 0x93 && !c.bank then [s, c.order.getD 0] else [s])
  let pack := fun (l : List Nat) => (List.range ((l.length + 1) / 2)).map (fun k =>
    nth l (2 * k) 0 + nth l (2 * k + 1) 0 * 2 ^ 16)
  c.hdr :: stages ++ c.ringWords.flatMap (fun r => [r.1, r.2]) ++ pack (c.sw.take nsw) ++ c.nmap

def Ctx.sec1 (c : Ctx) : Buf :=
  (c.words.foldl (fun b w => b.num 4 w) Buf.new).list (fun b w => b.num 2 w) c.heldSw

/-- KIND 2: the state of a pipeline tile's context. -/
def Ctx.sec2 (c : Ctx) : Buf :=
  let r4 := List.range 4
  let b := ((Buf.new.num 4 c.nbv).num 4 c.weight).num 4 c.lflag
  let b := r4.foldl (fun b i => b.list Buf.mark (agetD c.fired i [])) b
  let b := r4.foldl (fun b i => b.num 4 (match aget c.last i with
    | some n => n + 2 ^ 31
    | none => 0)) b
  let b := (b.flag c.looping).num 4 c.index
  let b := (List.range 8).foldl (fun b i => b.num 64 (agetD c.ev i 0).toNat) b
  let b := r4.foldl (fun b i => b.num 4 (agetD c.kreg i 0)) b
  let b := r4.foldl (fun b i => (b.num 4 (agetD c.fib i (0, 0)).1).num 4 (agetD c.fib i (0, 0)).2) b
  let b := (List.range 16).foldl (fun b i => b.num 8 (agetD c.gq i 0)) b
  let b := (List.range 16).foldl (fun b i => b.num 8 (agetD c.gacc i 0)) b
  let b := ((b.flag c.dirty).num 4 c.mergeTurn).list (fun b d => b.num 1 d) c.damaged
  let b := (b.list Buf.tok c.held).list Buf.tok c.entry
  let b := b.list (fun b v => (((((b.mark { item := v.item, srcs := v.srcs }).num 1 v.kind).flag v.fired).opt Buf.tok v.tok).list
    (fun b n => b.num 1 n) v.seen)) c.votes
  b.list Buf.mark c.asked

/-- An element register, absent while it is zero. -/
def numMap {α : Type} (z : α → Bool) (l : List α) : AMap α :=
  ((List.range l.length).zip l).filter (fun e => !z e.2)

def Rd.ctx2 (c : Ctx) : Rd Ctx := do
  let nbv ← Rd.num 4
  let weight ← Rd.num 4
  let lflag ← Rd.num 4
  let fired ← Rd.times (Rd.list Rd.mark) 4
  let last ← Rd.times (Rd.num 4) 4
  let looping ← Rd.flag
  let index ← Rd.num 4
  let ev ← Rd.times (Rd.num 64) 8
  let k ← Rd.times (Rd.num 4) 4
  let f ← Rd.times (do
    let a ← Rd.num 4
    let e ← Rd.num 4
    pure (a, e)) 4
  let q ← Rd.times (Rd.num 8) 16
  let acc ← Rd.times (Rd.num 8) 16
  let dirty ← Rd.flag
  let turn ← Rd.num 4
  let damaged ← Rd.list (Rd.num 1)
  let held ← Rd.list Rd.tok
  let entry ← Rd.list Rd.tok
  let votes ← Rd.list (do
    let m ← Rd.mark
    let k ← Rd.num 1
    let fd ← Rd.flag
    let t ← Rd.opt Rd.tok
    let s ← Rd.list (Rd.num 1)
    pure ({ item := m.item, srcs := m.srcs, kind := k, fired := fd, tok := t, seen := s } : VoteItem))
  let asked ← Rd.list Rd.mark
  pure { c with
    nbv := nbv
    weight := weight
    lflag := lflag
    fired := numMap List.isEmpty fired
    last := (numMap (· == 0) last).map (fun e => (e.1, e.2 - 2 ^ 31))
    looping := looping
    index := index
    mergeTurn := turn
    ev := numMap (· == 0) (ev.map (BitVec.ofNat 512))
    kreg := numMap (· == 0) k
    fib := numMap (· == (0, 0)) f
    gq := numMap (· == 0) q
    gacc := numMap (· == 0) acc
    dirty := dirty
    damaged := damaged
    held := held
    entry := entry
    votes := votes
    asked := asked }

/-- WHERE of a buffer (R326): 0 to 3 inputs A to D, 4 to 7 output hops; from it, the destination of R54. -/
def whereOf (d : Nat) : Nat := (d + 4) % 8

/-- KIND 3: a nonempty link buffer: its slots take the rest of the section. -/
def Ctx.sec3 (c : Ctx) (d : Nat) : Buf :=
  let depth := ((c.route d).map (·.depth)).getD 0
  (c.hop d).q.foldl Buf.tok ((Buf.new.num 1 (whereOf d)).num 1 depth)

/-- KIND 4: the skid, oldest first, each result with its destinations. -/
def Ctx.sec4 (c : Ctx) : Buf :=
  Buf.new.list (fun b e => ((((b.num 1 e.source).flag e.drop).list (fun b d => b.num 1 d) e.dests).tok e.tok)) c.skid

/-- An ECHS that still follows its chain: not one that has ended, nor a null operation (R286). -/
def Req.chasing (q : Req) : Bool := bits q.word 24 8 == 0x93 && !q.ended && !q.done

/-- A request without its replies, of which only the number stands. -/
def Buf.req (b : Buf) (q : Req) : Buf :=
  let b := (((b.mark { item := q.item, srcs := q.srcs }).num 4 q.loopIdx).num 4 q.word).num 4 q.order
  let b := if q.chasing then b.va q.addr else b.num 8 q.addr
  let b := (((b.num 64 q.data.toNat).flag q.done).flag q.ended).flag q.drop
  ((b.flag q.bad).map 8 q.got).num 4 q.replies.length

def Rd.req (tb : Nat) : Rd (Req × Nat) := do
  let m ← Rd.mark
  let l ← Rd.num 4
  let w ← Rd.num 4
  let o ← Rd.num 4
  let a ← Rd.num 8
  let d ← Rd.num 64
  let dn ← Rd.flag
  let en ← Rd.flag
  let dr ← Rd.flag
  let bd ← Rd.flag
  let g ← Rd.map 8
  let n ← Rd.num 4
  pure ({ item := m.item, srcs := m.srcs, loopIdx := l, word := w, order := o, addr := a, data := BitVec.ofNat 512 d,
          done := dn, ended := en, replies := [], drop := dr, tb := tb, bad := bd, got := g }, n)

/-- What is left of an open wave beside its own number. -/
def Buf.wave (b : Buf) (v : Wave) : Buf :=
  (((b.mark { item := v.item, srcs := v.srcs }).num 4 v.loopIdx).num 1 v.succ).num 1 v.ctx
def Rd.wave (own : Nat) : Rd Wave := do
  let m ← Rd.mark
  let l ← Rd.num 4
  let s ← Rd.num 1
  let c ← Rd.num 1
  pure { item := m.item, srcs := m.srcs, loopIdx := l, own := own, succ := s, ctx := c }

/-- KIND 5: the reply queue as slots in request order, and the last performed number of each open wave; then
what the spec does not list, of the requests and of the waves. -/
def sec5 (reqs : List Req) (waves : List Wave) : Buf :=
  let b := (Buf.new.list Buf.tok (reqs.flatMap (·.replies))).list (fun b v => b.num 1 v.own) waves
  waves.foldl Buf.wave (b.list Buf.req reqs)

/-- Requests given their replies from a queue. -/
def dealReplies : List (Req × Nat) → List Tok → List Req
  | [], _ => []
  | (q, n) :: r, ts => { q with replies := ts.take n } :: dealReplies r (ts.drop n)

/-- A function read for each of some numbers. -/
def Rd.each {α : Type} (f : Nat → Rd α) : List Nat → Rd (List α)
  | [] => pure []
  | n :: r => do
    let x ← f n
    let xs ← Rd.each f r
    pure (x :: xs)

def Rd.sec5 (tb : Nat) : Rd (List Req × List Wave) := do
  let ts ← Rd.list Rd.tok
  let own ← Rd.list (Rd.num 1)
  let qs ← Rd.list (Rd.req tb)
  let ws ← Rd.each Rd.wave own
  pure (dealReplies qs ts, ws)

/-- KIND 6: the discard marks of a hop. -/
def Ctx.sec6 (c : Ctx) (d : Nat) : Buf := (Buf.new.num 1 (whereOf d)).list Buf.mark (c.hop d).marks

/-- KIND 6 of a FORK's tile: WHERE 8 says that the marks are the tile's own, each of the branch that the list after
them gives (R263; log 15). -/
def Ctx.sec6Fork (c : Ctx) : Buf :=
  ((Buf.new.num 1 8).list Buf.mark (c.forks.map (·.2))).list (fun b n => b.num 1 n) (c.forks.map (·.1))

/-- A KIND 6 section put back. -/
def Rd.sec6 : Rd (Ctx → Ctx) := do
  let d ← Rd.num 1
  let ms ← Rd.list Rd.mark
  if d < 8 then pure (fun k => k.modHop (whereOf d) (fun h => { h with marks := ms }))
  else
    let bs ← Rd.list (Rd.num 1)
    pure (fun k => { k with forks := bs.zip ms })

/-- KIND 7: a ring: its number, head and tail, its slots, and its bytes; then what the spec does not list. -/
def Buf.slot (b : Buf) (s : Slot) : Buf :=
  let b := (((b.num 1 s.tag).num 1 s.kind).num 2 s.item).beside { srcs := s.srcs, net := 0, loop := s.loop }
  let b := ((b.opt (fun b v => b.num 512 v) s.bitmap).opt Buf.flag s.zero).opt Buf.flag s.finite
  ((b.opt (fun b v => b.num 64 v.toNat) s.err).num 4 s.fill).flag s.ovf |>.flag s.bad
def Ring.sec (r : Ring) (n : Nat) (bytes : List Byte) : Buf :=
  let b := ((Buf.new.num 1 n).num 1 r.head).num 1 r.tail
  let b := (List.range r.slots).foldl (fun b k => b.slot (r.slot k)) b
  ((b.raw bytes).num 2 r.popped).num 4 r.wpos

def Rd.slot : Rd Slot := do
  let tag ← Rd.num 1
  let kind ← Rd.num 1
  let item ← Rd.num 2
  let x ← Rd.beside
  let bm ← Rd.opt (Rd.num 512)
  let z ← Rd.opt Rd.flag
  let f ← Rd.opt Rd.flag
  let err ← Rd.opt (Rd.num 64)
  let fill ← Rd.num 4
  let ovf ← Rd.flag
  let bad ← Rd.flag
  pure { tag := tag, item := item, srcs := x.srcs, kind := kind, err := err.map (BitVec.ofNat 512), fill := fill,
         bitmap := bm, zero := z, finite := f, ovf := ovf, bad := bad, loop := x.loop }

/-- A restored ring, and its number and bytes. -/
def Rd.ring (rings : List Ring) : Rd (Nat × Ring × List Byte) := do
  let n ← Rd.num 1
  let h ← Rd.num 1
  let t ← Rd.num 1
  let r := nth rings n (ringOf 0 0)
  let cs ← Rd.times Rd.slot r.slots
  let d ← Rd.raw r.len
  let p ← Rd.num 2
  let wp ← Rd.num 4
  pure (n, { r with head := h, tail := t, popped := p, wpos := wp, cells := numMap (·.tag == 0) cs }, d)

/-- An accumulator area in the form of R167: every element in 8 bytes. -/
def Buf.area (int : Bool) (b : Buf) (a : Area) : Buf :=
  b.raw (tilePos.flatMap (fun p => toBytes 8
    (if int then ((toSigned 40 (a.at p.1 p.2)) % 2 ^ 64).toNat else a.at p.1 p.2)))
def Rd.area : Rd (AMap Nat) := do
  let d ← Rd.raw (8 * 8192)
  pure (tileOf (fun i j => elemAt d 8 (128 * i + j) % 2 ^ 40))

/-- The rest of an area, which the spec does not list. -/
def Buf.areaRest (b : Buf) (a : Area) : Buf :=
  let b := ((b.num 1 a.pairs).flag a.ovf).mark { item := a.item, srcs := a.srcs }
  let b := (b.opt (fun b f => (b.num 1 f.1).num 4 f.2) a.fault).num 8 a.tb
  b.list (fun b q => (b.mark q.1).opt (fun b v => (b.num 64 v.1.toNat).num 4 v.2) q.2) a.popped
def Rd.areaRest (vals r c : AMap Nat) : Rd Area := do
  let n ← Rd.num 1
  let o ← Rd.flag
  let m ← Rd.mark
  let f ← Rd.opt (do
    let c ← Rd.num 1
    let k ← Rd.num 4
    pure (c, k))
  let tb ← Rd.num 8
  let p ← Rd.list (do
    let m ← Rd.mark
    let v ← Rd.opt (do
      let p ← Rd.num 64
      let l ← Rd.num 4
      pure (BitVec.ofNat 512 p, l))
    pure (m, v))
  pure { pairs := n, vals := vals, ovf := o, item := m.item, srcs := m.srcs, fault := f, tb := tb, csRow := r, csCol := c,
         popped := p }

/-- KIND 8: an engine: its number, its three areas, the current area's pairs, the drain state, the status
word, the checksum vectors; then what the spec does not list. -/
def Engine.sec (x : Engine) (e : Nat) : Buf :=
  let int := mxIsInt x.cfg.bfmt
  let areas := [x.cur, x.drain, x.kept]
  let b := areas.foldl (Buf.area int) (Buf.new.num 1 e)
  let b := ((b.num 1 x.cur.pairs).num 1 x.drainState).num 4 x.keptStat
  let b := areas.foldl (fun b a => (b.map 16 a.csRow).map 16 a.csCol) b
  let b := ((b.num 1 x.ctx).num 1 x.nbv).num 4 x.groups
  (areas.foldl Buf.areaRest b).list (fun b w => b.num 4 w) x.words

def Rd.engine (l r : Nat) : Rd (Nat × Engine) := do
  let e ← Rd.num 1
  let va ← Rd.area
  let vd ← Rd.area
  let vk ← Rd.area
  let _ ← Rd.num 1
  let s ← Rd.num 1
  let st ← Rd.num 4
  let sums ← Rd.times (Rd.map 16) 6
  let c ← Rd.num 1
  let nbv ← Rd.num 1
  let g ← Rd.num 4
  let a ← Rd.areaRest va (nth sums 0 []) (nth sums 1 [])
  let d ← Rd.areaRest vd (nth sums 2 []) (nth sums 3 [])
  let k ← Rd.areaRest vk (nth sums 4 []) (nth sums 5 [])
  let ws ← Rd.list (Rd.num 4)
  pure (e, { launch := l, region := r, ctx := c, words := ws, nbv := nbv, cur := a, drain := d, drainState := s, kept := k,
             keptStat := st, busy := false, groups := g })

/-- A bitmap of 65,536 item numbers (R331). -/
def itemBitmap (l : List Nat) : List Byte :=
  toBytes 8192 (l.eraseDups.foldl (fun a n => a + 2 ^ n) 0)

def Buf.desc (b : Buf) (x : Desc) : Buf :=
  let b := (((b.flag x.valid).num 1 x.fmt).num 1 x.rank).flag x.scaled
  let b := ((b.num 8 x.base).num 8 x.scale).list (fun b d => b.num 4 d) x.dims
  b.list (fun b s => b.num 8 (s % 2 ^ 64).toNat) x.strides
def Rd.desc : Rd Desc := do
  let v ← Rd.flag
  let f ← Rd.num 1
  let r ← Rd.num 1
  let s ← Rd.flag
  let ba ← Rd.num 8
  let sc ← Rd.num 8
  let ds ← Rd.list (Rd.num 4)
  let ss ← Rd.list (Rd.num 8)
  pure { valid := v, fmt := f, rank := r, scaled := s, base := ba, scale := sc, dims := ds,
         strides := ss.map (fun x => (BitVec.ofNat 64 x).toInt) }

/-- A port block in its 32 bytes; zeros where none was captured. -/
def blockBytes (b : List Byte) : List Byte := (b ++ zeroBytes 32).take 32

/-- The reserved fields of a port block are 0 (R137). -/
def blockOk (b : List Byte) : Bool :=
  bits (fieldAt b 0 4) 28 4 == 0 && bits (fieldAt b 0 4) 12 3 == 0 && fieldAt b 0x10 8 == 0 && fieldAt b 0x18 8 == 0

/-- The port block that a port's STRM captured, else the first of its TAKEs, else the first of its DRAINs. -/
def Port.block (q : Port) : List Byte :=
  (((q.stream.map (·.block)).toList ++ q.takes.map (·.block) ++ q.drains.map (·.block)).find? (!·.isEmpty)).getD []

/-- KIND 9: a port: its number, its captured block, its flags and retry count, the next item number and row, what
is in flight, the two bitmaps, the attempts, and its TAKEs and DRAINs, each with its own block; then what the spec
does not list, of the stream. -/
def Port.sec (q : Port) (p : Nat) : Buf :=
  let b := (Buf.new.num 1 p).raw (blockBytes q.block)
  let b := b.opt (fun b s => (((b.flag s.idem).flag s.strs).flag s.eosDone).num 1 s.retry) q.stream
  let b := (b.num 2 q.next).opt (fun b s => b.num 8 s.nextRow) q.stream
  let b := (b.list (fun b n => b.num 2 n) q.numbered).list (fun b w => ((b.tok w.1).num 2 w.2.1).num 8 w.2.2) q.unsent
  let b := (b.raw (itemBitmap (q.attempts.map (·.item)))).raw (itemBitmap (q.failed.map (·.1)))
  let row := fun (b : Buf) (r : Option Nat) => b.opt (fun b r => b.num 8 r) r
  let b := b.list (fun b a => ((((row (b.num 2 a.item) a.row).num 4 a.no).flag a.rinj).flag a.failed).flag a.waiting) q.attempts
  let b := b.list (fun b f => (row (b.num 2 f.1) f.2.1).num 4 f.2.2) q.failed
  let b := b.list (fun b t =>
    (((((((b.num 2 t.agent).num 8 t.pend).desc t.desc).num 4 t.count).va t.list.toNat).num 4 t.written).raw
      (blockBytes t.block))) q.takes
  let b := b.list (fun b d => (((((b.opt (fun b a => b.num 2 a) d.agent).num 8 d.pend).num 4 d.cap).va d.list.toNat).raw
    (blockBytes d.block)).list (fun b x => (b.num 2 x.1).num 8 x.2) d.ahead) q.drains
  b.opt (fun b s => ((b.desc s.desc).num 8 s.rows).flag s.eos) q.stream

def Rd.port : Rd (Nat × Port) := do
  let p ← Rd.num 1
  let block ← Rd.raw 32
  let flags ← Rd.opt (do
    let idem ← Rd.flag
    let strs ← Rd.flag
    let done ← Rd.flag
    let retry ← Rd.num 1
    pure (idem, strs, done, retry))
  let next ← Rd.num 2
  let row ← Rd.opt (Rd.num 8)
  let numbered ← Rd.list (Rd.num 2)
  let waiting ← Rd.list (do
    let t ← Rd.tok
    let a ← Rd.num 2
    let k ← Rd.num 8
    pure (t, a, k))
  let _ ← Rd.raw 16384
  let att ← Rd.list (do
    let n ← Rd.num 2
    let r ← Rd.opt (Rd.num 8)
    let k ← Rd.num 4
    let a ← Rd.flag
    let f ← Rd.flag
    let w ← Rd.flag
    pure ({ item := n, row := r, no := k, rinj := a, failed := f, waiting := w } : Attempt))
  let failed ← Rd.list (do
    let n ← Rd.num 2
    let r ← Rd.opt (Rd.num 8)
    let k ← Rd.num 4
    pure (n, r, k))
  let takes ← Rd.list (do
    let a ← Rd.num 2
    let k ← Rd.num 8
    let x ← Rd.desc
    let c ← Rd.num 4
    let l ← Rd.num 8
    let w ← Rd.num 4
    let b ← Rd.raw 32
    pure ({ agent := a, pend := k, desc := x, count := c, list := w64 l, written := w, block := b } : TakeSt))
  let drains ← Rd.list (do
    let a ← Rd.opt (Rd.num 2)
    let k ← Rd.num 8
    let c ← Rd.num 4
    let l ← Rd.num 8
    let b ← Rd.raw 32
    let h ← Rd.list (do
      let t ← Rd.num 2
      let k ← Rd.num 8
      pure (t, k))
    pure ({ agent := a, pend := k, cap := c, list := w64 l, ahead := h,
            block := if a.isSome then b else [] } : DrainSt))
  let rest ← Rd.opt (do
    let x ← Rd.desc
    let rows ← Rd.num 8
    let eos ← Rd.flag
    pure (x, rows, eos))
  let st := match rest, flags, row with
    | some (x, rows, eos), some (idem, strs, done, retry), some r =>
      some ({ idem := idem, retry := retry, strs := strs, desc := x, rows := rows, nextRow := r, eos := eos,
              eosDone := done, waiting := waiting, after := [], block := if strs then [] else block } : Stream)
    | _, _, _ => none
  pure (p, { next := next, stream := st, numbered := numbered, failed := failed, attempts := att, takes := takes,
             drains := drains })

/-- A restored port: the image's items join those of the port that is there (R332). -/
def Port.join (own q : Port) : Port :=
  { next := q.next, stream := if q.stream.isSome then q.stream else own.stream, numbered := own.numbered ++ q.numbered,
    failed := own.failed ++ q.failed, attempts := own.attempts ++ q.attempts, takes := own.takes ++ q.takes,
    drains := own.drains ++ q.drains }

/-- KIND 10: the region: CREQs with their statuses, each with its tile relative to the region's origin, the
breakpoint slots, the error queue with LOST, and what the slots of the other sections have no place for. -/
def Region.sec (r : Region) (cs : List (Nat × Ctx)) (side : List Side) : Buf :=
  let qs := cs.filterMap (fun e => e.2.creq.map (fun q => (e.1 - ctxKey r.x0 r.y0 0, q)))
  let b := Buf.new.list (fun b q => ((((b.num 2 q.1).opt (fun b v => b.num 4 v) q.2.status).num 2 q.2.item).list
    (fun b n => b.num 4 n) q.2.srcs |>.va q.2.image).flag q.2.drop) qs
  let b := (List.range 4).foldl (fun b k => b.opt (fun b (x : Brk) =>
    ((((b.num 4 x.node).flag x.anyLoop).flag x.anyItem).num 4 x.loop).num 2 x.item) (aget r.brks k)) b
  let b := (b.list (fun b e => b.raw e.bytes) r.errq).num 4 r.lost
  b.list (fun b x => ((b.list (fun b n => b.num 4 n) x.srcs).num 1 x.net).num 4 x.loop) side

/-- A record as R152 lays it out, read back. -/
def ErrRec.ofBytes (d : List Byte) : ErrRec :=
  let w0 := fieldAt d 0 4
  let f := fieldAt d 0x10 4
  { cause := bits w0 24 8, port := bits w0 16 8, item := bits w0 0 16, node := bits (fieldAt d 4 4) 0 24,
    loopIdx := fieldAt d 8 4, tbLow := fieldAt d 0x0C 4, skip := bitAt f 9, final := bitAt f 8, attempt := bits f 0 8,
    lost := fieldAt d 0x14 4 }

/-- What KIND 10 gives. -/
structure RegionSec where
  creqs : List (Nat × CReq)
  brks : AMap Brk
  /-- The records of the error queue, as they stand. -/
  errs : List (List Byte)
  lost : Nat
  side : List Side

/-- A region's section read back. The load that a restored CREQ waited for has reported already (R327). -/
def Rd.region : Rd RegionSec := do
  let qs ← Rd.list (do
    let k ← Rd.num 2
    let s ← Rd.opt (Rd.num 4)
    let i ← Rd.num 2
    let l ← Rd.list (Rd.num 4)
    let v ← Rd.num 8
    let d ← Rd.flag
    pure (k, ({ item := i, srcs := l, load := 2 ^ 64, status := s, drop := d, image := v } : CReq)))
  let bs ← Rd.times (Rd.opt (do
    let n ← Rd.num 4
    let al ← Rd.flag
    let ai ← Rd.flag
    let l ← Rd.num 4
    let i ← Rd.num 2
    pure ({ node := n, anyLoop := al, anyItem := ai, loop := l, item := i } : Brk))) 4
  let es ← Rd.list (Rd.raw 32)
  let lost ← Rd.num 4
  let side ← Rd.list (do
    let l ← Rd.list (Rd.num 4)
    let n ← Rd.num 1
    let x ← Rd.num 4
    pure ({ srcs := l, net := n, loop := x } : Side))
  pure { creqs := qs, brks := (List.range 4).filterMap (fun k => (nth bs k none).map (fun x => (k, x))), errs := es,
         lost := lost, side := side }

/-! ## A region's image (R330, R331) -/

/-- A context with the weight that the last window of its tile's arbiter gives it (R309). -/
def Mach.weighed (m : Mach) (g : Nat) (e : Nat × Ctx) : Ctx :=
  match (reweighted (m.onTile g (keyX e.1) (keyY e.1))).find? (fun o => o.1 == keyC e.1) with
  | some o => { e.2 with weight := o.2.weight }
  | none => e.2

/-- The sections of a region. -/
def Work.sections (w : Work) (p : Where) (r : Region) : List Sec :=
  let cs := (w.m.ctxsOf r).map (fun e => (e.1, w.m.weighed r.cluster e))
  let first := cs.find? (fun e => !e.2.bank && e.2.role == 0)
  let per := cs.flatMap (fun e =>
    let x := keyX e.1 - r.x0
    let y := keyY e.1 - r.y0
    let sec := fun (k : Nat) (b : Buf) => ({ kind := k, x := x, y := y, c := keyC e.1, buf := b } : Sec)
    let waves := match first with
      | some f => if f.1 = e.1 then r.waves else []
      | none => []
    [sec 1 e.2.sec1] ++ (if e.2.bank then [] else [sec 2 e.2.sec2])
      ++ ((e.2.hops.filter (fun h => !h.2.q.isEmpty)).map (fun h => sec 3 (e.2.sec3 h.1)))
      ++ (if e.2.skid.isEmpty then [] else [sec 4 e.2.sec4])
      ++ (if e.2.reqs.isEmpty && waves.isEmpty then []
          else [sec 5 (sec5 e.2.reqs waves)])
      ++ ((e.2.hops.filter (fun h => !h.2.marks.isEmpty)).map (fun h => sec 6 (e.2.sec6 h.1)))
      ++ (if e.2.forks.isEmpty then [] else [sec 6 e.2.sec6Fork])
      ++ (List.range e.2.rings.length).filterMap (fun n => (e.2.rings[n]?).map (fun q =>
          sec 7 (q.sec n (w.shareBytes r.cluster (keyX e.1) (keyY e.1) q.base (q.len / 8))))))
  let plain := fun (k : Nat) (b : Buf) => ({ kind := k, x := 0, y := 0, c := 0, buf := b } : Sec)
  let rest := per ++ (w.m.enginesOf p r).map (fun e => plain 8 (e.2.sec e.1)) ++ r.ports.map (fun q => plain 9 (q.2.sec q.1))
  plain 10 (r.sec cs (rest.flatMap (fun s => s.buf.side))) :: rest

/-- The bytes of sections from an offset, and the offsets of their VAs. -/
def laySections : Nat → List Sec → List Byte × List Nat
  | _, [] => ([], [])
  | o, s :: r =>
    let d := s.bytes
    let (e, q) := laySections (o + d.length) r
    (d ++ e, s.buf.rel.map (fun x => o + 16 + x) ++ q)

/-- A region's context image: 0x900 bytes of header and table, its sections, the CRC section. At most
256 VAs have a relocation entry (log 15). -/
def Work.imageBytes (w : Work) (p : Where) (r : Region) : List Byte :=
  let secs := w.sections p r
  let (body, rel) := laySections 0x900 secs
  let last := toBytes 4 255 ++ toBytes 4 64 ++ zeroBytes 8
  let crc := crc32c (body ++ last)
  let len := 0x900 + body.length + 64
  let nrel := Nat.min rel.length 256
  toBytes 4 (0xD1C5 * 2 ^ 16 + 0x04)
    ++ toBytes 4 ((r.x0 + r.y0) % 2 * 2 ^ 6 + (r.cols - 1) * 2 ^ 3 + (r.rows - 1))
    ++ toBytes 4 len ++ toBytes 4 (secs.length + 1) ++ toBytes 4 nrel ++ zeroBytes 4 ++ toBytes 8 r.tbFrz
    ++ zeroBytes (128 + 96)
    ++ (rel.take 256).flatMap (toBytes 8) ++ zeroBytes (2048 - 8 * nrel)
    ++ body ++ last ++ toBytes 4 crc ++ zeroBytes 44

/-! ## Restoring (R332) -/

/-- The offset of the first word of a header that breaks R330, for a trap at issue. -/
def imageHeaderFault (d : List Byte) : Option Nat :=
  let w0 := fieldAt d 0 4
  let len := fieldAt d 8 4
  firstFail ([(0, bits w0 16 16 == 0xD1C5 && bits w0 8 8 == 0 && bits w0 0 8 == 0x04),
    (4, bits (fieldAt d 4 4) 7 25 == 0),
    (8, len % 64 == 0 && 0x940 ≤ len && len ≤ 25165824),
    (0x10, fieldAt d 0x10 4 ≤ 256), (0x14, fieldAt d 0x14 4 == 0)]
    ++ (List.range 4).flatMap (fun w =>
      let o := 0x20 + 32 * w
      [(o, fieldAt d o 8 % 4096 == 0), (o + 8, fieldAt d (o + 8) 8 % 4096 == 0), (o + 16, fieldAt d (o + 16) 8 % 4096 == 0)]
        ++ zeroChecks d (o + 24) 2)
    ++ zeroChecks d 0xA0 24)

/-- A value moved by the lowest window that holds it. -/
def rebase (d : List Byte) (v : Nat) : Nat :=
  match (List.range 4).find? (fun w =>
    let o := 0x20 + 32 * w
    fieldAt d o 8 ≤ v && v < fieldAt d o 8 + fieldAt d (o + 16) 8) with
  | some w => (v - fieldAt d (0x20 + 32 * w) 8 + fieldAt d (0x28 + 32 * w) 8) % 2 ^ 64
  | none => v

/-- Bytes of a list replaced at an offset. -/
def patch (d : List Byte) (o : Nat) (x : List Byte) : List Byte :=
  if o + x.length ≤ d.length then d.take o ++ x ++ d.drop (o + x.length) else d

/-- Every field that a relocation entry names rebased, or why a value that is not 0 does not translate; a walk
that is lost does not (R374). -/
def Work.relocate (c : Nat) (tr : Trans) : List Nat → List Byte → Work → Except XFault (List Byte) × Work
  | [], d, w => (.ok d, w)
  | o :: r, d, w =>
    let v := rebase d (fieldAt d o 8)
    let d' := patch d o (toBytes 8 v)
    if v = 0 then Work.relocate c tr r d' w
    else match w.translate c tr v .read with
      | (.ok _, u) => Work.relocate c tr r d' u
      | (.error .perm, u) => Work.relocate c tr r d' u
      | (.error f, u) => (.error f, u)

/-- Sections of bytes from 0x900: kind word and content. -/
def cutSections : Nat → List Byte → List (Nat × List Byte)
  | 0, _ => []
  | n + 1, d =>
    let w := fieldAt d 0 4
    let len := fieldAt d 4 4
    if len < 16 || d.length < len then []
    else (w, (d.take len).drop 16) :: cutSections n (d.drop len)

/-- The other bits of a section's 16 bytes, which are 0. -/
def cutHeads : Nat → List Byte → Bool
  | 0, _ => false
  | n + 1, d =>
    let len := fieldAt d 4 4
    if len < 16 || d.length < len then false
    else fieldAt d 8 8 != 0 || cutHeads n (d.drop len)

/-- Whether one of a number of relocation entries has its upper half set. -/
def relHigh : Nat → List Byte → Bool
  | 0, _ => false
  | n + 1, d => fieldAt d 4 4 != 0 || relHigh n (d.drop 8)

/-- The words of a KIND 1 section as a tile's, their number, and the words of the held hops that follow them. -/
def sec1Words (x y : Nat) (bank : Bool) (d : List Byte) : Option (TileCfg × Nat × List Nat) :=
  let ws := wordsOf (d.length / 4) d
  match parseTile ws ws.length x y bank 0 with
  | .tile t n => some (t, n, ((do
      let _ ← Rd.raw (4 * n)
      Rd.list (Rd.num 2) : Rd (List Nat)) (d, [])).1)
  | .bad _ _ => none

/-- One section put into a region that is being restored, with what is left of the list of KIND 10. -/
def Work.restoreSec (p : Where) (r : Region) (u : Work × List Side) (s : Nat × List Byte) : Work × List Side :=
  let (w, side) := u
  let x := bits s.1 16 3 + r.x0
  let y := bits s.1 19 3 + r.y0
  let c := bits s.1 22 2
  let g := r.cluster
  let mod := w.modCtx g x y c
  let with_ := fun {α : Type} (f : Rd α) (go : α → Work) =>
    let (a, rest) := f (s.2, side)
    (go a, rest.2)
  match bits s.1 0 8 with
  | 1 => match sec1Words x y (isBank x y) s.2 with
    | some (t, _, h) => (w.modCluster g (fun k =>
        { k with ctxs := aset k.ctxs (ctxKey x y c) { t.ctx 0 with heldSw := h } }), side)
    | none => u
  | 2 => match w.m.ctx? g x y c with
    | some k => with_ (Rd.ctx2 k) (fun n => mod (fun _ => n))
    | none => u
  | 3 => with_ (do
      let d ← Rd.num 1
      let _ ← Rd.num 1
      let q ← Rd.times Rd.tok ((s.2.length - 2) / 72)
      pure (whereOf d, q)) (fun a => mod (fun k => k.modHop a.1 (fun h => { h with q := a.2, moved := w.m.tb })))
  | 4 => with_ (Rd.list (do
      let src ← Rd.num 1
      let dr ← Rd.flag
      let ds ← Rd.list (Rd.num 1)
      let t ← Rd.tok
      pure ({ tok := t, source := src, dests := ds, drop := dr } : SkidEnt))) (fun l => mod (fun k => { k with skid := l }))
  | 5 => with_ (Rd.sec5 w.m.tb) (fun a =>
        (mod (fun k => { k with reqs := a.1 })).modRegion p (fun r => { r with waves := r.waves ++ a.2 }))
  | 6 => with_ Rd.sec6 mod
  | 7 => match w.m.ctx? g x y c with
    | some k => with_ (Rd.ring k.rings) (fun a =>
        let v := mod (fun k => { k with rings := modNth k.rings a.1 (fun _ => a.2.1) })
        (List.range (a.2.2.length / 64)).foldl (fun u j =>
          u.sharePut g x y (a.2.1.base + 64 * j) ((a.2.2.drop (64 * j)).take 64)) v)
    | none => u
  | 8 => with_ (Rd.engine p.l p.r) (fun a => w.modCluster g (fun k => { k with engines := aset k.engines a.1 a.2 }))
  | 9 => with_ Rd.port (fun a => w.putPort p a.1 (fun q => q.join a.2))
  | _ => u

/-- The caches that a region walks through emptied: those of its tiles, and of its launch's translations those
of its sequencer and of the FI behind them; no translation outlives a configuration's place (R351). -/
def Work.dropCaches (w : Work) (tr : Trans) (r : Region) : Work :=
  let tile := fun (c : Nat) => c < 20000 && c / 64 == r.cluster && r.has r.cluster (c % 8) (c / 8 % 8)
  let shared := fun (c : Nat) => c == agentCache (8 * r.cluster) || c == fiCache (r.cluster / 24)
  w.mach (fun m => { m with tlbs := (m.tlbs.filter (fun e => !tile e.1)).map (fun e =>
    if shared e.1 then (e.1, e.2.filter (fun t => !(t.vmid == tr.vmid && t.asid == tr.asid))) else e) })

/-- A region emptied of its contexts and engines, whose kept-tile status stands until the next commit (R199),
and of its cached translations. -/
def Work.clearFabric (w : Work) (p : Where) (r : Region) : Work :=
  let es := w.m.enginesOf p r
  let gone := es.map (·.1)
  let tr := ((w.m.launch? p.l).map (·.trans)).getD Trans.none
  (((w.dropCaches tr r).mach (fun m => m.keepStats r.cluster es)).modCluster r.cluster (fun k =>
    { k with
      ctxs := k.ctxs.filter (fun e => !r.has r.cluster (keyX e.1) (keyY e.1))
      engines := k.engines.filter (fun e => !gone.contains e.1) })).modRegion p (fun r => { r with waves := [] })

/-- The tile of a section, the number of its words, and the switch words of its held hops. -/
def secTile (r : Extent) (s : Nat × List Byte) : Option (TileCfg × Nat × List Nat) :=
  sec1Words (bits s.1 16 3) (bits s.1 19 3) (isBank (bits s.1 16 3 + r.x0) (bits s.1 19 3 + r.y0)) s.2

/-- Faults of the MX words that the KIND 8 sections of an image carry (R4, R226), each at its place among its
engine's. -/
def mxSecFaults (r : Extent) (pword : Nat) (secs : List (Nat × List Byte)) : List (Nat × Nat) :=
  let es := (secs.filter (fun s => bits s.1 0 8 == 8)).map (fun s => (Rd.engine 0 0 (s.2, [])).1)
  let split := fun (x : Engine) => (List.range x.words.length).zip x.words
  let mine := fun (x : Engine) => match split x with
    | (i, c) :: rest => [takeEngine x.words.length i c rest]
    | [] => []
  es.flatMap (fun e =>
    let x := e.2
    let all := (es.filter (fun o => o.2.ctx == x.ctx)).flatMap (fun o => (mine o.2).map (·.1))
    let ts := (secs.filter (fun s => bits s.1 0 8 == 1 && bits s.1 22 2 == x.ctx)).filterMap (fun s => (secTile r s).map (·.1))
    (mine x).flatMap (fun m =>
      (if m.1.e != e.1 || bits (wordAt x.words 0) 24 8 != 0x60 then [(0, 0x09)] else [])
        ++ (match m.2.2, m.2.1 with
            | some k, _ => [(k, 0x09)]
            | none, k :: _ => [(k.1, 0x09)]
            | none, [] => [])
        ++ m.1.faults r ts x.nbv (bits pword 24 4) all))

/-- A section that carries a word of the spec with a reserved bit set: the status word of a KIND 8 (R199), a port
block of a KIND 9 (R137), an error record of a KIND 10 (R152). -/
def secReserved (s : Nat × List Byte) : Bool :=
  match bits s.1 0 8 with
  | 8 => bits (Rd.engine 0 0 (s.2, [])).1.2.keptStat 2 6 != 0
  | 9 =>
    let q := (Rd.port (s.2, [])).1.2
    (((s.2.drop 1).take 32) :: q.takes.map (·.block) ++ q.drains.map (·.block)).any (!blockOk ·)
  | 10 => (Rd.region (s.2, [])).1.errs.any (fun d => (ErrRec.ofBytes d).bytes != d)
  | _ => false

/-- A reserved bit of an image's sections or relocation table that is not 0 refuses the image, and so does a
word of a KIND 1 section or an MX word of a KIND 8 section that R61 refuses (R4): the cause and index, by the
model's choice those of R61, counted in the section, and cause 0x05 for the rest (DESIGN CHOICE, log 125). -/
def imageWordFault (r : Extent) (pword : Nat) (d : List Byte) : Option (Nat × Nat) :=
  let secs := cutSections (d.length / 64) (d.drop 0x900)
  let nbvOf := fun (h : Nat) => ((secs.find? (fun s => bits s.1 0 8 == 2 && s.1 / 2 ^ 16 == h / 2 ^ 16)).map (fun s =>
    fieldAt s.2 0 4)).getD 0
  let rel := relHigh 256 (d.drop 0x100)
  let heads := secs.any (fun s => bits s.1 8 8 != 0 || s.1 / 2 ^ 24 != 0)
  let pads := cutHeads (d.length / 64) (d.drop 0x900)
  lowestFault ((if rel || heads || pads || secs.any secReserved then [(0, 0x05)] else [])
    ++ (secs.filter (fun s => bits s.1 0 8 == 1)).flatMap (fun s =>
      match secTile r s with
      | some (t, n, held) => t.faults (nbvOf s.1) (shareOf pword)
        ++ (((List.range held.length).zip held).filter (fun h => !swOk t h.2)).map (fun h => (n + 1 + h.1 / 2, 0x07))
      | none => [(0, 0x05)])
    ++ mxSecFaults r pword secs)

/-- A region restored from the bytes of its image: it resumes at its next firing boundaries (R133). The held hops
are those that the image records: what the region held before goes with the rest of it (DESIGN CHOICE, log 144:
R54 keeps held hops through reconfigurations, and R133 gives the region the image's state). -/
def Work.restore (w : Work) (p : Where) (r : Region) (d : List Byte) : Work :=
  let secs := cutSections (d.length / 64) (d.drop 0x900)
  let rs := ((secs.find? (fun s => bits s.1 0 8 == 10)).map (fun s => (Rd.region (s.2, [])).1)).getD
    { creqs := [], brks := [], errs := [], lost := 0, side := [] }
  let v := (secs.foldl (Work.restoreSec p r) (w.clearFabric p r, rs.side)).1
  let u := rs.creqs.foldl (fun u q => u.modCluster r.cluster (fun k =>
    { k with ctxs := amod k.ctxs (q.1 + ctxKey r.x0 r.y0 0) (fun c => { c with creq := some q.2 }) })) v
  (u.mach (·.clearStats r)).modRegion p (fun r => { r with
    brks := rs.brks
    errq := rs.errs.map ErrRec.ofBytes
    lost := rs.lost
    state := 1
    cause := 0
    quiet := false
    timer := w.m.tb })

end Sys2Proof.Machine
end

