-- ==== Sys2Proof/Machine/Loads.lean ====
section
/-!
DEFINITION. Loads (R133, R134, R304, R306, R307): CFGL and CFGR, and the events by which a fabric
manager accepts a load, tiles stage it, and it commits or is discarded.
-/

namespace Sys2Proof.Machine

/-! ## CFGL and CFGR -/

/-- A load that a thread's word gives to the fabric manager, with the words of it that are already read and
those of them that are struck. -/
def Ctl.queueLoad (sl : BitVec 3) (d : Reg) (t : Thread) (p : Where) (l : Launch) (va : Word)
    (restore : Bool) (words : List Nat) (reads : List (Nat × Nat)) : Ctl Unit := do
  let w ← get
  let k := w.m.cur
  let id ← Ctl.outstand sl d (.cfg w.m.nextLoad) va
  let d : Load := { launch := p.l, region := p.r, report := .word k id, image := va, restore := restore, nbv := t.nbv,
                    trans := w.m.transOf k t, prio := l.prio, accepted := false, words := words, reads := reads,
                    fault := none, staged := [] }
  Ctl.upd (fun u => (u.queueLoad d).2)

/-- CFGL (R133): words 0 and 1 of the image translate; the load takes the thread's NBV (R180). -/
def execCfgl (d a : Reg) (sl ws : BitVec 3) (s : State) :=
  s.ctl (.cfgl d a sl ws) [a] [d] sl ws (fun t => do
    let (p, _, l) ← Ctl.bound (.cfgl d a sl ws) t
    let va := t.g a
    if va.toNat % 4 ≠ 0 then Ctl.trap 0x02 va
    let _ ← Ctl.span va.toNat 8 .read
    Ctl.queueLoad sl d t p l va false [] [])

/-- The header of a context image. -/
def headLen : Nat := 256

/-- The words of runs of keys, numbered from an index, that carry an uncorrectable error. -/
def Work.struckWords (w : Work) : Nat → List (Nat × Nat × Kind) → List Nat
  | _, [] => []
  | i, (k, n, _) :: r =>
    ((List.range (n / 4)).filter (fun j => w.poisoned (k + 4 * j) 4)).map (i + ·) ++ w.struckWords (i + n / 4) r

/-- CFGR (R133, R332): the header is captured at issue, and a bad one raises cause 0x0D. A struck word of it is
reported as that of any load (R372): its bytes say nothing that a trap could rest on. -/
def execCfgr (d a : Reg) (sl ws : BitVec 3) (s : State) :=
  s.ctl (.cfgr d a sl ws) [a] [d] sl ws (fun t => do
    let (p, _, l) ← Ctl.bound (.cfgr d a sl ws) t
    let va := t.g a
    let b ← Ctl.block va headLen 64
    let rs ← Ctl.span va.toNat headLen .read
    let w ← get
    let bad := w.struckWords 0 rs
    match imageHeaderFault b with
    | some o => if bad.isEmpty then Ctl.trap 0x0D (va + w64 o)
    | none => pure ()
    Ctl.queueLoad sl d t p l va true (wordsOf 64 b) (bad.map (fun i => (i, 0x0A))))

/-! ## Accepting (R306) -/

/-- A load is accepted and not yet decided. -/
def Load.open (d : Load) : Bool := d.accepted && d.fault.isNone

/-- The die of a load: its region's. -/
def Mach.dieOf (m : Mach) (d : Load) : Option Nat := (m.region? d.launch d.region).map (fun r => r.cluster / 24)

/-- The launch of a load holds its clusters; until then the load waits. -/
def Mach.holds (m : Mach) (l : Nat) : Bool :=
  match m.launch? l with
  | some x => x.holds
  | none => false

/-- A trigger's load waits while the launch that issued its TRIG is paused or pre-empted (R317). -/
def Mach.stands (m : Mach) (d : Load) : Bool :=
  match d.report, m.launch? d.launch with
  | .trigger _, some x => x.paused || x.floor
  | _, _ => false

/-- The next load of a die, none once a hold-up has begun (R381): by priority, then by arrival, among those whose
region has no load open (R134, R306). -/
def Mach.nextLoadOf (m : Mach) (die : Nat) : Option (Nat × Load) :=
  let ready := m.loads.filter (fun e => m.hold.phase == 0 && !e.2.accepted && m.dieOf e.2 == some die && m.holds e.2.launch &&
    !m.stands e.2 &&
    !m.loads.any (fun o => o.2.open && o.2.launch == e.2.launch && o.2.region == e.2.region))
  match ready with
  | [] => none
  | e :: r => some (r.foldl (fun a c => if c.2.prio < a.2.prio then c else a) e)

/-- One word of an image read from a die: the word, and the cause that it cannot be (R304, R372); cause 0
stands for one that waits for a detour, and one to which no way is left is unreadable (R374; DEDUCED, log 145). -/
def Work.imageWord (w : Work) (die c : Nat) (tr : Trans) (va : Nat) : (Nat × Option Nat) × Work :=
  match w.spanOf c tr (va % 2 ^ 64) 4 .read with
  | (.error (.wait, _), v) => ((0, some 0), v)
  | (.error _, v) => ((0, some 0x10), v)
  | (.ok rs, u) =>
    if rs.any (fun q => u.m.way die q.1 = .lost) then ((0, some 0x10), u)
    else if rs.any (fun q => u.m.way die q.1 = .wait) then ((0, some 0), u)
    else
      let v := u.portsNow true rs
      let x := ofBytes (v.bytesOf rs)
      if rs.any (fun q => v.poisoned q.1 q.2.1) then ((x, some 0x0A), v) else ((x, none), v)

/-- n words from a VA, numbered from an index: the words and those that could not be read. -/
def Work.imageWords (die c : Nat) (tr : Trans) : Nat → Nat → Nat → Work → List Nat × List (Nat × Nat) × Work
  | 0, _, _, w => ([], [], w)
  | n + 1, va, i, w =>
    let ((x, bad), v) := w.imageWord die c tr va
    let (xs, fs, u) := Work.imageWords die c tr n (va + 4) (i + 1) v
    (x :: xs, (match bad with
      | some k => (i, k) :: fs
      | none => fs), u)

/-- Words still wait for a detour. -/
def someWait (fs : List (Nat × Nat)) : Bool := fs.any (fun f => f.2 == 0)

/-- The words of a load, read as it is accepted: a configuration image as long as its count word
says, or a context image as long as its header says. Words 0 and 1 come first, as CFGL checks them at
issue: one that cannot be read settles the load (R133, R304), and so does a bad header of a context image. While
a word waits for a detour, the load waits (R374). -/
def Work.readLoad (w : Work) (n : Nat) (d : Load) (die : Nat) : Work :=
  let c := fiCache die
  let va := d.image.toNat
  let put := fun (v : Work) (ws : List Nat) (fs : List (Nat × Nat)) =>
    if someWait fs then w else v.mach (fun m => { m with loads := aset m.loads n { d with accepted := true, words := ws, reads := fs } })
  if d.restore && !d.reads.isEmpty then put w d.words d.reads
  else if d.restore then
    let (xs, fs, v) := Work.imageWords die c d.trans (wordAt d.words 2 / 4 - 64) (va + headLen) 64 w
    put v (d.words ++ xs) fs
  else
    let (two, lost, v) := Work.imageWords die c d.trans 2 va 0 w
    let count := wordAt two 1
    let n := if 5 ≤ count && count ≤ 65535 then count else 2
    let (xs, fs, u) := Work.imageWords die c d.trans (n - 2) (va + 8) 2 v
    if someWait lost then w
    else if lost.any (fun f => f.2 == 0x10) then put v [] (lost.filter (fun f => f.2 == 0x10))
    else put u (two ++ xs) (lost ++ fs)

/-- LOAD_ACCEPT (R306): the fabric manager of a die accepts its next load. -/
def execLoadAccept (die : Nat) (s : State) := s.event (fun w =>
  match w.m.nextLoadOf die with
  | some (n, d) => w.readLoad n d die
  | none => w)

/-! ## Staging (R134) -/

/-- The image of a load for its region. -/
def Mach.imageOf (m : Mach) (d : Load) (r : Region) : Image :=
  parseImage r.extent (m.pword r.cluster) d.nbv d.words

/-- The context numbers a load replaces at a tile: all of them where its words name none (R308). -/
def Image.replaces (m : Image) (r : Region) (x y c : Nat) : Bool :=
  match m.tiles.find? (fun t => t.x + r.x0 == x && t.y + r.y0 == y) with
  | some t => m.ctxNo t == c
  | none => true

/-- No token of the old configuration is in a context; hops of held routes keep theirs (R54), and
the weights of a grouped engine are no tokens that pass (R403). -/
def Mach.passed (m : Mach) (g : Nat) (e : Nat × Ctx) : Bool :=
  let c := e.2
  let held := fun (d : Nat) => c.holdWords.any (fun w => (swW w).dst == d)
  c.hops.all (fun h => h.2.q.isEmpty || held h.1) && c.skid.isEmpty && c.reqs.isEmpty && c.held.isEmpty
    && c.creq.isNone && c.entry.isEmpty
    && (List.range c.rings.length).all (fun n =>
      m.weightRing g (keyX e.1) (keyY e.1) (keyC e.1) n || (match c.rings[n]? with
        | some q => q.cells.all (fun s => s.2.tag == 0)
        | none => true))

/-- An engine holds nothing that a pair or a push is still to take. -/
def Engine.passed (e : Engine) : Bool :=
  !e.busy && e.cur.pairs == 0 && e.drain.pairs == 0 && e.drainState == 0

/-- The cluster tiles of an engine's A, B and result rings; none for an idle engine (R230). -/
def Engine.ringTiles (e : Engine) (n : Nat) : List (Nat × Nat) :=
  if e.words.isEmpty then [] else [(e.ringA n).1, (e.ringB n).1, (e.ringC n).1]

/-- The contexts of a region whose tokens reach a context in one move: across a link, or through an engine
whose result ring its tile holds. -/
def Mach.feeders (m : Mach) (p : Where) (r : Region) (k : Nat) : List Nat :=
  match m.ctx? r.cluster (keyX k) (keyY k) (keyC k) with
  | none => []
  | some u =>
    ((List.range 4).filter (fun s => u.routes.any (fun q => q.src == s))).filterMap (fun s =>
      (r.beyond (keyX k) (keyY k) s).bind (fun t => (m.ctx? r.cluster t.1 t.2 (keyC k)).bind (fun n =>
        (n.route (opposite s)).map (fun _ => ctxKey t.1 t.2 (keyC k)))))
    ++ (m.enginesOf p r).flatMap (fun e =>
      let ts := e.2.ringTiles e.1
      if e.2.ctx == keyC k && ts[2]? == some (keyX k, keyY k) then (ts.take 2).map (fun t => ctxKey t.1 t.2 (keyC k)) else [])

/-- Contexts and all that feed them, however far. -/
def Mach.upstream (m : Mach) (p : Where) (r : Region) : Nat → List Nat → List Nat
  | 0, l => l
  | n + 1, l =>
    let l' := union l (l.flatMap (m.feeders p r))
    if l'.length = l.length then l else Mach.upstream m p r n l'

/-- The old tail has passed a tile (R134, R306): no token of the old configuration is in a context that the
load replaces there, in one whose tokens still reach it, or in an engine on their way. -/
def Mach.tailPassed (m : Mach) (p : Where) (r : Region) (d : Load) (x y : Nat) : Bool :=
  let im := if d.restore then { tiles := [], mx := [], faults := [] } else m.imageOf d r
  let here := (m.ctxsOf r).filter (fun e => keyX e.1 == x && keyY e.1 == y && im.replaces r x y (keyC e.1))
  let all := m.upstream p r 256 (here.map (·.1))
  (m.ctxsOf r).all (fun e => !all.contains e.1 || m.passed r.cluster e)
    && (m.enginesOf p r).all (fun e => e.2.passed ||
      !(e.2.ringTiles e.1).any (fun t => all.contains (ctxKey t.1 t.2 e.2.ctx)))

/-- An open load and its region, which is not frozen. -/
def Mach.openLoad (m : Mach) (n : Nat) : Option (Load × Where × Region) :=
  match aget m.loads n with
  | some d =>
    match m.region? d.launch d.region with
    | some r => if d.open && m.hold.phase = 0 && r.state ≠ 2 && m.holds d.launch && !m.stands d then some (d, { l := d.launch, r := d.region }, r) else none
    | none => none
  | none => none

/-- LOAD_STAGE_AT_TILE (R134): tile (x, y) of load n's region stages its words once the old tail has passed
it. -/
def execLoadStageAtTile (n x y : Nat) (s : State) := s.event (fun w =>
  match w.m.openLoad n with
  | some (d, p, r) =>
    if r.has r.cluster x y && w.m.tailPassed p r d x y then
      w.mach (fun m => { m with loads := aset m.loads n { d with staged := union d.staged [8 * y + x] } })
    else w
  | none => w)

/-! ## Committing (R61, R332) -/

/-- The status of R133. -/
def loadStatus (f : Option (Nat × Nat)) : Nat :=
  match f with
  | some (i, c) => c + i % 2 ^ 16 * 2 ^ 16
  | none => 0

/-- A side of cluster g leads into a cluster of another partition (R36). -/
def Mach.foreign (m : Mach) (part g side : Nat) : Bool :=
  match Config.neighbour g side with
  | some q => (match m.partOfCluster q with
    | some o => o != part
    | none => false)
  | none => false

/-- The partition of a launch. -/
def Mach.launchPart (m : Mach) (l : Nat) : Nat :=
  match m.launch? l with
  | some x => x.part
  | none => 16

/-- A route that leaves tile (x, y) of a region by a side enters another partition's cluster (R36). -/
def Mach.enters (m : Mach) (p : Where) (r : Region) (x y side : Nat) : Bool :=
  side < 4 && (neighbour x y side).isNone && m.foreign (m.launchPart p.l) r.cluster side

/-- The switch words of an image that R36 refuses (R55, R61). -/
def Mach.crossFaults (m : Mach) (p : Where) (r : Region) (im : Image) : List (Nat × Nat) :=
  im.tiles.flatMap (fun t =>
    (t.sw.filter (fun s => !(swW s.2).null && m.enters p r (t.x + r.x0) (t.y + r.y0) (swW s.2).dst)).map (fun s => (s.1, 0x08)))

/-- Every word of a load struck or unreadable comes before its other faults at the same index; an image
whose first two words cannot be read has no other. -/
def Load.imageStatus (d : Load) (im : Image) (cross : List (Nat × Nat)) : Nat :=
  loadStatus (lowestFault (if d.words.isEmpty then d.reads else d.reads ++ im.faults ++ cross))

/-- The offsets that a context image's relocation entries name. -/
def relocOf (b : List Byte) : List Nat := (List.range (fieldAt b 0x10 4)).map (fun e => fieldAt b (0x100 + 8 * e) 4)

/-- A TAKE, DRAIN or STRS of a restored port whose word no thread waits on is not resumed. -/
def Mach.waits (m : Mach) (kept : AMap Thread) (agent pend : Nat) (op : PendOp) : Bool :=
  let has := fun (t : Option Thread) => match t with
    | some t => t.pend.any (fun p => p.id == pend && p.op == op)
    | none => false
  has (aget m.thr agent) || has (aget kept agent)
def Port.rejoin (m : Mach) (kept : AMap Thread) (k : Nat) (q : Port) : Port :=
  { q with
    takes := q.takes.filter (fun t => m.waits kept t.agent t.pend (.take k))
    drains := q.drains.filter (fun t => match t.agent with
      | some a => m.waits kept a t.pend (.drain k)
      | none => true)
    stream := q.stream.map (fun s => { s with waiting := s.waiting.filter (fun t => m.waits kept t.2.1 t.2.2 (.strs k)) }) }
def Work.rejoin (w : Work) (p : Where) : Work :=
  let kept := ((w.m.launch? p.l).map (·.kept)).getD []
  w.modRegion p (fun r => { r with ports := r.ports.map (fun e => (e.1, e.2.rejoin w.m kept e.1)) })

/-- A context image restored into a region, or the status for which it is discarded (R133, R332); none while
the walk of a relocated value waits for a detour (R374). -/
def Work.tryRestore (w : Work) (p : Where) (r : Region) (d : Load) : Option Nat × Work :=
  let b := d.words.flatMap (toBytes 4)
  let h := fieldAt b 4 4
  let at_ := b.length - 48
  match lowestFault d.reads with
  | some f => (some (loadStatus (some f)), w)
  | none =>
    if bits h 0 3 + 1 ≠ r.rows || bits h 3 3 + 1 ≠ r.cols || bits h 6 1 ≠ (r.x0 + r.y0) % 2 then (some 0x02, w)
    else if crc32c ((b.take at_).drop 0x900) ≠ fieldAt b at_ 4 then (some 0x04, w)
    else match imageWordFault r.extent (w.m.pword r.cluster) b with
    | some f => (some (loadStatus (some f)), w)
    | none => match Work.relocate (fiCache (r.cluster / 24)) d.trans (relocOf b) b w with
      | (.error .wait, v) => (none, v)
      | (.error _, v) => (some 0x12, v)
      | (.ok x, v) =>
        let u := v.restore p r x
        let out := (u.m.ctxsOf r).any (fun e => e.2.routes.any (fun s => u.m.enters p r (keyX e.1) (keyY e.1) s.dst))
        if out then (some 0x08, v) else (some 0, u.rejoin p)

/-- The contexts of the TENTRY tiles of an image (R313). -/
def Image.entries (m : Image) (r : Region) : List Nat :=
  (m.tiles.filter (fun t => !t.bank && t.op 1 == 0xB1)).map (fun t => ctxKey (t.x + r.x0) (t.y + r.y0) (m.ctxNo t))

/-- A block's load gives block mode the TENTRY tiles of its image (R313). -/
def Work.blockLoaded (w : Work) (p : Where) (d : Load) (l : List Nat) : Work :=
  if d.report = .block then w.modRegion p (fun r => { r with block := r.block.map (fun b => { b with entries := l }) }) else w

/-- A load whose words every tile has staged commits every tile or none, and reports (R61). -/
def Work.decide (w : Work) (n : Nat) (d : Load) (p : Where) (r : Region) : Work :=
  if d.restore then
    match w.tryRestore p r d with
    | (none, v) => v
    | (some st, v) => v.endLoad n st
  else
    let im := w.m.imageOf d r
    let st := d.imageStatus im (w.m.crossFaults p r im)
    if st = 0 then ((w.commitImage p r im d.nbv).blockLoaded p d (im.entries r)).endLoad n 0 else w.endLoad n st

/-- CONFIG_COMMIT (R61): load n commits or is discarded once every tile has staged it. -/
def execConfigCommit (n : Nat) (s : State) := s.event (fun w =>
  match w.m.openLoad n with
  | some (d, p, r) =>
    if r.extent.cells.all (fun c => d.staged.contains (8 * (c.2 + r.y0) + c.1 + r.x0)) then w.decide n d p r else w
  | none => w)

/-- CREQ_COMPLETE (R307): the status of a load that a CREQ asked for reaches its tile. -/
def execCreqComplete (n : Nat) (s : State) := s.event (fun w =>
  match aget w.m.loads n with
  | some d =>
    match d.report, d.fault with
    | .creq g x y c, some (cause, i) =>
      let v := (w.mach (fun m => { m with loads := aerase m.loads n })).modCtx g x y c (fun k =>
        { k with creq := k.creq.map (fun q => if q.load = n then { q with status := some (cause + i * 2 ^ 16) } else q) })
      match v.m.regionAt g x y with
      | some (p, _) => v.frozenIf p
      | none => v
    | _, _ => w
  | none => w)

end Sys2Proof.Machine
end

