-- ==== Sys2Proof/Machine/Freeze.lean ====
section
/-!
DEFINITION. Stopped regions: the hang timer, its declaration and map (R323 to R326), the end of a
freeze (R327), thawing (R329), and the debug words TRCE, MARK, BRK and DUMP (R155 to R157, R390 to
R392).
-/

namespace Sys2Proof.Machine

/-! ## The hang timer (R323) -/

/-- The tokens of a context, of every kind. -/
def Ctx.count (m : Mach) (g k : Nat) (c : Ctx) : Nat :=
  let hops := (c.hops.map (fun h => h.2.q.length)).foldl (· + ·) 0
  let reqs := (c.reqs.map (fun q => Nat.max 1 q.replies.length)).foldl (· + ·) 0
  let slots := (List.range c.rings.length).foldl (fun a n =>
    if m.weightRing g (keyX k) (keyY k) (keyC k) n then a
    else match c.rings[n]? with
      | some r => a + (r.cells.filter (fun s => s.2.tag != 0)).length
      | none => a) 0
  hops + c.skid.length + reqs + c.held.length + c.entry.length + (if c.creq.isSome then 1 else 0) + slots

/-- The tokens that remain in a region: in buffers, skids, requests, rings, open areas. -/
def Mach.count (m : Mach) (p : Where) (r : Region) : Nat :=
  ((m.ctxsOf r).map (fun e => e.2.count m r.cluster e.1)).foldl (· + ·) 0
    + ((m.enginesOf p r).map (fun e => (if e.2.cur.pairs != 0 then 1 else 0) + (if e.2.drain.pairs != 0 then 1 else 0))).foldl (· + ·) 0

/-- The timer advances: the region runs, its launch is not paused, a token remains, and no request
and no CREQ is outstanding. -/
def Mach.counting (m : Mach) (l : Launch) (p : Where) (r : Region) : Bool :=
  r.state == 1 && !l.paused && !l.floor && l.holds && m.count p r != 0
    && (m.ctxsOf r).all (fun e => !e.2.awaits r && (match e.2.creq with
      | some q => q.status.isSome
      | none => true))

/-- The regions of a launch with the timers that do not advance moved on by d. -/
def Mach.heldRegions (m : Mach) (n : Nat) (l : Launch) (d : Nat) : List Region :=
  (List.range l.regions.length).filterMap (fun k => (l.regions[k]?).map (fun r =>
    if m.counting l { l := n, r := k } r then r else { r with timer := r.timer + d }))

/-- Timers that do not advance stand while TB passes. -/
def Mach.holdTimers (m : Mach) (d : Nat) : Mach :=
  { m with launches := m.launches.map (fun e => (e.1, { e.2 with regions := m.heldRegions e.1 e.2 d })) }

/-- A region is hung (R323). -/
def Mach.hung (m : Mach) (l : Launch) (p : Where) (r : Region) : Bool :=
  m.counting l p r && m.quiescent p r && r.timer + (m.part l.part).hangInt ≤ m.tb

/-! ## The blocked-port map (R325, R326) -/

/-- Whether the head slot of ring q of a cluster is full. -/
def Mach.headFull (m : Mach) (g c : Nat) (q : (Nat × Nat) × Nat) : Bool :=
  match (m.ctx? g q.1.1 q.1.2 c).bind (fun k => k.rings[q.2]?) with
  | some r => (r.slot r.head).tag == 2
  | none => false

/-- An engine waits for a full head slot of ring q while the other of its operand rings has one. -/
def Mach.headAwaited (m : Mach) (g c : Nat) (q : (Nat × Nat) × Nat) : Bool :=
  !m.headFull g c q && (match aget m.clusters g with
    | some k => k.engines.any (fun e => e.2.ctx == c && !e.2.words.isEmpty &&
        ((e.2.ringA e.1 == q && m.headFull g c (e.2.ringB e.1)) || (e.2.ringB e.1 == q && m.headFull g c (e.2.ringA e.1))))
    | none => false)

/-- The inputs of a bank operation: 0 A to 3 D. -/
def bankIns (s : Nat) : List Nat :=
  match bits s 24 8 with
  | 0xA0 | 0xA2 | 0xA4 => [bits s 20 4 - 1]
  | 0xA1 => [bits s 20 4 - 1, bits s 16 4 - 1]
  | _ => []

/-- The bank operation of a tile that an input feeds. -/
def Ctx.opAt (c : Ctx) (i : Nat) : Nat := (c.stages.find? (fun s => (bankIns s).contains i)).getD 0

/-- An empty input that a bank operation needs while its other input holds a token, or that is to fill the
slot an engine waits for (R326). -/
def Mach.bankWants (m : Mach) (g k : Nat) (c : Ctx) (i : Nat) : Bool :=
  let s := c.opAt i
  (c.hop (4 + i)).q.isEmpty && !c.tied (4 + i) &&
    ((bankIns s).any (fun j => !(c.hop (4 + j)).q.isEmpty)
      || (bits s 24 8 == 0xA2 && m.headAwaited g (keyC k) ((keyX k, keyY k), bits s 0 2)))

/-- What an input of a bank tile waits for (R326; log 53). -/
def Mach.bankAwait (m : Mach) (g k : Nat) (c : Ctx) (i : Nat) : Nat :=
  let s := c.opAt i
  let empty := fun (j : Nat) => (c.hop (4 + j)).q.isEmpty && !c.tied (4 + j)
  if empty i then
    (if bits s 24 8 == 0xA2 && m.headAwaited g (keyC k) ((keyX k, keyY k), bits s 0 2) then 8 else 1)
  else if (bankIns s).any empty then 3
  else match bits s 24 8 with
    | 0xA2 => 7
    | 0xA1 => 4
    | 0xA0 => if (c.dests 4).all c.space then 0 else 2
    | _ => 0

/-- The head of an input is a data token that decides an item: its token. -/
def Ctx.decides (c : Ctx) (i : Nat) (v : Bool) : Bool :=
  match c.dataAt i with
  | some t => !t.tag && t.isTrue == v
  | none => false

/-- The inputs of a context's own firing rule in its present state (R278), and those of them without which it
does not fire: tokens that are not data need every one (R277). -/
def Ctx.rule (c : Ctx) : List Nat × List Nat :=
  let a := c.inA
  let b := c.inB
  let s := c.stage 1
  let cond := bits s 0 2
  let q := bits s 2 2
  let early := fun (i : Nat) => bitAt c.early i
  let all := fun (l : List Nat) => (l, l)
  let (ins, needs) := match c.op1 with
    | 0x70 => (c.fireIns, c.fireIns.filter (fun i => !early i))
    | 0x71 =>
      let rest := c.fireIns.filter (fun i => !early i)
      if bits s 0 2 = 0 then (c.fireIns, match c.dataAt a with
        | some t => if t.tag then rest else rest ++ [if t.isTrue then b else q]
        | none => rest)
      else (c.fireIns, if early a && (c.decides a (bits s 0 2 == 2) || c.decides b (bits s 0 2 == 2)) then rest
        else rest ++ [a, b])
    | 0x73 => ([a, b], if (c.dataAt a).isSome || (c.dataAt b).isSome then [] else [a, b])
    | 0x76 => ([a, b], match c.dataAt b with
      | some o => if c.held.any (fun t => t.item == o.item) then [b] else [a, b]
      | none => [b])
    | 0x78 => if !c.looping then all [a]
      else ([cond, b], if c.decides cond true then [cond, b] else [cond])
    | 0x7A => ([a, b], match c.dataAt a with
      | some t => if !t.tag && t.isTrue then [a] else [a, b]
      | none => [a])
    | 0xB1 => all []
    | _ => all c.fireIns
  let ins := ins.filter (fun i => !c.tied (4 + i))
  if ins.any (fun i => (c.head i).any (·.kind != 0)) then (ins, ins)
  else (ins, needs.filter (fun i => !c.tied (4 + i)))

/-- What an input of a pipeline tile's context waits for (R326; log 53). `full` says that the firing rule is met
and the skid is full. -/
def Ctx.awaitIn (c : Ctx) (full : Bool) (i : Nat) : Nat :=
  let others := c.rule.1.filter (· != i)
  if (c.hop (4 + i)).q.isEmpty then 1
  else if full then 2
  else if c.op1 == 0x76 && i == c.inA then 6
  else if c.rule.2.any (fun j => j != i && (c.hop (4 + j)).q.isEmpty) then 3
  else if bitAt c.early i then 6
  else if others.any (fun j => (c.head j).isSome && (c.head j).map (·.kind) != (c.head i).map (·.kind)) then 4
  else if !c.reqs.isEmpty then 5
  else if !c.skidFree then 2
  else 0

/-- What an output hop waits for: at a sink port a TAKE, before a consumer space, where that is wanting. -/
def Ctx.awaitOut (c : Ctx) (sink : Bool) (d : Nat) : Nat :=
  if sink then 9 else if c.space d then 0 else 2

/-- Where a pipeline tile's context needs an empty input while another input of its rule holds a token, those
that ORDJ holds among them. -/
def Ctx.wants (c : Ctx) (i : Nat) : Bool :=
  c.rule.2.contains i && (c.hop (4 + i)).q.isEmpty &&
    (!c.held.isEmpty || c.rule.1.any (fun j => !(c.hop (4 + j)).q.isEmpty))

/-- The stage or bank operation slot that feeds a route from source 4, 5 or 6 (R54). -/
def Ctx.feedingStage (c : Ctx) (src : Nat) : Nat :=
  if c.bank then c.stages.findIdx (fun s => bits s 24 8 == (if src = 4 then 0xA0 else 0xA3)) + 1
  else if src = 5 then 3
  else 6

/-- The entry of a hop: the tile's firing entry for an input, that of the stage or slot that feeds an output
(R58). -/
def Ctx.hopEntry (c : Ctx) (d : Nat) : Nat × Nat :=
  if 4 ≤ d then c.firingEntry
  else match c.route d with
    | some s => if 4 ≤ s.src && s.src ≤ 6 then c.nodeOf (c.feedingStage s.src) else (0xFFFFFF, 15)
    | none => (0xFFFFFF, 15)

/-- The node of a hop (R58, R326). -/
def Ctx.hopNode (c : Ctx) (d : Nat) : Nat := (c.hopEntry d).1

/-- An entry of the map: WHERE 0 to 3 for inputs, 4 to 7 for output hops. -/
def Mach.mapEntry (m : Mach) (p : Where) (r : Region) (k : Nat) (c : Ctx) (wh : Nat) : List Byte :=
  let x := keyX k
  let y := keyY k
  let d := if wh < 4 then 4 + wh else wh - 4
  let h := c.hop d
  let s := (c.route d).getD { dst := d, src := 7, net := 0, depth := 0, rep := false, hold := false, kill := false }
  let why := if wh < 4 then 
    (if c.bank then m.bankAwait r.cluster k c wh
      else c.awaitIn (!c.skidFree && c.fires (m.age p r) m.tb) wh)
    else c.awaitOut ((r.beyond x y d).isNone && (m.heldLink r.cluster x y (keyC k) d).isNone) d
  let await := if why = 0 && m.loadPending p then 10 else why
  let head := h.q.head?
  let hd := match head with
    | some t => t.item + t.kind * 2 ^ 16 + (if t.tag then 2 ^ 18 else 0)
    | none => 0
  toBytes 4 ((x - r.x0) + (y - r.y0) * 2 ^ 3 + keyC k * 2 ^ 6 + wh * 2 ^ 8 + s.net * 2 ^ 12 + s.depth * 2 ^ 14
      + h.q.length * 2 ^ 16 + await * 2 ^ 24)
    ++ toBytes 4 hd ++ toBytes 4 (c.hopNode d) ++ toBytes 4 h.moved

/-- The entries of a region in order. -/
def Mach.mapEntries (m : Mach) (p : Where) (r : Region) : List (List Byte) :=
  (m.ctxsOf r).flatMap (fun e =>
    ((List.range 8).filter (fun wh =>
      if wh < 4 then !(e.2.hop (4 + wh)).q.isEmpty || (if e.2.bank then m.bankWants r.cluster e.1 e.2 wh else e.2.wants wh) else !(e.2.hop (wh - 4)).q.isEmpty)).map
      (fun wh => m.mapEntry p r e.1 e.2 wh))

/-- The word of R325 at 0x04. -/
def Region.shapeWord (r : Region) : Nat :=
  r.cluster + r.x0 * 2 ^ 8 + r.y0 * 2 ^ 11 + (r.rows - 1) * 2 ^ 14 + (r.cols - 1) * 2 ^ 17

def Mach.hangMap (m : Mach) (l : Launch) (p : Where) (r : Region) : List Byte :=
  let es := m.mapEntries p r
  toBytes 4 0xD1A90001 ++ toBytes 4 r.shapeWord ++ toBytes 8 r.tbFrz ++ toBytes 8 r.tbAct ++ toBytes 4 es.length
    ++ toBytes 4 (m.count p r) ++ toBytes 8 l.status.toNat ++ zeroBytes 24 ++ (es.take 1020).flatten

/-- A hung region is frozen and mapped, and its threads are asked to park (R324, R413). -/
def Work.declareHang (w : Work) (x : Launch) (p : Where) : Work :=
  let v := w.freezeAt p 3 0
  let part := v.m.part x.part
  let buf := part.hangBase.toNat + part.hangNext * 16384
  let count := fun (u : Work) (step : Nat) => u.setPart x.part (fun y =>
    { y with hangs := (y.hangs + 1) % 2 ^ 32, hangNext := (y.hangNext + step) % 16 })
  let (val, u) := if part.hangBase = 0 then (0, count v 1)
    else match v.m.region? p.l p.r with
      | some q =>
        let (ok, u) := v.deviceStore noCache part.hangTrans buf (v.m.hangMap x p q)
        if ok then (buf, count u 1) else (0, count u 0)
      | none => (0, v)
  u.parkBound p 0x10 (w64 val)

/-- A frozen region resumes (R329): its hang timer restarts, and the cycles it stood frozen count in no
interval (R389). From the trap of a hold-up on none does (R381). -/
def Work.thaw (w : Work) (p : Where) : Work :=
  match w.m.region? p.l p.r with
  | none => w
  | some r =>
    if r.state ≠ 2 || 2 ≤ w.m.hold.phase then w
    else
      let off := (w.m.tb - r.tbFrz) * w.m.cycPace / Nat.max 1 w.m.pace
      let v := w.modCluster r.cluster (fun k => { k with ctxs := k.ctxs.map (fun e =>
        if r.has r.cluster (keyX e.1) (keyY e.1) then
          (e.1, { e.2 with lastBegin := e.2.lastBegin.map (· + off) })
        else e) })
      v.modRegion p (fun r => { r with state := 1, cause := 0, quiet := false, floorFrz := false, timer := w.m.tb })

/-! ## TRCE and MARK (R155) -/

def execTrce (d a : Reg) (sl ws : BitVec 3) (s : State) :=
  s.ctl (.trce d a sl ws) [a] [d] sl ws (fun t => do
    let (p, r, _) ← Ctl.bound (.trce d a sl ws) t
    let va := t.g a
    let b ← Ctl.block va 32 32
    let buf := fieldAt b 0 8
    let len := fieldAt b 8 8
    let f := fieldAt b 0x10 4
    Ctl.needs va [(0, buf % 64 == 0), (8, len % 64 == 0 && 64 ≤ len), (0x10, f < 16)]
    Ctl.zeros va b 0x14 3
    let w ← get
    if bitAt f 0 then do
      let tr : Trace := { buf := w64 buf, len := len, firings := bitAt f 1, excess := bitAt f 2, wrap := bitAt f 3,
                          written := 0, stopped := false, trans := w.m.transOf w.m.cur t }
      Ctl.upd (fun u => u.modRegion p (fun q => { q with trace := some tr }))
      Ctl.result d 0
    else do
      Ctl.upd (fun u => u.modRegion p (fun q => { q with trace := none }))
      Ctl.result d (w64 (match r.trace with
        | some x => x.written
        | none => 0))
    Ctl.done)

def execMark (a : Reg) (sl ws : BitVec 3) (s : State) :=
  s.ctl (.mark a sl ws) [a] [] sl ws (fun t => do
    let (p, _, _) ← Ctl.bound (.mark a sl ws) t
    let w ← get
    Ctl.upd (fun u => u.traceRec p (t.g a).toNat (w.m.tb % 2 ^ 60 + 3 * 2 ^ 60))
    Ctl.done)

/-! ## BRK (R156) -/

def execBrk (d a : Reg) (sl ws : BitVec 3) (s : State) :=
  s.ctl (.brk d a sl ws) [a] [d] sl ws (fun t => do
    let (p, r, _) ← Ctl.bound (.brk d a sl ws) t
    let va := t.g a
    let b ← Ctl.block va 16 16
    let w0 := fieldAt b 0 4
    Ctl.needs va [(0, bits w0 27 5 == 0), (8, fieldAt b 8 4 < 65536), (0x0C, fieldAt b 0x0C 4 < 4)]
    if bitAt w0 24 then
      match (List.range 4).find? (fun k => (aget r.brks k).isNone) with
      | none => Ctl.result d allOnes
      | some k => do
        let x : Brk := { node := bits w0 0 24, anyLoop := bitAt w0 25, anyItem := bitAt w0 26, loop := fieldAt b 4 4,
                         item := fieldAt b 8 4 }
        Ctl.upd (fun u => u.modRegion p (fun q => { q with brks := aset q.brks k x }))
        Ctl.result d (w64 k)
    else do
      let k := fieldAt b 0x0C 4
      Ctl.result d (if (aget r.brks k).isSome then 0 else 1)
      Ctl.upd (fun u => u.modRegion p (fun q => { q with brks := aerase q.brks k }))
    Ctl.done)

/-! ## DUMP (R157, R392) -/

/-- A section: its head and content, padded to 64 bytes. -/
def dumpSec (n kind : Nat) (content : List Byte) : List Byte :=
  let len := (16 + content.length + 63) / 64 * 64
  toBytes 4 (n + kind * 2 ^ 16) ++ toBytes 4 len ++ zeroBytes 8 ++ content ++ zeroBytes (len - 16 - content.length)

/-- A breakpoint slot as a BRK block. -/
def brkBytes (k : Nat) : Option Brk → List Byte
  | none => zeroBytes 16
  | some x => toBytes 4 (x.node + 2 ^ 24 + (if x.anyLoop then 2 ^ 25 else 0) + (if x.anyItem then 2 ^ 26 else 0))
      ++ toBytes 4 x.loop ++ toBytes 4 x.item ++ toBytes 4 k

def Region.statusSec (r : Region) : List Byte :=
  toBytes 4 r.shapeWord ++ toBytes 4 (r.state + r.cause * 2 ^ 4 + r.slot * 2 ^ 8) ++ toBytes 8 r.tbFrz
    ++ (List.range 4).flatMap (fun k => brkBytes k (aget r.brks k))

/-- The excess log of a context: 48 bytes. -/
def excSec (r : Region) (e : Nat × Ctx) : List Byte :=
  toBytes 4 ((keyX e.1 - r.x0) + (keyY e.1 - r.y0) * 2 ^ 3 + keyC e.1 * 2 ^ 6) ++ toBytes 4 e.2.firingEntry.1
    ++ (List.range 10).flatMap (fun k => toBytes 4 (agetD e.2.exc k 0))

/-- The thread section of a DUMP: the thread as it issues the word, with the PC of the next (R392). -/
def Thread.dumpFirst (t : Thread) : List Byte := { t with pc := t.pc + 4 }.section1

/-- The sections of a dump of a thread, by its thread section, and its region. The content of a section from 4
onward is the section of R331, with its own 16 bytes (log 52). -/
def Work.dumpSecs (w : Work) (p : Where) (r : Region) (thread : List Byte) : List (List Byte) :=
  let first := [dumpSec 1 0 thread, dumpSec 2 0 r.statusSec]
  if r.state = 0 then first
  else
    let secs := w.sections p r
    first ++ [dumpSec 3 0 ((w.m.ctxsOf r).flatMap (excSec r))]
      ++ (List.range secs.length).filterMap (fun k => (secs[k]?).map (fun q => dumpSec (4 + k) q.kind q.bytes))

/-- Bytes written in lines of 64, up to one that faults. -/
def Work.putLines (c : Nat) (tr : Trans) : Nat → Nat → List Byte → Work → Bool × Work
  | 0, _, _, w => (true, w)
  | n + 1, va, d, w =>
    if d.isEmpty then (true, w)
    else match w.deviceStore c tr (va % 2 ^ 64) (d.take 64) with
      | (true, v) => Work.putLines c tr n (va + 64) (d.drop 64) v
      | (false, v) => (false, v)

/-- Whole sections written one after another, the marker after each: how many were written, whether
one faulted, and the offset reached. -/
def Work.dumpWrite (c : Nat) (tr : Trans) (va cap : Nat) :
    List (List Byte) → Nat → Nat → Work → Nat × Bool × Nat × Work
  | [], n, off, w => (n, false, off, w)
  | s :: rest, n, off, w =>
    if cap < off + s.length then (n, false, off, w)
    else match Work.putLines c tr s.length (va + off) s w with
      | (false, v) => (n, true, off, v)
      | (true, v) =>
        match v.deviceStore c tr va (toBytes 8 (0xD0C00001 * 2 ^ 32 + n + 1)) with
        | (true, u) => Work.dumpWrite c tr va cap rest (n + 1) (off + s.length) u
        | (false, u) => (n, true, off, u)

/-- A dump that started at a TB written into a buffer: g[d] and the workspace. -/
def Work.dump (w : Work) (c : Nat) (tr : Trans) (va cap tb : Nat) (secs : List (List Byte)) : Nat × Work :=
  if cap < 64 then (1, w)
  else match w.deviceStore c tr va (toBytes 8 (0xD0C00001 * 2 ^ 32)) with
    | (false, v) => (2 ^ 63, v)
    | (true, v) =>
      let (n, bad, off, u) := Work.dumpWrite c tr va cap secs 0 64 v
      if bad then (2 ^ 63 + n % 2 ^ 16, u)
      else
        let left := if n = secs.length then 0 else n + 1
        let head := toBytes 8 (0xD0C00002 * 2 ^ 32 + n % 2 ^ 16 * 2 ^ 16 + left % 2 ^ 16) ++ toBytes 8 tb ++ toBytes 8 off
          ++ zeroBytes 40
        match u.deviceStore c tr va head with
        | (true, z) => (left, z)
        | (false, z) => (2 ^ 63 + n % 2 ^ 16, z)

/-- A DUMP at its start; one that already waits at its PC has started. -/
def Thread.startDump (t : Thread) (tb : Nat) : DumpStart :=
  match t.dumping with
  | some x => if x.pc = t.pc then x else { pc := t.pc, tb := tb, first := t.dumpFirst, froze := false }
  | none => { pc := t.pc, tb := tb, first := t.dumpFirst, froze := false }

/-- DUMP (R157, R392): a running region is frozen first, and the word issues again once the freeze is
complete; then it writes its buffer, with what stood at its start, and thaws what it froze. It waits for the loads
into its operands alone: of another register that a load is outstanding into it writes what stands there (DESIGN
CHOICE, log 157). -/
def execDump (d a : Reg) (sl ws : BitVec 3) (b : Reg) (s : State) :=
  s.ctl (.dump d a sl ws b) [a, b] [d] sl ws (fun t => do
    let (p, r, _) ← Ctl.bound (.dump d a sl ws b) t
    let va := t.g a
    if va.toNat % 64 ≠ 0 then Ctl.trap 0x02 va
    if !t.clear .so then Ctl.hold
    let w ← get
    let x := t.startDump w.m.tb
    if r.state = 1 then do
      Ctl.me (fun t => { t with dumping := some { x with froze := true } })
      Ctl.upd (fun u => u.freezeAt p 5 0)
    else if r.state = 2 && r.quiet then Ctl.me (fun t => { t with dumping := some x })
    else do
      let (c, tr) ← Ctl.trans
      let w ← get
      let secs := w.dumpSecs p r x.first
      let len := (secs.map List.length).foldl (· + ·) 64
      if w.storeWaits c tr va.toNat (Nat.min len (t.g b).toNat) then Ctl.hold
      let (v, u) := w.dump c tr va.toNat (t.g b).toNat x.tb secs
      set (if x.froze && r.cause = 5 then u.thaw p else u)
      Ctl.me (fun t => { t with dumping := none })
      Ctl.result d (w64 v)
      Ctl.done)

end Sys2Proof.Machine
end

