-- ==== Sys2Proof/Machine/Launches.lean ====
section
/-!
DEFINITION. Launches (R298 to R305, R316, R333 to R335): their submission, placement and end;
threads (R142 to R144) and their ends; the release of regions (R329), eviction (R334), and the
events that follow from waiting.
-/

namespace Sys2Proof.Machine

/-! ## Releasing regions (R329, R143) -/

/-- Every item of a port not yet completed is finally failed: the port, and those items. -/
def Port.failAll (q : Port) : Port × List Nat :=
  let live := (q.attempts.map (fun a => (a.item, a.row, a.no))).eraseDups
  let sent := match q.stream with
    | some s => (s.waiting.filter (fun t => t.1.kind == 0)).map (fun t => (t.1.item, (none : Option Nat), 0))
    | none => []
  let new := live ++ sent
  ({ q with stream := none, attempts := [], failed := q.failed ++ new }, new.map (·.1))

/-- STRS words whose tokens will never enter are complete. -/
def Work.endStrs (w : Work) (q : Port) : Work :=
  match q.stream with
  | some s => s.waiting.foldl (fun u t => u.endPend t.2.1 t.2.2 (some (w64 (if t.1.kind = 0 then t.1.item else 0)))) w
  | none => w

/-- Failed items queued to the partition OS (R143). -/
def Work.queueFailed (w : Work) (part : Nat) (p : Where) (port : Nat) (l : List Nat) : Work :=
  w.setPart part (fun y => { y with failedItems := y.failedItems ++ l.map (fun n => (p.l, p.r, port, n)) })

/-- A region emptied: no configuration, and nothing that waits for a freeze. -/
def Work.empty (w : Work) (p : Where) (r : Region) : Work :=
  let clear := fun (r : Region) =>
    let b := r.block.map (fun b => { b with block := none, entries := [], rest := [] })
    { r with state := 0, cause := 0, slot := 0, quiet := false, waves := [], block := b }
  (w.clearFabric p r).modRegion p clear

/-- RELEASE (R329): the region empties, its unresolved items finally fail and are queued to the
partition OS, and its ports list them to DRAIN. -/
def Work.release (w : Work) (p : Where) : Work :=
  match w.m.launch? p.l, w.m.region? p.l p.r with
  | some l, some r =>
    let v := r.ports.foldl (fun u e =>
      let (q, new) := e.2.failAll
      ((u.endStrs e.2).putPort p e.1 (fun _ => q)).queueFailed l.part p e.1 new) (w.empty p r)
    v
  | _, _ => w

/-! ## The end of threads and launches (R143, R305) -/

/-- A pending word's number that no agent has: what a job or load reports to once its thread is gone. -/
def noPend : Nat := 2 ^ 64

/-- A thread's words no longer report to it. -/
def Port.disown (k : Nat) (q : Port) : Port :=
  { q with
    takes := q.takes.filter (fun t => t.agent != k)
    drains := q.drains.filter (fun t => t.agent != some k)
    stream := q.stream.map (fun s => { s with waiting := s.waiting.map (fun t =>
      if t.2.1 = k then (t.1, k, noPend) else t) }) }
def Region.disown (k : Nat) (r : Region) : Region :=
  { r with
    ports := r.ports.map (fun e => (e.1, e.2.disown k))
    block := r.block.bind (fun b => if b.agent = k then none else some b) }
def LoadFor.disown (k : Nat) (r : LoadFor) : LoadFor :=
  match r with
  | .word t p => if t = k then .word k noPend else .word t p
  | r => r
def Work.disown (w : Work) (k l : Nat) : Work :=
  (w.mach (fun m => { m with
    jobs := m.jobs.map (fun e => (e.1, if e.2.agent = k then { e.2 with pend := noPend } else e.2))
    loads := m.loads.map (fun e => (e.1, { e.2 with report := e.2.report.disown k })) })).modLaunch l (fun x =>
      { x with regions := x.regions.map (Region.disown k) })

/-- The streams of a region that does not run end as RELEASE ends them; the failed items of its ports
are queued to the partition OS, once each (R143). -/
def Work.endRegion (w : Work) (p : Where) : Work :=
  match w.m.launch? p.l, w.m.region? p.l p.r with
  | some l, some r =>
    r.ports.foldl (fun u e =>
      let (q, _) := e.2.failAll
      ((u.endStrs e.2).putPort p e.1 (fun _ => { q.close with drains := [] })).queueFailed l.part p e.1
        (q.failed.map (·.1)).eraseDups) (w.empty p r)
  | _, _ => w

/-- The fabric manager drains the open streams of a region (R143). -/
def Port.fabricDrain (q : Port) : Port :=
  if q.idle && q.stream.isNone then q
  else { q with drains := q.drains ++ [{ agent := none, pend := 0, cap := 0, list := 0, ahead := q.unsent.map (·.2) }] }

/-- The last thread of a launch is gone (R143): its bindings are removed (R305), and no pause holds its loads
any longer. -/
def Work.beginEnd (w : Work) (l : Nat) : Work :=
  match w.m.launch? l with
  | none => w
  | some x =>
    let v := (w.modLaunch l (fun x => { x with ending := true, paused := false, preempted := false })).mach (fun m =>
      { m with trigs := m.trigs.filter (fun t => t.2.launch != l) })
    let u := (List.range x.regions.length).foldl (fun u k =>
      let p : Where := { l := l, r := k }
      match u.m.region? l k with
      | some r =>
        if r.state = 1 then u.modRegion p (fun r => { r with ports := r.ports.map (fun e => (e.1, e.2.fabricDrain)) })
        else u.endRegion p
      | none => u) v
    u.tryEnd l

/-- Whether a launch has a thread. -/
def Mach.hasThread (m : Mach) (l : Nat) : Bool := m.thr.any (fun t => t.2.sys.isNone && t.2.launch == l)

/-- A thread ends (R143): its groups are left, its places dropped, its must-save ranges and loop stack
gone, its hardware thread free. -/
def Work.endThread (w : Work) (k : Nat) : Work :=
  match aget w.m.thr k with
  | none => w
  | some t =>
    let v := t.groups.foldl (fun u g => u.leaveGroup k g) w
    ((v.dropPlaces k).disown k t.launch).mach (fun m => { m with thr := aerase m.thr k })

/-- A thread ends, and its launch with its last one; its registers stand until its hardware thread is taken again
(R404). -/
def Work.exitThread (w : Work) (k : Nat) : Work :=
  match aget w.m.thr k with
  | none => w
  | some t =>
    let v := (w.endThread k).mach (fun m => { m with exited := aset m.exited k t })
    if v.m.hasThread t.launch then v else v.beginEnd t.launch

/-- What EXIT waits for: slots, words of this chapter, and earlier accesses; accepted jobs continue. -/
def Thread.leaving (t : Thread) : Bool :=
  t.pend.all (fun p => p.set == 0 && (match p.op with
    | .job _ => true
    | _ => false))

/-- A word that only a sequencer thread has (R132). -/
def Ctl.notCore (i : Instr) (t : Thread) : Ctl Unit :=
  if t.sys.isSome then Ctl.trap 0x06 ((wordOfInstr i).setWidth 64) else pure ()

/-- EXIT (R143). -/
def execExit (s : State) := s.ctl .exit [] [] 0 0 (fun t => do
  Ctl.notCore .exit t
  if !t.leaving then Ctl.hold
  let w ← get
  Ctl.upd (fun u => u.exitThread w.m.cur))

/-- YIELD (R144); no effect on a system core (R132). -/
def execYield (s : State) := s.ctl .yield [] [] 0 0 (fun _ => do
  Ctl.me (fun t => { t with yielded := t.sys.isNone })
  Ctl.done)

/-- DRAIN_COMPLETE (R141, R143). -/
def execDrainComplete (l r p : Nat) (s : State) := s.event (fun w =>
  match w.m.launch? l, w.m.region? l r with
  | some x, some q =>
    match (q.port p).drains with
    | k :: _ => if (q.port p).drained then (w.drainPort x l r p q k).tryEnd l else w
    | [] => w
  | _, _ => w)

/-- FREEZE_QUIESCENT (R327): the freeze of region r is complete; a region that an uncorrectable error
stopped is emptied as RELEASE empties it (R363). -/
def execFreezeQuiescent (l r : Nat) (s : State) := s.event (fun w =>
  let p : Where := { l := l, r := r }
  match w.m.launch? l, w.m.region? l r with
  | some x, some q =>
    if q.state = 2 && q.quiet && q.cause = 4 && w.m.quiescent p q then
      (if x.ending then (w.endRegion p).tryEnd l else w.release p)
    else w.frozenIf p
  | _, _ => w)

/-- HANG_DECLARED (R324); a region of a launch that ends is then released (R143). -/
def execHangDeclared (l r : Nat) (s : State) := s.event (fun w =>
  match w.m.launch? l, w.m.region? l r with
  | some x, some q =>
    let p : Where := { l := l, r := r }
    if w.m.hung x p q then
      let v := w.declareHang x p
      if x.ending then (v.endRegion p).tryEnd l else v
    else w
  | _, _ => w)

/-! ## SPAWN (R142) -/

/-- The lowest-numbered free hardware thread of a cluster's sequencer. -/
def Mach.freeThread (m : Mach) (g : Nat) : Option Nat :=
  (List.range 8).findSome? (fun h => if (aget m.thr (8 * g + h)).isNone then some (8 * g + h) else none)

/-- A thread as SPAWN starts it, with an NBV (R179). -/
def Spawn.thread (x : Spawn) (l nbv : Nat) : Thread :=
  let t := (List.range 14).foldl (fun (t : Thread) k => t.setG (BitVec.ofNat 5 (k + 1)) (nth x.params k 0))
    (Thread.start x.entry none)
  { t with launch := l, region := x.region, nbv := nbv }

/-- A spawn block as captured; 0xFF stands for a given cluster. -/
def parseSpawn (d : List Byte) (own : Nat) : Spawn :=
  let c := fieldAt d 8 1
  { entry := w64 (fieldAt d 0 8), region := fieldAt d 0x0A 1, cluster := if c = 0xFF then own else c,
    params := (List.range 14).map (fun k => w64 (fieldAt d (0x10 + 8 * k) 8)) }

/-- A thread takes its hardware thread. -/
def Work.occupy (w : Work) (k : Nat) (t : Thread) : Work :=
  (w.putThr k t).mach (fun m => { m with exited := aerase m.exited k })

/-- A thread started: its number, or none where its sequencer has no free thread. -/
def Work.start (w : Work) (l nbv : Nat) (x : Spawn) : Option Nat × Work :=
  match w.m.freeThread x.cluster with
  | some k => (some k, w.occupy k (x.thread l nbv))
  | none => (none, w)

/-- SPAWN (R142): a release. -/
def execSpawn (d a : Reg) (sl ws : BitVec 3) (s : State) :=
  s.ctl (.spawn d a sl ws) [a] [d] sl ws (fun t => do
    Ctl.notCore (.spawn d a sl ws) t
    let va := t.g a
    let b ← Ctl.block va 128 128
    let w ← get
    let x := parseSpawn b (w.m.cur / 8)
    let rs : List Region := match w.m.launch? t.launch with
      | some l => l.regions
      | none => []
    Ctl.needs va [(0, x.entry.toNat % 4 == 0),
      (8, fieldAt b 9 1 == 0 && fieldAt b 0x0B 1 == 0 && x.region < rs.length && rs.any (fun r => r.cluster == x.cluster)),
      (0x0C, fieldAt b 0x0C 4 == 0)]
    Ctl.released t
    let (k, v) := w.start t.launch t.nbv x
    set v
    Ctl.result d (match k with
      | some k => w64 k
      | none => allOnes)
    Ctl.done)

/-! ## Submission (R298 to R302) -/

/-- A region as it stands before anything is loaded (R300). -/
def Region.init (e image tb : Nat) : Region :=
  { cluster := bits e 0 8, x0 := bits e 8 3, y0 := bits e 11 3, rows := bits e 14 3 + 1, cols := bits e 17 3 + 1,
    image := w64 image, state := 0, cause := 0, slot := 0, quiet := false, tbFrz := 0, floorFrz := false, errq := [], lost := 0, brks := [],
    trace := none, timer := tb, tbAct := tb, ports := [], block := none, waves := [] }

/-- The first of a list's positions that a test accepts. -/
def firstAt {α : Type} (l : List α) (f : Nat → α → Bool) : Option Nat :=
  (List.range l.length).find? (fun k => match l[k]? with
    | some x => f k x
    | none => false)

def Region.meets (r q : Region) : Bool :=
  r.cluster == q.cluster && r.x0 < q.x0 + q.cols && q.x0 < r.x0 + r.cols && r.y0 < q.y0 + q.rows && q.y0 < r.y0 + r.rows

/-- A captured launch block with its tables. -/
structure Submit where
  block : List Byte
  entries : List (List Byte)
  spawnVas : List Nat
  spawns : List (List Byte)

def Submit.nthr (x : Submit) : Nat := fieldAt x.block 2 1
def Submit.nreg (x : Submit) : Nat := fieldAt x.block 1 1
def Submit.prio (x : Submit) : Nat := bits (fieldAt x.block 0 4) 0 3
def Submit.regions (x : Submit) (tb : Nat) : List Region := x.entries.map (fun e => Region.init (fieldAt e 0 4) (fieldAt e 8 8) tb)
def Submit.starts (x : Submit) (rs : List Region) : List Spawn := x.spawns.map (fun (d : List Byte) =>
  parseSpawn d (((rs[fieldAt d 0x0A 1]?).map (fun (r : Region) => r.cluster)).getD 0xFF))

/-- The cluster of partition p is in service (R302, R399). -/
def Mach.owns (m : Mach) (p g : Nat) : Bool := bitAt (m.part p).entry.clusters g && m.validPart p && bitAt m.clmap g

/-- The partition word keeps R248. -/
def pwordOk (w : Nat) : Bool := bits w 0 24 == 0 && bits w 28 4 != 0 && bits w 28 4 + bits w 24 4 ≤ 14

/-- The first reason of R302 for which a submission is refused, and its ENTRY. -/
def Submit.refusal (x : Submit) (m : Mach) (part : Option Nat) : Option (Nat × Nat) :=
  let b := x.block
  let w0 := fieldAt b 0 4
  let save := fieldAt b 0x20 8
  let rs := x.regions 0
  let owned := fun (g : Nat) => match part with
    | some p => m.owns p g
    | none => false
  let badBlock := bits w0 3 5 != 0 || bits w0 24 8 != 0 || x.nthr == 0 || x.nreg == 0 || 4 < x.prio
    || (if x.prio = 4 then save % 64 != 0 else save != 0) || !(b.drop 0x28).all (· == 0)
  let badEntry := fun (_ : Nat) (e : List Byte) =>
    bits (fieldAt e 0 4) 20 12 != 0 || fieldAt e 4 4 != 0 || fieldAt e 8 8 % 4 != 0 || 192 ≤ fieldAt e 0 1
  let badSpawn := fun (k : Nat) (d : List Byte) =>
    let r := rs[fieldAt d 0x0A 1]?
    nth x.spawnVas k 0 % 128 != 0 || fieldAt d 0 8 % 4 != 0 || fieldAt d 9 1 != 0 || fieldAt d 0x0B 1 != 0
      || fieldAt d 0x0C 4 != 0 || (match r with
        | some r => !(fieldAt d 8 1 == r.cluster || fieldAt d 8 1 == 0xFF)
        | none => true)
  let starts := x.starts rs
  if badBlock then some (1, 0)
  else match firstAt x.entries badEntry with
    | some k => some (1, k)
    | none =>
      if !pwordOk (fieldAt b 4 4) then some (2, 0)
      else match firstAt rs (fun _ r => !owned r.cluster) with
        | some k => some (3, k)
        | none =>
          match firstAt rs (fun k r => 8 < r.x0 + r.cols || 8 < r.y0 + r.rows || (rs.take k).any r.meets) with
          | some k => some (4, k)
          | none =>
            match firstAt x.spawns badSpawn with
            | some k => some (6, k)
            | none =>
              match firstAt starts (fun k s => 8 ≤ ((starts.take k).filter (fun (q : Spawn) => q.cluster == s.cluster)).length) with
              | some k => some (7, k)
              | none => none

/-- A span that a submission names: a translation or permission fault is cause 0x03 (R298), a walk that waits
for a detour holds the word, and one that is lost traps with cause 0x11 (R374). -/
def Ctl.submitSpan (c : Nat) (tr : Trans) (va n : Nat) (need : Need) : Ctl (List (Nat × Nat × Kind)) := fun w =>
  match w.spanOf c tr va n need with
  | (.ok rs, v) => .ok (rs, v)
  | (.error (.wait, _), v) => .error (.hold, v)
  | (.error (.lost, at_), v) => .error (.trap 0x11 (w64 at_), v)
  | (.error (_, at_), v) => .error (.trap 0x03 (w64 at_), v)

/-- Bytes that a submission names. -/
def Ctl.submitRead (c : Nat) (tr : Trans) (va n : Nat) : Ctl (List Byte) := do
  let rs ← Ctl.submitSpan c tr va n .read
  Ctl.bytes va rs

def Ctl.submitReads (c : Nat) (tr : Trans) (n : Nat) : List Nat → Ctl (List (List Byte))
  | [] => pure []
  | va :: r => do
    let d ← Ctl.submitRead c tr va n
    let ds ← Ctl.submitReads c tr n r
    pure (d :: ds)

/-- The block and what it names read through a translation, in the order of R298. -/
def Ctl.capture (c : Nat) (tr : Trans) (v : Word) : Ctl Submit := do
  let va := v.toNat
  if va % 64 ≠ 0 then Ctl.trap 0x02 v
  let b ← Ctl.submitRead c tr va 64
  let status := fieldAt b 0x18 8
  let regtab := fieldAt b 8 8
  let thrtab := fieldAt b 0x10 8
  if status % 8 ≠ 0 then Ctl.trap 0x02 (w64 status)
  if regtab % 16 ≠ 0 then Ctl.trap 0x02 (w64 regtab)
  if thrtab % 8 ≠ 0 then Ctl.trap 0x02 (w64 thrtab)
  let es ← Ctl.submitReads c tr 16 ((List.range (fieldAt b 1 1)).map (fun k => (regtab + 16 * k) % 2 ^ 64))
  let ts ← Ctl.submitReads c tr 8 ((List.range (fieldAt b 2 1)).map (fun k => (thrtab + 8 * k) % 2 ^ 64))
  let vas := ts.map (fun d => fieldAt d 0 8)
  let ss ← Ctl.submitReads c tr 128 vas
  let _ ← Ctl.submitSpan c tr status 8 .write
  pure { block := b, entries := es, spawnVas := vas, spawns := ss }

/-- LNCH.SUBMIT (R298): at S for the core's own partition, at H for the partition that owns the cluster
of region 0, which only the block itself names: the one under whose VMID the block so reads, where reading it
needs a VMID at all (DEDUCED, log 151). -/
def Ctl.lnchSubmit (k : Nat) (c : CoreRegs) (v : Word) : Ctl Unit := do
  let w ← get
  let at_ := fun (p : Option Nat) =>
    let vmid := (match p with
      | some p => (w.m.part p).entry.vmid
      | none => 0xFF)
    ({ ttb := c.ttb, asid := c.asid, vmid := vmid, priv := .s, cluster := none, part := if c.h then p else some (p.getD 16), scratch := none } : Trans)
  let owner := fun (p : Option Nat) => match Ctl.capture noCache (at_ p) v w with
    | .ok (x, _) => some ((x.regions 0).head?.bind (fun r => w.m.partOfCluster r.cluster))
    | .error _ => none
  let part := if c.h then (match owner none with
      | some q => q
      | none => (w.m.parts.map (·.1)).find? (fun p => owner (some p) == some (some p)))
    else w.m.partOfCore (k - 1536)
  let tr := at_ part
  let x ← Ctl.capture (if c.h then noCache else agentCache k) tr v
  let rs := x.regions w.m.tb
  let l : Launch := { part := part.getD 16, prio := x.prio, pword := fieldAt x.block 4 4, trans := tr,
                      status := w64 (fieldAt x.block 0x18 8), save := w64 (fieldAt x.block 0x20 8),
                      spawns := x.starts rs, regions := rs, state := 0, placing := false, paused := false,
                      floor := false, final := 2, ending := false, saved := false, kept := [], saveTrans := tr,
                      since := w.m.tb, asked := [] }
  match x.refusal w.m part with
  | some (reason, entry) => Ctl.upd (fun u => u.writeStatus l 4 reason entry 0)
  | none => Ctl.upd (fun u => (u.writeStatus l 0 0 0 0).mach (fun m =>
      { m with launches := aset m.launches m.nextLaunch l, nextLaunch := m.nextLaunch + 1 }))

/-- A word of a running system core, done for it by an event: the core is the acting agent while the
body runs; a trap is the core's. -/
def State.asCore (s : State) (k : Nat) (body : Thread → CoreRegs → Ctl Unit) : Host.Outcome State Fault Refusal :=
  match aget s.m.thr k with
  | none => .next s
  | some t =>
    match t.sys with
    | none => .next s
    | some c =>
      if t.run ≠ .ready then .next s
      else
        let w := s.work
        match body t c { w with m := { w.m with cur := k } } with
        | .ok (_, v) => .next (s.commit { v with m := { v.m with cur := s.m.cur } })
        | .error (e, v) => .next ((s.kept v).stopped k t e)

/-- LNCH_SUBMIT (R298): core k writes v to LNCH.SUBMIT. -/
def execLnchSubmit (k : Nat) (v : Word) (s : State) := s.asCore k (fun _ c => Ctl.lnchSubmit k c v)

/-! ## Placement (R303, R304) -/

def Launch.clusters (l : Launch) : List Nat := (l.regions.map (·.cluster)).eraseDups

/-- A launch in the queue. -/
def Launch.waits (l : Launch) : Bool := l.state == 0 && !l.placing

/-- Two launches name one cluster. -/
def Launch.meets (l x : Launch) : Bool := l.clusters.any (fun g => x.clusters.contains g)

/-- Launch n comes before launch k in the queue (R303). -/
def before (n : Nat) (x : Launch) (k : Nat) (l : Launch) : Bool := x.prio < l.prio || (x.prio == l.prio && n < k)

/-- A waiting launch may be placed: its clusters are free, no scan runs on them, and no launch before
it waits for one of them; a ballast launch only while power is below the floor (R316). -/
def Mach.placeable (m : Mach) (k : Nat) (l : Launch) : Bool :=
  m.hold.phase == 0 && l.waits && l.clusters.all (fun g => (aget m.scans g).isNone)
    && m.launches.all (fun e => !((e.2.holds || (e.2.waits && before e.1 e.2 k l)) && e.2.meets l))
    && (l.prio != 4 || m.power.now < m.power.floor)

/-- The area of region k in a save area (R334). -/
def saveOffset (k : Nat) : Nat := 0x100000 + 25165824 * k

/-- The load that a region of a launch being placed needs: its first image, or its saved one. None while the
header of a saved one waits for a detour (R374). -/
def Work.placeLoad (w : Work) (n k : Nat) (l : Launch) (r : Region) : Option Work :=
  let d : Load := { launch := n, region := k, report := .placement, image := r.image, restore := false, nbv := 0,
                    trans := l.fabricTrans r.cluster, prio := l.prio, accepted := false, words := [], reads := [],
                    fault := none, staged := [] }
  if l.saved then
    let va := (l.save.toNat + saveOffset k) % 2 ^ 64
    let (ws, fs, v) := Work.imageWords (r.cluster / 24) noCache l.saveTrans 64 va 0 w
    if someWait fs then none
    else if wordAt ws 0 = 0 && fs.isEmpty then some v
    else
      let bad := match imageHeaderFault (ws.flatMap (toBytes 4)) with
        | some _ => [(0, 0x01)]
        | none => []
      some (v.queueLoad { d with image := w64 va, restore := true, trans := l.saveTrans, words := ws, reads := fs ++ bad }).2
  else if r.image = 0 then some w
  else some (w.queueLoad d).2

/-- Step 1 (R304): PWORD applied to clusters that hold nothing yet, no cached translation among it (R351). -/
def Work.place (w : Work) (n : Nat) (l : Launch) : Work :=
  let new : Cluster := { ctxs := [], engines := [], pword := l.pword }
  (l.regions.foldl (Work.dropCaches · l.trans) (w.mach (fun m =>
    { m with clusters := l.clusters.foldl (fun c g => aset c g new) m.clusters }))).modLaunch n
    (fun x => { x with placing := true, placed := 0, paused := false, floor := false, preempted := false })

/-- Step 2 (R304): the next region of a launch being placed is loaded, in region order. -/
def Work.placeNext (w : Work) (n : Nat) (l : Launch) : Work :=
  match (l.regions[l.placed]?).elim (some w) (w.placeLoad n l.placed l) with
  | some v => v.modLaunch n (fun x => { x with placed := l.placed + 1 })
  | none => w

/-- Places held by one number held by another: those of a thread that leaves with its launch, and
that comes back (R322). -/
def Work.renameHolder (w : Work) (old new : Nat) : Work :=
  w.mach (fun m => { m with places := m.places.map (fun e => (e.1, e.2.map (fun p =>
    if p.holder = old then { p with holder := new } else p))) })

/-- The number under which an absent thread holds its places. -/
def absent (l k : Nat) : Nat := 2 ^ 20 * (l + 1) + k

/-- The threads of an evicted launch end as KILL ends them (R335). -/
def Work.endKept (w : Work) (n : Nat) (l : Launch) : Work :=
  l.kept.foldl (fun u e =>
    let there := aget u.m.thr e.1
    let v := ((u.renameHolder (absent n e.1) (absent n 0)).putThr (absent n 0) e.2).endThread (absent n 0)
    match there with
    | some t => v.putThr e.1 t
    | none => v) w

/-- A waiting or placing launch is refused (R302): its clusters are freed and it leaves the queue. -/
def Work.refuse (w : Work) (n : Nat) (l : Launch) (reason entry cause : Nat) : Work :=
  let gs := if l.placing then l.clusters else []
  ((w.endKept n l).writeStatus l 4 reason entry cause).mach (fun m => { m with
    loads := m.loads.filter (fun d => d.2.launch != n)
    trigs := m.trigs.filter (fun t => t.2.launch != n)
    clusters := m.clusters.filter (fun c => !gs.contains c.1)
    launches := aerase m.launches n })

/-- A thread resumes from its record in a save area (R334): the values that RESUME takes (R414), the
rest as the device kept it. A register that the record's marks poison is poisoned; the address that its trap will
report, where the device kept none for it, is a free value (DESIGN CHOICE, log 147). -/
def Thread.fromRecord (t : Thread) (n : Nat) (d : List Byte) : Thread :=
  let marks := fieldAt d 0x128 8
  let u := ((List.range 31).map (· + 1)).foldl (fun (u : Thread) k =>
    if bitAt marks k then { u with poison := aset u.poison k ((aget t.poison k).getD (Config.freeTrapVal n)) }
    else u.setG (BitVec.ofNat 5 k) (w64 (fieldAt d (0x20 + 8 * k) 8))) t
  { u with conds := BitVec.ofNat 8 (fieldAt d 0x120 1), pc := w64 (fieldAt d 0x130 8) }

/-- Step 3 (R304): the first threads start in their order, or the saved ones resume (R334). -/
def Work.startThreads (w : Work) (n : Nat) (l : Launch) : Work :=
  if l.saved then
    ((List.range l.kept.length).foldl (fun u i => match l.kept[i]? with
      | some (k, t) =>
        match u.load noCache l.saveTrans ((l.save.toNat + 0x40 + 512 * i) % 2 ^ 64) 512 with
        | (.ok d, v) => ((v.fresh).2.occupy k (t.fromRecord v.m.free d)).renameHolder (absent n k) k
        | (.error _, v) => (v.occupy k t).renameHolder (absent n k) k
      | none => u) w)
  else l.spawns.foldl (fun u x => (u.start n 0 x).2) w

/-- LAUNCH_PLACEMENT (R303, R304): a launch that may be placed takes its clusters; then its regions are loaded
one after another, and it starts once all are, or is refused at the first load that fails. None starts once a
hold-up has been detected (R381). -/
def execLaunchPlacement (n : Nat) (s : State) := s.event (fun w =>
  match w.m.launch? n with
  | none => w
  | some l =>
    if w.m.hold.phase ≠ 0 then w
    else if l.placing then
      let mine := w.m.loads.filter (fun d => d.2.launch == n && d.2.report == .placement)
      match mine.find? (fun d => d.2.fault.isSome) with
      | some d => w.refuse n l 5 d.2.region ((d.2.fault.map (·.1)).getD 0)
      | none =>
        if !mine.isEmpty then w
        else if l.placed < l.regions.length then w.placeNext n l
        else
          let v := (w.startThreads n l).modLaunch n (fun x =>
            { x with placing := false, state := 1, saved := false, kept := [] })
          v.writeStatus l 1 0 0 0
    else if w.m.placeable n l then w.place n l
    else w)

/-- The items that the port sections of a launch's saved images record as unresolved, which finally fail, and as
finally failed since the last DRAIN, queued as at a launch's end (R143, R335). -/
def Work.savedItems (w : Work) (n : Nat) (l : Launch) : Work :=
  (List.range l.regions.length).foldl (fun u k =>
    match u.load noCache l.saveTrans ((l.save.toNat + saveOffset k) % 2 ^ 64) 256 with
    | (.ok h, v) =>
      if (imageHeaderFault h).isSome then v
      else match v.load noCache l.saveTrans ((l.save.toNat + saveOffset k) % 2 ^ 64) (fieldAt h 8 4) with
        | (.ok d, z) =>
          let secs := cutSections (d.length / 64) (d.drop 0x900)
          (secs.filter (fun s => bits s.1 0 8 == 9)).foldl (fun u s =>
            let (p, q) := (Rd.port (s.2, [])).1
            u.queueFailed l.part { l := n, r := k } p (q.failAll.1.failed.map (·.1)).eraseDups) z
        | (.error _, z) => z
    | (.error _, v) => v) w

/-- Waiting launches that name a cluster out of service or no longer owned are refused at once (R335,
R399). -/
def Work.refuseLost (w : Work) : Work :=
  w.m.launches.foldl (fun u e =>
    if !e.2.waits then u
    else match firstAt e.2.regions (fun _ r => !u.m.owns e.2.part r.cluster) with
      | none => u
      | some k => (if e.2.saved then u.savedItems e.1 e.2 else u).refuse e.1 e.2 3 k 0) w

/-! ## Eviction (R316, R334) -/

/-- The threads of a launch. -/
def Mach.threadsOf (m : Mach) (l : Nat) : List (Nat × Thread) := m.thr.filter (fun t => t.2.sys.isNone && t.2.launch == l)

/-- A launch paused (R329): its regions freeze, its threads issue nothing. -/
def Work.pause (w : Work) (n : Nat) (l : Launch) : Work :=
  (List.range l.regions.length).foldl (fun u k => u.freezeAt { l := n, r := k } 1 0)
    (w.modLaunch n (fun x => { x with paused := true }))

/-- Every freeze of a launch is complete. -/
def Launch.quiet (l : Launch) : Bool := l.regions.all (fun r => !r.quiet && r.state != 1)

/-- No freeze of a launch's regions is in progress. -/
def Launch.settled (l : Launch) : Bool := l.regions.all (!·.quiet)

/-- A paused launch is ready to be saved: its freezes are complete, and its threads' memory words and
jobs are. -/
def Mach.evictReady (m : Mach) (n : Nat) (l : Launch) : Bool :=
  l.quiet && (m.threadsOf n).all (fun t => t.2.pend.all (fun p => !p.op.access && (match p.op with
    | .job _ => false
    | _ => true)))

/-- Bytes written one part after another, up to a fault: whether all were, and how many. -/
def Work.putParts (tr : Trans) : List (Nat × List Byte) → Nat → Work → Bool × Nat × Work
  | [], n, w => (true, n, w)
  | (va, d) :: r, n, w =>
    match Work.putLines noCache tr d.length va d w with
    | (true, v) => Work.putParts tr r (n + d.length) v
    | (false, v) => (false, n, v)

/-- The parts of a save area (R334). -/
def Work.saveParts (w : Work) (n : Nat) (l : Launch) (area : Nat) : List (Nat × List Byte) :=
  let ts := w.m.threadsOf n
  let head := toBytes 4 0xD1E50004 ++ toBytes 2 ts.length ++ toBytes 1 l.regions.length ++ [0]
  let recs := (List.range ts.length).filterMap (fun i => (ts[i]?).map (fun t =>
    ((area + 0x40 + 512 * i) % 2 ^ 64, Thread.record t.1 t.2 0x12 t.2.pc (Config.freeTrapVal w.m.free) w.m.tb)))
  let imgs := (List.range l.regions.length).filterMap (fun k => (l.regions[k]?).map (fun r =>
    ((area + saveOffset k) % 2 ^ 64, if r.state = 0 then zeroBytes 8 else w.imageBytes { l := n, r := k } r)))
  (area, head) :: recs ++ imgs

/-- A thread killed as the KILL register kills (R159): it exits once its memory words and jobs let EXIT go on.
Its words at its region, which does not run again, are abandoned (log 75). -/
def Work.killThread (w : Work) (k : Nat) : Work :=
  match aget w.m.thr k with
  | none => w
  | some t =>
    let t' := { t with run := .dying, pend := t.pend.filter (fun p => p.op.access || (match p.op with
      | .job _ => true
      | _ => false)) }
    let v := (w.putThr k t').modLaunch t.launch (fun x => { x with regions := x.regions.map (Region.disown k) })
    let u := v.mach (fun m => { m with loads := m.loads.map (fun e => (e.1, { e.2 with report := e.2.report.disown k })) })
    if t'.leaving then u.exitThread k else u

/-- Every thread of a launch is killed; with the last its streams are drained and STATE 5 is written (R316). -/
def Work.killLaunch (w : Work) (n : Nat) : Work :=
  (w.m.threadsOf n).foldl (fun u t => u.killThread t.1) (w.modLaunch n (fun x => { x with final := 5 }))

/-- The threads of a launch as they are saved: a CWAIT that a value has satisfied is complete (R114), and one
that still waits issues again when its thread is back (R115, R334). -/
def Work.stopWaits (w : Work) (n : Nat) : Work :=
  (w.m.threadsOf n).foldl (fun u t => u.modThr t.1 (fun t => { t.passWait with waits := none })) w

/-- A paused launch saved into an area: it returns to the queue, or it is killed where a write
faults or there is no area. Whether it was saved, and the bytes written. -/
def Work.evict (w : Work) (n : Nat) (l : Launch) (area : Nat) (tr : Trans) : Bool × Nat × Work :=
  if area = 0 then (true, 0, w.killLaunch n)
  else
    let w := w.stopWaits n
    let ts := w.m.threadsOf n
    let (ok, count, v) := Work.putParts tr (w.saveParts n l area) 0 (w.fresh).2
    if !ok then (false, count, v.killLaunch n)
    else
      let u := (List.range l.regions.length).foldl (fun u k => match u.m.region? n k with
        | some r => (u.empty { l := n, r := k } r).modRegion { l := n, r := k } (fun r => { r with ports := [], errq := [], lost := 0, brks := [] })
        | none => u) v
      let z := ts.foldl (fun u t => u.renameHolder t.1 (absent n t.1)) u
      let gs := l.clusters
      let back := fun (x : Launch) => { x with
        state := 0, paused := false, preempted := false, floor := false, saved := true, kept := ts, save := w64 area, saveTrans := tr,
        since := w.m.tb, asked := [] }
      let q := (z.mach (fun m => { m with
        thr := m.thr.filter (fun t => !ts.any (fun x => x.1 == t.1))
        clusters := m.clusters.filter (fun c => !gs.contains c.1) })).modLaunch n back
      (true, count, q.writeStatus l 0 0 0 0)

/-- A paused launch goes on: its regions thaw, its threads issue again (R329). -/
def Work.unpause (w : Work) (n : Nat) (l : Launch) : Work :=
  ((List.range l.regions.length).foldl (fun u i => u.thaw { l := n, r := i }) w).modLaunch n
    (fun x => { x with paused := false, preempted := false })

/-- A ballast launch paused for a launch that waits for its clusters (R316). -/
def Work.preempt (w : Work) (n : Nat) (l : Launch) : Work :=
  (List.range l.regions.length).foldl (fun u k =>
    let p : Where := { l := n, r := k }
    match u.m.region? n k with
    | some r => if r.state = 1 then (u.freezeAt p 1 0).modRegion p (fun r => { r with floorFrz := true }) else u
    | none => u) (w.modLaunch n (fun x => { x with paused := true, preempted := x.preempted || !l.paused }))

/-- A ballast launch paused for another goes on: the regions that the pause froze thaw, unless the power floor
holds them. -/
def Work.unpreempt (w : Work) (n : Nat) (l : Launch) : Work :=
  (List.range l.regions.length).foldl (fun u k =>
    match u.m.region? n k with
    | some r => if r.floorFrz && !l.floor then u.thaw { l := n, r := k } else u
    | none => u) (w.modLaunch n (fun x => { x with paused := false, preempted := false }))

/-- BALLAST_PREEMPT (R316): a ballast launch gives its clusters to a P0 to P3 launch that waits for one:
its regions freeze; then it is saved, or killed where it has no save area. Where none waits any longer once they
are frozen, it goes on. -/
def execBallastPreempt (n : Nat) (s : State) := s.event (fun w =>
  match w.m.launch? n with
  | none => w
  | some l =>
    let wanted := w.m.launches.any (fun e => e.2.waits && e.2.prio < 4 && e.2.meets l)
    if l.prio ≠ 4 || l.state ≠ 1 || l.ending then w
    else if !wanted then (if l.preempted && l.settled && w.m.hold.phase = 0 then w.unpreempt n l else w)
    else if !l.paused || !l.regions.all (fun r => r.state != 1) then w.preempt n l
    else if l.save = 0 then (if l.quiet then w.killLaunch n else w)
    else if w.m.evictReady n l then (w.evict n l l.save.toNat l.osTrans).2.2
    else w)

/-! ## PREEMPT_REQUEST (R333) -/

/-- The holders of lower priority that a waiting launch has not yet asked for its clusters. -/
def Mach.toAsk (m : Mach) (l : Launch) : Option (Nat × Launch) :=
  afind m.launches (fun k x => x.holds && l.prio < x.prio && x.meets l && !l.asked.contains k)

/-- PREEMPT_REQUEST (R333): launch n has waited PRE.WAIT for a holder of lower priority, and the
lowest-numbered core of the holder's partition takes cause 0x12 (log 25). -/
def execPreemptRequest (n : Nat) (s : State) := s.event (fun w =>
  match w.m.launch? n with
  | none => w
  | some l =>
    if !l.waits || 3 < l.prio || w.m.preWait = 0 || w.m.tb < l.since + w.m.preWait then w
    else match w.m.toAsk l with
      | none => w
      | some (h, x) =>
        match (List.range 16).find? (fun c => bitAt (w.m.part x.part).entry.cores c) with
        | none => w
        | some c =>
          match aget w.m.thr (1536 + c) with
          | some t =>
            if t.run ≠ .ready || t.held then w
            else (w.putThr (1536 + c) (t.passWait.trap 0x12 t.passWait.pc x.status w.m.tb)).modLaunch n (fun y =>
              { y with asked := y.asked ++ [h] })
          | none => w)

end Sys2Proof.Machine
end

