-- ==== Sys2Proof/Machine/Commands.lean ====
section
/-!
DEFINITION. The commands of RCTL (R328, R329, R334): what they need, what they do, and the events by
which the command that a core waits for goes on.
-/

namespace Sys2Proof.Machine

/-- RCTL's value (R328). -/
structure RCmd where
  cmd : Nat
  x0 : Nat
  y0 : Nat
  cluster : Nat
  reserved : Bool

def rcmd (v : Nat) : RCmd :=
  { cmd := bits v 0 4, x0 := bits v 10 3, y0 := bits v 13 3, cluster := bits v 16 8,
    reserved := bits v 4 6 != 0 || bits v 24 40 != 0 }

/-- A launch command. -/
def RCmd.onLaunch (r : RCmd) : Bool := 6 ≤ r.cmd && r.cmd ≤ 8

/-- A command or field that is not valid (RSTAT 6). -/
def RCmd.bad (r : RCmd) : Bool :=
  r.reserved || r.cmd == 0 || 9 ≤ r.cmd || (r.onLaunch && (r.x0 != 0 || r.y0 != 0 || r.cluster != 0))

/-- A command that writes a save area. -/
def RCmd.writes (r : RCmd) : Bool := r.cmd == 3 || r.cmd == 4 || r.cmd == 8

/-- The launches in reach of a core: those of its partition, at H every one (R328). -/
def Mach.inReach (m : Mach) (k : Nat) (c : CoreRegs) (l : Launch) : Bool := c.h || m.partOfCore (k - 1536) == some l.part

/-- The region that a region command names: a placed launch's, by its cluster and origin. -/
def Mach.rctlRegion (m : Mach) (k : Nat) (c : CoreRegs) (r : RCmd) : Option (Where × Region) :=
  m.launches.findSome? (fun e =>
    if !e.2.holds || !m.inReach k c e.2 then none
    else (firstAt e.2.regions (fun _ q => q.cluster == r.cluster && q.x0 == r.x0 && q.y0 == r.y0)).bind (fun i =>
      (e.2.regions[i]?).map (fun q => ({ l := e.1, r := i }, q))))

/-- The launch that RCTL.ARG names by its status dword. -/
def Mach.rctlLaunch (m : Mach) (k : Nat) (c : CoreRegs) : Option (Nat × Launch) :=
  afind m.launches (fun _ l => m.inReach k c l && l.status == c.rctlArg)

/-- The launch and the region, or every region, that a core's command acts on. -/
def Mach.rctlOn (m : Mach) (k : Nat) (c : CoreRegs) (r : RCmd) : Option (Nat × Option Nat) :=
  if r.onLaunch then (m.rctlLaunch k c).map (fun e => (e.1, none))
  else (m.rctlRegion k c r).map (fun e => (e.1.l, some e.1.r))

/-- What becomes of a command: it waits, or it is done with RSTAT and, where it wrote an area, the
bytes written. -/
structure RDone where
  stat : Nat
  bytes : Option Nat

def rdone (n : Nat) : Option RDone := some { stat := n, bytes := none }

/-- The items of a moved region leave its ports' accounting with the image (R329). -/
def Work.moveOut (w : Work) (p : Where) (r : Region) : Work :=
  r.ports.foldl (fun u e =>
    let v := e.2.drains.foldl (fun u d => match d.agent with
      | some a => u.endPend a d.pend (some 0)
      | none => u) u
    v.putPort p e.1 (fun q => { Port.empty with next := q.next })) (w.empty p r)

/-- A region command goes on (R329); `froze` says that it has frozen the region. None resumes one from the trap
of a hold-up on (R381), and none is done while a write of its image waits for a detour (R374). -/
def Work.regionCommand (w : Work) (k : Nat) (t : Thread) (c : CoreRegs) (cmd : Nat) (froze : Bool) (p : Where)
    (r : Region) : Option RDone × Bool × Work :=
  if cmd = 2 then
    if r.state ≠ 2 then (rdone 3, froze, w)
    else if r.quiet || 2 ≤ w.m.hold.phase then (none, froze, w) else (rdone 0, froze, w.thaw p)
  else if cmd = 1 && !froze && r.state ≠ 1 then (rdone 3, froze, w)
  else
    let v := if r.state = 1 then w.freezeAt p 1 0 else w
    let mine := froze || r.state == 1
    match v.m.region? p.l p.r with
    | none => (rdone 0, mine, v)
    | some q =>
      if q.state = 2 && q.quiet then (none, mine, v)
      else if cmd = 1 then (rdone 0, mine, v)
      else if cmd = 5 then (rdone 0, mine, v.release p)
      else
        let image := v.imageBytes p q
        if v.storeWaits (agentCache k) (w.m.transOf k t) c.rctlArea.toNat image.length then (none, mine, v)
        else match Work.putLines (agentCache k) (w.m.transOf k t) image.length c.rctlArea.toNat image v with
        | (true, u) => (some { stat := 0, bytes := some image.length }, mine, if cmd = 4 then u.moveOut p q else u)
        | (false, u) => (some { stat := 4, bytes := none }, mine, if mine then u.thaw p else u)

/-- A launch command goes on (R329, R334). PAUSE and EVICT freeze a region that runs again meanwhile as well. -/
def Work.launchCommand (w : Work) (k : Nat) (t : Thread) (c : CoreRegs) (cmd : Nat) (froze : Bool) (n : Nat)
    (l : Launch) : Option RDone × Bool × Work :=
  if l.state ≠ 1 || l.ending then (rdone 3, froze, w)
  else if cmd = 7 then
    if !l.paused then (rdone 3, froze, w)
    else if !l.settled || 2 ≤ w.m.hold.phase then (none, froze, w)
    else (rdone 0, froze, w.unpause n l)
  else if cmd = 6 && l.paused && !froze then (rdone 3, froze, w)
  else
    let v := w.pause n l
    match v.m.launch? n with
    | none => (rdone 0, true, v)
    | some x =>
      if cmd = 6 then (if x.quiet then rdone 0 else none, true, v.modLaunch n (fun x => { x with preempted := false }))
      else if !v.m.evictReady n x then (none, true, v)
      else
        let (ok, bytes, u) := v.evict n x c.rctlArea.toNat (w.m.transOf k t)
        (some { stat := if ok then 0 else 4, bytes := some bytes }, true, u)

/-- A command goes on: RSTAT 6, then 5, then 2, then its own rules (log 54). -/
def Work.command (w : Work) (k : Nat) (t : Thread) (c : CoreRegs) (v : Word) (froze : Bool) : Option RDone × Bool × Work :=
  let r := rcmd v.toNat
  if r.bad then (rdone 6, froze, w)
  else if r.writes && c.rctlArea.toNat % 64 ≠ 0 then (rdone 5, froze, w)
  else if r.onLaunch then
    match w.m.rctlLaunch k c with
    | some (n, l) => w.launchCommand k t c r.cmd froze n l
    | none => (rdone (if froze then 0 else 2), froze, w)
  else match w.m.rctlRegion k c r with
    | some (p, q) => w.regionCommand k t c r.cmd froze p q
    | none => (rdone (if froze then 0 else 2), froze, w)

/-- The RCTL word that an agent waits for. -/
def Thread.rctl (t : Thread) : Option (Nat × Word × Bool × Nat) :=
  t.pend.findSome? (fun p => match p.op with
    | .rctl v f n => some (p.id, v, f, n)
    | _ => none)

/-- Another core's earlier command acts on the same region or launch (R329). -/
def Mach.rctlBefore (m : Mach) (k : Nat) (on : Option (Nat × Option Nat)) (at_ : Nat) : Bool :=
  m.thr.any (fun e => e.1 != k && (match e.2.sys, e.2.rctl with
    | some c, some (_, v, _, n) =>
      (n < at_ || (n == at_ && e.1 < k)) && (match m.rctlOn e.1 c (rcmd v.toNat), on with
        | some (l, r), some (x, y) => l == x && (r.isNone || y.isNone || r == y)
        | _, _ => false)
    | _, _ => false))

/-- The command that core k waits for goes on; when it is done, RCTL.STAT is written and the core is
released (R328). -/
def Work.rctlRun (w : Work) (k : Nat) : Work :=
  match aget w.m.thr k with
  | none => w
  | some t =>
    match t.sys, t.rctl with
    | some c, some (id, v, froze, at_) =>
      if w.m.rctlBefore k (w.m.rctlOn k c (rcmd v.toNat)) at_ then w
      else match w.command k t c v froze with
        | (some d, _, u) => (u.endPend k id none).modThr k (fun t => { t with sys := t.sys.map (fun c =>
            { c with rctlStat := d.stat, rctlBytes := d.bytes.getD c.rctlBytes }) })
        | (none, f, u) => u.modThr k (fun t => t.modPend id (fun p => { p with op := .rctl v f at_ }))
    | _, _ => w

/-- An SRW to RCTL (R328): the core is held until the command is done. -/
def Ctl.rctl (k : Nat) (v : Word) : Ctl Unit := do
  let w ← get
  Ctl.upd (fun u => (u.modThr k (fun t => t.addPend (fun id =>
    { id := id, set := 0, dest := none, holds := true, op := .rctl v false w.m.cyc, pieces := [], acq := false, rel := false,
      scope := 9, vmid := 0, asid := 0, va := 0 }))).rctlRun k)

/-- The command that core k waits for goes on, if it is command n. -/
def State.rctlEvent (s : State) (k n : Nat) : Host.Outcome State Fault Refusal := s.event (fun w =>
  match (aget w.m.thr k).bind Thread.rctl with
  | some (_, v, _, _) => if bits v.toNat 0 4 = n then w.rctlRun k else w
  | none => w)

/-- FREEZE (R329). -/
def execFreeze (k : Nat) (s : State) := s.rctlEvent k 1
/-- THAW (R329). -/
def execThaw (k : Nat) (s : State) := s.rctlEvent k 2
/-- SAVE (R329). -/
def execSave (k : Nat) (s : State) := s.rctlEvent k 3
/-- MOVE (R329). -/
def execMove (k : Nat) (s : State) := s.rctlEvent k 4
/-- RELEASE (R329). -/
def execRelease (k : Nat) (s : State) := s.rctlEvent k 5
/-- PAUSE (R329). -/
def execPause (k : Nat) (s : State) := s.rctlEvent k 6
/-- CONTINUE (R329). -/
def execContin (k : Nat) (s : State) := s.rctlEvent k 7
/-- EVICT (R334). -/
def execEvict (k : Nat) (s : State) := s.rctlEvent k 8

end Sys2Proof.Machine
end

