-- ==== Sys2Proof/Machine/Blocks.lean ====
section
/-!
DEFINITION. Block mode (R135, R311 to R315): BLKM and the block scheduler; and the reweighting of
operator contexts (R309).
-/

namespace Sys2Proof.Machine

/-- The smallest power of two not below n (R312). -/
def capOf (n : Nat) : Nat := if n ≤ 1 then 1 else 2 ^ (Nat.log2 (n - 1) + 1)

/-- Bytes of the thread-queue area. -/
def queueBytes (nblk nthr : Nat) : Nat := 64 * nblk + 32 * capOf nthr * nblk

/-- A thread token of memory (R311). -/
def threadTok (d : List Byte) : Wide := BitVec.ofNat 512 (fieldAt d 0 4 + fieldAt d 8 16 * 2 ^ 32)

/-- Memory in which no thread queue may lie: neither near nor the local scratchpad (R312). -/
def noQueue (k _ : Nat) (_ : Kind) : Bool := !(k < nearLen || 2 ^ 60 ≤ k)

/-- Every byte of the area is writable in near memory or in the local scratchpad; else cause 0x0D with
the first address that fails (R312). -/
def Ctl.queueArea (va n : Nat) : Ctl Unit := do
  if va % 64 ≠ 0 then Ctl.trap 0x0D (w64 va)
  let (c, tr) ← Ctl.trans
  let w ← get
  match w.spanOf c tr va n .write with
  | (.error (f, at_), v) =>
    set v
    match (w.spanOf c tr va (at_ - va) .write).1 with
    | .ok rs => match firstRun noQueue va rs with
      | some lower => Ctl.trap 0x0D (w64 lower)
      | none => pure ()
    | .error _ => pure ()
    if f = .wait then Ctl.hold
    Ctl.trap (if f = .lost then 0x11 else 0x0D) (w64 at_)
  | (.ok rs, v) =>
    match firstRun noQueue va rs with
    | some at_ => do set v; Ctl.trap 0x0D (w64 at_)
    | none => set v

/-- BLKM (R135). While the region is in block mode, a second BLKM waits (log 55). -/
def execBlkm (d a : Reg) (sl ws : BitVec 3) (s : State) :=
  s.ctl (.blkm d a sl ws) [a] [d] sl ws (fun t => do
    let (p, r, _) ← Ctl.bound (.blkm d a sl ws) t
    let va := t.g a
    let b ← Ctl.block va 64 64
    let nblk := fieldAt b 0 4
    let entry := fieldAt b 4 4
    let age := fieldAt b 8 4
    let nthr := fieldAt b 0x0C 4
    let qbase := fieldAt b 0x18 8
    Ctl.needs va [(0, 1 ≤ nblk && nblk ≤ 1024), (4, entry < nblk), (8, age != 0), (0x0C, 1 ≤ nthr && nthr ≤ 2 ^ 20)]
    Ctl.zeros va b 0x28 6
    Ctl.queueArea qbase (queueBytes nblk nthr)
    let rs ← Ctl.span (fieldAt b 0x10 8) (8 * nblk) .read
    let qs ← Ctl.span (fieldAt b 0x20 8) (32 * nthr) .read
    Ctl.clear (rs ++ qs)
    if r.block.isSome then Ctl.hold
    let tab ← Ctl.bytes (fieldAt b 0x10 8) rs
    let init ← Ctl.bytes (fieldAt b 0x20 8) qs
    let w ← get
    let k := w.m.cur
    let id ← Ctl.outstand sl d .blkm va
    let m : BlockMode := { agent := k, pend := id, nblk := nblk, age := age, cap := capOf nthr,
                           imgtab := (List.range nblk).map (fun q => w64 (fieldAt tab (8 * q) 8)), qbase := w64 qbase,
                           queues := List.replicate nblk { toks := [], head := 0 }, block := none, load := none,
                           choice := none, next := 0, nbv := t.nbv, trans := w.m.transOf k t }
    Ctl.upd (fun u =>
      let v := u.modRegion p (fun r => { r with block := some m })
      let z := (List.range nblk).foldl (fun u q => u.blockHeader m q { toks := [], head := 0 }) v
      (List.range nthr).foldl (fun u j => u.pushThread p entry (threadTok ((init.drop (32 * j)).take 32))) z))

/-! ## The scheduler (R315) -/

/-- The block chosen next: the longest-waiting queue if one has waited longer than AGE, else the one
with the most tokens; ties to the lower number. -/
def BlockMode.choose (b : BlockMode) (tb : Nat) : Option Nat :=
  let qs := (List.range b.queues.length).filterMap (fun q => match b.queues[q]? with
    | some e => (match e.toks with
      | (_, t) :: _ => some (q, t, e.toks.length)
      | [] => none)
    | none => none)
  let oldest := qs.foldl (fun (m : Option (Nat × Nat × Nat)) e => match m with
    | some x => if e.2.1 < x.2.1 then some e else some x
    | none => some e) none
  let most := qs.foldl (fun (m : Option (Nat × Nat × Nat)) e => match m with
    | some x => if x.2.2 < e.2.2 then some e else some x
    | none => some e) none
  match oldest with
  | some x => if b.age < tb - x.2.1 then some x.1 else most.map (·.1)
  | none => none

/-- A thread token as it is injected (R311). -/
def entryTok (item : Nat) (t : Wide) : Tok :=
  { item := item, kind := 0, tag := false, net := 0, pay := t, srcs := [threadSrc] }

/-- Tokens numbered in order from n while each number is free, as a source port numbers items: neither it nor
the number half the numbers away is live (R23, R266, R311). The tokens, those left, and the next number. -/
def numberThreads (live : List Nat) : Nat → Nat → List Wide → List Tok × List Wide × Nat
  | 0, n, l => ([], l, n)
  | _ + 1, n, [] => ([], [], n)
  | f + 1, n, t :: r =>
    if live.contains n || live.contains ((n + 32768) % 65536) then ([], t :: r, n)
    else
      let (ts, left, next) := numberThreads live f ((n + 1) % 65536) r
      (entryTok n t :: ts, left, next)

/-- What stands in a region of the tokens of a run. -/
def Mach.threadsIn (m : Mach) (p : Where) (r : Region) : List Mark :=
  (m.tokensIn p r ++ m.antisIn r).filter (fun t => t.srcs.contains threadSrc)

/-- The tokens of a run whose numbers are free given to its TENTRY tile, oldest first (R311, R313). -/
def Work.giveThreads (w : Work) (p : Where) (r : Region) (b : BlockMode) : Work :=
  let (ts, left, next) := numberThreads ((w.m.threadsIn p r).map (·.item)) 32768 b.next b.rest
  (w.modCluster r.cluster (fun k => { k with ctxs := amod k.ctxs (b.entries.headD 0) (fun c =>
    { c with entry := c.entry ++ ts }) })).modRegion p (fun r => { r with block := some { b with rest := left, next := next } })

/-- A run of queue q begins: every token in it is to be injected (R315). An image without exactly one TENTRY
ends block mode with status 0x15, and the tokens stay (R313). -/
def Work.runBlock (w : Work) (p : Where) (r : Region) (b : BlockMode) (q : Nat) : Work :=
  match b.entries with
  | [_] =>
    let e := nth b.queues q { toks := [], head := 0 }
    let e' : BlockQ := { toks := [], head := (e.head + e.toks.length) % b.cap }
    let b' : BlockMode := { b with
      queues := modNth b.queues q (fun _ => e'), block := some q, choice := none, rest := e.toks.map (·.1) }
    (w.giveThreads p r b').blockHeader b' q e'
  | _ => w.endBlock p 0x15

/-- The run of the block loaded goes on: a token of it has still to be injected, or remains in the region
(R135, R315). -/
def Mach.blockRuns (m : Mach) (p : Where) (r : Region) (b : BlockMode) : Bool :=
  b.block.isSome && (!b.rest.isEmpty || !(m.threadsIn p r).isEmpty)

/-- BLOCK_SCHEDULE (R315): once the run of the block loaded has ended, the next is chosen, loaded if it
is not, and run; with every queue empty block mode ends (R135). -/
def execBlockSchedule (l r : Nat) (s : State) := s.event (fun w =>
  match w.m.launch? l, w.m.region? l r with
  | some x, some q =>
    let p : Where := { l := l, r := r }
    match q.block with
    | none => w
    | some b =>
      if q.state = 2 || x.paused || x.floor || !x.holds || b.load.isSome then w
      else match b.choice with
        | some n => w.runBlock p q b n
        | none =>
          if !b.rest.isEmpty then w.giveThreads p q b
          else if w.m.blockRuns p q b then w
          else match b.choose w.m.tb with
            | none => w.endBlock p 0
            | some n =>
              if b.block = some n then w.runBlock p q b n
              else
                let d : Load := { launch := l, region := r, report := .block, image := nth b.imgtab n 0, restore := false,
                                  nbv := b.nbv, trans := b.trans, prio := x.prio, accepted := false, words := [],
                                  reads := [], fault := none, staged := [] }
                let (id, v) := w.queueLoad d
                v.modRegion p (fun r => { r with block := some { b with load := some id, choice := some n } })
  | _, _ => w)

/-! ## Reweighting (R309) -/

/-- The slot-cycles that contexts 0 to 3 of a tile had in the window that has ended. -/
def Mach.occOf (m : Mach) (g x y : Nat) : List Nat :=
  (List.range 4).map (fun c => ((m.ctx? g x y c).bind (·.due)).getD 0)

/-- A window of 1,024 cycles has ended, and the arbiter of a tile has not yet reweighted. -/
def Mach.reweighs (m : Mach) (g x y : Nat) : Bool := (m.onTile g x y).any (fun e => e.2.due.isSome)

/-- CONTEXT_REWEIGHT (R309): the arbiter of a tile reweights its contexts at the end of a window. `occ` names
the slot-cycles of contexts 0 to 3, which are those that the tile has counted. Turns go by the new weights from
the window's end on, whether the event has come or not. -/
def execContextReweight (g x y : Nat) (occ : List Nat) (s : State) := s.event (fun w =>
  if occ ≠ w.m.occOf g x y || !w.m.reweighs g x y then w
  else (reweighted (w.m.onTile g x y)).foldl (fun u e => u.modCtx g x y e.1 (fun _ => e.2)) w)

end Sys2Proof.Machine
end

