-- ==== Sys2Proof/Machine/Digest.lean ====
section
/-!
DEFINITION. SHA-512, which measures (R355, R356) and seals (R383). The spec names the algorithm; its
constants and rounds are the standard's (PRESUMED, log 56).
-/

namespace Sys2Proof.Machine

/-! ## Constants -/

def shaK0 : List Nat := [0x428A2F98D728AE22, 0x7137449123EF65CD, 0xB5C0FBCFEC4D3B2F, 0xE9B5DBA58189DBBC, 0x3956C25BF348B538,
  0x59F111F1B605D019, 0x923F82A4AF194F9B, 0xAB1C5ED5DA6D8118, 0xD807AA98A3030242, 0x12835B0145706FBE]
def shaK1 : List Nat := [0x243185BE4EE4B28C, 0x550C7DC3D5FFB4E2, 0x72BE5D74F27B896F, 0x80DEB1FE3B1696B1, 0x9BDC06A725C71235,
  0xC19BF174CF692694, 0xE49B69C19EF14AD2, 0xEFBE4786384F25E3, 0x0FC19DC68B8CD5B5, 0x240CA1CC77AC9C65]
def shaK2 : List Nat := [0x2DE92C6F592B0275, 0x4A7484AA6EA6E483, 0x5CB0A9DCBD41FBD4, 0x76F988DA831153B5, 0x983E5152EE66DFAB,
  0xA831C66D2DB43210, 0xB00327C898FB213F, 0xBF597FC7BEEF0EE4, 0xC6E00BF33DA88FC2, 0xD5A79147930AA725]
def shaK3 : List Nat := [0x06CA6351E003826F, 0x142929670A0E6E70, 0x27B70A8546D22FFC, 0x2E1B21385C26C926, 0x4D2C6DFC5AC42AED,
  0x53380D139D95B3DF, 0x650A73548BAF63DE, 0x766A0ABB3C77B2A8, 0x81C2C92E47EDAEE6, 0x92722C851482353B]
def shaK4 : List Nat := [0xA2BFE8A14CF10364, 0xA81A664BBC423001, 0xC24B8B70D0F89791, 0xC76C51A30654BE30, 0xD192E819D6EF5218,
  0xD69906245565A910, 0xF40E35855771202A, 0x106AA07032BBD1B8, 0x19A4C116B8D2D0C8, 0x1E376C085141AB53]
def shaK5 : List Nat := [0x2748774CDF8EEB99, 0x34B0BCB5E19B48A8, 0x391C0CB3C5C95A63, 0x4ED8AA4AE3418ACB, 0x5B9CCA4F7763E373,
  0x682E6FF3D6B2B8A3, 0x748F82EE5DEFB2FC, 0x78A5636F43172F60, 0x84C87814A1F0AB72, 0x8CC702081A6439EC]
def shaK6 : List Nat := [0x90BEFFFA23631E28, 0xA4506CEBDE82BDE9, 0xBEF9A3F7B2C67915, 0xC67178F2E372532B, 0xCA273ECEEA26619C,
  0xD186B8C721C0C207, 0xEADA7DD6CDE0EB1E, 0xF57D4F7FEE6ED178, 0x06F067AA72176FBA, 0x0A637DC5A2C898A6]
def shaK7 : List Nat := [0x113F9804BEF90DAE, 0x1B710B35131C471B, 0x28DB77F523047D84, 0x32CAAB7B40C72493, 0x3C9EBE0A15C9BEBC,
  0x431D67C49C100D4C, 0x4CC5D4BECB3E42B6, 0x597F299CFC657E2A, 0x5FCB6FAB3AD6FAEC, 0x6C44198C4A475817]

/-- The constant of each of the 80 rounds. -/
def shaK : List Nat := shaK0 ++ shaK1 ++ shaK2 ++ shaK3 ++ shaK4 ++ shaK5 ++ shaK6 ++ shaK7

/-- The eight words a digest starts from. -/
def shaInit : List Nat := [0x6A09E667F3BCC908, 0xBB67AE8584CAA73B, 0x3C6EF372FE94F82B, 0xA54FF53A5F1D36F1,
  0x510E527FADE682D1, 0x9B05688C2B3E6C1F, 0x1F83D9ABFB41BD6B, 0x5BE0CD19137E2179]

/-! ## Rounds -/

/-- A 64-bit word rotated right. -/
def rotr64 (x n : Nat) : Nat := x / 2 ^ n + x % 2 ^ n * 2 ^ (64 - n)

def sha0 (x : Nat) : Nat := rotr64 x 1 ^^^ rotr64 x 8 ^^^ (x / 2 ^ 7)
def sha1 (x : Nat) : Nat := rotr64 x 19 ^^^ rotr64 x 61 ^^^ (x / 2 ^ 6)
def shaS0 (x : Nat) : Nat := rotr64 x 28 ^^^ rotr64 x 34 ^^^ rotr64 x 39
def shaS1 (x : Nat) : Nat := rotr64 x 14 ^^^ rotr64 x 18 ^^^ rotr64 x 41

/-- The schedule of a block: its sixteen words and the 64 after them, newest first. -/
def shaSchedule : Nat → List Nat → List Nat
  | 0, ws => ws
  | n + 1, ws =>
    let w := (sha1 (nth ws 1 0) + nth ws 6 0 + sha0 (nth ws 14 0) + nth ws 15 0) % 2 ^ 64
    shaSchedule n (w :: ws)

/-- One round over the eight working words. -/
def shaRound (s : List Nat) (kw : Nat × Nat) : List Nat :=
  match s with
  | [a, b, c, d, e, f, g, h] =>
    let t1 := h + shaS1 e + ((e &&& f) ^^^ ((2 ^ 64 - 1 - e) &&& g)) + kw.1 + kw.2
    let t2 := shaS0 a + ((a &&& b) ^^^ (a &&& c) ^^^ (b &&& c))
    [(t1 + t2) % 2 ^ 64, a, b, c, (d + t1) % 2 ^ 64, e, f, g]
  | l => l

/-- A block of 128 bytes taken into the digest. -/
def shaBlock (s : List Nat) (d : List Byte) : List Nat :=
  let ws := (List.range 16).map (fun k => ofBytes ((d.drop (8 * k)).take 8).reverse)
  let sched := (shaSchedule 64 ws.reverse).reverse
  let r := (shaK.zip sched).foldl shaRound s
  (s.zip r).map (fun p => (p.1 + p.2) % 2 ^ 64)

def shaBlocks : Nat → List Nat → List Byte → List Nat
  | 0, s, _ => s
  | n + 1, s, d => if d.isEmpty then s else shaBlocks n (shaBlock s (d.take 128)) (d.drop 128)

/-- SHA-512 of a message: 64 bytes. -/
def sha512 (d : List Byte) : List Byte :=
  let z := (111 + 128 - d.length % 128) % 128
  let m := d ++ [0x80] ++ List.replicate z 0 ++ (toBytes 16 (8 * d.length)).reverse
  (shaBlocks (m.length / 128) shaInit m).flatMap (fun w => (toBytes 8 w).reverse)

end Sys2Proof.Machine
end

