-- ==== Sys2Proof/Machine/Partitions.lean ====
section
/-!
DEFINITION. Partitions, cores and measurements (R159, R161, R336 to R340, R356, R379, R412 to R414):
the effect of each write that acts, as one operation that SRW and the event rows share.
-/

namespace Sys2Proof.Machine

/-- A core's own registers changed. -/
def Work.modCore (w : Work) (k : Nat) (f : CoreRegs → CoreRegs) : Work :=
  w.modThr k (fun t => { t with sys := t.sys.map f })

/-- The partition whose registers an access of core k reaches (R412): at S its own, at H the one
H.PSEL names; none where that is no valid partition. -/
def Mach.selPart (m : Mach) (k : Nat) (c : CoreRegs) : Option Nat :=
  if c.h && c.psel < 16 then (if m.validPart c.psel then some c.psel else none) else m.partOfCore (k - 1536)

/-- An access that only H has (R336, R339, R346): cause 0x06, TRAP.VAL the word. -/
def Ctl.needH (c : CoreRegs) (word : IWord) : Ctl Unit :=
  if c.h then pure () else Ctl.trap 0x06 (word.setWidth 64)

/-- The word by which a core writes register r, for TRAP.VAL where an event stands for it. -/
def srwWord (r : Nat) : IWord := wordOfInstr (.srw 0 (BitVec.ofNat 12 r))

/-! ## HPT.APPLY (R336 to R338, R379) -/

/-- The range r of an entry. -/
def entryRange (d : List Byte) (r : Nat) : Range :=
  let v := fieldAt d (0x40 + 16 * r) 16
  { base := bits v 0 64, len := bits v 64 40, exported := bitAt v 126 }

/-- An entry's fields (R337). -/
def parseEntry (d : List Byte) : PartEntry :=
  let w0 := fieldAt d 0 4
  { valid := bitAt w0 31, vmid := bits w0 16 8, holdPri := bits w0 8 8, share := fieldAt d 4 4, cores := fieldAt d 8 2,
    clusters := fieldAt d 0x10 24, tdt := fieldAt d 0x28 8,
    ranges := ((List.range 8).map (entryRange d)).filter (fun r => r.len != 0) }

/-- The regions of the PA map in which a range may lie (R341, R337). -/
def paRegions : List (Nat × Nat) :=
  [(0, 0xC000000000), (0x100000000000, 0x1C0000000000), (0x4000000000000, 0x5000000000000),
   (0x8000000000000, 0xC000000000000)]

/-- Reserved bits of an entry are 0. -/
def entryReserved (d : List Byte) : Bool :=
  let w0 := fieldAt d 0 4
  bits w0 24 7 == 0 && bits w0 0 8 == 0 && fieldAt d 0x0A 6 == 0 && fieldAt d 0x30 16 == 0 && fieldAt d 0xC0 64 == 0
    && (List.range 8).all (fun r =>
      let v := fieldAt d (0x40 + 16 * r) 16
      bits v 0 12 == 0 && bits v 52 12 == 0 && bits v 64 12 == 0 && bits v 104 22 == 0 && !bitAt v 127)

/-- An entry is well formed (R337). -/
def entryOk (d : List Byte) : Bool :=
  let e := parseEntry d
  entryReserved d && (!e.valid || (e.vmid != 0xFF
    && e.ranges.all (fun r => paRegions.any (fun p => p.1 ≤ r.base && r.base + r.len ≤ p.2))
    && e.tdt % 524288 == 0 && e.ranges.any (fun r => r.base ≤ e.tdt && e.tdt + 524288 ≤ r.base + r.len)))

/-- The valid partitions other than p. -/
def Mach.others (m : Mach) (p : Nat) : List PartEntry :=
  ((m.parts.filter (fun q => q.1 != p && q.2.entry.valid)).map (·.2.entry))

/-- A cluster or core that an entry takes from p is in use (R336): by a launch that holds it, or by a
core that runs at S. -/
def Mach.inUse (m : Mach) (p : Nat) (e : PartEntry) : Bool :=
  let old := (m.part p).entry
  let keepsC := fun (g : Nat) => e.valid && bitAt e.clusters g
  let keepsK := fun (k : Nat) => e.valid && bitAt e.cores k
  old.valid && (m.launches.any (fun l => l.2.holds && l.2.part == p && l.2.clusters.any (fun g => !keepsC g))
    || m.thr.any (fun t => match t.2.sys with
      | some c => !c.h && t.2.run == .ready && bitAt old.cores (t.1 - 1536) && !keepsK (t.1 - 1536)
      | none => false))

/-- Two ranges share a byte. -/
def Range.laps (r q : Range) : Bool := r.base < q.base + q.len && q.base < r.base + r.len

/-- HPT.STAT of an apply (R336, R379), in the order of its values. -/
def Mach.applyStat (m : Mach) (p : Nat) (d : List Byte) : Nat :=
  let e := parseEntry d
  let os := m.others p
  let sum := m.hold.hyp + (os.map (·.share)).foldl (· + ·) 0 + e.share
  if !entryOk d then 1
  else if e.valid && os.any (fun o => (o.clusters &&& e.clusters) != 0 || (o.cores &&& e.cores) != 0 || o.vmid == e.vmid) then 2
  else if m.inUse p e then 3
  else if e.valid && m.hold.budget < 65536 * sum then 4
  else if e.valid && os.any (fun o => o.ranges.any (fun r => e.ranges.any r.laps)) then 5
  else 0

/-- HPT.APPLY (R336): the entry is read and checked, and made effective in one step. An entry that is
not in memory, or in domain memory, which is exported to no hypervisor (R354), is malformed. -/
def Work.hptApply (w : Work) (v : Word) : Work :=
  let p := v.toNat % 16
  let pa := w.m.hptBase + 256 * p
  let there := w.m.present pa && !w.m.refused 0xFF pa
  let z := if v.toNat < 16 && there then w.portNow (w.m.keyOf pa) 256 true else w
  let d := z.bytes (w.m.keyOf pa) 256
  let stat := if 16 ≤ v.toNat then 6 else if !there then 1 else w.m.applyStat p d
  let u := z.mach (fun m => { m with hptStat := stat })
  if stat = 0 then (u.setPart p (fun q => { q with entry := parseEntry d })).refuseLost else u

/-- HPT_APPLY (R336). -/
def execHptApply (k : Nat) (v : Word) (s : State) := s.asCore k (fun _ c => do
  Ctl.needH c (srwWord 0x0C1)
  Ctl.upd (fun w => w.hptApply v))

/-! ## Cores (R339, R161) -/

def Mach.runBit (m : Mach) (k : Nat) (on : Bool) : Mach :=
  { m with coreRun := if bitAt m.coreRun k == on then m.coreRun else if on then m.coreRun + 2 ^ k else m.coreRun - 2 ^ k }

/-- An outstanding word of a stopped core: it completes, and sets nothing in the core as it is started
again, which keeps no state (R339). -/
def Pend.orphan (p : Pend) : Pend := { p with set := 0, dest := none, holds := false }

/-- A core as it starts again over what is left of it: its outstanding accesses complete (R339), and its
must-save ranges, which are the budget keeper's, stand (log 57). -/
def Thread.restart (t : Thread) (pc : Word) (httb : Nat) : Thread :=
  { Thread.start pc (some (CoreRegs.start httb)) with
    saves := t.saves, pend := t.pend.map (·.orphan), nextPend := t.nextPend }

/-- CORE.START: the selected core begins at H at the entry. -/
def Work.coreStart (w : Work) (httb : Nat) (v : Word) : Work :=
  let k := w.m.coreSel
  if v.toNat % 4 ≠ 0 || bitAt w.m.coreRun k then w
  else
    let old := (aget w.m.thr (1536 + k)).getD (Thread.start 0 none)
    (w.putThr (1536 + k) (old.restart v httb)).mach (fun m => m.runBit k true)

/-- CORE.STOP: core k stops at its next instruction boundary; one that holds a word stops after it. -/
def Work.coreStop (w : Work) (v : Word) : Work :=
  if 16 ≤ v.toNat then w
  else
    let k := v.toNat
    match aget w.m.thr (1536 + k) with
    | some t =>
      if t.run ≠ .ready then w
      else (w.putThr (1536 + k) { t with run := if t.held then .dying else .halted }).mach (fun m => m.runBit k t.held)
    | none => w

/-- CORE_START (R339). -/
def execCoreStart (k : Nat) (v : Word) (s : State) := s.asCore k (fun _ c => do
  Ctl.needH c (srwWord 0x0F1)
  Ctl.upd (fun w => w.coreStart c.httb v))

/-- CORE_STOP (R339). -/
def execCoreStop (k : Nat) (v : Word) (s : State) := s.asCore k (fun _ c => do
  Ctl.needH c (srwWord 0x0F3)
  Ctl.upd (fun w => w.coreStop v))

/-- INT.SEND (R161). -/
def Work.intSend (w : Work) (k : Nat) (c : CoreRegs) (v : Word) : Work :=
  let j := v.toNat
  if 16 ≤ j then w
  else if !c.h && w.m.partOfCore j != w.m.partOfCore (k - 1536) then w
  else w.modThr (1536 + j) (fun t => if t.run = .halted then t else { t with sys := t.sys.map (fun c => { c with soft := true }) })

/-- INT_SEND (R161). -/
def execIntSend (k : Nat) (v : Word) (s : State) := s.asCore k (fun _ c => Ctl.upd (fun w => w.intSend k c v))

/-! ## Measurements (R355, R356) -/

/-- A register extended by a digest. -/
def extend (m d : List Byte) : List Byte := sha512 (m ++ d)

/-- MEAS.EXT (R356): M0 to M7 at H only; PM of the writing core's partition at S or H, nothing on a
core in no partition. -/
def Ctl.measExt (k : Nat) (c : CoreRegs) (v : Word) (word : IWord) : Ctl Unit := do
  let w ← get
  if c.measIdx < 8 && !c.h then Ctl.trap 0x06 (word.setWidth 64)
  if 8 ≤ c.measIdx && c.measIdx ≠ 16 then Ctl.trap 0x0D (Config.freeTrapVal w.m.free)
  let d ← Ctl.block v 64 64
  if c.measIdx < 8 then
    Ctl.upd (fun u => u.mach (fun m => { m with meas := modNth m.meas c.measIdx (fun x => extend x d) }))
  else match w.m.partOfCore (k - 1536) with
    | some p => Ctl.upd (fun u => u.setPart p (fun q => { q with pm := extend q.pm d }))
    | none => pure ()

/-- MEAS_EXT (R356). -/
def execMeasExt (k : Nat) (v : Word) (s : State) := s.asCore k (fun _ c => Ctl.measExt k c v (srwWord 0x0C8))

/-! ## The trap queue's registers and parked threads (R159, R412 to R414) -/

/-- The translation a write of TRQ.BASE or HANG.BASE captures (R413). -/
def Mach.captured (m : Mach) (c : CoreRegs) (p : Nat) : Trans :=
  { ttb := c.ttb, asid := c.asid, vmid := (m.part p).entry.vmid, priv := .s, cluster := none, part := some p, scratch := none }

/-- TRQ.BASE written: its translation is captured, and a record write that had faulted is made again. -/
def Work.trqBase (w : Work) (k : Nat) (c : CoreRegs) (v : Word) : Work :=
  match w.m.selPart k c with
  | some p => w.setPart p (fun q => { q with trqBase := v, trqTrans := w.m.captured c p, trqStuck := false })
  | none => w

/-- HANG.BASE written: [17:0] are ignored (R323). -/
def Work.hangBase (w : Work) (k : Nat) (c : CoreRegs) (v : Word) : Work :=
  match w.m.selPart k c with
  | some p => w.setPart p (fun q => { q with hangBase := w64 (v.toNat / 2 ^ 18 * 2 ^ 18), hangTrans := w.m.captured c p })
  | none => w

/-- TRQ_BASE_WRITE (R413). -/
def execTrqBaseWrite (k : Nat) (v : Word) (s : State) := s.asCore k (fun _ c => Ctl.upd (fun w => w.trqBase k c v))

/-- HANG_BASE_WRITE (R413). -/
def execHangBaseWrite (k : Nat) (v : Word) (s : State) := s.asCore k (fun _ c => Ctl.upd (fun w => w.hangBase k c v))

/-- The parked thread of a partition that a value names. -/
def Mach.parkedThread (m : Mach) (p : Nat) (v : Word) : Option (Nat × Thread × Option Nat × Bool) :=
  match aget m.thr v.toNat with
  | some t =>
    match t.sys, t.run with
    | none, .parked _ _ _ _ e final =>
      if ((m.launch? t.launch).map (·.part)) == some p then some (v.toNat, t, e, final) else none
    | _, _ => none
  | none => none

/-- RESUME (R414): a parked thread goes on from its record as it stands in the trap queue: in its entry at the
base that TRQ.BASE holds now, where that has been written since (DESIGN CHOICE, log 146). -/
def Work.resume (w : Work) (k : Nat) (c : CoreRegs) (v : Word) : Work :=
  match w.m.selPart k c with
  | none => w
  | some p =>
    match w.m.parkedThread p v with
    | some (n, t, some e, false) =>
      let q := w.m.part p
      match w.load noCache q.trqTrans ((q.trqBase.toNat + 512 * e) % 2 ^ 64) 512 with
      | (.ok d, u) =>
        if fieldAt d 0 8 ≠ n || fieldAt d 0x130 8 % 4 ≠ 0 then u
        else (u.fresh).2.putThr n { t.fromRecord u.m.free d with run := .ready }
      | (.error _, u) => u
    | _ => w

/-- KILL (R159): a parked thread exits as EXIT states. -/
def Work.kill (w : Work) (k : Nat) (c : CoreRegs) (v : Word) : Work :=
  match w.m.selPart k c with
  | none => w
  | some p =>
    match w.m.parkedThread p v with
    | some (n, t, _, _) => if t.leaving then w.exitThread n else w.putThr n { t with run := .dying }
    | none => w

/-- RESUME (R414). -/
def execResume (k : Nat) (v : Word) (s : State) := s.asCore k (fun _ c => Ctl.upd (fun w => w.resume k c v))

/-- KILL_WRITE (R159). -/
def execKillWrite (k : Nat) (v : Word) (s : State) := s.asCore k (fun _ c => Ctl.upd (fun w => w.kill k c v))

end Sys2Proof.Machine
end

