-- ==== Sys2Proof/Machine/Power.lean ====
section
/-!
DEFINITION. What the package does with its supply, its heat and its age (R377 to R388), measured boot
and package reset (R355, R393), and record mode's log (R394).
-/

namespace Sys2Proof.Machine

/-! ## Must-save ranges (R153, R380) -/

/-- The charge of a range: its length and its seal. -/
def SaveRange.charge (r : SaveRange) : Nat := r.len + 64

/-- Every admitted range, with the number of the thread that declared it: live threads' and those of
evicted launches. -/
def Mach.saves (m : Mach) : List (Nat × SaveRange) :=
  m.thr.flatMap (fun t => t.2.saves.map (fun r => (t.1, r)))
    ++ m.launches.flatMap (fun l => l.2.kept.flatMap (fun t => t.2.saves.map (fun r => (t.1, r))))

/-- Bytes charged to an account: the hypervisor's, or a partition's. -/
def Mach.charged (m : Mach) (hyp : Bool) (p : Nat) : Nat :=
  ((m.saves.filter (fun e => e.2.hyp == hyp && (hyp || e.2.part == p))).map (fun e => e.2.charge)).foldl (· + ·) 0

/-- Bytes charged across the package. -/
def Mach.chargedAll (m : Mach) : Nat := (m.saves.map (fun e => e.2.charge)).foldl (· + ·) 0

/-- The limit of an account (R379, R380). -/
def Mach.limit (m : Mach) (hyp : Bool) (p : Nat) : Nat :=
  65536 * (if hyp then m.hold.hyp else (m.part p).entry.share)

/-- MSAV (R153, R380). -/
def execMsav (d a : Reg) (sl ws : BitVec 3) (b : Reg) (s : State) :=
  s.ctl (.msav d a sl ws b) [a, b] [d] sl ws (fun t => do
    let w ← get
    let base := (t.g a).toNat
    let len := (t.g b).toNat
    let hyp := t.priv == .h
    let p := (w.m.partOf w.m.cur t).getD 16
    let same := w.m.saves.filter (fun e => e.2.hyp == hyp && (hyp || e.2.part == p))
    let laps := same.any (fun e => e.2.va.toNat < base + len && base < e.2.va.toNat + e.2.len)
    if w.m.hold.phase ≠ 0 then Ctl.result d 1
    else if base % 64 ≠ 0 || len % 64 ≠ 0 || len = 0 then Ctl.result d 3
    else if 16 ≤ t.saves.length then Ctl.result d 2
    else if laps then Ctl.result d 4
    else if w.m.limit hyp p < w.m.charged hyp p + len + 64 then Ctl.result d 1
    else do
      let (c, tr) ← Ctl.trans
      match w.spanOf c tr base len .write with
      | (.error (.wait, _), v) => do set v; Ctl.hold
      | (.error _, v) => do set v; Ctl.result d 3
      | (.ok rs, v) =>
        if rs.all (fun q => q.1 < nearLen || 2 ^ 60 ≤ q.1) then do
          let r : SaveRange := { va := w64 base, len := len, pages := rs.map (fun q => (q.1, q.2.1)), order := v.m.hold.admitted,
                                 hyp := hyp, part := p }
          set (v.mach (fun m => { m with hold := { m.hold with admitted := m.hold.admitted + 1 } }))
          Ctl.me (fun t => { t with saves := t.saves ++ [r] })
          Ctl.result d 0
        else Ctl.result d 3
    Ctl.done)

/-- MSCL (R153). -/
def execMscl (d a : Reg) (sl ws : BitVec 3) (s : State) :=
  s.ctl (.mscl d a sl ws) [a] [d] sl ws (fun t => do
    let w ← get
    if w.m.hold.phase ≠ 0 || !t.saves.any (fun r => r.va == t.g a) then Ctl.result d 1
    else do
      Ctl.me (fun t => { t with saves := t.saves.filter (fun r => r.va != t.g a) })
      Ctl.result d 0
    Ctl.done)

/-! ## The budget (R378) -/

/-- HOLD.BUDGET for a reserve of E mJ. -/
def budgetOf (e : Nat) : Nat :=
  Nat.min 671088640 (65536 * ((32000 * 450 * e - 39200000000 - 1048576 * 450) / (450 * 65536)))

/-- Bytes that are written at 16 GB/s and at most 450 W before a reserve of E mJ reads 2 J, the cut
having used 0.45 J (R378, R381). -/
def sureBytes (e : Nat) : Nat := (e - 2450) * 16000000 / 450

/-! ## The record (R383) -/

/-- A directory entry with a STATE. -/
def DirEnt.entry (x : DirEnt) (state : Nat) : List Byte :=
  toBytes 4 (x.typ * 2 ^ 30 + state * 2 ^ 28 + (if x.begun then 2 ^ 27 else 0) + (if x.poison then 2 ^ 26 else 0)
      + (if x.hyp then 2 ^ 12 else 0) + x.part * 2 ^ 8)
    ++ toBytes 4 x.thread ++ toBytes 8 x.va.toNat ++ toBytes 8 x.len ++ toBytes 8 x.tbCut ++ zeroBytes 32

/-- The seal of a set: over its entry's first words as they stand while it is written (STATE 0). -/
def DirEnt.seal (x : DirEnt) : List Byte := sha512 ((x.entry 0).take 32 ++ x.bytes)

/-- STATE as the next boot finds it. -/
def DirEnt.check (x : DirEnt) : DirEnt :=
  if x.typ ≠ 0 then x
  else { x with state := if !x.begun then 0 else if x.sealed == x.seal then 1 else 2 }

/-- A set as the cut finds it (R382). -/
def Work.setEntry (w : Work) (e : Nat × SaveRange) : DirEnt :=
  { typ := 0, state := 0, begun := false, poison := e.2.pages.any (fun p => w.poisoned p.1 p.2), hyp := e.2.hyp,
    part := if e.2.hyp then 0 else e.2.part, thread := if e.1 < 1536 then e.1 else 0xFFFFFFFF, va := e.2.va, len := e.2.len,
    tbCut := w.m.tb, pages := e.2.pages, bytes := e.2.pages.flatMap (fun p => w.bytes p.1 p.2), sealed := [] }

/-- The launch entry of a launch placed at detection: its partition and status VA. -/
def Work.launchEntry (w : Work) (l : Nat × Word) : DirEnt :=
  { typ := 1, state := 0, begun := false, poison := false, hyp := false, part := l.1, thread := 0xFFFFFFFF, va := l.2,
    len := 0, tbCut := w.m.tb, pages := [], bytes := [], sealed := [] }

/-- The order in which sets are written (R381). -/
def Mach.setBefore (m : Mach) (a b : SaveRange) : Bool :=
  if a.hyp != b.hyp then a.hyp
  else if a.hyp then a.order < b.order
  else
    let pa := (m.part a.part).entry.holdPri
    let pb := (m.part b.part).entry.holdPri
    if pa != pb then pa < pb else if a.part != b.part then a.part < b.part else a.order < b.order

/-- An element put where the order has it. -/
def insertBy {α : Type} (lt : α → α → Bool) (x : α) : List α → List α
  | [] => [x]
  | y :: r => if lt x y then x :: y :: r else y :: insertBy lt x r

/-- The directory written at the cut. -/
def Work.directory (w : Work) : List DirEnt :=
  let sets := w.m.saves.foldl (fun l e => insertBy (fun a b => w.m.setBefore a.2 b.2) e l) []
  sets.map w.setEntry ++ w.m.hold.placed.map w.launchEntry

/-- Sets written with n bytes of writing: a set begun and unfinished is torn, and its bytes past the
point where writing stopped are what the keep store held there before, a free value of their number (R383). -/
def writeSets : Nat → Nat → List DirEnt → List DirEnt
  | _, _, [] => []
  | n, free, x :: r =>
    if x.typ ≠ 0 then x :: writeSets n free r
    else if n = 0 then x :: writeSets 0 free r
    else
      let y := { x with begun := true }
      if x.len + 64 ≤ n then { y with sealed := y.seal } :: writeSets (n - x.len - 64) free r
      else
        let kept := Nat.min n x.len
        let rest := (Config.freeBytes free (x.len - kept) ++ zeroBytes (x.len - kept)).take (x.len - kept)
        { y with bytes := x.bytes.take kept ++ rest } :: writeSets 0 (free + 1) r

/-! ## Package reset (R339, R355, R378, R393) -/

/-- Whether a digest and a signature let the first stage run: BOOT.STAT (R355, R356). -/
def Boot.check (x : Boot) : Nat :=
  match x.stage with
  | none => 3
  | some st => if sha512 x.key != x.fuse then 1 else if !Config.ed25519Verifies x.key st x.sig then 2 else 0

/-- The REC registers as PKG.RESET leaves them: kept (R393), with the MODE that REC.CTL asks for where REC.BASE
and REC.LEN keep their rules. A new run counts its own log bytes from 0, a new recording has filled no log,
and a new replay has not diverged (DEDUCED, log 58). -/
def Mach.recAtReset (m : Mach) : Rec :=
  let r := m.record
  let base := r.base.toNat
  let len := r.len.toNat
  let ok := base % 4096 == 0 && len % 4096 == 0 && base + len ≤ nearLen
    && !m.parts.any (fun p => p.2.entry.valid && p.2.entry.ranges.any (fun q => q.base < base + len && base < q.base + q.len))
  let mode := if ok then r.ctl else 0
  { r with
    mode := mode
    written := if mode = 0 then r.written else 0
    ovf := r.ovf && mode != 1
    div := r.div && mode != 2
    ended := false }

/-- The package reset with a reserve of E mJ measured at boot: every register at its reset value; what
the keep store, the fuses and the outside hold stays. Cycles and turns are counted anew, and a replay takes up
the count of free values that the recording began with, so that the two meet the same ones (R395; DESIGN CHOICE,
log 130). With `supply` lost, the package's memory is lost as well;
without, it stands (log 58). The REC registers are those given. The ROM then measures the first stage, and core 0
of N runs nothing where a check fails. -/
def Work.reset (w : Work) (supply : Bool) (regs : Rec) (e : Nat) : Work :=
  let z := State.reset.m
  let old := w.m
  let stat := old.boot.check
  let stage := old.boot.stage.getD []
  let hold : HoldUp := { z.hold with
    budget := budgetOf e, resBoot := e, res := e, record := old.hold.record.map DirEnt.check,
    recCause := old.hold.recCause }
  let core0 : Thread := { Thread.start 0 (some (CoreRegs.start 0)) with run := if stat = 0 then .ready else .halted }
  let m : Mach := { z with
    pace := old.pace, cycPace := old.cycPace, free := if regs.mode = 2 then regs.seed else old.free, agenda := old.agenda, thr := [(1536, core0)],
    coreRun := if stat = 0 then 1 else 0, hold := hold, boot := { old.boot with stat := stat },
    meas := if stat = 0 then modNth z.meas 0 (fun x => extend x (sha512 stage)) else z.meas,
    record := if regs.mode = 1 then { regs with seed := old.free } else regs, farPorts := old.farPorts, packages := old.packages,
    own := old.own, hostOut := old.hostOut, domainOut := old.domainOut }
  let v : Work := if supply then
      { m := m, base := w.base, log := w.log.filter (fun c => survives c.1), bad := w.bad.filter survives, wiped := true }
    else { w with m := m }
  v.record 0 0 (sha512 stage)

/-- PACKAGE_RESET (R355): the package loses and regains its supply outside a hold-up, with a reserve of
e mJ measured at boot. -/
def execPackageReset (e : Nat) (s : State) := s.event (fun w => w.reset true State.reset.m.record e)

/-- A write of PKG.RESET: memory stands, and the reserve measured is the last one (R393, log 58). -/
def Work.pkgReset (w : Work) : Work := w.reset false w.m.recAtReset w.m.hold.res

/-- PKG_RESET (R393): core k resets the package. -/
def execPkgReset (k : Nat) (_v : Word) (s : State) := s.asCore k (fun _ c => do
  Ctl.needH c (srwWord 0x0D5)
  Ctl.upd (fun w => w.pkgReset))

/-! ## The hold-up sequence (R381 to R384) -/

/-- The launches that are placed: the partition and the status VA of each. -/
def Mach.placedNow (m : Mach) : List (Nat × Word) :=
  (m.launches.filter (fun l => l.2.holds)).map (fun l => (l.2.part, l.2.status))

/-- The sequence is detected: supply loss (1), or a critical temperature of a die (2). CAUSE is set, the launches
placed now are those that the directory will record (R383), and a run of record mode ends (R395). -/
def Work.detect (w : Work) (cause die : Nat) : Work :=
  if w.m.hold.phase ≠ 0 then w
  else w.mach (fun m => { m with
    hold := { m.hold with phase := 1, cause := cause, die := die, tb := m.tb, recCause := cause, placed := m.placedNow }
    record := { m.record with ended := true } })

/-- SUPPLY_LOSS (R381). -/
def execSupplyLoss (s : State) := s.event (fun w => w.detect 1 0)

/-- A core takes a trap that does not wait for its word: a word it holds no longer holds it. -/
def Thread.forced (t : Thread) (cause : Nat) (val : Word) : Thread :=
  match t.sys with
  | some c =>
    if t.run = .halted then t
    else
      let u := t.passWait
      ({ u with pend := u.pend.map (fun p => { p with holds := false }) } : Thread).enter c true cause u.pc val
  | none => t

/-- Every running region of the package freezes. -/
def Work.freezeAll (w : Work) (cause : Nat) : Work :=
  w.m.launches.foldl (fun u e => (List.range e.2.regions.length).foldl (fun u k => u.freezeAt { l := e.1, r := k } cause 0) u) w

/-- HOLDUP_TRAP (R381): every system core takes cause 0x0E at H, sequencer threads stop, every region
stops. -/
def execHoldupTrap (s : State) := s.event (fun w =>
  if w.m.hold.phase ≠ 1 then w
  else
    let val := w64 (if w.m.hold.cause = 1 then 1 else 2 + w.m.hold.die * 2 ^ 8)
    let v := w.mach (fun m => { m with
      hold := { m.hold with phase := 2 }, thr := m.thr.map (fun t => (t.1, t.2.forced 0x0E val)) })
    v.freezeAll 1)

/-- HOLDUP_CUT (R381): cores halt, outstanding accesses are abandoned, the directory is written. -/
def execHoldupCut (s : State) := s.event (fun w =>
  if w.m.hold.phase ≠ 2 then w
  else
    let dir := w.directory
    w.mach (fun m => { m with
      hold := { m.hold with phase := 3, record := dir, recCause := m.hold.cause }
      coreRun := 0
      thr := m.thr.map (fun t => (t.1, { t.2 with run := if t.2.sys.isSome then .halted else t.2.run, pend := [] })) }))

/-- The bytes that the sets of a record need. -/
def setBytes (l : List DirEnt) : Nat := ((l.filter (fun x => x.typ == 0)).map (fun x => x.len + 64)).foldl (· + ·) 0

/-- Sets as writing leaves them, with a reserve of e mJ and n bytes of writing (R384): all whole where no more is
admitted than the budget allows and the reserve is at least the one that set the budget; else writing goes on for n
bytes, or for what R378 reckons where that is more. -/
def HoldUp.finished (h : HoldUp) (e n free : Nat) : List DirEnt :=
  let total := setBytes h.record
  writeSets (if h.resBoot ≤ e && total ≤ h.budget then total else Nat.max n (sureBytes e)) free h.record

/-- The log of a recording: where it stands, and its bytes (R395). -/
def Work.logBytes (w : Work) : Nat × List Byte :=
  let r := w.m.record
  (r.base.toNat, if r.mode = 1 then w.bytes r.base.toNat r.written else [])

/-- HOLDUP_WRITE_END (R381, R384, R395): writing stops, with the reserve there was as it began; the directory
is closed, and the package resets, with its supply lost where that began the sequence. The log written so far
stands, and no run of record mode begins, which only PKG.RESET brings about (R393). -/
def execHoldupWriteEnd (o : WriteEnd) (s : State) := s.event (fun w =>
  if w.m.hold.phase ≠ 3 then w
  else
    let h := w.m.hold
    let v := w.mach (fun m => { m with free := m.free + h.record.length, hold := { h with record := h.finished o.reserve o.bytes m.free } })
    let lost := h.cause == 1
    let regs := if lost then State.reset.m.record else { w.m.record with mode := 0, ended := false }
    (v.reset lost regs o.reserve).putBytes v.logBytes.1 v.logBytes.2)

/-- The record's entries that a core sees (R383): at S its partition's own. -/
def Mach.entriesOf (m : Mach) (k : Nat) (c : CoreRegs) : List DirEnt :=
  if c.h then m.hold.record else m.hold.record.filter (fun x => !x.hyp && m.partOfCore (k - 1536) == some x.part)

/-- HOLD.XFER (R383): entry HOLD.IDX, and its bytes unless it is absent, written to a VA. -/
def Ctl.holdXfer (k : Nat) (c : CoreRegs) (v : Word) : Ctl Unit := do
  if v.toNat % 64 ≠ 0 then Ctl.trap 0x02 v
  let (cache, tr) ← Ctl.trans
  let w ← get
  let stat := fun (n : Nat) (u : Work) => u.modCore k (fun c => { c with xstat := n })
  if w.m.hold.recCause = 0 then Ctl.upd (stat 3)
  else match (w.m.entriesOf k c)[c.holdIdx]? with
    | none => Ctl.upd (stat 1)
    | some x =>
      let d := x.entry x.state ++ (if x.typ = 0 && x.state = 0 then [] else x.bytes)
      if w.storeWaits cache tr v.toNat d.length then Ctl.hold
      let (ok, u) := Work.putLines cache tr d.length v.toNat d w
      set (stat (if ok then 0 else 2) u)

/-- HOLD_XFER (R383). -/
def execHoldXfer (k : Nat) (v : Word) (s : State) := s.asCore k (fun _ c => Ctl.holdXfer k c v)

/-- HOLD.CLEAR (R383): at H any write erases the record; at S it is ignored. -/
def Work.holdClear (w : Work) (c : CoreRegs) : Work :=
  if c.h then w.mach (fun m => { m with hold := { m.hold with record := [], recCause := 0 } }) else w

/-- HOLD_CLEAR (R383). -/
def execHoldClear (k : Nat) (_v : Word) (s : State) := s.asCore k (fun _ c => Ctl.upd (fun w => w.holdClear c))

/-! ## Heat (R385, R386) -/

/-- A reading of 16 bits in 1/16 °C. -/
def reading (n : Nat) : Int := if n % 65536 < 32768 then (n % 65536 : Nat) else (n % 65536 : Nat) - 65536

/-- The hottest junction of a die. -/
def hottest (l : List Int) : Int := (l.take 16).foldl max (l.headD 0)

/-- The level of a die after a sample (R385). -/
def dieLevel (old warn : Nat) (t : Int) : Nat :=
  if old = 3 || 1888 ≤ t then 3
  else if 1728 ≤ t || (old = 2 && 1696 ≤ t) then 2
  else if (16 * warn : Int) ≤ t || (1 ≤ old && (16 * warn : Int) - 32 ≤ t) then 1
  else 0

/-- The refresh band of a stack after a sample (R386): a band is left 2 °C below its lower bound. -/
def stackBand (old : Nat) (t : Int) : Nat :=
  let raw := if t ≤ 1360 then 0 else if t ≤ 1520 then 1 else if t ≤ 1680 then 2 else 3
  let keep := if old = 3 && 1648 ≤ t then 3 else if 2 ≤ old && 1488 ≤ t then 2 else if 1 ≤ old && 1328 ≤ t then 1 else 0
  Nat.max raw keep

/-- EVENT risen in every system core (R161, R386). -/
def Work.raiseEvent (w : Work) : Work :=
  w.mach (fun m => { m with thr := m.thr.map (fun t => (t.1, { t.2 with sys := t.2.sys.map (fun c => { c with event := true }) })) })

/-- The bits of a that b has not. -/
def newBits (a b : Nat) : Nat := (List.range 8).foldl (fun n k => if bitAt a k && !bitAt b k then n + 2 ^ k else n) 0

/-- Die k sampled: its readings, its level and steps, its stacks' bands. With `fixed`, record mode keeps the
clocks as they are (R394). -/
def Heat.sample (h : Heat) (fixed : Bool) (k : Nat) (l : List Int) : Heat :=
  let put := fun (m : AMap Int) (f : Option Int → Int → Int) => (List.range 18).foldl (fun m s =>
    match l[s]? with
    | some x => aset m (18 * k + s) (f (aget m (18 * k + s)) x)
    | none => m) m
  let old := agetD h.level k 0
  let level := dieLevel old h.warn (hottest l)
  let band := fun (m : AMap Nat) (s : Nat) => match l[16 + s]? with
    | some x => aset m (2 * k + s) (stackBand (agetD m (2 * k + s) 0) x)
    | none => m
  let step := agetD h.steps k 0
  { h with
    now := put h.now (fun _ x => x)
    max := put h.max (fun o x => match o with
      | some y => if y < x then x else y
      | none => x)
    level := aset h.level k level
    band := band (band h.band 0) 1
    steps := if fixed then h.steps else aset h.steps k (if 2 ≤ level then Nat.min 21 (step + 1) else step - 1)
    evWarn := if old = 0 && 1 ≤ level && !bitAt h.evWarn k then h.evWarn + 2 ^ k else h.evWarn
    evThr := if old < 2 && 2 ≤ level && !bitAt h.evThr k then h.evThr + 2 ^ k else h.evThr
    evCrit := if old < 3 && level = 3 && !bitAt h.evCrit k then h.evCrit + 2 ^ k else h.evCrit }

/-- SENSOR_SAMPLE (R385): for each die, its eighteen readings; a die that reaches critical starts the
hold-up sequence. -/
def execSensorSample (d : List (List Nat)) (s : State) := s.event (fun w =>
  let h := w.m.heat
  let ks := (List.range d.length).filter (fun k => k < 8 && !(nth d k []).isEmpty)
  let h' := ks.foldl (fun h k => h.sample (w.m.record.mode != 0) k ((nth d k []).map reading)) h
  let v := w.mach (fun m => { m with heat := h' })
  let risen := newBits h'.evWarn h.evWarn + newBits h'.evThr h.evThr + newBits h'.evCrit h.evCrit
  let u := if risen ≠ 0 then v.raiseEvent else v
  match ks.find? (fun k => agetD h'.level k 0 == 3 && agetD h.level k 0 != 3) with
  | some k => u.detect 2 k
  | none => u)

/-! ## Power (R387, R316) -/

/-- A running ballast launch stops at the floor, and goes on below it. -/
def Work.ballast (w : Work) (stop : Bool) : Work :=
  w.m.launches.foldl (fun u e =>
    if e.2.prio ≠ 4 || e.2.state ≠ 1 || e.2.floor == stop then u
    else
      let v := u.modLaunch e.1 (fun l => { l with floor := stop })
      (List.range e.2.regions.length).foldl (fun u k =>
        let p : Where := { l := e.1, r := k }
        match u.m.region? e.1 k with
        | some r =>
          if stop then (if r.state = 1 then (u.freezeAt p 1 0).modRegion p (fun r => { r with floorFrz := true }) else u)
          else if r.floorFrz && !e.2.paused then u.thaw p
          else u.modRegion p (fun r => { r with floorFrz := r.floorFrz && e.2.preempted })
        | none => u) v) w

/-- POWER_AVERAGE_WINDOW (R387): the average of 100 µs, which the power manager holds at or below PWR.LIMIT. Whether
it lowered the clocks to do so is a free value; in record mode it never does (R394). From the trap of a hold-up on
no region goes on (R381). -/
def execPowerAverageWindow (n : Nat) (s : State) := s.event (fun w =>
  if w.m.power.limit < n then w
  else
    let (f, v) := w.fresh
    let capped := w.m.record.mode == 0 && bitAt (Config.freeWord f).toNat 0
    let u := v.mach (fun m => { m with power := { m.power with now := n, pcap := capped, energy := m.power.energy + n } })
    if 2 ≤ w.m.hold.phase then u else u.ballast (w.m.power.floor ≤ n))

/-! ## Wear (R388) -/

/-- The line through samples, newest first, taken as what is still left to the limit: the fall of each day, where
all days fall alike. -/
def lineStep : List Int → Option Int
  | a :: b :: r =>
    let d := b - a
    if (List.range (r.length + 1)).all (fun k => nth (b :: r) k 0 - nth (a :: b :: r) k 0 == d) then some d else none
  | _ => none

/-- What is left to the limit never falls from one day to the next. -/
def recedes (l : List Int) : Bool :=
  (List.range (l.length - 1)).all (fun k => nth l (k + 1) 0 - nth l k 0 ≤ 0)

/-- Days until an indicator reaches a limit, by the line through its samples, newest first; none where it does not
trend toward the limit (R388). Where the samples lie on no line, which line is drawn is a free value, and so is
the rounding of days that are no whole number (log 30). -/
def daysTo (rising : Bool) (limit : Nat) (l : List Nat) : Option Nat :=
  let left := l.map (fun (x : Nat) => if rising then (limit : Int) - x else (x : Int) - limit)
  if recedes left then none
  else match lineStep left with
    | some d =>
      let whole := (left.headD 0 / d).toNat
      some (if left.headD 0 % d = 0 || !Config.daysRoundUp limit l then whole else whole + 1)
    | none => Config.daysToLimit limit l

/-- The change of an indicator in 30 days: thirty times that of a day where its samples lie on a line, else a
free value (log 30). -/
def changeOf (l : List Nat) : Int :=
  match lineStep (l.map (fun (x : Nat) => -(x : Int))) with
  | some d => 30 * d
  | none => Config.changePer30 l

/-- Days to the first limit, from the samples newest first: each of slowdown, corrected errors, margin;
and the reserve's samples. `io` says an I/O die, which has no HBM. -/
def wearDays (io : Bool) (samples : List (List Nat)) (res : List Nat) : Nat :=
  let col := fun (k : Nat) => (samples.take 30).map (fun x => nth x k 0)
  let last := fun (k : Nat) => (col k).headD 0
  let passed := 50000 ≤ last 0 || (!io && 1000000 ≤ last 1) || last 2 ≤ 15 || res.headD 0 ≤ 24000
  if samples.length < 30 then 0xFFFFFFFF
  else if passed then 0
  else
    let days := [daysTo true 50000 (col 0), if io then none else daysTo true 1000000 (col 1),
                 daysTo false 15 (col 2), daysTo false 24000 (res.take 30)].filterMap id
    days.foldl Nat.min 0xFFFFFFFF

/-- DAILY_MEASUREMENT (R378, R388): the reserve in mJ, and for dies 0 to 9 (8 N, 9 S) the slowdown in ppm,
the corrected errors of the day and the worst eye margin in mV. HOLD.BUDGET does not change. -/
def execDailyMeasurement (e : Nat) (d : List (List Nat)) (s : State) := s.event (fun w =>
  let one := fun (m : AMap Wear) (k : Nat) =>
    let x := agetD m k Wear.init
    let new := nth d k []
    let io := 8 ≤ k
    let row := [nth new 0 0, if io then 0 else nth new 1 0, nth new 2 0, e]
    let ss := (row :: x.samples).take 30
    aset m k { x with
      samples := ss
      roLast := nth new 0 0
      roRate := changeOf (ss.map (fun r => nth r 0 0))
      ce := if io then 0 else nth new 1 0
      margin := nth new 2 0
      eol := Nat.min 0xFFFFFFFF (wearDays io ss (ss.map (fun r => nth r 3 0))) }
  w.mach (fun m => { m with
    hold := { m.hold with res := e }
    wear := (List.range 10).foldl one m.wear }))

end Sys2Proof.Machine
end

