-- ==== Sys2Proof/Machine/Errors.lean ====
section
/-!
DEFINITION. Uncorrectable errors (R363, R372), lost links (R354) and failing die bridges (R373 to
R375): what each leaves of what it strikes.
-/

namespace Sys2Proof.Machine

/-! ## Uncorrectable errors (R363) -/

/-- The bytes from key a that n bytes cover carry an uncorrectable error; one in near memory counts in
HBM.UE of the die that holds it (R388). -/
def Work.strike (w : Work) (a n : Nat) : Work :=
  let v := w.mark a n
  if a < nearLen then v.mach (fun m => { m with
    wear := aset m.wear (bits a 21 3) { agetD m.wear (bits a 21 3) Wear.init with
      ue := (agetD m.wear (bits a 21 3) Wear.init).ue + 1 } })
  else v

/-- A data token struck on its way: tagged with cause 0x01, with the node and loop index of an entry (R363, R58);
a token that carries no data has nothing to strike. -/
def Ctx.struck (c : Ctx) (e : Nat × Nat) (tb : Nat) (t : Tok) : Tok :=
  if t.kind ≠ 0 || t.tag then t
  else { t with tag := true, pay := poisonOn t.net (poisonPay 0x01 e.1 tb t.item), loop := c.loopIdx e }

/-- The entry of a result in the skid (R326). -/
def Ctx.skidEntry (c : Ctx) (source : Nat) : Nat × Nat := c.nodeOf (c.feedingStage source)

/-- An accumulator area struck: its C tile will be pushed tagged (R198). -/
def Area.struck (a : Area) (e tb : Nat) : Area :=
  if a.fault.isSome then a else { a with fault := some (0x01, mxNode e), tb := tb }

/-- An engine's area struck; what an engine keeps is not pushed again. -/
def Engine.struck (x : Engine) (e a tb : Nat) : Engine :=
  match a with
  | 0 => { x with cur := x.cur.struck e tb }
  | 1 => { x with drain := x.drain.struck e tb }
  | _ => x

/-- A committed word of a tile is struck: its region stops and is emptied once nothing of it waits for
memory, and its threads are parked (R363). -/
def Work.strikeTile (w : Work) (g x y : Nat) : Work :=
  match w.m.regionAt g x y with
  | none => w
  | some (p, r) =>
    if r.state = 0 then w
    else
      let v := (w.freezeAt p 4 0).modRegion p (fun r => { r with cause := 4, slot := 0, quiet := true })
      v.parkBound p 0x11 (w64 (2 ^ 63 + g + x * 2 ^ 8 + y * 2 ^ 11))

/-- A sequencer thread whose own state is struck is parked, and only KILL ends it (R363). -/
def Work.strikeThread (w : Work) (k : Nat) : Work :=
  w.modThr k (fun t => match t.sys, t.run with
    | none, .ready => { t with run := .parked 0x11 t.pc allOnes w.m.tb none true }
    | none, .parked _ _ _ _ _ _ => { t with run := .parked 0x11 t.pc allOnes w.m.tb none true }
    | _, _ => t)

/-- A word of an accepted load is struck while it is read or staged (R372). -/
def Work.strikeImage (w : Work) (n i : Nat) : Work :=
  w.mach (fun m => { m with loads := amod m.loads n (fun d =>
    if d.open && i < d.words.length then { d with reads := d.reads ++ [(i, 0x0A)] } else d) })

/-- UNCORRECTABLE_ERROR (R363). -/
def execUncorrectableError (o : ErrorPlace) (s : State) := s.event (fun w =>
  let tb := w.m.tb
  match o with
  | .memory a n => w.strike a n
  | .buffer g x y c h k => w.modCtx g x y c (fun u => u.modHop h (fun q => { q with q := modNth q.q k (u.struck (u.hopEntry h) tb) }))
  | .skid g x y c k => w.modCtx g x y c (fun u =>
      { u with skid := modNth u.skid k (fun e => { e with tok := u.struck (u.skidEntry e.source) tb e.tok }) })
  | .ringSlot g x y c r k => w.modCtx g x y c (fun u => { u with rings := modNth u.rings r (fun q =>
      { q with cells := amod q.cells k (fun z => { z with bad := true }) }) })
  | .state g x y c r => if 17 ≤ r then w else w.modCtx g x y c (fun u => { u with damaged := union u.damaged [r] })
  | .area g e a => w.modCluster g (fun k => { k with engines := amod k.engines e (fun x => x.struck e a tb) })
  | .image n i => w.strikeImage n i
  | .tileWord g x y => w.strikeTile g x y
  | .thread t => w.strikeThread t
  | .reply g x y c k => w.modCtx g x y c (fun u =>
      { u with reqs := modNth u.reqs k (fun q => if q.ended then q else { q with bad := true }) }))

/-! ## Requests that are lost -/

/-- The accesses of every control agent that a test accepts: the agent, and the word. -/
def Mach.accessesThat (m : Mach) (f : Nat → Pend → Bool) : List (Nat × Pend) :=
  m.thr.flatMap (fun e => (e.2.pend.filter (fun p => p.op.access && f e.1 p)).map (fun p => (e.1, p)))

/-- A request of an AG tile ends with cause 0x09. -/
def Work.loseReq (w : Work) (p : Where) (r : Region) (g x y c k : Nat) (u : Ctx) (q : Req) (key : Nat) (done : Bool) : Work :=
  let op := bits q.word 24 8
  let v := if !done then w
    else if op = 0x91 then (w.write key q.size q.data.toNat).wrote key q.size
    else if op = 0x92 then (w.amo key q.size (bits q.word 1 4) (bits q.data.toNat 0 64)).2
    else w
  (v.endReq p r g x y c k q (some { poisonTok 0x09 (u.nodeOf 6).1 w.m.tb q.item q.srcs with loop := q.loopIdx })).settle p

/-- An issued request of an AG tile: its place, its context, and the key it accesses. -/
structure Issued where
  p : Where
  r : Region
  l : Launch
  cell : Nat
  k : Nat
  u : Ctx
  q : Req
  key : Nat

/-- The key that a request goes to: where it is being performed, or the one that a walk gives its address. -/
def Work.reqKey (w : Work) (tr : Trans) (q : Req) : Option Nat :=
  match q.home with
  | some h => some h.1
  | none =>
    if 2 ^ 48 ≤ q.va then none
    else match (walk w none tr q.va).1 with
      | .error _ => none
      | .ok t => (w.m.checkLeaf tr q.va q.need t).toOption

/-- The issued requests of every region, each with the key that it goes to. -/
def Work.issuedReqs (w : Work) : List Issued :=
  w.m.launches.flatMap (fun e => (List.range e.2.regions.length).flatMap (fun i =>
    match e.2.regions[i]? with
    | none => []
    | some r => (w.m.ctxsOf r).flatMap (fun c => (List.range c.2.reqs.length).filterMap (fun k =>
      match c.2.reqs[k]? with
      | none => none
      | some q =>
        if q.ended || !c.2.issued r k q then none
        else (w.reqKey (e.2.fabricTrans r.cluster) q).map (fun key =>
          { p := { l := e.1, r := i }, r := r, l := e.2, cell := c.1, k := k, u := c.2, q := q, key := key })))))

/-- The first byte on each page of an access of at most a page. -/
def firstsOf (va n : Nat) : List Nat :=
  let next := va - va % 4096 + 4096
  va :: (if next < va + n then [next] else [])

/-- The accesses that a running job makes next, each with its VA (R125, R126): a collective's reads of its source
and of its scales until it has its data, then the element moved; the completion add once every write is performed. -/
def Job.wants (j : Job) : List (Nat × Need) :=
  let pages := fun (va n : Nat) (need : Need) => (firstsOf va n).map (fun a => (a, need))
  let sz := fmtSize j.dstD.fmt
  if j.moves ≤ j.pos then (if j.card.ctr = 0 then [] else [(j.card.ctr.toNat, .both)])
  else if j.card.kind = 4 then
    if j.data.isNone then (List.range j.srcD.count).flatMap (fun e => pages (j.srcD.elem e) sz .read) ++ (match j.srcD.scaleRange with
      | some (lo, n) => (List.range n).map (fun i => (lo.toNat + i, .read))
      | none => [])
    else if j.pos < j.dstD.count then pages (j.dstD.elem j.pos) sz .write
    else [(j.dstD.scale + (j.pos - j.dstD.count), .write)]
  else match j.move j.pos with
    | some (dv, sv, n) => pages sv n .read ++ pages dv n .write
    | none => []

/-- The accesses of a job that are on their way, each with the key it goes to. -/
def Work.jobWants (w : Work) (n : Nat) (j : Job) : List (Nat × Need × Nat) :=
  if !w.m.jobReady j || (j.pos < j.moves && !w.m.moveFree j j.pos && (j.card.kind != 4 || j.data.isSome))
      || (aget w.m.jobs n).isNone then []
  else j.wants.filterMap (fun a => match (walk w none j.trans a.1).1 with
    | .error _ => none
    | .ok t => match w.m.checkLeaf j.trans a.1 a.2 t with
      | .ok k => some (a.1, a.2, k)
      | .error _ => none)

/-- An access of job n is lost: the job has failed at its VA (R128, R410). A write or an add whose
acknowledgement was lost may have been performed. -/
def Work.loseJob (w : Work) (n : Nat) (j : Job) (a : Nat × Need × Nat) (done : Bool) : Work :=
  let v := match done, a.2.1 with
    | true, .write => w.jobStep n
    | true, .both => (w.engineAdd a.2.2 j.card.inc).2
    | _, _ => w
  v.jobTrouble n (0x09, w64 a.1)

/-- Every request that a test accepts, by the die it comes from and the key it goes to, is lost; the launches that
had one, a job's that of the thread which issued it (R129), with the workspace left. The test is also given a
counter, one for each request. -/
def Work.loseAll (w : Work) (hit : Nat → Nat → Nat → Bool) (done : Bool) : List Nat × Work :=
  let base := w.m.free
  let acc := (w.m.accessesThat (fun _ _ => true)).zipIdx
  let acc' := acc.filter (fun a => a.1.2.pieces.any (fun x => !x.done && hit (agentDie a.1.1) x.key (base + a.2)))
  let reqs := w.issuedReqs.zipIdx
  let reqs' := reqs.filter (fun a => hit (a.1.r.cluster / 24) a.1.key (base + acc.length + a.2))
  let jobs := w.m.jobs.zipIdx
  let jobs' := jobs.filterMap (fun a =>
    ((w.jobWants a.1.1 a.1.2).find? (fun k => hit a.1.2.die k.2.2 (base + acc.length + reqs.length + a.2))).map (fun k => (a.1, k)))
  let v := acc'.foldl (fun u a => u.loseAccess a.1.1 a.1.2 done) w
  let v := reqs'.foldl (fun u a => match u.m.region? a.1.p.l a.1.p.r with
    | some r => u.loseReq a.1.p r r.cluster (keyX a.1.cell) (keyY a.1.cell) (keyC a.1.cell) a.1.k a.1.u a.1.q a.1.key done
    | none => u) v
  let v := jobs'.foldl (fun u a => u.loseJob a.1.1 a.1.2 a.2 done) v
  let ofAgent := fun (k : Nat) => match aget w.m.thr k with
    | some t => if t.sys.isNone then [t.launch] else []
    | none => []
  (acc'.flatMap (fun a => ofAgent a.1.1) ++ reqs'.map (fun a => a.1.p.l) ++ jobs'.filterMap (fun a => a.1.2.launch),
    v.mach (fun m => { m with free := m.free + acc.length + reqs.length + jobs.length }))

/-- Every request in flight on the way to a CXL port's memory, or to another package, is lost. -/
def Work.loseLink (w : Work) (o : LinkLoss) : Work :=
  match o with
  | .far port done =>
    let lo := 0x100000000000 + port * nearLen
    (w.loseAll (fun _ key _ => port < 16 && lo ≤ key && key < lo + nearLen) done).2
  | .package p done => (w.loseAll (fun _ key _ => isDomain key && bits key 40 10 == p) done).2

/-- A lost link as the log holds it: its source, port and payload (R394, log 59). -/
def linkBytes : LinkLoss → Nat × Nat × List Byte
  | .far port done => (4, port, [3, if done then 1 else 0] ++ toBytes 2 port)
  | .package p done => (3, Config.scatikPort p, [3, if done then 1 else 0] ++ toBytes 2 p)

/-- LOST_LINK (R354): an arrival at its port in record mode (R394, R395). -/
def execLostLink (o : LinkLoss) (s : State) := s.event (fun w =>
  let (src, port, d) := linkBytes o
  w.arrival src port d (fun u => u.loseLink o))

/-! ## Die bridges (R10, R373 to R375) -/

/-- Traffic from die a to die d may pass bridge b: its route has it, or its route has failed and a detour, which
the spec does not name, goes another way (R374). -/
def Mach.mayPass (m : Mach) (a d b : Nat) : Bool :=
  (routeOf a d).contains b || (routeOf a d).any (fun k => bitAt m.brgFailed k)

/-- What is on a held hop is inside bridge b: where its dies share that bridge it is, and on a detour whether it is
is a free value. -/
def HeldLink.inside (k : HeldLink) (m : Mach) (b n : Nat) : Bool :=
  let (x, y) := (k.g / 24, k.h / 24)
  routeOf x y == [b] || (m.mayPass x y b && bitAt (Config.freeWord n).toNat 0)

/-- What was inside a bridge that failed (R374): a token becomes a poison token of its item with cause 0x09, which
goes on where the token went; an anti-token becomes a mark at the end that it came from (log 16). -/
def Work.loseCrossing (w : Work) (k : HeldLink) (e : Crossing) : Work :=
  let (node, loop) := match w.m.ctx? k.g k.x k.y k.c with
    | some u => (u.hopNode k.side, u.loopIdx (u.hopEntry k.side))
    | none => (0xFFFFFF, 0xFFFFFFFF)
  let bad := fun (t : Tok) =>
    { poisonTok 0x09 node w.m.tb t.item t.srcs with
      net := t.net, pay := poisonOn t.net (poisonPay 0x09 node w.m.tb t.item), loop := loop }
  match e.anti with
  | some a =>
    let b := { a with srcs := carrySrcs k.src.r k.dst.r a.srcs }
    (w.mach (fun m => { m with crossings := m.crossings.erase e })).modCtx k.h k.nx k.ny k.c (fun u =>
      k.dests.foldl (fun u d => u.stop d b) u)
  | none => w.mach (fun m => { m with crossings := m.crossings.map (fun x => if x == e then { e with tok := e.tok.map bad } else x) })

/-- Everything inside bridge b on held hops, each with its hop. -/
def Mach.insideBridge (m : Mach) (b free : Nat) : List (HeldLink × Crossing) :=
  (m.crossings.zipIdx).filterMap (fun e => match m.heldLink e.1.g e.1.x e.1.y e.1.c e.1.side with
    | some k => if k.inside m b (free + e.2) then some (k, e.1) else none
    | none => none)

/-- BRIDGE_FAILURE (R374): bridge b fails. A request whose way crosses it may be inside it, which is a
free value for each; one that is ends as on a lost link. The tokens and anti-tokens inside it on held circuit
routes become what R374 states, and every launch that had anything inside will end partial (R375). -/
def execBridgeFailure (b : Nat) (done : Bool) (s : State) := s.event (fun w =>
  if 14 ≤ b || bitAt w.m.brgFailed b then w
  else
    let on := w.m.insideBridge b w.m.free
    let w1 := w.mach (fun m => { m with free := m.free + m.crossings.length })
    let w2 := on.foldl (fun u e => u.loseCrossing e.1 e.2) w1
    let (ls, v) := w2.loseAll (fun die key n => w.m.mayPass die (homeDie key) b && bitAt (Config.freeWord n).toNat 0) done
    let u := v.mach (fun m => { m with
      brgFailed := m.brgFailed + 2 ^ b, brgEvents := (m.brgEvents + 1) % 2 ^ 32, brgTb := m.tb % 2 ^ 32, brgWait := m.brgWait ++ [b],
      thr := m.thr.map (fun t => (t.1, { t.2 with sys := t.2.sys.map (fun c => { c with bridge := true }) })) })
    (on.map (·.2.launch) ++ ls).foldl (fun u l => u.modLaunch l (fun x => { x with final := if x.final = 2 then 3 else x.final })) u)

end Sys2Proof.Machine
end

