-- ==== Sys2Proof/Machine/Flow.lean ====
section
/-!
DEFINITION. Majors 0x10 to 0x15: branches and hardware loops (R94 to R102).
-/

namespace Sys2Proof.Machine

/-- The target of a branch: the branch word's address plus a signed count of words (R47). -/
def branchTarget {n : Nat} (pc : Word) (disp : BitVec n) : Word := pc + (disp.signExtend 64 <<< 2)

/-- BC: taken when c equals the sense (R94). -/
def execBc (sense : BitVec 1) (c : CReg) (d : BitVec 22) (s : State) :=
  s.regWord [] [] (fun t =>
    if t.c c = (sense == 1) then t.branch (branchTarget t.pc d) else t.advance)

/-- B (R94). -/
def execB (d : BitVec 26) (s : State) :=
  s.regWord [] [] (fun t => t.branch (branchTarget t.pc d))

/-- BL: g31 := the address after the word (R94). -/
def execBl (d : BitVec 26) (s : State) :=
  s.regWord [] [31] (fun t => (t.setG 31 (t.pc + 4)).branch (branchTarget t.pc d))

/-- JR: the target is read before the link is written; a target that is not a multiple of 4
traps with cause 0x02 at the JR and leaves g[d] and PC unchanged (R95, R47). -/
def execJr (d a : Reg) (s : State) :=
  s.regWord [a] [d] (fun t =>
    if (t.g a).toNat % 4 ≠ 0 then t.trap 0x02 t.pc (t.g a) s.m.tb
    else (t.setG d (t.pc + 4)).branch (t.g a))

/-- What LOOP does with a pass count n and an end offset (R97): skips the body, refuses a fifth
entry, or pushes one. `w` is the word, for TRAP.VAL. A LOOP of no passes goes on after its body, with
end processing at the body's last word; then, as its own effect comes first (R98), with end processing
at the LOOP itself, which moves PC only where it starts a next pass (DEDUCED, log 31). -/
def Thread.loop (t : Thread) (n : Word) (e : BitVec 11) (w : IWord) (tb : Nat) : Thread :=
  let fin := t.pc + (e.setWidth 64 <<< 2)
  if n = 0 then
    let u := t.endAt fin
    let v := u.endAt t.pc
    if v.pc = t.pc + 4 then { v with pc := u.pc } else v
  else if 4 ≤ t.loops.length then t.trap 0x0C t.pc (w.setWidth 64) tb
  else
    let u := { t with loops := { start := t.pc + 4, fin := fin, left := n } :: t.loops }
    { u with pc := t.pc + 4 }

/-- LOOP with an immediate count (R97); an end offset of 0 is illegal. -/
def execLoopImm (e : BitVec 11) (n : BitVec 10) (s : State) :=
  s.checked (.loopImm e n)
    (s.regWord [] [] (fun t => t.loop (n.setWidth 64) e (wordOfInstr (.loopImm e n)) s.m.tb))

/-- LOOP with a register count, unsigned (R97). -/
def execLoopReg (a : Reg) (e : BitVec 11) (s : State) :=
  s.checked (.loopReg a e)
    (s.regWord [a] [] (fun t => t.loop (t.g a) e (wordOfInstr (.loopReg a e)) s.m.tb))

/-- LBRK (R100): pops the top entry and continues after that entry's body, with end processing
when LBRK is itself the last word of the entry now on top; with an empty stack it changes
nothing. Where that end processing exhausts every entry that ends there, PC is LBRK + 4, as R98's comment
has it, and not the popped entry's end + 4 (DESIGN CHOICE, log 113). -/
def Thread.lbrk (t : Thread) : Thread :=
  match t.loops with
  | [] => { t with pc := t.pc + 4 }
  | l :: r =>
    match r with
    | m :: _ =>
      if m.fin = t.pc then { t with loops := r }.endAt t.pc
      else { t with loops := r, pc := l.fin + 4 }
    | [] => { t with loops := r, pc := l.fin + 4 }

def execLbrk (s : State) := s.regWord [] [] (fun t => t.lbrk)

end Sys2Proof.Machine
end

