-- ==== Sys2Proof/Machine/Outer.lean ====
section
/-!
DEFINITION. What comes from outside the package: host accesses (R353), requests of other packages
(R354), attestation (R357, log 20), joining a domain (R13), and the log of record mode by which these
are delivered again in replay (R394, R395).
-/

namespace Sys2Proof.Machine

/-! ## The log in replay (R394, R395) -/

/-- The replay is over: every region freezes, and every core takes cause 0x07 at H (R395). -/
def Work.endReplay (w : Work) (diverged : Bool) : Work :=
  let (n, v) := w.fresh
  (v.mach (fun m => { m with
    record := { m.record with ended := true, div := m.record.div || diverged },
    thr := m.thr.map (fun t => (t.1, t.2.forced 0x07 (Config.freeTrapVal n))) })).freezeAll 1

/-- n random bytes, a free value: recorded as an entropy draw in record mode, and in replay answered from
the log, where another entry in its place diverges (R394, R395). -/
def Work.entropy (w : Work) (n : Nat) : List Byte × Work :=
  let (f, v) := w.fresh
  let own := if n = 8 then toBytes 8 (Config.freeEntropy f).toNat else (Config.freeBytes f n ++ zeroBytes n).take n
  if v.m.record.mode = 2 && !v.m.record.ended then
    match v.logEntry with
    | some e =>
      if e.src = 1 && e.tb = v.m.tb then (e.payload, v.passEntry e) else (own, v.endReplay true)
    | none => (own, v.endReplay false)
  else (own, v.record 1 0 own)

/-! ## Requests from outside on their way -/

/-- What becomes of a request for n bytes at a key that enters at a die (R374): lost where a byte of it is, else
waiting where one waits. A home holds 2 MiB in turn (R21). -/
def Mach.waySpan (m : Mach) (die key n : Nat) : Way :=
  let ws := (List.range (n / 2 ^ 21 + 2)).map (fun i => m.way die (Nat.min (key + 2 ^ 21 * i) (key + (n - 1))))
  if ws.contains .lost then .lost else if ws.contains .wait then .wait else .go

/-- The host port in use stands on N (log 21). -/
def hostDie : Nat := 8

/-- The I/O die of a Scatik port: the first sixteen stand on N, the others on S (log 111). -/
def scatikDie (port : Nat) : Nat := if port < 16 then 8 else 9

/-- A request from outside is kept until the detour of the failed bridge it has come to, as is one that finds an
earlier one from its port there (R374). -/
def Mach.behind (m : Mach) (o : Inbound) : Bool :=
  m.inbound.any (fun e => match e, o with
    | .host _, .host _ => true
    | .domain a, .domain b => a.port == b.port
    | _, _ => false)

/-- A request from outside goes on, waits, or is lost: the spec gives its fate then nowhere, and it ends as one
that is refused (DESIGN CHOICE, log 155). -/
def Work.inboundBy (w : Work) (o : Inbound) (way : Way) (lost go : Work → Work) : Work :=
  if way = .lost then lost w
  else if way = .wait || w.m.behind o then w.mach (fun m => { m with inbound := m.inbound ++ [o] })
  else go w

/-! ## The host (R353) -/

/-- The host window is open: it lies wholly in a range of its partition, or for the hypervisor in
memory that is there. -/
def Mach.hostOpen (m : Mach) : Bool :=
  let n := 4096 * m.hostLen
  m.hostLen != 0 && (
    if m.hostPart < 16 then m.validPart m.hostPart && inRanges (m.part m.hostPart).entry.ranges m.hostBase n
    else m.hostPart == 16 && m.present m.hostBase && m.present (m.hostBase + n - 1))

/-- The VMID with which the window's accesses go to domain memory. -/
def Mach.hostVmid (m : Mach) : Nat := if m.hostPart < 16 then (m.part m.hostPart).entry.vmid else 0xFF

/-- The PA of n bytes at a BAR offset. Domain memory that a package refuses is no more reached than what lies
outside the window (R354; DEDUCED, log 148). -/
def Mach.hostPa (m : Mach) (a n : Nat) : Option Nat :=
  let pa := m.hostBase + a
  if m.hostOpen && a + n ≤ 4096 * m.hostLen && m.hold.phase == 0
      && !(List.range (n / 4096 + 2)).any (fun i => m.refused m.hostVmid (Nat.min (pa + 4096 * i) (pa + n - 1)))
  then some pa else none

/-- A host access performed at a key. -/
def Work.hostAt (w : Work) (key : Nat) : HostOp → List Byte × Work
  | .read _ n =>
    let u := w.portsNow true [(key, n, .so)]
    (u.bytes key n, u)
  | .write _ d => ([], w.deviceWrite [(key, d.length, .so)] d)

/-- A host access's BAR offset and its bytes. -/
def hostSpan : HostOp → Nat × Nat
  | .read a n => (a, n)
  | .write a d => (a, d.length)

/-- A host access performed, completed with Unsupported Request, or waiting for a detour (R353, R374). -/
def Work.hostDo (w : Work) (o : HostOp) : Work :=
  let out := fun (u : Work) (x : Option (List Byte)) => u.mach (fun m => { m with hostOut := x :: m.hostOut })
  let (a, n) := hostSpan o
  match w.m.hostPa a n with
  | none => out w none
  | some pa => w.inboundBy (.host o) (w.m.waySpan hostDie (w.m.keyOf pa) n) (out · none) (fun w =>
      let (d, u) := w.hostAt (w.m.keyOf pa) o
      out u (some d))

/-- A host access as the log holds it (log 59). -/
def hostBytes : HostOp → List Byte
  | .read a n => [0] ++ toBytes 8 a ++ toBytes 8 n
  | .write a d => [1] ++ toBytes 8 a ++ d

/-- HOST_ACCESS (R353). -/
def execHostAccess (o : HostOp) (s : State) := s.event (fun w => w.arrival 2 0 (hostBytes o) (fun u => u.hostDo o))

/-! ## Other packages (R354) -/

/-- Bytes a request touches. -/
def domainSize : DomainAct → Nat
  | .read n => n
  | .write d => d.length
  | .atomic _ n _ _ => n
  | .add _ => 8

/-- A request lies in an exported range of the partition that has its VMID here. -/
def Mach.exported (m : Mach) (o : DomainOp) : Bool :=
  o.pa + domainSize o.act ≤ nearLen && m.hold.phase == 0 && m.parts.any (fun q =>
    q.2.entry.valid && q.2.entry.vmid == o.vmid && q.2.entry.ranges.any (fun r =>
      r.exported && r.base ≤ o.pa && o.pa + domainSize o.act ≤ r.base + r.len))

/-- A request performed at its home, and what it answers. -/
def Work.domainAt (w : Work) (o : DomainOp) : Option (List Byte) × Work :=
  match o.act with
  | .read n => (some (w.bytes o.pa n), w)
  | .write d => (some [], w.deviceWrite [(o.pa, d.length, .so)] d)
  | .atomic p n v e =>
    let (old, u) := if p ≤ 8 then w.amo o.pa n p v.toNat else w.cas o.pa n e.toNat v.toNat
    (some (toBytes n old), u)
  | .add v => match w.counterAdd o.pa v with
    | some u => (some [], u)
    | none => (none, w)

/-- A request performed, refused, or waiting for a detour (R354, R374). -/
def Work.domainDo (w : Work) (o : DomainOp) : Work :=
  let out := fun (u : Work) (x : Option (List Byte)) => u.mach (fun m => { m with domainOut := x :: m.domainOut })
  if !w.m.exported o then out w none
  else w.inboundBy (.domain o) (w.m.waySpan (scatikDie o.port) o.pa (domainSize o.act)) (out · none) (fun w =>
    let (d, u) := w.domainAt o
    out u d)

/-- A request as the log holds it (log 59). -/
def domainBytes (o : DomainOp) : List Byte :=
  [2] ++ toBytes 1 o.vmid ++ toBytes 8 o.pa ++ (match o.act with
    | .read n => [0] ++ toBytes 8 n
    | .write d => [1] ++ d
    | .atomic p n v e => [2] ++ toBytes 1 p ++ toBytes 1 n ++ toBytes 8 v.toNat ++ toBytes 8 e.toNat
    | .add v => [3] ++ toBytes 8 v.toNat)

/-- DOMAIN_REQUEST (R354). -/
def execDomainRequest (o : DomainOp) (s : State) := s.event (fun w => w.arrival 3 o.port (domainBytes o) (fun u => u.domainDo o))

/-! ## Detours (R374) -/

/-- What came from outside and waits at a failed bridge moves on in its order. -/
def Work.moveOn (w : Work) : Work :=
  w.m.inbound.foldl (fun u o => match o with
    | .host o => u.hostDo o
    | .domain o => u.domainDo o) (w.mach (fun m => { m with inbound := [] }))

/-- BRIDGE_DETOUR (R374): the detours round bridge b are in place; requests that no way is left for are
lost, and those from outside that wait move on in their order. -/
def execBridgeDetour (b : Nat) (s : State) := s.event (fun w =>
  if !w.m.brgWait.contains b then w
  else
    let v := w.mach (fun m => { m with brgWait := m.brgWait.filter (· != b) })
    (v.loseAll (fun die key _ => v.m.way die key == .lost) false).2.moveOn)

/-- The package joins a domain: TB will converge to the domain's value by its rate. -/
def Work.joinDomain (w : Work) (v : Nat) : Work := w.mach (fun m => { m with joinTb := some v, slew := 0 })

/-- PACKAGE_JOINS_DOMAIN (R13): what the domain synchronisation brings arrives at a Scatik port (R394). -/
def execPackageJoinsDomain (v : Word) (s : State) := s.event (fun w =>
  w.arrival 3 0 ([4] ++ toBytes 8 v.toNat) (fun u => u.joinDomain v.toNat))

/-! ## Attestation (R357) -/

/-- A response given on the port of a request. -/
def Work.answer (w : Work) (q : SpdmMsg) (code p1 p2 : Nat) (d : List Byte) : Work :=
  w.mach (fun m => { m with spdm := { m.spdm with
    out := (q.port, toBytes 1 0x13 ++ toBytes 1 code ++ toBytes 1 p1 ++ toBytes 1 p2 ++ d) :: m.spdm.out } })

/-- SPDM ERROR, with its code. -/
def Work.spdmError (w : Work) (q : SpdmMsg) (e : Nat) : Work := w.answer q 0x7F e 0 []

/-- n bytes that the spec does not give, by the counter. -/
def Work.openBytes (w : Work) (n : Nat) : List Byte × Work :=
  let (f, v) := w.fresh
  (Config.freeBytes f n, v)

def Work.modSpdm (w : Work) (f : Spdm → Spdm) : Work := w.mach (fun m => { m with spdm := f m.spdm })

/-- The session that a message names in its first two bytes. -/
def spdmSession (q : SpdmMsg) : Nat := fieldAt q.data 0 2
def Spdm.session? (x : Spdm) (q : SpdmMsg) : Option (Nat × Nat × Bool) :=
  x.sessions.find? (fun s => s.1 == spdmSession q && s.2.1 == q.port)
def Spdm.drop (x : Spdm) (id : Nat) : Spdm := { x with sessions := x.sessions.filter (fun s => s.1 != id) }

def Work.getVersion (w : Work) (q : SpdmMsg) : Work :=
  (w.modSpdm (fun x => { x with version := union x.version [q.port], caps := x.caps.filter (· != q.port),
                                algos := x.algos.filter (· != q.port) })).answer q 0x04 0 0 ([0, 1] ++ toBytes 2 0x1300)

def Work.getCapabilities (w : Work) (q : SpdmMsg) : Work :=
  let (d, v) := w.openBytes 16
  (v.modSpdm (fun x => { x with caps := union x.caps [q.port] })).answer q 0x61 0 0 d

/-- What the device supports: Ed25519 signing, SHA-512 hashing, X25519 key exchange and AES-256-GCM sessions (R357). -/
def deviceAlgorithms : List Config.SpdmAlgorithm := [.ed25519, .sha512, .x25519, .aes256Gcm]

def Work.negotiateAlgorithms (w : Work) (q : SpdmMsg) : Work :=
  (w.modSpdm (fun x => { x with algos := union x.algos [q.port] })).answer q 0x63 0 0
    (Config.algorithmBytes deviceAlgorithms)

def Work.getDigests (w : Work) (q : SpdmMsg) : Work := w.answer q 0x01 0 1 (sha512 Config.certChain)

def Work.getCertificate (w : Work) (q : SpdmMsg) : Work :=
  let rest := Config.certChain.drop (fieldAt q.data 0 2)
  let part := rest.take (fieldAt q.data 2 2)
  w.answer q 0x02 0 0 (toBytes 2 part.length ++ toBytes 2 (rest.length - part.length) ++ part)

def Work.challenge (w : Work) (q : SpdmMsg) : Work :=
  let (nonce, v) := w.entropy 32
  let (sig, u) := v.openBytes 64
  u.answer q 0x03 0 1 (sha512 Config.certChain ++ nonce ++ sig)

/-- A measurement block (R357): index 1 to 8, M0 to M7; 16 + p, PM of partition p; 0xFD, BOOT.STAT. -/
def Mach.measBlock (m : Mach) (i : Nat) : Option (List Byte) :=
  let put := fun (d : List Byte) => some (toBytes 1 i ++ toBytes 2 d.length ++ d)
  if 1 ≤ i && i ≤ 8 then put (nth m.meas (i - 1) zeros64)
  else if 16 ≤ i && i < 32 then put (m.part (i - 16)).pm
  else if i = 0xFD then put (toBytes 1 m.boot.stat)
  else none

def measIndices : List Nat := (List.range 8).map (· + 1) ++ (List.range 16).map (· + 16) ++ [0xFD]

def Work.getMeasurements (w : Work) (q : SpdmMsg) : Work :=
  let i := q.param2.toNat
  let go := fun (p1 : Nat) (d : List Byte) =>
    let (nonce, v) := w.entropy 32
    let (sig, u) := v.openBytes 64
    u.answer q 0x60 p1 0 (d ++ nonce ++ (if bitAt q.param1.toNat 0 then sig else []))
  if i = 0 then go measIndices.length []
  else if i = 0xFF then go 0 (measIndices.filterMap w.m.measBlock).flatten
  else match w.m.measBlock i with
    | some d => go 0 d
    | none => w.spdmError q 0x01

/-- Whether a port requires mutual authentication: the management port does (R357). -/
def needsMutual (q : SpdmMsg) : Bool := q.port != 0

/-- KEY_EXCHANGE: the answer names the session and says whether mutual authentication is asked for (log 20). The
nonce and what the keys are derived from are entropy draws (R394). -/
def Work.keyExchange (w : Work) (q : SpdmMsg) : Work :=
  let (nonce, v) := w.entropy 32
  let (seed, u) := v.entropy 32
  let (sig, u) := u.openBytes 64
  let id := u.m.spdm.nextSession
  (u.modSpdm (fun x => { x with nextSession := id + 1, sessions := x.sessions ++ [(id, q.port, false)] })).answer
    q 0x64 0 0 (toBytes 2 id ++ [if needsMutual q then 1 else 0, 0] ++ nonce ++ Config.keyShare seed ++ sig)

/-- FINISH: a failed authentication opens no session (R396). Where mutual authentication is required, a message
without the requester's signature, which bit 0 of its first parameter says is there, has failed (log 20). -/
def Work.finishSession (w : Work) (q : SpdmMsg) : Work :=
  match w.m.spdm.session? q with
  | none => w.spdmError q 0x02
  | some s =>
    let (f, v) := w.fresh
    if (!needsMutual q || bitAt q.param1.toNat 0) && Config.spdmVerifies f then
      (v.modSpdm (fun x => { x with sessions := x.sessions.map (fun y => if y.1 = s.1 then (y.1, y.2.1, true) else y) })).answer
        q 0x65 0 0 []
    else (v.modSpdm (fun x => x.drop s.1)).spdmError q 0x06

def Work.endSession (w : Work) (q : SpdmMsg) : Work :=
  match w.m.spdm.session? q with
  | some s => (w.modSpdm (fun x => x.drop s.1)).answer q 0x6C 0 0 []
  | none => w.spdmError q 0x02

def Work.heartbeat (w : Work) (q : SpdmMsg) : Work :=
  match w.m.spdm.session? q with
  | some (_, _, true) => w.answer q 0x68 0 0 []
  | _ => w.spdmError q 0x02

def Work.unsupported (w : Work) (q : SpdmMsg) : Work := w.spdmError q 0x07

/-- A request as the log holds it, with a code for its kind (log 59). -/
def spdmBytes (q : SpdmMsg) (code : Nat) : List Byte := toBytes 1 code ++ [q.param1, q.param2] ++ q.data

/-- A request arrives. After a failed boot the management port answers only GET_VERSION,
GET_CAPABILITIES and GET_MEASUREMENTS, and nothing else answers (R355). -/
def Work.spdm (w : Work) (code : Nat) (q : SpdmMsg) (f : Work → Work) : Work :=
  w.arrival (if q.port = 0 then 2 else 5) q.port (spdmBytes q code) (fun u =>
    if u.m.boot.stat = 0 then f u
    else if q.port = 0 then u
    else if code = 0x84 || code = 0xE1 || code = 0xE0 then f u
    else u.unsupported q)

/-- GET_VERSION (R357). -/
def execGetVersion (q : SpdmMsg) (s : State) := s.event (fun w => w.spdm 0x84 q (fun u => u.getVersion q))
/-- GET_CAPABILITIES (R357). -/
def execGetCapabilities (q : SpdmMsg) (s : State) := s.event (fun w => w.spdm 0xE1 q (fun u => u.getCapabilities q))
/-- NEGOTIATE_ALGORITHMS (R357). -/
def execNegotiateAlgorithms (q : SpdmMsg) (s : State) := s.event (fun w => w.spdm 0xE3 q (fun u => u.negotiateAlgorithms q))
/-- GET_DIGESTS (R357). -/
def execGetDigests (q : SpdmMsg) (s : State) := s.event (fun w => w.spdm 0x81 q (fun u => u.getDigests q))
/-- GET_CERTIFICATE (R357). -/
def execGetCertificate (q : SpdmMsg) (s : State) := s.event (fun w => w.spdm 0x82 q (fun u => u.getCertificate q))
/-- CHALLENGE (R357). -/
def execChallenge (q : SpdmMsg) (s : State) := s.event (fun w => w.spdm 0x83 q (fun u => u.challenge q))
/-- GET_MEASUREMENTS (R357). -/
def execGetMeasurements (q : SpdmMsg) (s : State) := s.event (fun w => w.spdm 0xE0 q (fun u => u.getMeasurements q))
/-- KEY_EXCHANGE (R357). -/
def execKeyExchange (q : SpdmMsg) (s : State) := s.event (fun w => w.spdm 0xE4 q (fun u => u.keyExchange q))
/-- FINISH (R357). -/
def execFinish (q : SpdmMsg) (s : State) := s.event (fun w => w.spdm 0xE5 q (fun u => u.finishSession q))
/-- END_SESSION (R357). -/
def execEndSession (q : SpdmMsg) (s : State) := s.event (fun w => w.spdm 0xEC q (fun u => u.endSession q))
/-- HEARTBEAT (R357). -/
def execHeartbeat (q : SpdmMsg) (s : State) := s.event (fun w => w.spdm 0xE8 q (fun u => u.heartbeat q))
/-- Any other request: ERROR UnsupportedRequest (R357). -/
def execSpdmUnsupportedRequest (q : SpdmMsg) (s : State) := s.event (fun w => w.spdm 0xFF q (fun u => u.unsupported q))

/-- HEARTBEAT_LOSS (R396): session n ends, and nothing that its client stopped resumes. It is what the management
port sees (R394). -/
def execHeartbeatLoss (n : Nat) (s : State) := s.event (fun w =>
  w.arrival 5 1 ([6] ++ toBytes 2 n) (fun u => u.modSpdm (fun x => x.drop n)))

/-! ## Replay (R395) -/

/-- A logged domain request, of the bytes after its first. -/
def domainOfBytes (port : Nat) (d : List Byte) : DomainOp :=
  let body := d.drop 10
  let act : DomainAct := match fieldAt d 9 1 with
    | 0 => .read (fieldAt body 0 8)
    | 1 => .write body
    | 2 => .atomic (fieldAt body 0 1) (fieldAt body 1 1) (w64 (fieldAt body 2 8)) (w64 (fieldAt body 10 8))
    | _ => .add (w64 (fieldAt body 0 8))
  { vmid := fieldAt d 0 1, pa := fieldAt d 1 8, act := act, port := port }

/-- A logged SPDM request done again. -/
def Work.replaySpdm (w : Work) (kind : Nat) (q : SpdmMsg) : Work :=
  match kind with
  | 0x84 => w.getVersion q
  | 0xE1 => w.getCapabilities q
  | 0xE3 => w.negotiateAlgorithms q
  | 0x81 => w.getDigests q
  | 0x82 => w.getCertificate q
  | 0x83 => w.challenge q
  | 0xE0 => w.getMeasurements q
  | 0xE4 => w.keyExchange q
  | 0xE5 => w.finishSession q
  | 0xEC => w.endSession q
  | 0xE8 => w.heartbeat q
  | _ => w.unsupported q

/-- A logged arrival happens again (log 59). -/
def Work.replay (w : Work) (e : LogEntry) : Work :=
  let d := e.payload.drop 1
  match fieldAt e.payload 0 1 with
  | 0 => w.hostDo (.read (fieldAt d 0 8) (fieldAt d 8 8))
  | 1 => w.hostDo (.write (fieldAt d 0 8) (d.drop 8))
  | 2 => w.domainDo (domainOfBytes e.port d)
  | 3 =>
    let done := fieldAt d 0 1 == 1
    w.loseLink (if e.src = 4 then .far (fieldAt d 1 2) done else .package (fieldAt d 1 2) done)
  | 4 => w.joinDomain (fieldAt d 0 8)
  | 6 => w.modSpdm (fun x => x.drop (fieldAt d 0 2))
  | k => w.replaySpdm k { port := if e.src = 2 then 0 else e.port, param1 := nth d 0 0, param2 := nth d 1 0, data := d.drop 2 }

/-- Replay must go on: it has diverged, its log has ended, or the entry at its position is due and is no answer to
a request of the machine's own, which that request takes. -/
def Work.replayDue (w : Work) : Bool :=
  w.m.record.mode == 2 && !w.m.record.ended && (w.m.record.div || match w.logEntry with
    | none => true
    | some e => e.tb < w.m.tb || (e.tb == w.m.tb && !e.answers))

/-- Entries that are due are delivered in log order, at most n. One whose TB has passed diverges, but for the
digests of the boot, which are those of the boot that has been (R395). -/
def Work.deliver : Nat → Work → Work
  | 0, w => w
  | n + 1, w =>
    if !w.replayDue then w
    else if w.m.record.div then w.endReplay true
    else match w.logEntry with
      | none => w.endReplay false
      | some e =>
        if e.src = 0 then Work.deliver n (w.passEntry e)
        else if e.tb < w.m.tb then w.endReplay true
        else Work.deliver n ((w.passEntry e).replay e)

/-- REPLAY_EVENT_DELIVERY (R395): every logged event whose time has come is delivered. With `ok` false, what the
log answers is a request of another source, and the replay diverges. -/
def execReplayEventDelivery (ok : Bool) (s : State) := s.event (fun w =>
  if !w.replayDue then w
  else if ok then Work.deliver (w.m.record.len.toNat / 16 + 1) w
  else w.endReplay true)

end Sys2Proof.Machine
end

