-- ==== Sys2Proof/Machine/SysRegs.lean ====
section
/-!
DEFINITION. The system registers (R3, R76, R158, R412): which numbers name one, who may reach it, what
a read returns and what a write does.
-/

namespace Sys2Proof.Machine

/-- A core's access to a register that is no word of its own: no register first, then permission (R158). -/
def Ctl.reach (p : Priv) (r : Nat) (write : Bool) (word : IWord) : Ctl Unit :=
  match regRefused p r write with
  | some cause => Ctl.trap cause (word.setWidth 64)
  | none => pure ()

/-! ## Reads -/

/-- INT.PEND of core k (R161). -/
def Mach.intPend (m : Mach) (k : Nat) (c : CoreRegs) : Nat :=
  let trq := match m.partOfCore (k - 1536) with
    | some p => (m.part p).trqHead != (m.part p).trqTail
    | none => false
  (if trq then 1 else 0) + (if c.h && c.event then 2 else 0) + (if c.h && c.bridge then 4 else 0) + (if c.soft then 8 else 0)

/-- The bits of INT.EN that a level has (R161). -/
def intMask (h : Bool) : Nat := if h then 15 else 9

/-- The partition whose registers core k reads: none of a valid one reads the reset values (R412). -/
def Mach.partRegs (m : Mach) (k : Nat) (c : CoreRegs) : Part :=
  match m.selPart k c with
  | some p => m.part p
  | none => Part.init

/-- Trap register i of a set (R160). -/
def TrapSet.reg (x : TrapSet) (i : Nat) : Nat :=
  match i with
  | 0 => x.prev * 2 ^ 8 + x.cause
  | 1 => x.pc.toNat
  | 2 => x.val.toNat
  | _ => x.vec.toNat

/-- A count of the record's sets with a STATE (R383). -/
def Mach.sets (m : Mach) (state : Nat) : Nat := (m.hold.record.filter (fun x => x.typ == 0 && x.state == state)).length

/-- Registers 0x050 to 0x058 (R379, R383). -/
def Mach.holdReg (m : Mach) (k : Nat) (c : CoreRegs) (i : Nat) : Nat :=
  let own := m.partOfCore (k - 1536)
  match i with
  | 0 => if c.h then m.hold.budget else 65536 * (match own with
    | some p => (m.part p).entry.share
    | none => 0)
  | 1 => if c.h then m.chargedAll else (match own with
    | some p => m.charged false p
    | none => 0)
  | 2 => m.hold.hyp
  | 3 => m.hold.resBoot * 2 ^ 32 + m.hold.res
  | 4 => (m.entriesOf k c).length
  | 5 => c.xstat * 2 ^ 56 + c.holdIdx
  | 7 => m.sets 1 * 2 ^ 48 + m.sets 2 * 2 ^ 32 + m.sets 0 * 2 ^ 16 + m.hold.recCause
  | _ => 0

/-- A byte of TH.HOT (R385). -/
def Mach.hotByte (m : Mach) (k : Nat) : Nat :=
  let l := (List.range 16).map (fun s => agetD m.heat.now (18 * k + s) 0)
  Nat.min 255 (hottest l / 16).toNat

/-- Registers 0x060 to 0x065 (R385, R386). -/
def Mach.heatReg (m : Mach) (c : CoreRegs) (i : Nat) : Nat :=
  let h := m.heat
  let s16 := fun (x : Int) => (x % 65536).toNat
  let key := 18 * c.thDie + c.thSensor
  match i with
  | 0 => c.thDie * 2 ^ 5 + c.thSensor
  | 1 => if 18 ≤ c.thSensor then 0 else s16 (agetD h.max key 0) * 2 ^ 16 + s16 (agetD h.now key 0)
  | 2 => ofBytes ((List.range 8).map (fun k => BitVec.ofNat 8 (m.hotByte k)))
  | 3 => joinBits 2 ((List.range 16).map (fun n => agetD h.band n 0)) * 2 ^ 32
      + joinBits 2 ((List.range 8).map (fun k => agetD h.level k 0))
  | 4 => h.warn
  | _ => h.evCrit * 2 ^ 16 + h.evThr * 2 ^ 8 + h.evWarn

/-- Registers 0x070 to 0x074 (R388). -/
def Mach.wearReg (m : Mach) (c : CoreRegs) (i : Nat) : Nat :=
  let x := agetD m.wear c.wearSel Wear.init
  if i = 0 then c.wearSel
  else if 10 ≤ c.wearSel then 0
  else match i with
    | 1 => x.eol
    | 2 => x.roLast * 2 ^ 32 + (x.roRate % 2 ^ 32).toNat
    | 3 => x.ue % 2 ^ 32 * 2 ^ 32 + x.ce
    | _ => x.margin

/-- Registers 0x080 to 0x089 (R159, R370, R373). -/
def Mach.queueReg (m : Mach) (q : Part) (i : Nat) : Nat :=
  match i with
  | 0 => q.trqBase.toNat
  | 1 => q.trqHead
  | 2 => q.trqTail
  | 6 => q.einjNode * 2 ^ 40 + q.einjCause * 2 ^ 32 + q.einjMode * 2 ^ 30 + q.einjItem
  | 7 => q.einjHits
  | 8 => m.brgFailed
  | 9 => m.brgEvents * 2 ^ 32 + m.brgTb
  | _ => 0

/-- Registers 0x090 to 0x094 (R387). -/
def Mach.powerReg (m : Mach) (i : Nat) : Nat :=
  match i with
  | 0 => m.power.now
  | 1 => m.power.limit
  | 2 => m.power.floor
  | 3 => if m.power.pcap then 1 else 0
  | _ => m.power.energy / 10

/-- Registers 0x0B0 to 0x0B8 (R323, R328, R320, R333). -/
def Mach.stopReg (m : Mach) (c : CoreRegs) (q : Part) (i : Nat) : Nat :=
  match i with
  | 0 => q.hangInt
  | 1 => q.hangBase.toNat
  | 2 => q.hangs * 2 ^ 32 + q.hangNext
  | 3 => c.rctlArg.toNat
  | 5 => c.rctlBytes * 2 ^ 8 + c.rctlStat
  | 6 => q.pqLimit
  | 7 => m.preWait
  | 8 => c.rctlArea.toNat
  | _ => 0

/-- Registers 0x0C0 to 0x0CA (R336, R348, R353, R412, R356). -/
def Mach.hypReg (m : Mach) (c : CoreRegs) (q : Part) (i : Nat) : Nat :=
  match i with
  | 0 => m.hptBase
  | 2 => m.hptStat
  | 3 => q.walkLimit
  | 4 => m.hostBase
  | 5 => m.hostLen * 2 ^ 12
  | 6 => m.hostPart
  | 7 => c.psel
  | 9 => c.measIdx
  | 10 => m.boot.stat
  | _ => 0

/-- Registers 0x0D0 to 0x0D5, but for a draw of ENT.DRAW (R393). -/
def Mach.recReg (m : Mach) (i : Nat) : Nat :=
  let r := m.record
  match i with
  | 0 => r.ctl
  | 1 => r.base.toNat
  | 2 => r.len.toNat
  | 3 => r.written / 4096 % 2 ^ 32 * 2 ^ 32 + (if r.div then 8 else 0) + (if r.ovf then 4 else 0) + r.mode
  | _ => 0

/-- Registers 0x0E0 to 0x0E3 (R399). -/
def Mach.mapReg (m : Mach) (k : Nat) (c : CoreRegs) (i : Nat) : Nat :=
  let own := match m.partOfCore (k - 1536) with
    | some p => (m.part p).entry.clusters
    | none => 0
  if i < 3 then bits (if c.h then m.clmap else m.clmap &&& own) (64 * i) 64
  else (if m.injArm then 2 ^ 8 else 0) + m.injG

/-- Registers 0x0F0 to 0x0F3 (R339). -/
def Mach.coreReg (m : Mach) (i : Nat) : Nat :=
  match i with
  | 0 => m.coreSel
  | 2 => m.coreRun
  | _ => 0

/-- Registers 0x100 to 0x147 (R356). -/
def Mach.measReg (m : Mach) (k i : Nat) : Nat :=
  if i < 64 then fieldAt (nth m.meas (i / 8) zeros64) (8 * (i % 8)) 8
  else match m.partOfCore (k - 1536) with
    | some p => fieldAt (m.part p).pm (8 * (i - 64)) 8
    | none => 0

/-- What agent k reads in register r, but for what a read itself changes. -/
def Mach.reg (m : Mach) (k : Nat) (t : Thread) (r : Nat) : Nat :=
  match r with
  | 0x00 => k
  | 0x01 => (m.partOf k t).getD 0xFF
  | 0x10 => t.nbv
  | 0x20 => m.tb
  | _ => match t.sys with
    | none => 0
    | some c =>
      let q := m.partRegs k c
      if r < 0x34 then (if c.h then c.hSet else c.sSet).reg (r - 0x30)
      else if r < 0x38 then c.sSet.reg (r - 0x34)
      else if r = 0x38 then m.intPend k c
      else if r = 0x39 then c.inten &&& intMask c.h
      else if r < 0x40 then 0
      else if r = 0x40 then c.ttb
      else if r = 0x41 then c.asid
      else if r = 0x42 then c.httb
      else if r = 0x43 then c.tlbVmid
      else if r < 0x60 then m.holdReg k c (r - 0x50)
      else if r < 0x70 then m.heatReg c (r - 0x60)
      else if r < 0x80 then m.wearReg c (r - 0x70)
      else if r < 0x90 then m.queueReg q (r - 0x80)
      else if r < 0xA0 then m.powerReg (r - 0x90)
      else if r < 0xB0 then 0
      else if r < 0xC0 then m.stopReg c q (r - 0xB0)
      else if r < 0xD0 then m.hypReg c q (r - 0xC0)
      else if r < 0xE0 then m.recReg (r - 0xD0)
      else if r < 0xF0 then m.mapReg k c (r - 0xE0)
      else if r < 0x100 then m.coreReg (r - 0xF0)
      else m.measReg k (r - 0x100)

/-- What reading register r changes: 0x061 begins its highest reading anew (R385). -/
def Mach.afterRead (m : Mach) (t : Thread) (r : Nat) : Mach :=
  match t.sys with
  | some c =>
    if r = 0x61 && c.thSensor < 18 then
      { m with heat := { m.heat with max := aerase m.heat.max (18 * c.thDie + c.thSensor) } }
    else m
  | none => m

/-! ## Writes -/

/-- Trap register i of a set written (R160). -/
def TrapSet.put (x : TrapSet) (i : Nat) (v : Word) : TrapSet :=
  match i with
  | 0 => { x with prev := bits v.toNat 8 2, cause := bits v.toNat 0 8 }
  | 1 => { x with pc := v }
  | 2 => { x with val := v }
  | _ => { x with vec := w64 (v.toNat / 4 * 4) }

/-- A page's address: the bits [51:12] of a value. -/
def pageOf (v : Word) : Nat := bits v.toNat 12 40 * 4096

/-- A value within bounds, or the value stored in place of one outside. -/
def clampTo (lo hi other n : Nat) : Nat := if lo ≤ n && n ≤ hi then n else other

/-- A core's own registers 0x030 to 0x043 written (R160, R161, R346). -/
def CoreRegs.put (c : CoreRegs) (r : Nat) (v : Word) : CoreRegs :=
  let n := v.toNat
  if r < 0x34 then (if c.h then { c with hSet := c.hSet.put (r - 0x30) v } else { c with sSet := c.sSet.put (r - 0x30) v })
  else if r < 0x38 then { c with sSet := c.sSet.put (r - 0x34) v }
  else match r with
    | 0x38 => { c with soft := c.soft && !bitAt n 3, bridge := c.bridge && !(c.h && bitAt n 2), event := c.event && !(c.h && bitAt n 1) }
    | 0x39 => { c with inten := (n &&& intMask c.h) ||| (c.inten &&& (15 - intMask c.h)) }
    | 0x40 => { c with ttb := pageOf v }
    | 0x41 => { c with asid := bits n 0 16 }
    | 0x42 => { c with httb := pageOf v }
    | 0x43 => { c with tlbVmid := bits n 0 8 }
    | 0x55 => { c with holdIdx := bits n 0 16 }
    | 0x60 => { c with thDie := bits n 5 3, thSensor := bits n 0 5 }
    | 0x70 => { c with wearSel := bits n 0 4 }
    | 0xB3 => { c with rctlArg := v }
    | 0xB8 => { c with rctlArea := v }
    | 0xC7 => { c with psel := clampTo 0 16 16 (bits n 0 5) }
    | 0xC9 => { c with measIdx := bits n 0 5 }
    | _ => c

/-- Register r is one that `CoreRegs.put` writes. -/
def ownReg (r : Nat) : Bool :=
  (0x30 ≤ r && r ≤ 0x39) || (0x40 ≤ r && r ≤ 0x43) || r == 0x55 || r == 0x60 || r == 0x70 || r == 0xB3 || r == 0xB8
    || r == 0xC7 || r == 0xC9

/-- A partition's register written (R412). -/
def Part.put (q : Part) (h : Bool) (r : Nat) (v : Word) : Part :=
  let n := v.toNat
  match r with
  | 0x81 => { q with trqHead := bits n 0 6 }
  | 0x86 => { q with einjNode := bits n 40 24, einjCause := bits n 32 8, einjMode := bits n 30 2, einjItem := bits n 0 16 }
  | 0x87 => { q with einjHits := bits n 0 32 }
  | 0xB0 => { q with hangInt := Nat.max 1000 (bits n 0 32) }
  | 0xB6 => if h then { q with pqLimit := clampTo 1 8192 8192 (bits n 0 14) } else q
  | 0xC3 => if h then { q with walkLimit := clampTo 1 32 32 (bits n 0 6) } else q
  | _ => q

/-- Register r is one that `Part.put` writes. -/
def partReg (r : Nat) : Bool := r == 0x81 || r == 0x86 || r == 0x87 || r == 0xB0 || r == 0xB6 || r == 0xC3

/-- HOLD.HYP keeps the sum of R379. -/
def Mach.hypFits (m : Mach) (n : Nat) : Bool := 65536 * (n + ((m.others 16).map (·.share)).foldl (· + ·) 0) ≤ m.hold.budget

/-- The bits of a that b has are taken away. -/
def clearBits (n a b : Nat) : Nat := (List.range n).foldl (fun x k => if bitAt a k && !bitAt b k then x + 2 ^ k else x) 0

/-- CLMAP written at H (R399): each 1 returns its cluster to service, but for one that is scanning. -/
def Mach.clmapWrite (m : Mach) (i : Nat) (v : Word) : Mach :=
  { m with clmap := (List.range 64).foldl (fun x b =>
      let g := 64 * i + b
      if bitAt v.toNat b && !bitAt x g && (aget m.scans g).isNone then x + 2 ^ g else x) m.clmap }

/-- A package register written, that only stores (R378 to R399); those with `rw at H, ro at S` ignore
a write at S. -/
def Mach.put (m : Mach) (h : Bool) (r : Nat) (v : Word) : Mach :=
  let n := v.toNat
  match r with
  | 0x52 => if h && m.hypFits (bits n 0 14) then { m with hold := { m.hold with hyp := bits n 0 14 } } else m
  | 0x64 => if h then { m with heat := { m.heat with warn := clampTo 60 105 100 (bits n 0 7) } } else m
  | 0x65 => if !h then m else { m with heat := { m.heat with evWarn := clearBits 8 m.heat.evWarn n, evThr := clearBits 8 m.heat.evThr (n / 2 ^ 8), evCrit := clearBits 8 m.heat.evCrit (n / 2 ^ 16) } }
  | 0x91 => if h then { m with power := { m.power with limit := clampTo 1000 4400 4400 (bits n 0 13) } } else m
  | 0x92 => if h then { m with power := { m.power with floor := Nat.min m.power.limit (bits n 0 13) } } else m
  | 0xB7 => { m with preWait := bits n 0 32 }
  | 0xC0 => { m with hptBase := pageOf v }
  | 0xC4 => { m with hostBase := pageOf v }
  | 0xC5 => { m with hostLen := bits n 12 28 }
  | 0xC6 => { m with hostPart := bits n 0 5 }
  | 0xD0 => { m with record := { m.record with ctl := clampTo 0 2 0 (bits n 0 2) } }
  | 0xD1 => { m with record := { m.record with base := v } }
  | 0xD2 => { m with record := { m.record with len := v } }
  | 0xE3 => { m with injArm := bitAt n 8, injG := bits n 0 8 }
  | 0xF0 => { m with coreSel := bits n 0 4 }
  | _ => m

/-- A register written with no behaviour of its own: the value is stored or ignored as its access codes
say (R3). -/
def Work.storeReg (w : Work) (k : Nat) (c : CoreRegs) (r : Nat) (v : Word) : Work :=
  if ownReg r then w.modCore k (fun c => c.put r v)
  else if partReg r then match w.m.selPart k c with
    | some p => w.setPart p (fun q => q.put c.h r v)
    | none => w
  else w.mach (fun m => m.put c.h r v)

/-- NBV written (R179). -/
def Ctl.putNbv (v : Word) (word : IWord) : Ctl Unit :=
  if bits v.toNat 0 2 = 3 then Ctl.trap 0x01 (word.setWidth 64)
  else Ctl.me (fun t => { t with nbv := bits v.toNat 0 2 })

/-- Core k writes v to a register: one that acts, or one that stores. -/
def Ctl.writeReg (k : Nat) (t : Thread) (r : Nat) (v : Word) (word : IWord) : Ctl Unit :=
  if r = 0x10 then Ctl.putNbv v word
  else match t.sys with
    | none => pure ()
    | some c => match r with
      | 0x3A => Ctl.upd (fun w => w.intSend k c v)
      | 0x56 => Ctl.holdXfer k c v
      | 0x58 => Ctl.upd (fun w => w.holdClear c)
      | 0x80 => Ctl.upd (fun w => w.trqBase k c v)
      | 0x83 => Ctl.upd (fun w => w.resume k c v)
      | 0x84 => Ctl.upd (fun w => w.kill k c v)
      | 0xA0 => Ctl.lnchSubmit k c v
      | 0xB1 => Ctl.upd (fun w => w.hangBase k c v)
      | 0xB4 => Ctl.rctl k v
      | 0xC1 => Ctl.upd (fun w => w.hptApply v)
      | 0xC8 => Ctl.measExt k c v word
      | 0xD5 => Ctl.upd (fun w => w.pkgReset)
      | 0xE0 => Ctl.upd (fun w => w.mach (fun m => if c.h then m.clmapWrite 0 v else m))
      | 0xE1 => Ctl.upd (fun w => w.mach (fun m => if c.h then m.clmapWrite 1 v else m))
      | 0xE2 => Ctl.upd (fun w => w.mach (fun m => if c.h then m.clmapWrite 2 v else m))
      | 0xF1 => Ctl.upd (fun w => w.coreStart c.httb v)
      | 0xF3 => Ctl.upd (fun w => w.coreStop v)
      | _ => Ctl.upd (fun w => w.storeReg k c r v)

/-- CLMAP_WRITE (R399): core k writes register r, one of the three of CLMAP. -/
def execClmapWrite (k r : Nat) (v : Word) (s : State) := s.asCore k (fun _ c => do
  if 0xE0 ≤ r && r ≤ 0xE2 then Ctl.upd (fun w => w.mach (fun m => if c.h then m.clmapWrite (r - 0xE0) v else m)))

/-- REGISTER_WRITE (R3): core k writes a register that has no behaviour of its own. -/
def execRegisterWrite (k r : Nat) (v : Word) (s : State) := s.asCore k (fun t c => do
  Ctl.reach t.priv r true (srwWord r)
  if r = 0x10 then Ctl.putNbv v (srwWord r) else Ctl.upd (fun w => w.storeReg k c r v))

/-- ENT_DRAW (R393): core k draws 64 random bits into g[d]. A draw that ends a replay is not made. -/
def execEntDraw (k : Nat) (d : Reg) (s : State) := s.asCore k (fun _ _ => do
  let w ← get
  let (x, v) := w.entropy 8
  set v
  if v.m.record.ended = w.m.record.ended then Ctl.result d (w64 (ofBytes x)))

end Sys2Proof.Machine
end

