-- ==== Sys2Proof/Machine/SysWords.lean ====
section
/-!
DEFINITION. The system words of major 0x3F (R76, R158), invalidation of translations (R349 to R351),
waiting (R161), and cluster scans (R154, R397 to R399).
-/

namespace Sys2Proof.Machine

/-- The core's registers: of a word that U may not execute (R76), which State.ctl has refused to a thread. -/
def Ctl.core (i : Instr) (t : Thread) : Ctl CoreRegs :=
  match t.sys with
  | some c => pure c
  | none => Ctl.trap 0x06 ((wordOfInstr i).setWidth 64)

/-! ## Traps -/

/-- TRAP (R158): cause 0x08, TRAP.VAL the immediate, TRAP.PC the next word. -/
def execTrap (i : BitVec 12) (s : State) := s.ctl (.trap i) [] [] 0 0 (fun _ => Ctl.stop (.trapAfter 0x08 (i.setWidth 64)))

/-- HENT (R158): the trap to H, cause 0x09. -/
def execHent (i : BitVec 12) (s : State) := s.ctl (.hent i) [] [] 0 0 (fun t => do
  let _ ← Ctl.core (.hent i) t
  Ctl.stop (.trapAfter 0x09 (i.setWidth 64)))

/-- RETT (R158). A TRAP.PC that is no multiple of 4 traps with cause 0x02 at the RETT, as it does for
JR (log 18). -/
def execRett (s : State) := s.ctl .rett [] [] 0 0 (fun t => do
  let c ← Ctl.core .rett t
  match t.rett c with
  | .error cause => Ctl.trap cause ((wordOfInstr .rett).setWidth 64)
  | .ok u =>
    if u.pc.toNat % 4 ≠ 0 then Ctl.trap 0x02 u.pc
    else Ctl.me (fun _ => u))

/-- UDF (R76): illegal whatever its bits. -/
def execUdf (d a : Reg) (i : BitVec 12) (s : State) := s.illegal (wordOfInstr (.udf d a i))

/-- A word that the tables do not allocate (R81): illegal. -/
def execUnallocatedWord (w : IWord) (s : State) := s.illegal w

/-! ## Register words -/

/-- SRR (R158). -/
def execSrr (d : Reg) (r : BitVec 12) (s : State) := s.ctl (.srr d r) [] [d] 0 0 (fun t => do
  let w ← get
  if r.toNat = 0xD4 then do
    let (x, v) := w.entropy 8
    set v
    if v.m.record.ended = w.m.record.ended then do
      Ctl.result d (w64 (ofBytes x))
      Ctl.done
  else do
    Ctl.upd (fun u => u.mach (fun m => m.afterRead t r.toNat))
    Ctl.result d (w64 (w.m.reg w.m.cur t r.toNat))
    Ctl.done)

/-- A write of a register word: the value, from the one read and g[a]; a package reset leaves no word to
pass to. -/
def Ctl.regWrite (t : Thread) (r : BitVec 12) (word : IWord) (f : Word → Word) : Ctl Unit := do
  let w ← get
  Ctl.writeReg w.m.cur t r.toNat (f (w64 (w.m.reg w.m.cur t r.toNat))) word
  if r.toNat ≠ 0xD5 then Ctl.done

/-- SRW (R158). -/
def execSrw (a : Reg) (r : BitVec 12) (s : State) := s.ctl (.srw a r) [a] [] 0 0 (fun t =>
  Ctl.regWrite t r (wordOfInstr (.srw a r)) (fun _ => t.g a))

/-- SRS (R158): OR. -/
def execSrs (a : Reg) (r : BitVec 12) (s : State) := s.ctl (.srs a r) [a] [] 0 0 (fun t =>
  Ctl.regWrite t r (wordOfInstr (.srs a r)) (fun x => x ||| t.g a))

/-- SRC (R158): AND NOT. -/
def execSrc (a : Reg) (r : BitVec 12) (s : State) := s.ctl (.src a r) [a] [] 0 0 (fun t =>
  Ctl.regWrite t r (wordOfInstr (.src a r)) (fun x => x &&& ~~~(t.g a)))

/-! ## Invalidation (R349) -/

/-- Whether a TLBI covers an entry: its tag, and n pages from one, or the whole ASID when n is 0. -/
def TlbEntry.covered (e : TlbEntry) (vmid asid page n : Nat) : Bool :=
  e.vmid == vmid && e.asid == asid && (n == 0 || (e.page < page + n && page < e.page + e.pages))

/-- The outstanding accesses of a tag, by the cache that translated them. Every access of the tag is
noted, those of other pages too: a cache then acknowledges no earlier than it must (log 8). -/
def Mach.tagged (m : Mach) (vmid asid : Nat) : AMap (List (Nat × Nat)) :=
  m.thr.foldl (fun x e =>
    let ps := (e.2.pend.filter (fun p => p.op.access && p.vmid == vmid && p.asid == asid)).map (fun p => (e.1, p.id))
    if ps.isEmpty then x else aset x (agentCache e.1) (agetD x (agentCache e.1) [] ++ ps)) []

/-- A TLBI of core k acts on every cache (R349). -/
def Work.tlbi (w : Work) (k vmid asid page n : Nat) : Work :=
  let noted := w.m.tagged vmid asid
  w.mach (fun m => { m with
    tlbs := m.tlbs.map (fun c => (c.1, c.2.filter (fun e => !e.covered vmid asid page n)))
    tlbis := if noted.isEmpty then m.tlbis else aset m.tlbis m.nextTlbi { core := k, noted := noted }
    nextTlbi := m.nextTlbi + 1 })

/-- An access that writes. -/
def PendOp.writes : PendOp → Bool
  | .store | .amo _ _ _ | .cas _ _ _ | .red _ _ _ | .cadd _ => true
  | _ => false

/-- TLBI (R158): at S on the partition's VMID, at H on TLB.VMID; not issued until the core's earlier
stores have been performed. -/
def execTlbi (d a : Reg) (n : BitVec 12) (s : State) := s.ctl (.tlbi d a n) [a, d] [] 0 0 (fun t => do
  let c ← Ctl.core (.tlbi d a n) t
  if (t.g a).toNat % 4096 ≠ 0 then Ctl.trap 0x02 (t.g a)
  if t.pend.any (·.op.writes) then Ctl.hold
  let w ← get
  let vmid := if c.h then c.tlbVmid else (w.m.transOf w.m.cur t).vmid
  Ctl.upd (fun u => u.tlbi w.m.cur vmid ((t.g d).toNat % 2 ^ 16) ((t.g a).toNat / 4096) n.toNat)
  Ctl.done)

/-- A noted access has drained (R349). -/
def Mach.drained (m : Mach) (q : Nat × Nat) : Bool :=
  match aget m.thr q.1 with
  | some t => !t.pend.any (fun p => p.id == q.2)
  | none => true

/-- TLBI_ACK (R349): cache c acknowledges TLBI n once every access that it noted has drained. -/
def execTlbiAck (n c : Nat) (s : State) := s.event (fun w =>
  match aget w.m.tlbis n with
  | none => w
  | some x =>
    if !(agetD x.noted c []).all w.m.drained then w
    else
      let rest := aerase x.noted c
      w.mach (fun m => { m with tlbis := if rest.isEmpty then aerase m.tlbis n else aset m.tlbis n { x with noted := rest } }))

/-- TLBW (R349). -/
def execTlbw (s : State) := s.ctl .tlbw [] [] 0 0 (fun t => do
  let _ ← Ctl.core .tlbw t
  let w ← get
  if w.m.tlbis.any (fun x => x.2.core == w.m.cur) then Ctl.hold
  Ctl.done)

/-- WFI (R161): INT.PEND AND INT.EN is not 0, at S with bits 0 and 3 alone. -/
def execWfi (s : State) := s.ctl .wfi [] [] 0 0 (fun t => do
  let c ← Ctl.core .wfi t
  let w ← get
  if (w.m.intPend w.m.cur c &&& c.inten &&& intMask c.h) = 0 then Ctl.hold
  Ctl.done)

/-! ## Scans (R397 to R399) -/

/-- A cluster is idle (R397). -/
def Mach.idle (m : Mach) (g : Nat) : Bool :=
  (aget m.scans g).isNone && !m.launches.any (fun l => l.2.holds && l.2.clusters.contains g)
    && !m.thr.any (fun t => t.2.sys.isNone && t.1 / 8 == g)

/-- SCAN (R154, R397). -/
def execScan (d a : Reg) (sl ws : BitVec 3) (s : State) := s.ctl (.scan d a sl ws) [a] [d] sl ws (fun t => do
  let c ← Ctl.core (.scan d a sl ws) t
  let w ← get
  let g := (t.g a).toNat
  let owned := match w.m.partOfCore (w.m.cur - 1536) with
    | some p => bitAt (w.m.part p).entry.clusters g
    | none => false
  if 191 < g || (!c.h && !owned) then do
    Ctl.result d 4
    Ctl.done
  else if !w.m.idle g then do
    Ctl.result d 3
    Ctl.done
  else do
    let id ← Ctl.outstand sl d (.scan g) 0
    Ctl.upd (fun u => (u.modThr w.m.cur (fun t => t.modPend id (fun p => { p with holds := true }))).mach (fun m =>
      { m with scans := aset m.scans g { core := w.m.cur, pend := id, tb := m.tb },
               tlbs := m.tlbs.filter (fun x => !(x.1 == 20000 + g || (x.1 < 20000 && x.1 / 64 == g))) })))

/-- Every byte of a cluster's scratchpad is 0 (R398). -/
def Work.clearScratch (w : Work) (g : Nat) : Work :=
  let here := fun (k : Nat) => scratchKey g 0 ≤ k && k < scratchKey (g + 1) 0
  let keys := (w.base.filter (fun c => here c.1)).map (·.1) ++ (w.log.filter (fun c => here c.1)).map (·.1)
  let v := keys.foldl (fun u k => u.putByte k 0) w
  { v with bad := v.bad.filter (fun k => !here k) }

/-- A scan ends with a result. -/
def Work.endScan (w : Work) (g : Nat) (x : Scan) (result : Nat) : Work :=
  ((w.clearScratch g).mach (fun m => { m with scans := aerase m.scans g })).endPend x.core x.pend (some (w64 result))

/-- A waiting launch that wants a cluster (R35). -/
def Mach.wanted (m : Mach) (g : Nat) : Bool := m.launches.any (fun l => l.2.waits && l.2.clusters.contains g)

/-- SCAN_COMPARE (R398, R399): 200 µs of patterns have run; the signature matches, as `ok` says, unless
SCAN.INJ makes it fail. A failure takes the cluster out of the map first. A placement request that came
before the compare ends the scan instead (R398). -/
def execScanCompare (g : Nat) (ok : Bool) (s : State) := s.event (fun w =>
  match aget w.m.scans g with
  | none => w
  | some x =>
    if w.m.wanted g then w.endScan g x 2
    else if w.m.tb < x.tb + 200000 then w
    else
      let inj := w.m.injArm && w.m.injG == g
      if ok && !inj then w.endScan g x 0
      else
        let v := w.mach (fun m => { m with
          injArm := if inj then false else m.injArm
          clmap := if bitAt m.clmap g then m.clmap - 2 ^ g else m.clmap })
        v.refuseLost.endScan g x 1)

/-- SCAN_ABORT (R35, R398): a placement request wants the cluster before the compare has completed. -/
def execScanAbort (g : Nat) (s : State) := s.event (fun w =>
  match aget w.m.scans g with
  | some x => if w.m.wanted g then w.endScan g x 2 else w
  | none => w)

end Sys2Proof.Machine
end

