-- ==== Sys2Proof/Machine/Dispatch.lean ====
section
/-!
DEFINITION. Which meaning each step of the table has.
-/

namespace Sys2Proof.Machine

/-- One step: its meaning at a state. -/
def exec (i : Instr) (s : State) : Host.Outcome State Fault Refusal :=
  match i with
  | .add x0 x1 x2 => Sys2Proof.Machine.execAdd x0 x1 x2 s
  | .sub x0 x1 x2 => Sys2Proof.Machine.execSub x0 x1 x2 s
  | .and x0 x1 x2 => Sys2Proof.Machine.execAnd x0 x1 x2 s
  | .or x0 x1 x2 => Sys2Proof.Machine.execOr x0 x1 x2 s
  | .xor x0 x1 x2 => Sys2Proof.Machine.execXor x0 x1 x2 s
  | .andn x0 x1 x2 => Sys2Proof.Machine.execAndn x0 x1 x2 s
  | .shl x0 x1 x2 => Sys2Proof.Machine.execShl x0 x1 x2 s
  | .shr x0 x1 x2 => Sys2Proof.Machine.execShr x0 x1 x2 s
  | .shra x0 x1 x2 => Sys2Proof.Machine.execShra x0 x1 x2 s
  | .min x0 x1 x2 => Sys2Proof.Machine.execMin x0 x1 x2 s
  | .max x0 x1 x2 => Sys2Proof.Machine.execMax x0 x1 x2 s
  | .minu x0 x1 x2 => Sys2Proof.Machine.execMinu x0 x1 x2 s
  | .maxu x0 x1 x2 => Sys2Proof.Machine.execMaxu x0 x1 x2 s
  | .lea x0 x1 x2 x3 => Sys2Proof.Machine.execLea x0 x1 x2 x3 s
  | .clz x0 x1 => Sys2Proof.Machine.execClz x0 x1 s
  | .popc x0 x1 => Sys2Proof.Machine.execPopc x0 x1 s
  | .brev x0 x1 => Sys2Proof.Machine.execBrev x0 x1 s
  | .sext x0 x1 x2 => Sys2Proof.Machine.execSext x0 x1 x2 s
  | .zext x0 x1 x2 => Sys2Proof.Machine.execZext x0 x1 x2 s
  | .csel x0 x1 x2 x3 => Sys2Proof.Machine.execCsel x0 x1 x2 x3 s
  | .mul x0 x1 x2 => Sys2Proof.Machine.execMul x0 x1 x2 s
  | .mulh x0 x1 x2 => Sys2Proof.Machine.execMulh x0 x1 x2 s
  | .mulhu x0 x1 x2 => Sys2Proof.Machine.execMulhu x0 x1 x2 s
  | .div x0 x1 x2 => Sys2Proof.Machine.execDiv x0 x1 x2 s
  | .divu x0 x1 x2 => Sys2Proof.Machine.execDivu x0 x1 x2 s
  | .rem x0 x1 x2 => Sys2Proof.Machine.execRem x0 x1 x2 s
  | .remu x0 x1 x2 => Sys2Proof.Machine.execRemu x0 x1 x2 s
  | .cmp x0 x1 x2 x3 => Sys2Proof.Machine.execCmp x0 x1 x2 x3 s
  | .clog x0 x1 x2 x3 => Sys2Proof.Machine.execClog x0 x1 x2 x3 s
  | .addi x0 x1 x2 => Sys2Proof.Machine.execAddi x0 x1 x2 s
  | .andi x0 x1 x2 => Sys2Proof.Machine.execAndi x0 x1 x2 s
  | .ori x0 x1 x2 => Sys2Proof.Machine.execOri x0 x1 x2 s
  | .xori x0 x1 x2 => Sys2Proof.Machine.execXori x0 x1 x2 s
  | .shli x0 x1 x2 => Sys2Proof.Machine.execShli x0 x1 x2 s
  | .shri x0 x1 x2 => Sys2Proof.Machine.execShri x0 x1 x2 s
  | .shrai x0 x1 x2 => Sys2Proof.Machine.execShrai x0 x1 x2 s
  | .cmpi x0 x1 x2 x3 => Sys2Proof.Machine.execCmpi x0 x1 x2 x3 s
  | .movi x0 x1 => Sys2Proof.Machine.execMovi x0 x1 s
  | .movk x0 x1 x2 => Sys2Proof.Machine.execMovk x0 x1 x2 s
  | .bc x0 x1 x2 => Sys2Proof.Machine.execBc x0 x1 x2 s
  | .b x0 => Sys2Proof.Machine.execB x0 s
  | .bl x0 => Sys2Proof.Machine.execBl x0 s
  | .jr x0 x1 => Sys2Proof.Machine.execJr x0 x1 s
  | .loopImm x0 x1 => Sys2Proof.Machine.execLoopImm x0 x1 s
  | .loopReg x0 x1 => Sys2Proof.Machine.execLoopReg x0 x1 s
  | .lbrk => Sys2Proof.Machine.execLbrk s
  | .ld x0 x1 x2 x3 x4 x5 x6 => Sys2Proof.Machine.execLd x0 x1 x2 x3 x4 x5 x6 s
  | .st x0 x1 x2 x3 x4 x5 x6 => Sys2Proof.Machine.execSt x0 x1 x2 x3 x4 x5 x6 s
  | .ldx x0 x1 x2 x3 x4 x5 x6 => Sys2Proof.Machine.execLdx x0 x1 x2 x3 x4 x5 x6 s
  | .stx x0 x1 x2 x3 x4 x5 x6 => Sys2Proof.Machine.execStx x0 x1 x2 x3 x4 x5 x6 s
  | .loadReply x0 x1 x2 => Sys2Proof.Machine.execLoadReply x0 x1 x2 s
  | .storePerformed x0 x1 x2 => Sys2Proof.Machine.execStorePerformed x0 x1 x2 s
  | .amo x0 x1 x2 x3 x4 x5 x6 => Sys2Proof.Machine.execAmo x0 x1 x2 x3 x4 x5 x6 s
  | .cas x0 x1 x2 x3 x4 x5 => Sys2Proof.Machine.execCas x0 x1 x2 x3 x4 x5 s
  | .red x0 x1 x2 x3 x4 => Sys2Proof.Machine.execRed x0 x1 x2 x3 x4 s
  | .atomicAtHome x0 x1 => Sys2Proof.Machine.execAtomicAtHome x0 x1 s
  | .cadd x0 x1 x2 => Sys2Proof.Machine.execCadd x0 x1 x2 s
  | .cwait x0 x1 x2 => Sys2Proof.Machine.execCwait x0 x1 x2 s
  | .ctest x0 x1 x2 => Sys2Proof.Machine.execCtest x0 x1 x2 s
  | .counterAddAtHome x0 x1 => Sys2Proof.Machine.execCounterAddAtHome x0 x1 s
  | .swset x0 x1 x2 => Sys2Proof.Machine.execSwset x0 x1 x2 s
  | .swwait x0 x1 x2 => Sys2Proof.Machine.execSwwait x0 x1 x2 s
  | .syncWordArrival x0 => Sys2Proof.Machine.execSyncWordArrival x0 s
  | .fence x0 x1 => Sys2Proof.Machine.execFence x0 x1 s
  | .sbwait x0 => Sys2Proof.Machine.execSbwait x0 s
  | .copy x0 x1 x2 x3 => Sys2Proof.Machine.execCopy x0 x1 x2 x3 s
  | .gath x0 x1 x2 x3 => Sys2Proof.Machine.execGath x0 x1 x2 x3 s
  | .scat x0 x1 x2 x3 => Sys2Proof.Machine.execScat x0 x1 x2 x3 s
  | .coll x0 x1 x2 x3 => Sys2Proof.Machine.execColl x0 x1 x2 x3 s
  | .foot x0 x1 x2 x3 => Sys2Proof.Machine.execFoot x0 x1 x2 x3 s
  | .tdset x0 x1 x2 x3 x4 => Sys2Proof.Machine.execTdset x0 x1 x2 x3 x4 s
  | .tdinv x0 x1 x2 x3 => Sys2Proof.Machine.execTdinv x0 x1 x2 x3 s
  | .jobComplete x0 => Sys2Proof.Machine.execJobComplete x0 s
  | .jobFail x0 => Sys2Proof.Machine.execJobFail x0 s
  | .jobRecordWrite x0 => Sys2Proof.Machine.execJobRecordWrite x0 s
  | .cfgl x0 x1 x2 x3 => Sys2Proof.Machine.execCfgl x0 x1 x2 x3 s
  | .cfgr x0 x1 x2 x3 => Sys2Proof.Machine.execCfgr x0 x1 x2 x3 s
  | .strm x0 x1 x2 x3 x4 => Sys2Proof.Machine.execStrm x0 x1 x2 x3 x4 s
  | .strs x0 x1 x2 x3 => Sys2Proof.Machine.execStrs x0 x1 x2 x3 s
  | .take x0 x1 x2 x3 => Sys2Proof.Machine.execTake x0 x1 x2 x3 s
  | .drain x0 x1 x2 x3 => Sys2Proof.Machine.execDrain x0 x1 x2 x3 s
  | .blkm x0 x1 x2 x3 => Sys2Proof.Machine.execBlkm x0 x1 x2 x3 s
  | .spawn x0 x1 x2 x3 => Sys2Proof.Machine.execSpawn x0 x1 x2 x3 s
  | .exit => Sys2Proof.Machine.execExit s
  | .yield => Sys2Proof.Machine.execYield s
  | .gjoin x0 x1 x2 x3 => Sys2Proof.Machine.execGjoin x0 x1 x2 x3 s
  | .gleave x0 x1 x2 => Sys2Proof.Machine.execGleave x0 x1 x2 s
  | .trig x0 x1 x2 x3 x4 => Sys2Proof.Machine.execTrig x0 x1 x2 x3 x4 s
  | .untrig x0 x1 x2 x3 => Sys2Proof.Machine.execUntrig x0 x1 x2 x3 s
  | .pqreq x0 x1 x2 x3 x4 => Sys2Proof.Machine.execPqreq x0 x1 x2 x3 x4 s
  | .pqwait x0 x1 x2 => Sys2Proof.Machine.execPqwait x0 x1 x2 s
  | .pqtry x0 x1 x2 x3 => Sys2Proof.Machine.execPqtry x0 x1 x2 x3 s
  | .pqgive x0 x1 x2 x3 => Sys2Proof.Machine.execPqgive x0 x1 x2 x3 s
  | .pqswap x0 x1 x2 x3 => Sys2Proof.Machine.execPqswap x0 x1 x2 x3 s
  | .pqdrop x0 x1 x2 => Sys2Proof.Machine.execPqdrop x0 x1 x2 s
  | .pqdone x0 x1 x2 => Sys2Proof.Machine.execPqdone x0 x1 x2 s
  | .rinj x0 x1 x2 x3 x4 => Sys2Proof.Machine.execRinj x0 x1 x2 x3 x4 s
  | .errd x0 x1 x2 x3 => Sys2Proof.Machine.execErrd x0 x1 x2 x3 s
  | .errc x0 x1 x2 => Sys2Proof.Machine.execErrc x0 x1 x2 s
  | .msav x0 x1 x2 x3 x4 => Sys2Proof.Machine.execMsav x0 x1 x2 x3 x4 s
  | .mscl x0 x1 x2 x3 => Sys2Proof.Machine.execMscl x0 x1 x2 x3 s
  | .scan x0 x1 x2 x3 => Sys2Proof.Machine.execScan x0 x1 x2 x3 s
  | .scanCompare x0 x1 => Sys2Proof.Machine.execScanCompare x0 x1 s
  | .scanAbort x0 => Sys2Proof.Machine.execScanAbort x0 s
  | .trce x0 x1 x2 x3 => Sys2Proof.Machine.execTrce x0 x1 x2 x3 s
  | .mark x0 x1 x2 => Sys2Proof.Machine.execMark x0 x1 x2 s
  | .dump x0 x1 x2 x3 x4 => Sys2Proof.Machine.execDump x0 x1 x2 x3 x4 s
  | .brk x0 x1 x2 x3 => Sys2Proof.Machine.execBrk x0 x1 x2 x3 s
  | .trap x0 => Sys2Proof.Machine.execTrap x0 s
  | .hent x0 => Sys2Proof.Machine.execHent x0 s
  | .rett => Sys2Proof.Machine.execRett s
  | .srr x0 x1 => Sys2Proof.Machine.execSrr x0 x1 s
  | .srw x0 x1 => Sys2Proof.Machine.execSrw x0 x1 s
  | .srs x0 x1 => Sys2Proof.Machine.execSrs x0 x1 s
  | .src x0 x1 => Sys2Proof.Machine.execSrc x0 x1 s
  | .tlbi x0 x1 x2 => Sys2Proof.Machine.execTlbi x0 x1 x2 s
  | .tlbiAck x0 x1 => Sys2Proof.Machine.execTlbiAck x0 x1 s
  | .tlbw => Sys2Proof.Machine.execTlbw s
  | .wfi => Sys2Proof.Machine.execWfi s
  | .udf x0 x1 x2 => Sys2Proof.Machine.execUdf x0 x1 x2 s
  | .unallocatedWord x0 => Sys2Proof.Machine.execUnallocatedWord x0 s
  | .threadPark x0 => Sys2Proof.Machine.execThreadPark x0 s
  | .trapRecordWrite x0 => Sys2Proof.Machine.execTrapRecordWrite x0 s
  | .tileFiring x0 x1 x2 x3 => Sys2Proof.Machine.execTileFiring x0 x1 x2 x3 s
  | .nonDataTokenFiring x0 x1 x2 x3 => Sys2Proof.Machine.execNonDataTokenFiring x0 x1 x2 x3 s
  | .tokenHop x0 x1 x2 x3 x4 => Sys2Proof.Machine.execTokenHop x0 x1 x2 x3 x4 s
  | .antiTokenHop x0 x1 x2 x3 x4 => Sys2Proof.Machine.execAntiTokenHop x0 x1 x2 x3 x4 s
  | .sourcePortInject x0 x1 x2 => Sys2Proof.Machine.execSourcePortInject x0 x1 x2 s
  | .itemReinject x0 x1 x2 x3 => Sys2Proof.Machine.execItemReinject x0 x1 x2 x3 s
  | .takeToken x0 x1 x2 => Sys2Proof.Machine.execTakeToken x0 x1 x2 s
  | .drainComplete x0 x1 x2 => Sys2Proof.Machine.execDrainComplete x0 x1 x2 s
  | .memoryReply x0 x1 x2 x3 x4 => Sys2Proof.Machine.execMemoryReply x0 x1 x2 x3 x4 s
  | .memoryReplyTimeout x0 x1 x2 x3 x4 => Sys2Proof.Machine.execMemoryReplyTimeout x0 x1 x2 x3 x4 s
  | .pageWalk x0 => Sys2Proof.Machine.execPageWalk x0 s
  | .loadAccept x0 => Sys2Proof.Machine.execLoadAccept x0 s
  | .loadStageAtTile x0 x1 x2 => Sys2Proof.Machine.execLoadStageAtTile x0 x1 x2 s
  | .configCommit x0 => Sys2Proof.Machine.execConfigCommit x0 s
  | .creqComplete x0 => Sys2Proof.Machine.execCreqComplete x0 s
  | .blockSchedule x0 x1 => Sys2Proof.Machine.execBlockSchedule x0 x1 s
  | .contextReweight x0 x1 x2 x3 => Sys2Proof.Machine.execContextReweight x0 x1 x2 x3 s
  | .mxPairStart x0 x1 => Sys2Proof.Machine.execMxPairStart x0 x1 s
  | .mxPairEnd x0 x1 => Sys2Proof.Machine.execMxPairEnd x0 x1 s
  | .mxConversionEnd x0 x1 => Sys2Proof.Machine.execMxConversionEnd x0 x1 s
  | .mxDeferredPush x0 x1 => Sys2Proof.Machine.execMxDeferredPush x0 x1 s
  | .mxGroupItem x0 x1 => Sys2Proof.Machine.execMxGroupItem x0 x1 s
  | .mxNonDataSlot x0 x1 => Sys2Proof.Machine.execMxNonDataSlot x0 x1 s
  | .hangDeclared x0 x1 => Sys2Proof.Machine.execHangDeclared x0 x1 s
  | .freezeQuiescent x0 x1 => Sys2Proof.Machine.execFreezeQuiescent x0 x1 s
  | .freeze x0 => Sys2Proof.Machine.execFreeze x0 s
  | .thaw x0 => Sys2Proof.Machine.execThaw x0 s
  | .save x0 => Sys2Proof.Machine.execSave x0 s
  | .move x0 => Sys2Proof.Machine.execMove x0 s
  | .release x0 => Sys2Proof.Machine.execRelease x0 s
  | .pause x0 => Sys2Proof.Machine.execPause x0 s
  | .contin x0 => Sys2Proof.Machine.execContin x0 s
  | .evict x0 => Sys2Proof.Machine.execEvict x0 s
  | .lnchSubmit x0 x1 => Sys2Proof.Machine.execLnchSubmit x0 x1 s
  | .launchPlacement x0 => Sys2Proof.Machine.execLaunchPlacement x0 s
  | .preemptRequest x0 => Sys2Proof.Machine.execPreemptRequest x0 s
  | .ballastPreempt x0 => Sys2Proof.Machine.execBallastPreempt x0 s
  | .powerAverageWindow x0 => Sys2Proof.Machine.execPowerAverageWindow x0 s
  | .sensorSample x0 => Sys2Proof.Machine.execSensorSample x0 s
  | .supplyLoss => Sys2Proof.Machine.execSupplyLoss s
  | .holdupTrap => Sys2Proof.Machine.execHoldupTrap s
  | .holdupCut => Sys2Proof.Machine.execHoldupCut s
  | .holdupWriteEnd x0 => Sys2Proof.Machine.execHoldupWriteEnd x0 s
  | .packageReset x0 => Sys2Proof.Machine.execPackageReset x0 s
  | .dailyMeasurement x0 x1 => Sys2Proof.Machine.execDailyMeasurement x0 x1 s
  | .bridgeFailure x0 x1 => Sys2Proof.Machine.execBridgeFailure x0 x1 s
  | .bridgeDetour x0 => Sys2Proof.Machine.execBridgeDetour x0 s
  | .uncorrectableError x0 => Sys2Proof.Machine.execUncorrectableError x0 s
  | .hostAccess x0 => Sys2Proof.Machine.execHostAccess x0 s
  | .domainRequest x0 => Sys2Proof.Machine.execDomainRequest x0 s
  | .replayEventDelivery x0 => Sys2Proof.Machine.execReplayEventDelivery x0 s
  | .resume x0 x1 => Sys2Proof.Machine.execResume x0 x1 s
  | .killWrite x0 x1 => Sys2Proof.Machine.execKillWrite x0 x1 s
  | .trqBaseWrite x0 x1 => Sys2Proof.Machine.execTrqBaseWrite x0 x1 s
  | .hangBaseWrite x0 x1 => Sys2Proof.Machine.execHangBaseWrite x0 x1 s
  | .hptApply x0 x1 => Sys2Proof.Machine.execHptApply x0 x1 s
  | .coreStart x0 x1 => Sys2Proof.Machine.execCoreStart x0 x1 s
  | .coreStop x0 x1 => Sys2Proof.Machine.execCoreStop x0 x1 s
  | .intSend x0 x1 => Sys2Proof.Machine.execIntSend x0 x1 s
  | .measExt x0 x1 => Sys2Proof.Machine.execMeasExt x0 x1 s
  | .holdXfer x0 x1 => Sys2Proof.Machine.execHoldXfer x0 x1 s
  | .holdClear x0 x1 => Sys2Proof.Machine.execHoldClear x0 x1 s
  | .pkgReset x0 x1 => Sys2Proof.Machine.execPkgReset x0 x1 s
  | .entDraw x0 x1 => Sys2Proof.Machine.execEntDraw x0 x1 s
  | .clmapWrite x0 x1 x2 => Sys2Proof.Machine.execClmapWrite x0 x1 x2 s
  | .registerWrite x0 x1 x2 => Sys2Proof.Machine.execRegisterWrite x0 x1 x2 s
  | .getVersion x0 => Sys2Proof.Machine.execGetVersion x0 s
  | .getCapabilities x0 => Sys2Proof.Machine.execGetCapabilities x0 s
  | .negotiateAlgorithms x0 => Sys2Proof.Machine.execNegotiateAlgorithms x0 s
  | .getDigests x0 => Sys2Proof.Machine.execGetDigests x0 s
  | .getCertificate x0 => Sys2Proof.Machine.execGetCertificate x0 s
  | .challenge x0 => Sys2Proof.Machine.execChallenge x0 s
  | .getMeasurements x0 => Sys2Proof.Machine.execGetMeasurements x0 s
  | .keyExchange x0 => Sys2Proof.Machine.execKeyExchange x0 s
  | .finish x0 => Sys2Proof.Machine.execFinish x0 s
  | .endSession x0 => Sys2Proof.Machine.execEndSession x0 s
  | .heartbeat x0 => Sys2Proof.Machine.execHeartbeat x0 s
  | .spdmUnsupportedRequest x0 => Sys2Proof.Machine.execSpdmUnsupportedRequest x0 s
  | .brd x0 x1 x2 x3 x4 => Sys2Proof.Machine.execBrd x0 x1 x2 x3 x4 s
  | .bwr x0 x1 x2 x3 x4 => Sys2Proof.Machine.execBwr x0 x1 x2 x3 x4 s
  | .rpush x0 x1 x2 x3 x4 => Sys2Proof.Machine.execRpush x0 x1 x2 x3 x4 s
  | .rpop x0 x1 x2 x3 x4 => Sys2Proof.Machine.execRpop x0 x1 x2 x3 x4 s
  | .swar x0 x1 x2 x3 x4 => Sys2Proof.Machine.execSwar x0 x1 x2 x3 x4 s
  | .lostLink x0 => Sys2Proof.Machine.execLostLink x0 s
  | .packageJoinsDomain x0 => Sys2Proof.Machine.execPackageJoinsDomain x0 s
  | .heartbeatLoss x0 => Sys2Proof.Machine.execHeartbeatLoss x0 s

end Sys2Proof.Machine
end

