-- ==== Sys2Proof/Machine/Sched.lean ====
section
/-!
DEFINITION. What a step is made of (log 1): time passing, the events that may happen, an agent's turn
with its fetch, and a word placed where the next fetch finds it.
-/

namespace Sys2Proof.Machine

/-! ## Time (R12, R13, log 2) -/

/-- TB after d nanoseconds. A package that has joined a domain lets its rate differ by one count in a
thousand until it has the domain's value (R13); `slew` is the time since the last count so gained or lost. An offset
beyond 1,000 counts cannot be made good within 1 ms at that rate: the rate stands, and the time is longer (DEDUCED,
log 96). -/
def tbAfter (tb d slew : Nat) : Option Nat → Nat × Option Nat
  | none => (tb + d, none)
  | some v =>
    let v' := v + d
    let t := tb + d
    let step := (slew + d) / 1000
    let t' := if t < v' then Nat.min v' (t + step) else Nat.max v' (t - step)
    if t' = v' then (t', none) else (t', some v')

/-- The occupied slots of a context's FIRE inputs in d cycles, added to its count (R309). -/
def Ctx.watch (c : Ctx) (d : Nat) : Ctx :=
  if c.bank then c
  else { c with occ := c.occ + d * ((c.fireIns.map (fun i => (c.hop (4 + i)).q.length)).foldl (· + ·) 0) }

/-- d fabric cycles pass for the arbiters. -/
def Mach.watch (m : Mach) (d : Nat) : Mach :=
  { m with clusters := m.clusters.map (fun k => (k.1, { k.2 with ctxs := k.2.ctxs.map (fun e => (e.1, e.2.watch d)) })) }

/-- A window of 1,024 cycles ends for the arbiters of a cluster: the weights of the last one stand, the count of
this one will give the next (R309). -/
def Cluster.endWindow (k : Cluster) : Cluster :=
  { k with
    ctxs := k.ctxs.map (fun e =>
      if e.2.bank then e
      else
        let tile := reweighted ((k.ctxs.filter (fun o => o.1 / 4 == e.1 / 4)))
        (e.1, { e.2 with
          weight := ((tile.find? (fun o => o.1 == e.1)).map (·.2.weight)).getD e.2.weight
          due := some e.2.occ
          occ := 0 })) }

/-- d fabric cycles pass for the arbiters from cycle c on, through the ends of windows; `fuel` bounds these. -/
def Mach.cycles : Nat → Nat → Nat → Mach → Mach
  | 0, _, d, m => m.watch d
  | fuel + 1, c, d, m =>
    let left := 1024 - c % 1024
    if d < left then m.watch d
    else
      let u := m.watch left
      Mach.cycles fuel (c + left) (d - left) { u with clusters := u.clusters.map (fun k => (k.1, k.2.endWindow)) }

/-- Time passes by one step. -/
def Mach.tick (m : Mach) : Mach :=
  let (tb, join) := tbAfter m.tb m.pace m.slew m.joinTb
  { Mach.cycles (m.cycPace / 1024 + 1) m.cyc m.cycPace (m.holdTimers m.pace) with
    tb := tb, joinTb := join, slew := (m.slew + m.pace) % 1000, cyc := m.cyc + m.cycPace, free := m.free + 1,
    turn := m.turn + 1 }

/-- A state one step of time later. -/
def State.tick (s : State) : State := { s with m := s.m.tick }

/-! ## Events that may happen -/

/-- An instruction of the table that no control word encodes. -/
def isEvent (i : Instr) : Bool := (encode i).isNone

/-- Pieces of a thread's outstanding words that may be performed. -/
def pendEvents (k : Nat) (t : Thread) (p : Pend) : List Instr :=
  let ok := (List.range p.pieces.length).filter (fun i => t.mayPerform p i)
  match p.op with
  | .load _ => ok.map (fun i => .loadReply k p.id i)
  | .store => ok.map (fun i => .storePerformed k p.id i)
  | .cadd _ => if t.mayPerform p 0 then [.counterAddAtHome k p.id] else []
  | .amo _ _ _ | .cas _ _ _ | .red _ _ _ => if t.mayPerform p 0 then [.atomicAtHome k p.id] else []
  | _ => []

/-- The command that a core waits for goes on. -/
def rctlEvents (k : Nat) (t : Thread) : List Instr :=
  match t.rctl with
  | none => []
  | some (_, v, _, _) => match bits v.toNat 0 4 with
    | 1 => [.freeze k]
    | 2 => [.thaw k]
    | 3 => [.save k]
    | 4 => [.move k]
    | 5 => [.release k]
    | 6 => [.pause k]
    | 7 => [.contin k]
    | 8 => [.evict k]
    | _ => []

/-- Events of control agents: left to itself, an agent performs its oldest access that may be performed
(log 1). -/
def Mach.agentEvents (m : Mach) : List Instr :=
  m.thr.flatMap (fun e =>
    (e.2.pend.flatMap (pendEvents e.1 e.2)).take 1 ++ rctlEvents e.1 e.2
      ++ (match e.2.run with
        | .parked _ _ _ _ none _ => if m.hold.phase < 2 then [.trapRecordWrite e.1] else []
        | _ => []))

/-- Events of engine jobs, trap queues and translation caches. -/
def Mach.deviceEvents (m : Mach) : List Instr :=
  m.jobs.flatMap (fun e => if e.2.fail.isSome then [.jobFail e.1] else if m.jobReady e.2 then [.jobComplete e.1] else [])
    ++ m.parts.flatMap (fun e => if e.2.jobRecs.isEmpty || 2 ≤ m.hold.phase then [] else [.jobRecordWrite e.1])
    ++ m.tlbis.flatMap (fun e => e.2.noted.map (fun c => .tlbiAck e.1 c.1))
    ++ m.scans.map (fun e => if m.wanted e.1 then .scanAbort e.1 else .scanCompare e.1 true)
    ++ m.brgWait.map (fun b => .bridgeDetour b)

/-- Events of the package: the hold-up sequence. -/
def Mach.packageEvents (m : Mach) : List Instr :=
  match m.hold.phase with
  | 1 => [.holdupTrap]
  | 2 => if m.hold.tb + 500000 ≤ m.tb then [.holdupCut] else []
  | 3 => [.holdupWriteEnd ⟨m.hold.res, 0⟩]
  | _ => []

/-- Events of loads. -/
def Mach.loadEvents (m : Mach) : List Instr :=
  (List.range 8).flatMap (fun d => if (m.nextLoadOf d).isSome then [.loadAccept d] else [])
    ++ m.loads.flatMap (fun e =>
      (match m.openLoad e.1 with
        | some (d, _, r) =>
          let left := r.extent.cells.filter (fun c => !d.staged.contains (8 * (c.2 + r.y0) + c.1 + r.x0))
          if left.isEmpty then [.configCommit e.1] else left.map (fun c => .loadStageAtTile e.1 (c.1 + r.x0) (c.2 + r.y0))
        | none => [])
      ++ (match e.2.report, e.2.fault with
        | .creq _ _ _ _, some _ => [.creqComplete e.1]
        | _, _ => []))

/-- Events of a port. -/
def portEvents (l r p : Nat) (q : Port) : List Instr :=
  (if q.stream.isSome then [.sourcePortInject l r p] else [])
    ++ (q.attempts.filter (·.waiting)).map (fun a => .itemReinject l r p a.item)
    ++ (if q.takes.isEmpty then [] else [.takeToken l r p])
    ++ (if q.drains.isEmpty then [] else [.drainComplete l r p])

/-- A token waits at an input. -/
def Ctx.waiting (c : Ctx) : Bool := c.hops.any (fun h => 4 ≤ h.1 && !h.2.q.isEmpty)

/-- Events of the requests of an AG tile's context. -/
def reqEvents (m : Mach) (r : Region) (x y n : Nat) (c : Ctx) : List Instr :=
  (List.range c.reqs.length).flatMap (fun k => match c.reqs[k]? with
    | some q =>
      if q.ended || !c.issued r k q then []
      else if q.tb + Config.memoryTimeout ≤ m.tb then
        [.memoryReplyTimeout r.cluster x y n k, .memoryReply r.cluster x y n ⟨k, []⟩]
      else [.memoryReply r.cluster x y n ⟨k, []⟩]
    | none => [])

/-- Events of the operations of a bank tile's context. -/
def bankEvents (g x y n : Nat) (c : Ctx) : List Instr :=
  (List.range c.stages.length).flatMap (fun q =>
    match bits (nth c.stages q 0) 24 8 with
    | 0xA0 => if c.waiting then [.brd g x y n (q + 1)] else []
    | 0xA1 => if c.waiting then [.bwr g x y n (q + 1)] else []
    | 0xA2 => if c.waiting then [.rpush g x y n (q + 1)] else []
    | 0xA3 => if c.rings.any (fun r => (r.slot r.head).tag == 2) then [.rpop g x y n (q + 1)] else []
    | 0xA4 => if c.waiting then [.swar g x y n (q + 1)] else []
    | _ => [])

/-- Events of a pipeline tile's context. -/
def fireEvents (g x y n : Nat) (c : Ctx) : List Instr :=
  if c.waiting || c.looping || !c.entry.isEmpty || !c.held.isEmpty || c.creq.isSome then
    [.tileFiring g x y n, .nonDataTokenFiring g x y n]
  else []

/-- Movements of the tokens and anti-tokens of a context. -/
def moveEvents (g x y n : Nat) (c : Ctx) : List Instr :=
  List.flatten
    [((List.range 4).filter (fun h => !(c.hop h).q.isEmpty)).map (fun h => .tokenHop g x y n h),
     ((List.range 8).filter (fun h => !(c.hop h).anti.isEmpty)).map (fun h => .antiTokenHop g x y n h),
     if c.skid.any (fun e => e.source == 4) then [.tokenHop g x y n 4] else [],
     if c.skid.any (fun e => e.source == 5) then [.tokenHop g x y n 5] else [],
     if c.reqs.isEmpty then [] else [.tokenHop g x y n 6]]

/-- Events of a tile's context. -/
def ctxEvents (m : Mach) (r : Region) (key : Nat) (c : Ctx) : List Instr :=
  let g := r.cluster
  let x := keyX key
  let y := keyY key
  let n := keyC key
  List.flatten [moveEvents g x y n c, reqEvents m r x y n c, if c.bank then bankEvents g x y n c else fireEvents g x y n c]

/-- What is inside bridges on held hops comes out at their far ends (R374). -/
def Mach.crossEvents (m : Mach) (l : Nat) : List Instr :=
  (m.crossings.filter (fun e => e.launch == l)).flatMap (fun e => match e.anti, m.heldLink e.g e.x e.y e.c e.side with
    | none, _ => [.tokenHop e.g e.x e.y e.c e.side]
    | some _, some k => k.dests.map (fun d => .antiTokenHop k.h k.nx k.ny k.c d)
    | some _, none => [])

/-- Events of an engine. -/
def engineEvents (g e : Nat) (x : Engine) : List Instr :=
  if x.busy then [.mxPairEnd g e]
  else [.mxPairStart g e, .mxGroupItem g ⟨e, 0⟩, .mxGroupItem g ⟨e, 1⟩, .mxNonDataSlot g e]
    ++ (if x.drainState = 1 then [.mxConversionEnd g e] else if x.drainState = 2 then [.mxDeferredPush g e] else [])

/-- Events of a region that is not empty. -/
def Mach.regionEvents (m : Mach) (l k : Nat) (r : Region) : List Instr :=
  let p : Where := { l := l, r := k }
  (if r.state = 2 && r.quiet then [.freezeQuiescent l k] else [])
    ++ (if r.state = 1 then [.hangDeclared l k] else [])
    ++ (if r.block.isSome then [.blockSchedule l k] else [])
    ++ r.ports.flatMap (fun e => portEvents l k e.1 e.2)
    ++ (if r.state = 0 then [] else (m.ctxsOf r).flatMap (fun e => ctxEvents m r e.1 e.2))
    ++ (m.enginesOf p r).flatMap (fun e => engineEvents r.cluster e.1 e.2)

/-- Events of launches. -/
def Mach.launchEvents (m : Mach) : List Instr :=
  m.launches.flatMap (fun e =>
    (if e.2.waits || e.2.placing then [.launchPlacement e.1] else [])
      ++ (if e.2.waits && e.2.prio < 4 then [.preemptRequest e.1] else [])
      ++ (if e.2.prio = 4 && e.2.state = 1 then [.ballastPreempt e.1] else [])
      ++ m.crossEvents e.1
      ++ (if e.2.holds then (List.range e.2.regions.length).flatMap (fun k => match e.2.regions[k]? with
          | some r => m.regionEvents e.1 k r
          | none => []) else []))

/-- The arbiters whose window has passed (R309). -/
def Mach.arbiterEvents (m : Mach) : List Instr :=
  m.clusters.flatMap (fun k => ((k.2.ctxs.filter (fun e => !e.2.bank)).map (fun e => e.1 / 4)).eraseDups.flatMap (fun n =>
    if m.reweighs k.1 (n % 8) (n / 8) then [.contextReweight k.1 (n % 8) (n / 8) (m.occOf k.1 (n % 8) (n / 8))] else []))

/-- Events that the machine itself may bring about; what comes from outside, or what the spec leaves to
chance, stands in the agenda. One whose time has not come changes nothing (log 10). -/
def Mach.events (m : Mach) : List Instr :=
  m.agentEvents ++ m.deviceEvents ++ m.packageEvents ++ m.loadEvents ++ m.launchEvents ++ m.arbiterEvents

/-- One of a list, in turn. -/
def pick {α : Type} (l : List α) (n : Nat) : Option α := l[n % l.length]?

/-! ## Turns -/

/-- An agent may have a turn: it is ready and not held, its launch issues (R329, R316), and a hold-up has
not stopped it (R381); a killed one goes on to its exit (R159). -/
def Mach.mayTurn (m : Mach) (t : Thread) : Bool :=
  !t.held && (t.sys.isSome || m.hold.phase < 2) && (t.run == .dying || (t.run == .ready && (!t.parks.isEmpty || m.mayIssue t)))

/-- What issues one word at a time: a sequencer, by its threads, or a system core (R17). -/
def unitOf (k : Nat) : Nat := if k < 1536 then k / 8 else k

/-- The agents of a unit that may have a turn, in the order of their turns: round-robin from the one after the
last (R17). -/
def Mach.queue (m : Mach) (u : Nat) : List Nat :=
  let l := (m.thr.filter (fun e => unitOf e.1 == u && m.mayTurn e.2)).map (·.1)
  match aget m.lastTurn u with
  | some k => l.filter (k < ·) ++ l.filter (· ≤ k)
  | none => l

/-- An agent has given up its next turn (R144). -/
def Mach.gaveUp (m : Mach) (k : Nat) : Bool := ((aget m.thr k).map (·.yielded)).getD false

/-- The agents that a unit tries in turn: those that have not given up their turn, then the others (R17, R144). -/
def Mach.order (m : Mach) (u : Nat) : List Nat :=
  (m.queue u).filter (fun k => !m.gaveUp k) ++ (m.queue u).filter m.gaveUp

/-- The agent that a unit issues from next, where it can: the first that has not given up its turn, or the first
where all have (R17, R144). -/
def Mach.next (m : Mach) (u : Nat) : Option Nat := (m.order u).head?

/-- The agents of a unit that gave up their turn and stand before agent k in it. -/
def Mach.skipped (m : Mach) (k : Nat) : List Nat := ((m.queue (unitOf k)).takeWhile (· != k)).filter m.gaveUp

/-- Agent k has taken its unit's turn; the turns given up before it are spent. -/
def Mach.took (m : Mach) (k : Nat) (spent : List Nat) : Mach :=
  { m with
    lastTurn := aset m.lastTurn (unitOf k) k
    thr := m.thr.map (fun e => (e.1, if spent.contains e.1 then { e.2 with yielded := false } else e.2)) }

/-- The units that have a turn to give. -/
def Mach.units (m : Mach) : List Nat := ((m.thr.filter (fun e => m.mayTurn e.2)).map (fun e => unitOf e.1)).eraseDups

/-- What a fetch gives (R345, R363). -/
inductive Fetched where
  | word (w : IWord)
  | bad (cause : Nat)
  /-- The word, or a table of its walk, lies behind a failed bridge whose detour is not yet in place (R374). -/
  | wait
  deriving DecidableEq, Repr

/-- The fetch of agent k's next word, and the state that it leaves: its cache filled, and what passed a port
logged. -/
def State.fetch (s : State) (k : Nat) (t : Thread) : Fetched × State :=
  match s.work.translate (agentCache k) (s.m.transOf k t) t.pc.toNat .fetch with
  | (.error .wait, v) => (.wait, s.kept v)
  | (.error f, v) => (.bad (xcause .fetch f), s.commit v)
  | (.ok (key, _), v) => match v.m.way (agentDie k) key with
    | .wait => (.wait, s.kept v)
    | .lost => (.bad 0x11, s.commit v)
    | .go =>
      let w := v.portNow key 4 true
      (if w.poisoned key 4 then .bad 0x11 else .word (BitVec.ofNat 32 (w.read key 4)), s.commit w)

/-- The instruction of a word: one that the tables do not allocate is illegal (R81). -/
def instrOf (w : IWord) : Instr :=
  match decodeWord w with
  | .ok i => i
  | .error _ => .unallocatedWord w

/-- A fetch that fails traps (R345, R363); at S's vector it is taken at H with cause 0x05, and at H's
vector the core halts (R160). -/
def State.fetchTrap (s : State) (k : Nat) (t : Thread) (cause : Nat) : State :=
  match t.sys with
  | some c =>
    if !c.atVector then s.putThr k (t.trap cause t.pc t.pc s.m.tb)
    else if c.h then { s with m := (s.putThr k { t with run := .halted }).m.runBit (k - 1536) false }
    else s.putThr k (t.enter c true 0x05 t.pc t.pc)
  | none => s.putThr k (t.trap cause t.pc t.pc s.m.tb)

/-- The next fetch is no longer a vector's. -/
def Thread.fetched (t : Thread) : Thread := { t with yielded := false, sys := t.sys.map (fun c => { c with atVector := false }) }

/-- A killed agent ends: a core that was stopped halts, a thread exits (R159, R339). -/
def State.die (s : State) (k : Nat) (t : Thread) : Host.Outcome State Fault Refusal :=
  if t.sys.isSome then .next { s with m := (s.putThr k { t with run := .halted }).m.runBit (k - 1536) false }
  else exec .exit s

/-- Agent k's turn: it parks if it is asked to (R411), or it fetches, decodes and executes one word. -/
def State.turn (s : State) (k : Nat) : Host.Outcome State Fault Refusal :=
  match aget s.m.thr k with
  | none => .next s
  | some t =>
    let u := { s with m := { s.m with cur := k } }
    if !s.m.mayTurn t then .next s
    else if t.run = .dying then u.die k t
    else if !t.parks.isEmpty && t.dumping.isNone then exec (.threadPark k) u
    else if t.waits.any (·.met) then .next (u.putThr k { t.passWait with yielded := false })
    else match u.fetch k t with
      | (.wait, v) => .next v
      | (.bad cause, v) => .next (v.fetchTrap k t cause)
      | (.word w, v) => exec (instrOf w) (v.putThr k t.fetched)

/-- A branch, which may leave its agent as it stands. -/
def branches : Instr → Bool
  | .b _ | .bl _ | .bc _ _ _ | .jr _ _ => true
  | _ => false

/-- Agent k would fetch a branch. -/
def State.atBranch (s : State) (k : Nat) : Bool :=
  match aget s.m.thr k with
  | some t => match s.fetch k t with
    | (.word w, _) => branches (instrOf w)
    | _ => false
  | none => false

/-- A turn of agent k that leads to v leaves it where it waits: at an interlock, a slot, a waiting instruction,
or a failed bridge. -/
def State.stands (s : State) (k : Nat) (v : State) : Bool :=
  let t := aget s.m.thr k
  let u := aget v.m.thr k
  (u == t || u == t.map Thread.fetched) && !s.atBranch k

/-- A turn of agent k would leave it where it waits. -/
def State.stalls (s : State) (k : Nat) : Bool :=
  match s.turn k with
  | .next v => s.stands k v
  | _ => false

/-- Agent k's turn in its unit's order: one that waits where it is takes no issue slot, so the order goes on
from the last that issued (R17). -/
def State.issue (s : State) (k : Nat) : Host.Outcome State Fault Refusal :=
  match s.turn k with
  | .next v => .next (if s.stands k v then v else { v with m := v.m.took k (s.m.skipped k) })
  | o => o

/-- A unit's turn: its agents issue in round-robin order, each time the next that does not wait (R17). Where
all wait, one of them does what its waiting does. -/
def State.unitTurn (s : State) (u : Nat) : Host.Outcome State Fault Refusal :=
  match s.m.order u with
  | [] => .next s
  | [k] => s.issue k
  | k :: l => s.issue (((k :: l).find? (fun j => !s.stalls j)).getD k)

/-- What happens when the agenda says nothing: by turns an event of the machine's own and a turn of a
unit (log 1). -/
def State.free (s : State) : Host.Outcome State Fault Refusal :=
  let n := s.m.turn / 2
  let agent := match pick s.m.units n with
    | some u => s.unitTurn u
    | none => .next s
  if s.m.turn % 2 = 0 then agent
  else match pick s.m.events n with
    | some i => exec i s
    | none => agent

/-- What arrives at the ports of the package: record mode logs it (R394). -/
def arrives : Instr → Bool
  | .hostAccess _ | .domainRequest _ | .packageJoinsDomain _ | .lostLink _ | .heartbeatLoss _ | .getVersion _
  | .getCapabilities _ | .negotiateAlgorithms _ | .getDigests _ | .getCertificate _ | .challenge _ | .getMeasurements _
  | .keyExchange _ | .finish _ | .endSession _ | .heartbeat _ | .spdmUnsupportedRequest _ => true
  | _ => false

/-- A run of record mode or replay goes on: the package runs deterministically (R394). -/
def Mach.scripted (m : Mach) : Bool := m.record.mode != 0 && !m.record.ended

/-- The agenda may bring an event. In a run of record mode or replay it settles no order among what the machine does
itself, and what comes from outside is what the log holds, in record mode alone, or what ends the run: loss of
supply, a reset, a temperature that starts a hold-up. Readings and faults that the log does not hold come in
neither mode, for every state that programs can read is to be the same in both (R395; DEDUCED, log 156). -/
def State.mayTake (s : State) (i : Instr) : Bool :=
  !s.m.scripted || (s.m.record.mode == 1 && arrives i) || match i with
    | .supplyLoss | .packageReset _ => true
    | .sensorSample _ => match exec i s with
      | .next v => v.m.record.ended
      | _ => false
    | _ => false

/-- The agenda's next entry done, or the machine left to itself. -/
def State.chosen (s : State) : Host.Outcome State Fault Refusal :=
  let rest := fun (l : List Act) => { s with m := { s.m with agenda := l } }
  match s.m.agenda with
  | [] => s.free
  | .wait 0 :: l => (rest l).free
  | .wait (n + 1) :: l => (rest (.wait n :: l)).free
  | .turn k :: l => if s.m.scripted then (rest l).free else (rest l).unitTurn (unitOf k)
  | .ev i :: l => if isEvent i && s.mayTake i then exec i (rest l) else (rest l).free

/-- What a step does: in replay a logged event whose time has come is delivered before anything else (R395). -/
def State.act (s : State) : Host.Outcome State Fault Refusal :=
  if s.work.replayDue then exec (.replayEventDelivery true) s else s.chosen

/-! ## A word placed for the next fetch -/

/-- Tables of four levels at 0x1000 that map the page of a VA to 0x5000, readable and executable; and a
word in that page. -/
def placeWord (w : Work) (pc : Nat) (word nbytes : Nat) : Work :=
  let w1 := w.write (0x1000 + 8 * bits pc 39 9) 8 0x2001
  let w2 := w1.write (0x2000 + 8 * bits pc 30 9) 8 0x3001
  let w3 := w2.write (0x3000 + 8 * bits pc 21 9) 8 0x4001
  let w4 := w3.write (0x4000 + 8 * bits pc 12 9) 8 0x5453
  w4.write (0x5000 + pc % 4096) nbytes word

/-- Core 0 of N fetches a word at its PC on the next step: H.TTB names the tables, its cache holds no
entry, it is ready, at H, and nothing holds it, and the agenda gives it the next turn. -/
def State.placed (s : State) (word : Nat) : State :=
  let t := (aget s.m.thr 1536).getD (Thread.start 0 (some (CoreRegs.start 0)))
  let c := t.sys.getD (CoreRegs.start 0)
  let u : Thread := { t with run := .ready, parks := [], pend := [], sys := some { c with h := true, httb := 0x1000 } }
  let v := s.commit (placeWord s.work t.pc.toNat word 4)
  { v with m := { v.m with
    thr := aset v.m.thr 1536 u, tlbs := aerase v.m.tlbs (agentCache 1536), agenda := .turn 1536 :: v.m.agenda,
    record := { v.m.record with mode := 0 } } }

end Sys2Proof.Machine
end

