-- ==== Sys2Proof/Machine/Step.lean ====
section
/-!
DEFINITION. One step of the machine: time passes, and one thing happens.
-/

namespace Sys2Proof.Machine

/-- One step (log 1). -/
def step (s : State) : Host.Outcome State Fault Refusal := s.tick.act

/-- A state whose next step fetches the word w (log 29). -/
def State.withFetchWord (s : State) (_nbits w : Nat) : State := s.placed w

end Sys2Proof.Machine
end

