-- ==== Sys2Proof/Safety.lean ====
section
/-!
DEFINITION. What counts as a safe run, and when a control word issues, in the terms claims use.
-/

namespace Sys2Proof.Safety

open Sys2Proof.Machine

/-- The memory keeps its canonical form (Memory.wf). -/
def memOk (s : State) : Prop := s.mem.wf

/-- The words that only read and write registers (majors 0x00 to 0x15): the general register and the
condition register each writes. -/
def registerWord : Instr → Option (Option Reg × Option CReg)
  | .add d _ _ | .sub d _ _ | .and d _ _ | .or d _ _ | .xor d _ _ | .andn d _ _ | .shl d _ _ | .shr d _ _
  | .shra d _ _ | .min d _ _ | .max d _ _ | .minu d _ _ | .maxu d _ _ | .mul d _ _ | .mulh d _ _
  | .mulhu d _ _ | .div d _ _ | .divu d _ _ | .rem d _ _ | .remu d _ _ => some (some d, none)
  | .lea d _ _ _ | .csel d _ _ _ => some (some d, none)
  | .clz d _ | .popc d _ | .brev d _ => some (some d, none)
  | .sext d _ _ | .zext d _ _ => some (some d, none)
  | .cmp c _ _ _ => some (none, some c)
  | .clog n _ _ _ => some (none, some n)
  | .addi d _ _ | .andi d _ _ | .ori d _ _ | .xori d _ _ => some (some d, none)
  | .shli d _ _ | .shri d _ _ | .shrai d _ _ => some (some d, none)
  | .cmpi c _ _ _ => some (none, some c)
  | .movi d _ => some (some d, none)
  | .movk d _ _ => some (some d, none)
  | .bc _ _ _ | .b _ | .loopImm _ _ | .loopReg _ _ | .lbrk => some (none, none)
  | .bl _ => some (some 31, none)
  | .jr d _ => some (some d, none)
  | _ => none

end Sys2Proof.Safety

namespace Sys2Proof.Machine

/-- A word that only reads and writes registers issues: its agent is there, and no register it names is
awaited or poisoned (R37, R105). -/
structure State.Ready (s : State) (t : Thread) (rs ws : List Reg) : Prop where
  agent : s.me = some t
  goes : t.issue rs ws = .go

/-- The acting agent becomes u, and nothing else changes. -/
abbrev State.withMe (s : State) (u : Thread) : State := s.putThr s.m.cur u

/-- g[d] := v in agent t's registers, t passes to its next word, and nothing else changes. -/
abbrev State.gets (s : State) (t : Thread) (d : Reg) (v : Word) : State := s.withMe (t.setG d v).advance

/-- c[k] := v in agent t's condition registers, t passes to its next word, and nothing else changes. -/
abbrev State.getsC (s : State) (t : Thread) (k : CReg) (v : Bool) : State := s.withMe (t.setC k v).advance

/-- Agent t takes a trap with a cause and a TRAP.VAL at its own word, and nothing else changes (R159). -/
abbrev State.traps (s : State) (t : Thread) (cause : Nat) (val : Word) : State :=
  s.withMe (t.trap cause t.pc val s.m.tb)

/-- A control word issues: its agent is there and may execute it, the word is well formed, its slots are free, no
slot it waits on is poisoned, no register it names is awaited or poisoned (R82, R106, R37, R105). -/
structure State.Issues (s : State) (t : Thread) (i : Instr) (rs ws : List Reg) (set wait : BitVec 3) : Prop where
  agent : s.me = some t
  wellFormed : i.wf = true
  allowed : t.refuses i = none
  setFree : t.busy set = false
  waitFree : t.busy wait = false
  slotSound : t.slotPoisoned wait.toNat = none
  goes : t.issue rs ws = .go

/-- An access at a key performs with no part in record mode's log: recording and replay are off, or no port stands
before its memory (R394, R395). -/
def State.FreePort (s : State) (key : Nat) : Prop := s.m.record.mode = 0 ∨ portOf key = none

/-- The bytes that what passes a port may write: in record mode those of the log's buffer, in replay those of
memory behind the ports, which arrive from the log (R394, R395). -/
def Mach.portTakes (m : Mach) (a : Nat) : Prop :=
  (m.record.mode = 1 ∧ m.record.base.toNat ≤ a ∧ a < m.record.base.toNat + m.record.len.toNat) ∨
  (m.record.mode = 2 ∧ 0x100000000000 ≤ a ∧ a < 2 ^ 60)

/-- Every byte outside the n bytes from lo reads as before, and is as sound as before; but for what a table
walked or a block read behind a port leaves in record mode and replay (R394, R395). -/
def State.Keeps (s s' : State) (lo n : Nat) : Prop :=
  s.mem.wf → ∀ a, (a < lo ∨ lo + n ≤ a) → ¬ s.m.portTakes a →
    s'.mem.read a = s.mem.read a ∧ (a ∈ s'.bad ↔ a ∈ s.bad)

/-- None of n bytes at a key holds reserved bits of a sync word, which ignore writes (R116). -/
def State.Plain (s : State) (key n : Nat) : Prop := ∀ a, key ≤ a → a < key + n → s.m.syncReserves a = false

/-- The acting agent has its way to a key: no failed bridge bars it (R374). -/
def State.Reaches (s : State) (key : Nat) : Prop := s.m.way (agentDie s.m.cur) key = .go

/-- Nothing waits for a detour round a failed bridge, and no cut of a hold-up has come (R374, R381). -/
def State.NoDetour (s : State) : Prop := s.m.brgWait = [] ∧ s.m.hold.phase ≠ 3

/-- A sequencer thread of a launch and the region of that launch it is bound to (R132). -/
structure State.Bound (s : State) (t : Thread) (l : Launch) (r : Region) : Prop where
  user : t.sys = none
  launch : s.m.launch? t.launch = some l
  region : l.regions[t.region]? = some r

/-- The outstanding word with number p of agent k ends between two states: it is no longer outstanding,
its destination holds v, and no other register of the agent changes (R131). -/
def State.Ends (s s' : State) (k p : Nat) (v : Word) : Prop :=
  ∀ t q, aget s.m.thr k = some t → t.pend.find? (fun e => e.id == p) = some q →
    ∃ u, aget s'.m.thr k = some u ∧ u.pend = t.pend.filter (fun e => e.id != p) ∧
      (∀ y : Reg, q.dest = some y → y ≠ 0 → u.g y = v) ∧ ∀ y : Reg, q.dest ≠ some y → u.g y = t.g y

/-- A token enters buffer d of a context at its tail (R262, R264, R265, R406): no discard mark and no
anti-token stands there, the input drops no stale item, and the buffer is of the token's network. -/
def Ctx.Opens (k : Ctx) (d : Nat) (t : Tok) : Prop :=
  (k.hop d).marks = [] ∧ (k.hop d).anti = [] ∧ k.stale d = false ∧ k.netOf d = t.net

end Sys2Proof.Machine
end

