-- ==== Sys2Proof/Values.lean ====
section
/-!
DEFINITION. What element words and matrix engines compute, said of the numbers that codes stand for: which number a
code is, which code a number rounds to, and which element of a result follows from which elements of the operands.
Claims about values are stated in these terms; no meaning of the machine uses them.
-/

namespace Sys2Proof.Machine

/-! ## Integers (R162 to R164) -/

/-- Element n of w bits of a token (R163). -/
def el (w n : Nat) (v : Wide) : Nat := v.toNat / 2 ^ (w * n) % 2 ^ w

/-- The integer that a code of w bits stands for (R162). -/
def intVal (signed : Bool) (w code : Nat) : Int :=
  if signed = true ∧ 2 ^ (w - 1) ≤ code then (code : Int) - 2 ^ w else code

/-- An exact integer lies outside a type's range (R164). -/
def Outside (signed : Bool) (w : Nat) (z : Int) : Prop := z < intMin signed w ∨ intMax signed w < z

/-- A code is that of an exact integer brought into a type: kept modulo 2^w, or clamped (R164). -/
def Fits (signed : Bool) (w : Nat) (sat : Bool) (z : Int) (code : Nat) : Prop :=
  (code : Int) = (if sat then max (intMin signed w) (min (intMax signed w) z) else z) % 2 ^ w

/-! ## The numbers of floating and D8 codes (R162, R165 to R169) -/

/-- The magnitude of a binary code without its sign, as though no exponent were the largest (R165). -/
def NumFmt.mag (f : NumFmt) (c : Nat) : ℚ :=
  let unit : ℤ := 2 - 2 ^ (f.eb - 1) - f.fb
  if c < 2 ^ f.fb then c * 2 ^ unit
  else ((c % 2 ^ f.fb + 2 ^ f.fb : Nat) : ℚ) * 2 ^ (unit + (c / 2 ^ f.fb - 1 : Nat))

/-- The magnitude of a finite D8 code m from 2 to 127: the table of R168, by the marker. -/
def d8Rat (m : Nat) : ℚ :=
  let of := fun (w : Nat) (es : List ℤ) =>
    (1 + 9 * (m % 2 ^ w : Nat) / 2 ^ w : ℚ) * 10 ^ (es.getD ((m - 2 ^ m.log2) / 2 ^ w) 0)
  match m.log2 with
  | 6 => of 5 [-1, 0]
  | 5 => of 3 [-3, -2, 1, 2]
  | 4 => of 1 [-7, -6, -5, -4, 3, 4, 5, 6]
  | 3 => of 0 [-11, -10, -9, -8, 7, 8, 9, 10]
  | 2 => of 0 [-13, -12, 11, 12]
  | _ => of 0 [-14, 13]

/-- A finite magnitude of D8, 0 among them. -/
def d8Z (m : Nat) : ℚ := if m = 0 then 0 else d8Rat m

/-- A finite magnitude code of D8. -/
def D8Code (m : Nat) : Prop := m < 128 ∧ m ≠ 1

/-- A value is a number, with a sign and a magnitude. -/
def FV.Is (v : FV) (s : Bool) (q : ℚ) : Prop := ∃ n d, v = .num s n d ∧ d ≠ 0 ∧ (n / d : ℚ) = q

/-- A value is the number q, its sign z where q is 0. -/
def FV.Exactly (v : FV) (q : ℚ) (z : Bool) : Prop := v.Is (if q = 0 then z else decide (q < 0)) |q|

/-- The number that a value is, of its sign. -/
def FV.rat : FV → ℚ
  | .num s n d => if s then -(n / d) else n / d
  | _ => 0

/-- The sign of a number. -/
def FV.sgn : FV → Bool
  | .num s _ _ => s
  | _ => false

/-- A value is that of a code of a format; under flush, which is NBV 2, a subnormal is zero (R165, R168, R181). -/
def Stands (f : NumFmt) (flush : Bool) (code : Nat) (v : FV) : Prop :=
  let c := code % 2 ^ (f.width - 1)
  let s := bitAt code (f.width - 1)
  if f = .d8 then
    if c = 0 then (if s then v = .nan else v.Is false 0)
    else if c = 1 then v = .inf s
    else v.Is s (d8Rat c)
  else if maxCode f + 1 < c then v = .nan
  else if c = maxCode f + 1 then v = .inf s
  else v.Is s (if flush = true ∧ c < 2 ^ f.fb then 0 else f.mag c)

/-! ## Rounding (R170 to R173) -/

/-- A direction of rounding goes away from zero for a sign. -/
def away (rnd : Nat) (s : Bool) : Bool := rnd == 2 && s || rnd == 3 && !s

/-- Code c is magnitude q rounded, by a format's neighbours: to nearest with a tie to the even code, away from zero,
or toward it (R172). -/
def NumFmt.Near (f : NumFmt) (rnd : Nat) (s : Bool) (q : ℚ) (c : Nat) : Prop :=
  (rnd = 0 → (0 < c → f.mag (c - 1) + f.mag c ≤ 2 * q ∧ (c % 2 = 1 → f.mag (c - 1) + f.mag c < 2 * q)) ∧
    2 * q ≤ f.mag c + f.mag (c + 1) ∧ (c % 2 = 1 → 2 * q < f.mag c + f.mag (c + 1))) ∧
  (away rnd s = true → 0 < c ∧ f.mag (c - 1) < q ∧ q ≤ f.mag c) ∧
  (rnd ≠ 0 → away rnd s = false → f.mag c ≤ q ∧ q < f.mag (c + 1))

/-- Code m is magnitude q converted to D8, where it is not infinite (R170). -/
def D8Near (rnd : Nat) (s : Bool) (q : ℚ) (m : Nat) : Prop :=
  D8Code m ∧
  (rnd = 0 → ∀ k, D8Code k → |q - d8Z m| ≤ |q - d8Z k| ∧ (|q - d8Z m| = |q - d8Z k| → d8Z m ≤ d8Z k)) ∧
  (away rnd s = true → q ≤ d8Z m ∧ ∀ k, D8Code k → q ≤ d8Z k → d8Z m ≤ d8Z k) ∧
  (rnd ≠ 0 → away rnd s = false → d8Z m ≤ q ∧ ∀ k, D8Code k → d8Z k ≤ q → d8Z k ≤ d8Z m)

/-- A code is a value rounded once into a format (R166, R170, R172, R175), a subnormal result written as zero under
flush (R181). -/
def RoundsTo (f : NumFmt) (rnd : Nat) (sat flush : Bool) (v : FV) (code : Nat) : Prop :=
  let inf := fun (s : Bool) => signBit f s + (if f = .d8 then (if sat then 3 else 1) else if sat then maxCode f else maxCode f + 1)
  match v with
  | .nan => code = nanCode f
  | .inf s => code = inf s
  | .num s n d =>
    let q : ℚ := n / d
    if f = .d8 then
      if q = 0 then code = 0
      else if (rnd = 0 ∧ 55 * 10 ^ 12 < q) ∨ (away rnd s = true ∧ 10 ^ 13 < q) then code = inf s
      else ∃ m, D8Near rnd s q m ∧ code = if m = 0 then 0 else signBit f s + m
    else if q = 0 then code = signBit f s
    else ∃ c, f.Near rnd s q c ∧
      ((c ≤ maxCode f → code = signBit f s + if flush = true ∧ c < 2 ^ f.fb then 0 else c) ∧
        (maxCode f < c → (rnd = 0 ∨ away rnd s = true → code = inf s) ∧ (rnd ≠ 0 → away rnd s = false → code = signBit f s + maxCode f)))

/-- An integer is a number rounded (R173). -/
def RoundsInt (rnd : Nat) (q : ℚ) (z : Int) : Prop :=
  (rnd = 0 → |(z : ℚ) - q| ≤ 1 / 2 ∧ (|(z : ℚ) - q| = 1 / 2 → z % 2 = 0)) ∧
  (rnd = 1 → z = if q < 0 then ⌈q⌉ else ⌊q⌋) ∧ (rnd = 2 → z = ⌊q⌋) ∧ (rnd = 3 → z = ⌈q⌉)

/-! ## Exact sums and products (R175, R176, R190) -/

/-- The exact sum of two values, nz the sign of a zero that operands of opposite sign give. -/
def IsSum (nz : Bool) (a b r : FV) : Prop :=
  if a = .nan ∨ b = .nan then r = .nan
  else match a, b with
    | .inf s, .inf u => r = if s = u then .inf s else .nan
    | .inf s, _ => r = .inf s
    | _, .inf s => r = .inf s
    | a, b => r.Exactly (a.rat + b.rat) (if a.sgn = b.sgn then a.sgn else nz)

/-- The exact product of two values. -/
def IsProd (a b r : FV) : Prop :=
  if a = .nan ∨ b = .nan then r = .nan
  else match a, b with
    | .inf s, .inf u => r = .inf (s != u)
    | .inf s, b => if b.rat = 0 then r = .nan else r = .inf (s != b.sgn)
    | a, .inf s => if a.rat = 0 then r = .nan else r = .inf (a.sgn != s)
    | a, b => r.Exactly (a.rat * b.rat) (a.sgn != b.sgn)

/-- The exact sum of many values, z the sign of a zero. -/
def IsTotal (z : Bool) (l : List FV) (r : FV) : Prop :=
  if FV.nan ∈ l ∨ (.inf true ∈ l ∧ .inf false ∈ l) then r = .nan
  else if .inf true ∈ l then r = .inf true
  else if .inf false ∈ l then r = .inf false
  else r.Exactly (l.map FV.rat).sum z

/-- Strictly less: numbers, infinities, no NaN. -/
def FV.Less : FV → FV → Prop
  | .nan, _ => False
  | _, .nan => False
  | .inf s, .inf u => s = true ∧ u = false
  | .inf s, _ => s = true
  | _, .inf u => u = false
  | a, b => a.rat < b.rat

/-- Strictly less with −0 below +0 (R207). -/
def FV.Under (a b : FV) : Prop :=
  a.Less b ∨ (∃ s u, a.Is s 0 ∧ b.Is u 0 ∧ s = true ∧ u = false)

/-! ## Element words (R205 to R221) -/

/-- The integer that element n of a token stands for in a type. -/
def intEl (ty n : Nat) (v : Wide) : Int := intVal (tySigned ty) (tyWidth ty) (el (tyWidth ty) n v)

/-- The value that element n of a token stands for in a floating type. -/
def Val (ty : Nat) (flush : Bool) (n : Nat) (v : Wide) (x : FV) : Prop :=
  Stands (tyFmt ty) flush (el (tyWidth ty) n v) x

/-- Every element of a token in a type. -/
def Each (ty : Nat) (P : Nat → Prop) : Prop := ∀ n, n < 16 * tyCount ty → P n

/-- The elements of a result are those of exact integers, and the lanes named are those where one clamps (R164,
R174). -/
def Brings (ty : Nat) (sat : Bool) (z : Nat → Int) (R : Wide) (F : Nat → Prop) : Prop :=
  Each ty (fun n => Fits (tySigned ty) (tyWidth ty) sat (z n) (el (tyWidth ty) n R)) ∧
  ∀ k, k < 16 → (F k ↔ sat = true ∧ ∃ n, n / tyCount ty = k ∧ Outside (tySigned ty) (tyWidth ty) (z n))

/-- Each element of a result is rounded once from an exact value (R172). -/
def Rounds (ty rnd : Nat) (sat flush : Bool) (r : Nat → FV → Prop) (R : Wide) : Prop :=
  Each ty (fun n => ∃ v, r n v ∧ RoundsTo (tyFmt ty) rnd sat flush v (el (tyWidth ty) n R))

/-- A relation of VCMP by its code: unordered, less, equal (R210). -/
def Relates (rel : Nat) (un lt eq : Prop) : Prop :=
  match rel with
  | 0 => ¬ un ∧ eq
  | 1 => un ∨ ¬ eq
  | 2 => ¬ un ∧ lt
  | 3 => ¬ un ∧ (lt ∨ eq)
  | 4 => ¬ un ∧ ¬ lt ∧ ¬ eq
  | 5 => ¬ un ∧ ¬ lt
  | _ => un

/-- CV of R212 on one code: its result, and whether the lane is flagged (R173, R174). -/
def Cv (src dst rnd : Nat) (sat flush : Bool) (c code : Nat) (flag : Prop) : Prop :=
  let sg := tySigned dst
  let w := tyWidth dst
  if tyFloat src then
    ∃ x, Stands (tyFmt src) flush c x ∧
      if tyFloat dst then RoundsTo (tyFmt dst) rnd sat flush x code ∧ ¬ flag
      else (x = .nan → code = 0 ∧ flag) ∧
        (∀ s, x = .inf s → (code : Int) = (if s then intMin sg w else intMax sg w) % 2 ^ w ∧ flag) ∧
        (∀ s q, x.Is s q → ∃ z, RoundsInt rnd x.rat z ∧ Fits sg w sat z code ∧ (flag ↔ sat = true ∧ Outside sg w z))
  else
    let z := intVal (tySigned src) (tyWidth src) c
    if tyFloat dst then (∃ x : FV, x.Exactly z false ∧ RoundsTo (tyFmt dst) rnd sat flush x code) ∧ ¬ flag
    else Fits sg w sat z code ∧ (flag ↔ sat = true ∧ Outside sg w z)

/-- CV has no value for a code: without saturate, to an integer type, a NaN, an infinity or a number out of range
(R173). -/
def CvFails (src dst rnd : Nat) (sat flush : Bool) (c : Nat) : Prop :=
  tyFloat src = true ∧ tyFloat dst = false ∧ sat = false ∧ ∃ x, Stands (tyFmt src) flush c x ∧
    (x = .nan ∨ (∃ s, x = .inf s) ∨ ∃ s q z, x.Is s q ∧ RoundsInt rnd x.rat z ∧ Outside (tySigned dst) (tyWidth dst) z)

/-- The source element that VCVT converts into destination element n; none where that keeps B (R212). -/
def cvSource (s : StageW) (n : Nat) : Option Nat :=
  let cs := tyCount s.ty
  let cd := tyCount (s.aux % 8)
  let part := s.aux / 8
  let k := n / cd
  let e := n % cd
  if cd < cs then some (k * cs + (part * cd + e))
  else if cd = cs then some n
  else if part * cs ≤ e ∧ e < part * cs + cs then some (k * cs + (e - part * cs))
  else none

/-- A stage fails with cause 0x0B: VCVT has no value for an element it converts (R173). -/
def StageW.Fails (s : StageW) (flush : Bool) (A : Wide) : Prop :=
  s.op = 0x11 ∧ ∃ n i, n < 16 * tyCount (s.aux % 8) ∧ cvSource s n = some i ∧
    CvFails s.ty (s.aux % 8) s.rnd s.sat flush (el (tyWidth s.ty) i A)

/-- VRCP, VRSQ, VLOG2 and VEXP2 of a value x that give r: the table of R213, and the exact results that it names
(x of any magnitude for VRCP, powers of two and integers for the others). -/
def Transcends (op : Nat) (x r : FV) : Prop :=
  (x = .nan → r = .nan) ∧
  match op with
  | 0x12 => (∀ s, x = .inf s → r.Is s 0) ∧ (∀ s, x.Is s 0 → r = .inf s) ∧ ∀ s q, x.Is s q → q ≠ 0 → r.Is s (1 / q)
  | 0x13 => (x = .inf false → r.Is false 0) ∧ (x = .inf true → r = .nan) ∧ (∀ s, x.Is s 0 → r = .inf s) ∧
      (∀ q, x.Is true q → q ≠ 0 → r = .nan) ∧ ∀ j : ℤ, |j| ≤ 150 → x.Is false (2 ^ (2 * j)) → r.Is false (2 ^ (-j))
  | 0x14 => (x = .inf false → r = .inf false) ∧ (x = .inf true → r = .nan) ∧ (∀ s, x.Is s 0 → r = .inf true) ∧
      (∀ q, x.Is true q → q ≠ 0 → r = .nan) ∧ ∀ j : ℤ, x.Is false (2 ^ j) → r.Exactly j false
  | _ => (x = .inf false → r = .inf false) ∧ (x = .inf true → r.Is false 0) ∧
      ∀ (j : ℤ) (z : Bool), x.Exactly j z → -149 ≤ j → j ≤ 127 → r.Is false (2 ^ j)

/-- Element m comes before element n in a reducer's choice (R220). -/
def Beats (isMax : Bool) (ty : Nat) (flush : Bool) (A : Wide) (m n : Nat) : Prop :=
  if tyFloat ty then ∃ x y, Val ty flush m A x ∧ Val ty flush n A y ∧ if isMax then y.Less x else x.Less y
  else if isMax then intEl ty n A < intEl ty m A else intEl ty m A < intEl ty n A

/-- The choice of R220 among the first N elements: NaN loses, ties keep the lowest. -/
def IsBest (isMax : Bool) (ty : Nat) (flush : Bool) (A : Wide) (N : Nat) (best : Option Nat) : Prop :=
  let sound := fun n => tyFloat ty = true → ¬ Val ty flush n A .nan
  match best with
  | none => ∀ n, n < N → ¬ sound n
  | some n => n < N ∧ sound n ∧
      ∀ m, m < N → sound m → (m < n → Beats isMax ty flush A n m) ∧ (n < m → ¬ Beats isMax ty flush A m n)

/-- The sum of the elements a prefix names, brought or rounded into a type (R219, R221). -/
def SumOf (s : StageW) (flush : Bool) (out : Nat) (A : Wide) (N code : Nat) (flag : Prop) : Prop :=
  if tyFloat s.ty then
    (∃ xs r, xs.length = N ∧ (∀ n x, xs[n]? = some x → Val s.ty flush n A x) ∧ IsTotal false xs r ∧
      RoundsTo (tyFmt out) s.rnd s.sat flush r code) ∧ ¬ flag
  else
    let z := ((List.range N).map (fun n => intEl s.ty n A)).sum
    Fits (tySigned out) (tyWidth out) s.sat z code ∧ (flag ↔ s.sat = true ∧ Outside (tySigned out) (tyWidth out) z)

/-- The sign of a zero sum of terms (R176). -/
def zeroSign (nz : Bool) (l : List FV) : Bool :=
  if l.all (fun v => v.sgn) then true else if l.all (fun v => !v.sgn) then false else nz

/-- What an element word of R205 to R221 gives for operands A and B and third operand C: its result R, and the lanes F
that it flags (R174). `scalarA` says that A is an input of the scalar network. -/
def StageW.Gives (s : StageW) (flush scalarA : Bool) (A B C R : Wide) (F : Nat → Prop) : Prop :=
  let ty := s.ty
  let w := tyWidth ty
  let plain := ∀ k, k < 16 → ¬ F k
  let lane := fun (k : Nat) (v : Wide) => el 32 k v
  let val := fun (n : Nat) (v : Wide) (x : FV) => Val ty flush n v x
  match s.op with
  | 0x01 =>
    if tyFloat ty then Rounds ty s.rnd s.sat flush (fun n r => ∃ x y, val n A x ∧ val n B y ∧ IsSum (s.rnd == 2) x y r) R ∧ plain
    else Brings ty s.sat (fun n => intEl ty n A + intEl ty n B) R F
  | 0x02 =>
    if tyFloat ty then Rounds ty s.rnd s.sat flush (fun n r => ∃ x y, val n A x ∧ val n B y ∧ IsSum (s.rnd == 2) x y.neg r) R ∧ plain
    else Brings ty s.sat (fun n => intEl ty n A - intEl ty n B) R F
  | 0x03 =>
    if tyFloat ty then Rounds ty s.rnd s.sat flush (fun n r => ∃ x y, val n A x ∧ val n B y ∧ IsProd x y r) R ∧ plain
    else Brings ty s.sat (fun n => intEl ty n A * intEl ty n B) R F
  | 0x04 => Rounds ty s.rnd s.sat flush (fun n r => ∃ x y z p, val n A x ∧ val n B y ∧ val n C z ∧ IsProd x y p ∧
      IsSum (s.rnd == 2) p z r) R ∧ plain
  | 0x05 | 0x06 =>
    (if tyFloat ty then Rounds ty 0 false flush (fun n r => ∃ x y, val n A x ∧ val n B y ∧
        ((x = .nan ∨ y = .nan → r = .nan) ∧ (x ≠ .nan → y ≠ .nan →
          (x.Under y → r = if s.op = 5 then y else x) ∧ (¬ x.Under y → r = if s.op = 5 then x else y)))) R
      else Each ty (fun n => (el w n R = el w n A ∨ el w n R = el w n B) ∧
        intEl ty n R = if s.op = 5 then max (intEl ty n A) (intEl ty n B) else min (intEl ty n A) (intEl ty n B))) ∧ plain
  | 0x07 =>
    if tyFloat ty then Rounds ty 0 s.sat flush (fun n r => ∃ x, val n A x ∧ r = x.abs) R ∧ plain
    else Brings ty s.sat (fun n => |intEl ty n A|) R F
  | 0x08 =>
    if tyFloat ty then Rounds ty 0 s.sat flush (fun n r => ∃ x, val n A x ∧ r = x.neg) R ∧ plain
    else Brings ty s.sat (fun n => -intEl ty n A) R F
  | 0x09 => R = A &&& B ∧ plain
  | 0x0A => R = A ||| B ∧ plain
  | 0x0B => R = A ^^^ B ∧ plain
  | 0x0C => Each ty (fun n => el w n R = el w n A * 2 ^ (el w n B % w) % 2 ^ w) ∧ plain
  | 0x0D => Each ty (fun n => el w n R = el w n A / 2 ^ (el w n B % w)) ∧ plain
  | 0x0E => Each ty (fun n => (el w n R : Int) = intVal true w (el w n A) / 2 ^ (el w n B % w) % 2 ^ w) ∧ plain
  | 0x0F => Each ty (fun n =>
      let holds := fun (p : Prop) => (p → el w n R = 2 ^ w - 1) ∧ (¬ p → el w n R = 0)
      if tyFloat ty then ∃ x y, val n A x ∧ val n B y ∧ holds (Relates (s.aux % 8) (x = .nan ∨ y = .nan) (x.Less y)
        (¬ x.Less y ∧ ¬ y.Less x))
      else holds (Relates (s.aux % 8) False (intEl ty n A < intEl ty n B) (intEl ty n A = intEl ty n B))) ∧ plain
  | 0x10 => Each ty (fun n => el w n R = if el w n C ≠ 0 then el w n A else el w n B) ∧ plain
  | 0x11 => ∃ flag : Nat → Prop, (∀ n, n < 16 * tyCount (s.aux % 8) → match cvSource s n with
        | some i => Cv ty (s.aux % 8) s.rnd s.sat flush (el w i A) (el (tyWidth (s.aux % 8)) n R) (flag n)
        | none => el (tyWidth (s.aux % 8)) n R = el (tyWidth (s.aux % 8)) n B ∧ ¬ flag n) ∧
      ∀ k, k < 16 → (F k ↔ ∃ n, n / tyCount (s.aux % 8) = k ∧ flag n)
  | 0x12 | 0x13 | 0x14 | 0x15 => Rounds 3 0 s.sat flush (fun n r => ∃ x, Val 3 flush n A x ∧ Transcends s.op x r) R ∧ plain
  | 0x16 => Each ty (fun n => (el w n A = 0 → el w n R = w) ∧
      (el w n A ≠ 0 → el w n R < w ∧ 2 ^ (w - 1) ≤ el w n A * 2 ^ el w n R ∧ el w n A * 2 ^ el w n R < 2 ^ w)) ∧ plain
  | 0x17 => Each ty (fun n => el w n R = ((List.range w).filter (fun k => bitAt (el w n A) k)).length) ∧ plain
  | 0x19 => (∀ k, k < 16 → lane k R = lane (lane k B % 16) A) ∧ plain
  | 0x1A => (∀ k, k < 16 → lane k R = lane (if scalarA then s.aux % 2 else s.aux % 16) A) ∧ plain
  | 0x1B =>
    let src := fun (i : Nat) => if ty = 1 then (if i % 2 = 0 then intVal true 32 (lane (i / 2) A) else intVal true 32 (lane (i / 2) B))
      else intVal true 16 (el 16 (2 * (i / 4) + i % 2) (if i % 4 < 2 then A else B))
    Brings (if ty = 1 then 1 else 2) s.sat src R F
  | 0x1C =>
    let j := s.aux % 2
    let ext := fun (wd code : Nat) => if bitAt s.aux 1 then (code : Int) else intVal true w code % 2 ^ wd
    (if ty = 1 then ∀ k, k < 16 → (lane k R : Int) = ext 32 (el 16 (2 * k + j) A)
      else ∀ k i, k < 16 → i < 2 → (el 16 (2 * k + i) R : Int) = ext 16 (el 8 (4 * k + 2 * j + i) A)) ∧ plain
  | 0x1D =>
    let c := tyCount ty
    if ty = 2 then
      Brings 0 s.sat (fun k => ((List.range 4).map (fun e => intEl 2 (4 * k + e) A * intEl 2 (4 * k + e) B)).sum + intEl 0 k C) R F
    else (∀ k, k < 16 → ∃ z ps r, Stands .fp32 flush (lane k C) z ∧ ps.length = c ∧
        (∀ e p, ps[e]? = some p → ∃ x y, val (c * k + e) A x ∧ val (c * k + e) B y ∧ IsProd x y p) ∧
        IsTotal (zeroSign (s.rnd == 2) (z :: ps)) (z :: ps) r ∧ RoundsTo .fp32 s.rnd s.sat flush r (lane k R)) ∧ plain
  | 0x1E => (∀ k, k < 16 → lane k R = ((List.range (if bitAt s.aux 0 then k + 1 else k)).filter (fun j => lane j A != 0)).length) ∧ plain
  | 0x40 => (∃ flag, SumOf s flush (if tyFloat ty then 3 else if ty = 7 then 7 else 0) A (16 * tyCount ty) (lane 0 R) flag ∧
      ∀ k, k < 16 → (F k ↔ k = 0 ∧ flag)) ∧ ∀ k, 0 < k → k < 16 → lane k R = 0
  | 0x41 | 0x42 | 0x43 | 0x44 =>
    (∃ best, IsBest (s.op == 0x41 || s.op == 0x43) ty flush A (16 * tyCount ty) best ∧
      (match best with
        | none => lane 0 R = if ty = 6 then 0x80 else 0x7FC00000
        | some n => if ty = 6 then lane 0 R = el w n A
            else if tyFloat ty then ∃ x, val n A x ∧ RoundsTo .fp32 0 false flush x.unsign (lane 0 R)
            else (lane 0 R : Int) = intEl ty n A % 2 ^ 32) ∧
      lane 1 R = if s.op ≤ 0x42 then 0 else match best with
        | none => 0xFFFFFFFF
        | some n => if s.b = 15 then n else lane n B) ∧ (∀ k, 1 < k → k < 16 → lane k R = 0) ∧ plain
  | 0x45 =>
    if s.aux % 4 = 0 then ∃ flag : Nat → Prop, Each ty (fun n => SumOf s flush ty A (n + 1) (el w n R) (flag n)) ∧
      ∀ k, k < 16 → (F k ↔ ∃ n, n / tyCount ty = k ∧ flag n)
    else Each ty (fun n => ∃ best, IsBest (s.aux % 4 == 1) ty flush A (n + 1) best ∧ match best with
      | none => el w n R = nanCode (tyFmt ty)
      | some m => if tyFloat ty then ∃ x, val m A x ∧ RoundsTo (tyFmt ty) 0 false flush x.unsign (el w n R)
          else el w n R = el w m A) ∧ plain
  | _ => R = A ∧ plain

/-! ## The stages of a firing (R201, R202) -/

/-- The words of S1 to S6 that R205 to R221 define. -/
def StageW.IsVector (s : StageW) : Prop := s.op ≤ 0x1F ∨ (0x40 ≤ s.op ∧ s.op ≤ 0x45)

/-- What a source of a stage reads (R201): p is the value before it, E the element registers, K the constants. -/
def Sees (toks : Nat → Wide) (p : Wide) (E : Nat → Wide) (K : Nat → Nat) (src aux : Nat) (v : Wide) : Prop :=
  if src = 0 then v = p
  else if src ≤ 4 then v = toks (src - 1)
  else if src ≤ 12 then v = E (src - 5)
  else if src = 13 then ∀ n, n < 16 → el 32 n v = K (aux % 4) % 2 ^ 32
  else if src = 14 then ∀ n, n < 16 → el 32 n v = n
  else v = 0

/-- A stage's source A is an input of the scalar network (R215). -/
def Ctx.scalarIn (k : Ctx) (s : StageW) : Bool := 1 ≤ s.a && s.a ≤ 4 && k.netOf (s.a + 3) == 1

/-- A context whose six words are vector words, as the checks of an image allow them (R203, R204). -/
def Ctx.Vector (k : Ctx) : Prop :=
  k.damaged = [] ∧ ∀ j, 1 ≤ j → j ≤ 6 → let s := stageW (k.stage j)
    s.IsVector ∧ vectorOk s (k.scalarIn s) = true

/-- Stage j runs on what S1 to S(j − 1) left: p and the element registers go from P (j − 1) and E (j − 1) to P j and
E j, and the lanes F j are flagged. -/
def Ctx.StageRuns (k : Ctx) (toks : Nat → Wide) (P : Nat → Wide) (E : Nat → Nat → Wide) (F : Nat → Nat → Prop) (j : Nat) : Prop :=
  let s := stageW (k.stage j)
  let K := fun n => agetD k.kreg n 0
  ∃ a b, Sees toks (P (j - 1)) (E (j - 1)) K s.a s.aux a ∧ Sees toks (P (j - 1)) (E (j - 1)) K s.b s.aux b ∧
    ¬ s.Fails (k.nbv == 2) a ∧
    s.Gives (k.nbv == 2) (k.scalarIn s) a b (if bitAt s.aux 4 then E (j - 1) (bits s.aux 2 2) else P (j - 1)) (P j) (F j) ∧
    ∀ n, E j n = if s.dst = n + 1 ∧ n < 8 then P j else E (j - 1) n

/-- Stage j has no value, which is cause 0x0B (R173). -/
def Ctx.StageFails (k : Ctx) (toks : Nat → Wide) (P : Nat → Wide) (E : Nat → Nat → Wide) (j : Nat) : Prop :=
  let s := stageW (k.stage j)
  ∃ a, Sees toks (P (j - 1)) (E (j - 1)) (fun n => agetD k.kreg n 0) s.a s.aux a ∧ s.Fails (k.nbv == 2) a

/-- What VCONST in the first m stages leaves in constant n (R202, R214). -/
def Ctx.ConstAfter (k : Ctx) (P : Nat → Wide) (m n v : Nat) : Prop :=
  let sets := fun (j : Nat) => 1 ≤ j ∧ j ≤ m ∧ (stageW (k.stage j)).op = 0x1F ∧ (stageW (k.stage j)).aux % 4 = n
  (∀ j, sets j → (∀ i, sets i → i ≤ j) → v = el 32 0 (P j)) ∧ ((∀ j, ¬ sets j) → v = agetD k.kreg n 0)

/-- The stages of a firing run from S1 until one fails, or all: m of them run, and leave the values named (R201,
R202, R222). -/
def Ctx.Runs (k : Ctx) (toks : Nat → Wide) (m : Nat) (P : Nat → Wide) (E : Nat → Nat → Wide) (F : Nat → Nat → Prop) : Prop :=
  m ≤ 6 ∧ P 0 = 0 ∧ (∀ n, E 0 n = agetD k.ev n 0) ∧ (∀ j, 1 ≤ j → j ≤ m → k.StageRuns toks P E F j) ∧
    (m < 6 → k.StageFails toks P E (m + 1))

/-! ## The matrix engines (R171, R178, R181, R189 to R195) -/

/-- A step applied to each of a list in order, from a first value. -/
def Chain {α β : Type} (step : α → β → α → Prop) : α → List β → α → Prop
  | a, [], r => r = a
  | a, x :: l, r => ∃ b, step a x b ∧ Chain step b l r

/-- The binary image of a D8 code: a significand of 12 bits, nearest-even, the exponent unbounded (R171). -/
def D8Image (code : Nat) (v : FV) : Prop :=
  ∃ u, Stands .d8 false code u ∧ match u with
    | .num s n d =>
      let q : ℚ := n / d
      if q = 0 then v.Is s 0
      else ∃ (m : Nat) (e : ℤ), 2 ^ 11 * (2 : ℚ) ^ e ≤ q ∧ q < 2 ^ 12 * (2 : ℚ) ^ e ∧ v.Is s (m * 2 ^ e) ∧
        |m * 2 ^ e - q| ≤ 2 ^ e / 2 ∧ (|m * 2 ^ e - q| = (2 : ℚ) ^ e / 2 → m % 2 = 0)
    | u => v = u

/-- A value times a power of two, exactly (R178). -/
def Scaled (v : FV) (k : ℤ) (r : FV) : Prop :=
  match v with
  | .num s n d => r.Is s (n / d * 2 ^ k)
  | v => r = v

/-- What a floating operand of an engine is: the value of its code, or the image of a D8 code, times its scale. -/
def Operand (f : Nat) (flush : Bool) (scale : ℤ) (code : Nat) (v : FV) : Prop :=
  ∃ u, (if f = 1 then D8Image code u else Stands (mxFmt f) flush code u) ∧ Scaled u scale v

/-- RNE_FP40 of a sum of an accumulator and a value, zeros unsigned (R189). -/
def Fp40Add (acc : Nat) (x : FV) (acc' : Nat) : Prop :=
  ∃ a v, Stands .fp40 false acc a ∧ IsTotal false [a, x] v ∧ RoundsTo .fp40 0 false false v acc'

/-- A value rounded nearest-even in FP32 (R181, R193). -/
def Rne32 (flush : Bool) (v r : FV) : Prop := ∃ c, RoundsTo .fp32 0 false flush v c ∧ Stands .fp32 flush c r

/-- An FP32 sum and an FP32 product. -/
def Add32 (flush : Bool) (a b r : FV) : Prop := ∃ v, IsSum false a b v ∧ Rne32 flush v r
def Mul32 (flush : Bool) (a b r : FV) : Prop := ∃ v, IsProd a b v ∧ Rne32 flush v r

/-- The sum of a run of 8 products under NBV 2 (R181). -/
def Run8 (p : Nat → FV) (r : FV) : Prop :=
  let add := Add32 true
  ∃ a b c d e f, add (p 0) (p 1) a ∧ add (p 2) (p 3) b ∧ add (p 4) (p 5) c ∧ add (p 6) (p 7) d ∧ add a b e ∧ add c d f ∧ add e f r

/-- What the 32 products of a pair make of an accumulator element (R181, R189, R192): S and its chunk rounded once
each under NBV 0, FP32 adds of rounded products else. -/
def PairAdds (nbv acc : Nat) (p : Nat → FV) (acc' : Nat) : Prop :=
  match nbv with
  | 0 => ∃ S c chunk, IsTotal false ((List.range 32).map p) S ∧ RoundsTo .fp40 0 false false S c ∧
      Stands .fp40 false c chunk ∧ Fp40Add acc chunk acc'
  | 1 => ∃ (q : Nat → FV) (a r : FV), (∀ k, k < 32 → Rne32 false (p k) (q k)) ∧ Stands .fp40 false acc a ∧
      Chain (Add32 false) a ((List.range 32).map q) r ∧ RoundsTo .fp40 0 false false r acc'
  | _ => ∃ (q u : Nat → FV) (a r : FV), (∀ k, k < 32 → Rne32 true (p k) (q k)) ∧
      (∀ n, n < 4 → Run8 (fun k => q (8 * n + k)) (u n)) ∧ Stands .fp40 false acc a ∧
      Chain (Add32 true) a ((List.range 4).map u) r ∧ RoundsTo .fp40 0 false false r acc'

/-- An element converted to the output format (R172, R185, R191): its code. -/
def Converts (c : MxCfg) (nbv acc code : Nat) : Prop :=
  if 4 ≤ c.ofmt then Fits true (8 * mxOut c.ofmt) true (intVal true 40 (acc % 2 ^ 40)) code
  else ∃ a, Stands .fp40 false acc a ∧ RoundsTo (mxOutFmt c.ofmt) c.rnd c.sat (nbv == 2) (if nbv = 0 then a.unsign else a) code

/-- A comparison of R194 passes. -/
def Passes (tol S cs : FV) : Prop :=
  (S = .nan ∧ cs = .nan) ∨ (S ≠ .nan ∧ cs ≠ .nan ∧ ¬ S.Less cs ∧ ¬ cs.Less S) ∨
  ((∃ s q, S.Is s q) ∧ (∃ s q, cs.Is s q) ∧ (tol = .inf false ∨ ((∃ s q, tol.Is s q) ∧ 0 ≤ tol.rat ∧
    |S.rat - cs.rat| ≤ tol.rat * max |S.rat| |cs.rat|)))

/-- What a group adds to an accumulator element (R195): its positions gathered one after another, and their sum times
its value. -/
def GroupAdds (bf16 : Bool) (act : Nat → FV) (acc : Nat) (g : Group) (acc' : Nat) : Prop :=
  ∃ q qv val p c pv, Chain (fun q i q' => Fp40Add q (act i) q') 0 g.pos q ∧ Stands .fp40 false q qv ∧
    (if bf16 then Stands .bf16 false g.value val else D8Image g.value val) ∧ IsProd qv val p ∧
    RoundsTo .fp40 0 false false p.unsign c ∧ Stands .fp40 false c pv ∧ Fp40Add acc pv acc'

/-- The exact sum that an entry of an integer checksum stands for. -/
def csInt (m : AMap Nat) (n : Nat) : Int := (BitVec.ofNat 128 (agetD m n 0)).toInt

/-- An integer checksum grows by an exact sum. -/
def CsGrows (m m' : AMap Nat) (n : Nat) (x : Int) : Prop := (csInt m' n - csInt m n - x) % 2 ^ 128 = 0

/-- A floating checksum grows by the FP32 sum of terms (R193). -/
def CsAdds (flush : Bool) (m m' : AMap Nat) (n : Nat) (terms : List FV) : Prop :=
  ∃ t o r, Chain (Add32 flush) .zero terms t ∧ Stands .fp40 false (agetD m n 0) o ∧ Add32 flush o t r ∧
    RoundsTo .fp40 0 false false r (agetD m' n 0)

/-- What an unfaulted pair of operand tiles makes of an area and its checksums (R189 to R193, R229). -/
def Area.Adds (old : Area) (c : MxCfg) (nbv : Nat) (chk : Bool) (da db : List Byte) (new : Area) : Prop :=
  let flush := nbv == 2
  let wa := mxBytes c.afmt
  let wb := mxBytes c.bfmt
  let ca := fun i k => elemAt da wa (32 * i + k)
  let cb := fun k j => elemAt db wb (128 * k + j)
  (if mxIsInt c.afmt then
    let A := fun i k => intVal true (8 * wa) (ca i k)
    let B := fun k j => intVal true (8 * wb) (cb k j)
    let z := fun i j => intVal true 40 (old.at i j % 2 ^ 40) + ((List.range 32).map (fun k => A i k * B k j)).sum
    let col := fun k => ((List.range 64).map (fun i => A i k)).sum
    let row := fun k => ((List.range 128).map (fun j => B k j)).sum
    (∀ i j, i < 64 → j < 128 → Fits true 40 true (z i j) (new.at i j)) ∧
    (new.ovf = true ↔ old.ovf = true ∨ ∃ i j, i < 64 ∧ j < 128 ∧ Outside true 40 (z i j)) ∧
    (chk = true → (∀ j, j < 128 → CsGrows old.csRow new.csRow j ((List.range 32).map (fun k => col k * B k j)).sum) ∧
      ∀ i, i < 64 → CsGrows old.csCol new.csCol i ((List.range 32).map (fun k => A i k * row k)).sum)
  else ∃ A B : Nat → Nat → FV,
    (∀ i k, Operand c.afmt flush (scaleAt da c.asc (2048 * wa + i)) (ca i k) (A i k)) ∧
    (∀ k j, Operand c.bfmt flush (scaleAt db c.bsc (4096 * wb + 4 * k + j / 32)) (cb k j) (B k j)) ∧
    (∀ i j, i < 64 → j < 128 → ∃ p : Nat → FV, (∀ k, k < 32 → IsProd (A i k) (B k j) (p k)) ∧
      PairAdds nbv (old.at i j) p (new.at i j)) ∧ new.ovf = old.ovf ∧
    (chk = true → ∃ col row : Nat → FV,
      (∀ k, k < 32 → Chain (Add32 flush) .zero ((List.range 64).map (fun i => A i k)) (col k) ∧
        Chain (Add32 flush) .zero ((List.range 128).map (fun j => B k j)) (row k)) ∧
      (∀ j, j < 128 → ∃ m : Nat → FV, (∀ k, k < 32 → Mul32 flush (col k) (B k j) (m k)) ∧
        CsAdds flush old.csRow new.csRow j ((List.range 32).map m)) ∧
      ∀ i, i < 64 → ∃ m : Nat → FV, (∀ k, k < 32 → Mul32 flush (A i k) (row k) (m k)) ∧
        CsAdds flush old.csCol new.csCol i ((List.range 32).map m))) ∧
  (chk = false → new.csRow = old.csRow ∧ new.csCol = old.csCol)

/-- What a faulted pair makes of an area: +0 is added, and nothing to the checksums (R189, R193, R198). -/
def Area.AddsZero (old : Area) (c : MxCfg) (new : Area) : Prop :=
  (∀ i j, i < 64 → j < 128 → if mxIsInt c.afmt then new.at i j = old.at i j else Fp40Add (old.at i j) .zero (new.at i j)) ∧
    new.ovf = old.ovf ∧ new.csRow = old.csRow ∧ new.csCol = old.csCol

/-- The comparisons of a tile's sums with its checksums: whether all pass (R193, R194). -/
def Area.Compared (a : Area) (c : MxCfg) (nbv tolhi : Nat) (pass : Prop) : Prop :=
  if mxIsInt c.afmt then
    let v := fun i j => intVal true 40 (a.at i j % 2 ^ 40)
    pass ↔ a.ovf = true ∨ ((∀ j, j < 128 → ((List.range 64).map (fun i => v i j)).sum = csInt a.csRow j) ∧
      ∀ i, i < 64 → ((List.range 128).map (fun j => v i j)).sum = csInt a.csCol i)
  else
    let flush := nbv == 2
    ∃ (C : Nat → Nat → FV) (col row cr cc : Nat → FV) (tol : FV), Stands .fp32 false (tolhi * 2 ^ 16) tol ∧
      (∀ i j, ∃ x, Stands .fp40 false (a.at i j) x ∧ Rne32 flush x (C i j)) ∧
      (∀ j, Chain (Add32 flush) .zero ((List.range 64).map (fun i => C i j)) (col j) ∧ Stands .fp40 false (agetD a.csRow j 0) (cr j)) ∧
      (∀ i, Chain (Add32 flush) .zero ((List.range 128).map (fun j => C i j)) (row i) ∧ Stands .fp40 false (agetD a.csCol i 0) (cc i)) ∧
      (pass ↔ (∀ j, j < 128 → Passes tol (col j) (cr j)) ∧ ∀ i, i < 64 → Passes tol (row i) (cc i))

end Sys2Proof.Machine
end

