-- ==== Sys2Proof/Certificates/Slice0/Obligations.lean ====
section
/-!
DEFINITION. Slice 0: the statements about the model.
-/

open Sys2Proof Sys2Proof.Machine

/-! ## Arithmetic, conditions and branches -/

/-- R87, the words of two sources: each writes g[d] with the value of its line and passes to the next word; g0
discards the write (Thread.setG). Bits of a shift are given one by one. -/
def Obligations.AluTwoSourceResults : Prop :=
  ∀ (s : State) (t : Thread) (d a b : Reg) (sc : BitVec 3) (c : CReg), s.Ready t [a, b] [d] →
    exec (.add d a b) s = .next (s.gets t d (BitVec.ofNat 64 ((t.g a).toNat + (t.g b).toNat))) ∧
    exec (.sub d a b) s = .next (s.gets t d (BitVec.ofInt 64 ((t.g a).toNat - (t.g b).toNat))) ∧
    exec (.and d a b) s = .next (s.gets t d (t.g a &&& t.g b)) ∧
    exec (.or d a b) s = .next (s.gets t d (t.g a ||| t.g b)) ∧
    exec (.xor d a b) s = .next (s.gets t d (t.g a ^^^ t.g b)) ∧
    exec (.andn d a b) s = .next (s.gets t d (t.g a &&& ~~~t.g b)) ∧
    (∃ v : Word, exec (.shl d a b) s = .next (s.gets t d v) ∧ ∀ i, i < 64 →
      v.getLsbD i = (decide ((t.g b).toNat % 64 ≤ i) && (t.g a).getLsbD (i - (t.g b).toNat % 64))) ∧
    (∃ v : Word, exec (.shr d a b) s = .next (s.gets t d v) ∧ ∀ i, i < 64 →
      v.getLsbD i = (t.g a).getLsbD (i + (t.g b).toNat % 64)) ∧
    (∃ v : Word, exec (.shra d a b) s = .next (s.gets t d v) ∧ ∀ i, i < 64 →
      v.getLsbD i = (t.g a).getLsbD (min 63 (i + (t.g b).toNat % 64))) ∧
    (∃ v : Word, exec (.min d a b) s = .next (s.gets t d v) ∧ v.toInt = min (t.g a).toInt (t.g b).toInt) ∧
    (∃ v : Word, exec (.max d a b) s = .next (s.gets t d v) ∧ v.toInt = max (t.g a).toInt (t.g b).toInt) ∧
    (∃ v : Word, exec (.minu d a b) s = .next (s.gets t d v) ∧ v.toNat = min (t.g a).toNat (t.g b).toNat) ∧
    (∃ v : Word, exec (.maxu d a b) s = .next (s.gets t d v) ∧ v.toNat = max (t.g a).toNat (t.g b).toNat) ∧
    exec (.lea d a b sc) s =
      .next (s.gets t d (BitVec.ofNat 64 ((t.g a).toNat + (t.g b).toNat * 2 ^ sc.toNat))) ∧
    exec (.csel d a b c) s = .next (s.gets t d (if t.c c then t.g a else t.g b))

/-- R87, the words of one source: CLZ counts the zeros above the highest one, 64 for 0; POPC counts the ones; BREV
reverses the bits; SEXT and ZEXT extend the low 8, 16 or 32 bits; and R72: SEXT and ZEXT of any other width trap with
cause 0x01. R92 and R93: the immediate forms, each with its immediate extended as its rule says, and MOVK, which
replaces 16 bits of g[d] and keeps the rest. -/
def Obligations.OneSourceAndImmediateResults : Prop :=
  (∀ (s : State) (t : Thread) (d a : Reg), s.Ready t [a] [d] →
    (∃ n : Nat, exec (.clz d a) s = .next (s.gets t d (BitVec.ofNat 64 n)) ∧ n ≤ 64 ∧
      (∀ i, 64 - n ≤ i → (t.g a).getLsbD i = false) ∧ (n < 64 → (t.g a).getLsbD (63 - n) = true)) ∧
    exec (.popc d a) s =
      .next (s.gets t d (BitVec.ofNat 64 (((List.range 64).map (fun i => ((t.g a).getLsbD i).toNat)).sum))) ∧
    (∃ v : Word, exec (.brev d a) s = .next (s.gets t d v) ∧
      ∀ i, i < 64 → v.getLsbD i = (t.g a).getLsbD (63 - i)) ∧
    (∀ w : BitVec 3, w.toNat < 3 →
      (∃ v : Word, exec (.sext d a w) s = .next (s.gets t d v) ∧
        ∀ i, i < 64 → v.getLsbD i = (t.g a).getLsbD (min i (8 * 2 ^ w.toNat - 1))) ∧
      exec (.zext d a w) s =
        .next (s.gets t d (BitVec.ofNat 64 ((t.g a).toNat % 2 ^ (8 * 2 ^ w.toNat))))) ∧
    ∀ w : BitVec 3, 3 ≤ w.toNat →
      (∃ v : Word, exec (.sext d a w) s = .next (s.traps t 0x01 v)) ∧
      ∃ v : Word, exec (.zext d a w) s = .next (s.traps t 0x01 v)) ∧
  ((∀ (s : State) (t : Thread) (d a : Reg) (im : BitVec 16) (n : BitVec 6), s.Ready t [a] [d] →
    let x := t.g a
    exec (.addi d a im) s = .next (s.gets t d (BitVec.ofInt 64 (x.toInt + im.toInt))) ∧
    exec (.andi d a im) s = .next (s.gets t d (BitVec.ofNat 64 (x.toNat &&& im.toNat))) ∧
    exec (.ori d a im) s = .next (s.gets t d (BitVec.ofNat 64 (x.toNat ||| im.toNat))) ∧
    exec (.xori d a im) s = .next (s.gets t d (BitVec.ofNat 64 (x.toNat ^^^ im.toNat))) ∧
    exec (.shli d a n) s = .next (s.gets t d (BitVec.ofNat 64 (x.toNat * 2 ^ n.toNat))) ∧
    exec (.shri d a n) s = .next (s.gets t d (BitVec.ofNat 64 (x.toNat / 2 ^ n.toNat))) ∧
    exec (.shrai d a n) s = .next (s.gets t d (BitVec.ofInt 64 (x.toInt / 2 ^ n.toNat)))) ∧
  (∀ (s : State) (t : Thread) (d : Reg) (im : BitVec 16), s.Ready t [] [d] →
    exec (.movi d im) s = .next (s.gets t d (BitVec.ofInt 64 im.toInt))) ∧
  ∀ (s : State) (t : Thread) (d : Reg) (k : BitVec 2) (im : BitVec 16), s.Ready t [d] [d] →
    ∃ v : Word, exec (.movk d k im) s = .next (s.gets t d v) ∧
      ∀ i, i < 64 → v.getLsbD i =
        if 16 * k.toNat ≤ i ∧ i < 16 * k.toNat + 16 then im.getLsbD (i - 16 * k.toNat) else (t.g d).getLsbD i)

/-- R88: the seven words of MULDIV, on every operand: the products' bits, quotients and remainders truncated toward
zero, and the values of a division by 0 and of -2^63 by -1. -/
def Obligations.MulDivResults : Prop :=
  ∀ (s : State) (t : Thread) (d a b : Reg), s.Ready t [a, b] [d] →
    let x := t.g a
    let y := t.g b
    exec (.mul d a b) s = .next (s.gets t d (BitVec.ofNat 64 (x.toNat * y.toNat % 2 ^ 64))) ∧
    (∃ v : Word, exec (.mulh d a b) s = .next (s.gets t d v) ∧
      ∃ lo : Nat, lo < 2 ^ 64 ∧ x.toInt * y.toInt = v.toInt * 2 ^ 64 + lo) ∧
    (∃ v : Word, exec (.mulhu d a b) s = .next (s.gets t d v) ∧
      ∃ lo : Nat, lo < 2 ^ 64 ∧ x.toNat * y.toNat = v.toNat * 2 ^ 64 + lo) ∧
    (∃ q r : Word, exec (.div d a b) s = .next (s.gets t d q) ∧ exec (.rem d a b) s = .next (s.gets t d r) ∧
      (y = 0 → q = BitVec.allOnes 64 ∧ r = x) ∧
      (x.toInt = -2 ^ 63 ∧ y.toInt = -1 → q = x ∧ r = 0) ∧
      (y ≠ 0 → ¬(x.toInt = -2 ^ 63 ∧ y.toInt = -1) →
        x.toInt = y.toInt * q.toInt + r.toInt ∧ r.toInt.natAbs < y.toInt.natAbs ∧
          (0 ≤ x.toInt → 0 ≤ r.toInt) ∧ (x.toInt ≤ 0 → r.toInt ≤ 0))) ∧
    (∃ q r : Word, exec (.divu d a b) s = .next (s.gets t d q) ∧ exec (.remu d a b) s = .next (s.gets t d r) ∧
      (y = 0 → q = BitVec.allOnes 64 ∧ r = x) ∧
      (y ≠ 0 → x.toNat = y.toNat * q.toNat + r.toNat ∧ r.toNat < y.toNat))

/-- R89 to R91 and R73: what CMP, CLOG and CMPI write, for every relation and logic code; CMP's relations 6 and 7 trap
with cause 0x01 (R89). -/
def Obligations.ConditionResults : Prop :=
  (∀ (s : State) (t : Thread) (c : CReg) (a b : Reg), s.Ready t [a, b] [] →
    let x := t.g a
    let y := t.g b
    exec (.cmp c a b 0) s = .next (s.getsC t c (decide (x = y))) ∧
    exec (.cmp c a b 1) s = .next (s.getsC t c (decide (x ≠ y))) ∧
    exec (.cmp c a b 2) s = .next (s.getsC t c (decide (x.toInt < y.toInt))) ∧
    exec (.cmp c a b 3) s = .next (s.getsC t c (decide (y.toInt ≤ x.toInt))) ∧
    exec (.cmp c a b 4) s = .next (s.getsC t c (decide (x.toNat < y.toNat))) ∧
    exec (.cmp c a b 5) s = .next (s.getsC t c (decide (y.toNat ≤ x.toNat))) ∧
    ∀ r : BitVec 3, 6 ≤ r.toNat → ∃ v : Word, exec (.cmp c a b r) s = .next (s.traps t 0x01 v)) ∧
  (∀ (s : State) (t : Thread) (n m k : CReg), s.Ready t [] [] →
    exec (.clog n m k 0) s = .next (s.getsC t n (t.c m && t.c k)) ∧
    exec (.clog n m k 1) s = .next (s.getsC t n (t.c m || t.c k)) ∧
    exec (.clog n m k 2) s = .next (s.getsC t n (t.c m ^^ t.c k)) ∧
    exec (.clog n m k 3) s = .next (s.getsC t n (t.c m && !t.c k)) ∧
    exec (.clog n m k 4) s = .next (s.getsC t n (t.c m || !t.c k)) ∧
    exec (.clog n m k 5) s = .next (s.getsC t n (t.c m == t.c k)) ∧
    (k = 0 → exec (.clog n m k 6) s = .next (s.getsC t n (t.c m))) ∧
    (k = 0 → exec (.clog n m k 7) s = .next (s.getsC t n (!t.c m)))) ∧
  ∀ (s : State) (t : Thread) (c : CReg) (a : Reg) (im : BitVec 16), s.Ready t [a] [] →
    let x := t.g a
    exec (.cmpi c 0 a im) s = .next (s.getsC t c (decide (x.toInt = im.toInt))) ∧
    exec (.cmpi c 1 a im) s = .next (s.getsC t c (decide (x.toInt ≠ im.toInt))) ∧
    exec (.cmpi c 2 a im) s = .next (s.getsC t c (decide (x.toInt < im.toInt))) ∧
    exec (.cmpi c 3 a im) s = .next (s.getsC t c (decide (x.toNat < (BitVec.ofInt 64 im.toInt).toNat)))

/-- R94, R95 and R99: where BC, B, BL and JR go, what they link, and what they pop: after a taken branch the stack is
what remains once every entry above the first one whose body holds the target is popped; a JR to an address that is
not a multiple of 4 traps with cause 0x02 and changes no register and not PC. -/
def Obligations.BranchResults : Prop :=
  (∀ (s : State) (t : Thread) (sense : BitVec 1) (c : CReg) (d : BitVec 22) (e : BitVec 26), s.Ready t [] [] →
    (t.c c = decide (sense = 1) → exec (.bc sense c d) s =
      .next (s.withMe (t.branch (t.pc + BitVec.ofInt 64 (4 * d.toInt))))) ∧
    (t.c c ≠ decide (sense = 1) → exec (.bc sense c d) s = .next (s.withMe t.advance)) ∧
    exec (.b e) s = .next (s.withMe (t.branch (t.pc + BitVec.ofInt 64 (4 * e.toInt))))) ∧
  (∀ (s : State) (t : Thread) (e : BitVec 26), s.Ready t [] [31] →
    exec (.bl e) s = .next (s.withMe ((t.setG 31 (t.pc + 4)).branch (t.pc + BitVec.ofInt 64 (4 * e.toInt))))) ∧
  (∀ (s : State) (t : Thread) (d a : Reg), s.Ready t [a] [d] →
    ((t.g a).toNat % 4 = 0 → exec (.jr d a) s = .next (s.withMe ((t.setG d (t.pc + 4)).branch (t.g a)))) ∧
    ((t.g a).toNat % 4 ≠ 0 → exec (.jr d a) s = .next (s.traps t 0x02 (t.g a)))) ∧
  ∀ (t : Thread) (a : Word), (t.branch a).pc = a ∧
    ∃ popped, t.loops = popped ++ (t.branch a).loops ∧
      (∀ l ∈ popped, ¬(l.start.toNat ≤ a.toNat ∧ a.toNat ≤ l.fin.toNat)) ∧
      ∀ l, (t.branch a).loops.head? = some l → l.start.toNat ≤ a.toNat ∧ a.toNat ≤ l.fin.toNat

/-- R97 and R100: LOOP pushes an entry of its count below four entries, traps with cause 0x0C at four and leaves the
stack, the registers and PC. A LOOP of no passes goes on after its body, with end processing at the body's last word
and then, where it starts a next pass, at the LOOP itself, an order that is the model's reading (log 31). LBRK with an
empty stack passes to the next word; else it pops the top entry and continues after its body, but where it is the last
word of the entry beneath, end processing there gives PC (which is LBRK + 4 where that exhausts every entry that ends
there, the model's choice, log 113). -/
def Obligations.LoopResults : Prop :=
  (∀ (s : State) (t : Thread) (e : BitVec 11) (n : BitVec 10), s.Ready t [] [] → e ≠ 0 →
    (n ≠ 0 → t.loops.length < 4 → exec (.loopImm e n) s = .next (s.withMe { t with
      pc := t.pc + 4
      loops := { start := t.pc + 4, fin := t.pc + BitVec.ofNat 64 (4 * e.toNat), left := BitVec.ofNat 64 n.toNat }
        :: t.loops })) ∧
    (n ≠ 0 → 4 ≤ t.loops.length → ∃ v, exec (.loopImm e n) s = .next (s.traps t 0x0C v)) ∧
    (n = 0 → t.loops = [] → exec (.loopImm e n) s =
      .next (s.withMe { t with pc := t.pc + BitVec.ofNat 64 (4 * e.toNat) + 4 })) ∧
    (n = 0 → let u := t.endAt (t.pc + BitVec.ofNat 64 (4 * e.toNat))
      exec (.loopImm e n) s = .next (s.withMe (if (u.endAt t.pc).pc = t.pc + 4 then { u.endAt t.pc with pc := u.pc }
        else u.endAt t.pc)))) ∧
  (∀ (s : State) (t : Thread) (a : Reg) (e : BitVec 11), s.Ready t [a] [] → a ≠ 0 → e ≠ 0 →
    (t.g a ≠ 0 → t.loops.length < 4 → exec (.loopReg a e) s = .next (s.withMe { t with
      pc := t.pc + 4
      loops := { start := t.pc + 4, fin := t.pc + BitVec.ofNat 64 (4 * e.toNat), left := t.g a } :: t.loops })) ∧
    (t.g a ≠ 0 → 4 ≤ t.loops.length → ∃ v, exec (.loopReg a e) s = .next (s.traps t 0x0C v)) ∧
    (t.g a = 0 → t.loops = [] → exec (.loopReg a e) s =
      .next (s.withMe { t with pc := t.pc + BitVec.ofNat 64 (4 * e.toNat) + 4 })) ∧
    (t.g a = 0 → let u := t.endAt (t.pc + BitVec.ofNat 64 (4 * e.toNat))
      exec (.loopReg a e) s = .next (s.withMe (if (u.endAt t.pc).pc = t.pc + 4 then { u.endAt t.pc with pc := u.pc }
        else u.endAt t.pc)))) ∧
  ∀ (s : State) (t : Thread), s.Ready t [] [] →
    (t.loops = [] → exec .lbrk s = .next (s.withMe { t with pc := t.pc + 4 })) ∧
    ∀ l r, t.loops = l :: r →
      ((∀ m ∈ r.head?, m.fin ≠ t.pc) → exec .lbrk s = .next (s.withMe { t with loops := r, pc := l.fin + 4 })) ∧
      (∀ m q, r = m :: q → m.fin = t.pc → exec .lbrk s = .next (s.withMe ({ t with loops := r }.endAt t.pc)) ∧
        ((∀ e ∈ r, e.fin = t.pc ∧ e.left.toNat ≤ 1) →
          exec .lbrk s = .next (s.withMe { t with loops := [], pc := t.pc + 4 })))

/-- R98: end processing, as its loop states it. A word at e that ends no body passes to e + 4; one that ends the top
body counts the pass: another pass starts the body again; the last one pops the entry, and the entry beneath is
counted in turn. -/
def Obligations.EndProcessingCountsPasses : Prop :=
  ∀ (t : Thread) (e : Word),
    (t.loops = [] → t.endAt e = { t with pc := e + 4 }) ∧
    (∀ l r, t.loops = l :: r → l.fin ≠ e → t.endAt e = { t with pc := e + 4 }) ∧
    (∀ l r, t.loops = l :: r → l.fin = e → 1 < l.left.toNat →
      t.endAt e = { t with pc := l.start, loops := { l with left := BitVec.ofNat 64 (l.left.toNat - 1) } :: r }) ∧
    ∀ l r, t.loops = l :: r → l.fin = e → l.left.toNat ≤ 1 → t.endAt e = { t with loops := r }.endAt e

/-- The frame of every word that only reads and writes registers: whatever it answers, memory, bad bytes, every other
agent and every register of the machine outside the acting agent are unchanged. Of that agent only g[d] of the listed
destination with its poison mark and what its loads left at slots, c[c] of CMP, CMPI and CLOG, PC and the loop stack
change, and nothing else: no other mark, no outstanding word, slot, group, range, waiting word, asked park or yielded
turn; its privilege and system registers, and a CWAIT that waits, only where the word traps. -/
def Obligations.RegisterWordFrame : Prop :=
  ∀ (s s' : State) (i : Instr) (dest : Option Reg) (cdest : Option CReg),
    Safety.registerWord i = some (dest, cdest) → exec i s = .next s' →
    s'.mem = s.mem ∧ s'.bad = s.bad ∧ s'.m = { s.m with thr := s'.m.thr } ∧
    (∀ k, k ≠ s.m.cur → aget s'.m.thr k = aget s.m.thr k) ∧
    ∀ t, s.me = some t → ∃ u, s'.me = some u ∧
      (∀ r : Reg, dest ≠ some r → u.g r = t.g r) ∧
      (∀ k : CReg, cdest ≠ some k → u.c k = t.c k) ∧
      u.pend = t.pend ∧ u.nextPend = t.nextPend ∧ u.nbv = t.nbv ∧ u.launch = t.launch ∧ u.region = t.region ∧
      u.groups = t.groups ∧ u.jobTag = t.jobTag ∧ u.saves = t.saves ∧ u.parks = t.parks ∧
      u.yielded = t.yielded ∧ u.held = t.held ∧ u.dumping = t.dumping ∧ (∀ k, u.busy k = t.busy k) ∧
      (∀ n, (∀ r : Reg, dest = some r → r ≠ 0 → n ≠ r.toNat) → aget u.poison n = aget t.poison n) ∧
      (∀ p, (∀ r : Reg, dest = some r → r ≠ 0 → p.1 % 32 ≠ r.toNat) → (p ∈ u.slotPoison ↔ p ∈ t.slotPoison)) ∧
      (∀ p ∈ u.slotPoison, p ∈ t.slotPoison) ∧
      (u.run = t.run ∧ u.sys = t.sys ∧ u.waits = t.waits ∨ ∃ cause val, u = t.trap cause t.pc val s.m.tb)

/-! ## Loads, stores, atomics, counters, sync words, fences -/

/-- R103, R104, R106, R108, R109: a load or store whose bytes all translate, and which is aligned where its order or a
DV page asks for it, is outstanding from then on: the word passes on, no register has changed and no byte but those
that a walk's port takes in record mode and replay (R394, R395), and its entry names its slot, its destination, its
value and the runs of bytes. -/
def Obligations.LoadsAndStoresIssue : Prop :=
  ∀ (s : State) (t : Thread) (d a b : Reg) (sl w : BitVec 3) (z o : BitVec 2) (p : BitVec 6)
    (rs : List (Nat × Nat × Kind)) (v : Work),
    let c := agentCache s.m.cur
    let tr := s.m.transOf s.m.cur t
    let size : Nat := 2 ^ z.toNat
    let vaM := t.g a + BitVec.ofInt 64 (p.toInt * size)
    let vaX := t.g a + t.g b
    let aligned := fun (va : Word) (need : Need) => s.work.misaligned c tr va.toNat size (o = 0) need = none
    let done := fun (i : Instr) (va : Word) (store : Bool) =>
      ∃ s' u q, exec i s = .next s' ∧ s.Keeps s' 0 0 ∧ s'.me = some u ∧
        u.pc = t.advance.pc ∧ u.loops = t.advance.loops ∧ (∀ r : Reg, u.g r = t.g r) ∧ u.conds = t.conds ∧
        u.pend = t.pend ++ [q] ∧ q.set = sl.toNat ∧ q.va = va ∧
        q.dest = (if store ∨ d = 0 then none else some d) ∧ q.op = (if store then .store else .load size) ∧
        q.pieces = piecesOf va.toNat rs ((t.g d).toNat % 2 ^ (8 * size)) ∧ q.pieces.all (fun x => !x.done) = true
    (s.Issues t (.ld d a sl w z o p) [a] [d] sl w →
      s.work.spanOf c tr vaM.toNat size .read = (.ok rs, v) → aligned vaM .read → done (.ld d a sl w z o p) vaM false) ∧
    (s.Issues t (.ldx d a b sl w z o) [a, b] [d] sl w →
      s.work.spanOf c tr vaX.toNat size .read = (.ok rs, v) → aligned vaX .read → done (.ldx d a b sl w z o) vaX false) ∧
    (s.Issues t (.st d a sl w z o p) [a, d] [] sl w →
      s.work.spanOf c tr vaM.toNat size .write = (.ok rs, v) → aligned vaM .write → done (.st d a sl w z o p) vaM true) ∧
    (s.Issues t (.stx d a b sl w z o) [a, b, d] [] sl w →
      s.work.spanOf c tr vaX.toNat size .write = (.ok rs, v) → aligned vaX .write → done (.stx d a b sl w z o) vaX true)

/-- R103, R104 and R345: a load or store that is not naturally aligned and has an order code, or meets a DV page, traps
with cause 0x02, TRAP.VAL its lowest byte at fault: its address, or the second page's first byte where only that page is
DV; another that does not translate traps precisely: cause 0x03 for a load and 0x04 for a store on a translation fault,
0x06 on a permission fault, TRAP.VAL the faulting VA. Nothing else changes. A walk whose way a failed bridge takes traps
with cause 0x11, and one that waits for a detour holds the word (R374). What the walk of such a word read through a
port stays in the log, and its leaves in the cache then (R394, R395; log 59); where it read through none, nothing of
it stays. -/
def Obligations.LoadsAndStoresTrapPrecisely : Prop :=
  (∀ (s : State) (v : Work), (v.m.record = s.m.record → s.kept v = s) ∧
    (s.kept v).m = { s.m with record := (s.kept v).m.record, tlbs := (s.kept v).m.tlbs }) ∧
  ∀ (s : State) (t : Thread) (d a b : Reg) (sl w : BitVec 3) (z o : BitVec 2) (p : BitVec 6)
    (f : XFault) (at_ : Nat) (v : Work),
    let c := agentCache s.m.cur
    let tr := s.m.transOf s.m.cur t
    let size : Nat := 2 ^ z.toNat
    let vaM := t.g a + BitVec.ofInt 64 (p.toInt * size)
    let vaX := t.g a + t.g b
    let traps := fun (i : Instr) (va : Word) (need : Need) (cause : Nat) =>
      let off := s.work.misaligned c tr va.toNat size (o = 0) need
      (va.toNat % size ≠ 0 → o ≠ 0 → exec i s = .next (s.traps t 0x02 va)) ∧
      (∀ b, off = some b → exec i s = .next (s.traps t 0x02 (BitVec.ofNat 64 b)) ∧
        (b = va.toNat ∨ b = va.toNat - va.toNat % 4096 + 4096 ∧ b < va.toNat + size)) ∧
      (off = none → s.work.spanOf c tr va.toNat size need = (.error (f, at_), v) →
        exec i s = if f = .wait then .next (s.kept v) else .next ((s.kept v).traps t
          (if f = .perm then 0x06 else if f = .lost then 0x11 else cause) (BitVec.ofNat 64 at_)))
    (s.Issues t (.ld d a sl w z o p) [a] [d] sl w → traps (.ld d a sl w z o p) vaM .read 0x03) ∧
    (s.Issues t (.ldx d a b sl w z o) [a, b] [d] sl w → traps (.ldx d a b sl w z o) vaX .read 0x03) ∧
    (s.Issues t (.st d a sl w z o p) [a, d] [] sl w → traps (.st d a sl w z o p) vaM .write 0x04) ∧
    (s.Issues t (.stx d a b sl w z o) [a, b, d] [] sl w → traps (.stx d a b sl w z o) vaX .write 0x04)

/-- R2, R106, R108: the reply of a load of one piece writes g[d] with the bytes at its address, the lowest first,
zero-extended, and clears its slot; no other register and no byte changes. A load of bytes that carry an uncorrectable
error leaves g[d] marked with its address (R105). -/
def Obligations.LoadReplyWritesRegister : Prop :=
  ∀ (s : State) (k p n : Nat) (t : Thread) (q : Pend) (x : Piece) (d : Reg),
    aget s.m.thr k = some t → t.pendAt p = some q → q.op = .load n → q.pieces = [x] → q.dest = some d → d ≠ 0 →
    t.mayPerform q 0 = true → s.m.way (agentDie k) x.key = .go → s.FreePort x.key →
    ∃ s' u, exec (.loadReply k p 0) s = .next s' ∧ s'.mem = s.mem ∧ s'.bad = s.bad ∧
      aget s'.m.thr k = some u ∧ u.pc = t.pc ∧ u.pend = t.pend.filter (fun e => e.id != p) ∧
      (∀ r : Reg, r ≠ d → u.g r = t.g r) ∧
      u.g d = BitVec.ofNat 64 (((List.range x.len).map (fun i => (s.mem.read (x.key + i)).toNat * 256 ^ i)).sum) ∧
      (s.work.poisoned x.key x.len = true → aget u.poison d.toNat = some q.va) ∧
      (s.work.poisoned x.key x.len = false → aget u.poison d.toNat = none)

/-- R106, R109: a piece of a store, when it may be performed, writes the low bytes of its value at its address, the
lowest first, and no other byte of memory; reserved bits of a sync word among them stay 0 (R116). -/
def Obligations.StorePerformedWritesItsBytes : Prop :=
  ∀ (s : State) (k p j : Nat) (t : Thread) (q : Pend) (x : Piece), s.mem.wf →
    aget s.m.thr k = some t → t.pendAt p = some q → q.op = .store → q.pieces[j]? = some x →
    t.mayPerform q j = true → s.m.way (agentDie k) x.key = .go → s.FreePort x.key →
    ∃ s', exec (.storePerformed k p j) s = .next s' ∧
      (∀ i, i < x.len → s'.mem.read (x.key + i) = s.m.settles (x.key + i) (BitVec.ofNat 8 (x.data / 256 ^ i))) ∧
      (s.Plain x.key x.len → ∀ i, i < x.len → s'.mem.read (x.key + i) = BitVec.ofNat 8 (x.data / 256 ^ i)) ∧
      (∀ a, a < x.key ∨ x.key + x.len ≤ a → s'.mem.read a = s.mem.read a) ∧
      ∀ r : Reg, (aget s'.m.thr k).map (fun u => u.g r) = some (t.g r)

/-- R110, R112: an atomic whose location is aligned, translates for reading and writing and is no DV page is
outstanding from then on, to be performed at its home: no register has changed, and no byte but what a walk's port
takes. One whose location is not aligned traps with cause 0x02, and one on a DV page with cause 0x06 (R103), what its
walk read through a port staying in the log (R394; log 59). -/
def Obligations.AtomicsIssue : Prop :=
  ∀ (s : State) (t : Thread) (d a b : Reg) (z : BitVec 1) (o : BitVec 2) (p sc : BitVec 4)
    (key n : Nat) (kind : Kind) (rest : List (Nat × Nat × Kind)) (v : Work),
    let c := agentCache s.m.cur
    let tr := s.m.transOf s.m.cur t
    let size := if z = 0 then 4 else 8
    let span := s.work.spanOf c tr (t.g a).toNat size .both
    let done := fun (i : Instr) (op : PendOp) (dest : Option Reg) =>
      ∃ s' u q, exec i s = .next s' ∧ s.Keeps s' 0 0 ∧ s'.me = some u ∧
        u.pc = t.advance.pc ∧ (∀ r : Reg, u.g r = t.g r) ∧ u.conds = t.conds ∧ u.pend = t.pend ++ [q] ∧
        q.op = op ∧ q.dest = dest ∧ q.pieces.map (fun x => (x.key, x.len, x.done)) = [(key, size, false)]
    let cases := fun (i : Instr) (op : PendOp) (dest : Option Reg) =>
      ((t.g a).toNat % size = 0 → span = (.ok ((key, n, kind) :: rest), v) →
        (kind ≠ .dv → done i op dest) ∧ (kind = .dv → exec i s = .next ((s.kept v).traps t 0x06 (t.g a)))) ∧
      ((t.g a).toNat % size ≠ 0 → exec i s = .next (s.traps t 0x02 (t.g a)))
    (s.Issues t (.amo d a b z o p sc) [a, b] [d] 0 0 →
      cases (.amo d a b z o p sc) (.amo p.toNat size (t.g b)) (if d = 0 then none else some d)) ∧
    (s.Issues t (.cas d a b z o sc) [a, b, d] [d] 0 0 →
      cases (.cas d a b z o sc) (.cas size (t.g d) (t.g b)) (if d = 0 then none else some d)) ∧
    (s.Issues t (.red a b z p sc) [a, b] [] 0 0 →
      cases (.red a b z p sc) (.red p.toNat size (t.g b)) none)

/-- R110: at its home an atomic is done indivisibly. AMO and CAS return the old value, zero-extended; AMO and RED
leave the location with the result of their operation on the old value and the low bytes of g[b]; CAS leaves g[b]
where the old value was g[d], and else writes nothing. No other byte changes. R110, the operations: what each code of
AMO and RED gives from the old value and the operand, at a width of n bytes: add wraps, min and max compare as signed,
minu and maxu as unsigned, swp gives the operand. A location whose bytes are no reserved bits of a sync word (R116)
holds the result whole. -/
def Obligations.AtomicsAreIndivisible : Prop :=
  (∀ (s : State) (k p n : Nat) (t : Thread) (q : Pend) (x : Piece), s.mem.wf → (n = 4 ∨ n = 8) →
    aget s.m.thr k = some t → t.pendAt p = some q → q.pieces = [x] → x.len = n →
    t.mayPerform q 0 = true → s.m.way (agentDie k) x.key = .go → s.FreePort x.key →
    let old := s.work.read x.key n
    let leaves := fun (new : Nat) (back : Option Nat) =>
      ∃ s' u, exec (.atomicAtHome k p) s = .next s' ∧ aget s'.m.thr k = some u ∧
        (s.Plain x.key n → s'.work.read x.key n = new) ∧
        (∀ a, a < x.key ∨ x.key + n ≤ a → s'.mem.read a = s.mem.read a) ∧
        u.pend = t.pend.filter (fun e => e.id != p) ∧
        (∀ r : Reg, q.dest ≠ some r → u.g r = t.g r) ∧
        ∀ d, q.dest = some d → d ≠ 0 → ∀ b, back = some b → u.g d = BitVec.ofNat 64 b
    (∀ (o : Nat) (v : Word), q.op = .amo o n v → o ≤ 8 → leaves (amoOp o n old (v.toNat % 2 ^ (8 * n))) (some old)) ∧
    (∀ (o : Nat) (v : Word), q.op = .red o n v → o ≤ 7 → leaves (amoOp o n old (v.toNat % 2 ^ (8 * n))) none) ∧
    (∀ e v : Word, q.op = .cas n e v →
      leaves (if old = e.toNat % 2 ^ (8 * n) then v.toNat % 2 ^ (8 * n) else old) (some old))) ∧
  (∀ n old v : Nat, (n = 4 ∨ n = 8) → old < 2 ^ (8 * n) → v < 2 ^ (8 * n) →
    let sg := fun (x : Nat) => (BitVec.ofNat (8 * n) x).toInt
    amoOp 0 n old v = (BitVec.ofNat (8 * n) old + BitVec.ofNat (8 * n) v).toNat ∧
    amoOp 1 n old v = (BitVec.ofNat (8 * n) old &&& BitVec.ofNat (8 * n) v).toNat ∧
    amoOp 2 n old v = (BitVec.ofNat (8 * n) old ||| BitVec.ofNat (8 * n) v).toNat ∧
    amoOp 3 n old v = (BitVec.ofNat (8 * n) old ^^^ BitVec.ofNat (8 * n) v).toNat ∧
    sg (amoOp 4 n old v) = min (sg old) (sg v) ∧ sg (amoOp 5 n old v) = max (sg old) (sg v) ∧
    (amoOp 4 n old v = old ∨ amoOp 4 n old v = v) ∧ (amoOp 5 n old v = old ∨ amoOp 5 n old v = v) ∧
    amoOp 6 n old v = min old v ∧ amoOp 7 n old v = max old v ∧ amoOp 8 n old v = v)

/-- R113: CADD is outstanding and holds its thread at its word, nothing changed yet but what a walk's port takes; CTEST
gives the counter as its port answers; CWAIT passes once the counter has reached the target, and until then only waits;
a CWAIT that some value has satisfied stays so, and passes whatever has become of the counter's page; one that waits
asks nothing until then (R114). R113: at its home an add to a counter
leaves the exact sum, and its thread passes to the next word; one that would pass 2^64 - 1 leaves every byte as it
was, and its thread traps with cause 0x0A, TRAP.VAL the counter's address. -/
def Obligations.CounterWordsAndAdds : Prop :=
  (∀ (s : State) (t : Thread) (d a b : Reg) (sc : BitVec 4) (key n : Nat) (kind : Kind)
    (rest : List (Nat × Nat × Kind)) (v : Work),
    let c := agentCache s.m.cur
    let tr := s.m.transOf s.m.cur t
    let value := (v.portsNow true [(key, 8, kind)]).read key 8
    let still := fun (s' : State) => s.Keeps s' 0 0
    let met := t.waits.any (fun x => x.met && x.pc == t.pc)
    (met = true → s.Issues t (.cwait a b sc) [a, b] [] 0 0 → ∃ s' u, exec (.cwait a b sc) s = .next s' ∧ still s' ∧
      s'.me = some u ∧ u.pc = t.advance.pc ∧ u.waits = none ∧ ∀ r : Reg, u.g r = t.g r) ∧
    ((t.g a).toNat % 8 = 0 → kind ≠ .dv →
    (s.Issues t (.cadd a b sc) [a, b] [] 0 0 →
      s.work.spanOf c tr (t.g a).toNat 8 .both = (.ok ((key, n, kind) :: rest), v) →
      ∃ s' u q, exec (.cadd a b sc) s = .next s' ∧ still s' ∧ s'.me = some u ∧ u.pc = t.pc ∧
        u.pend = t.pend ++ [q] ∧ q.holds = true ∧ q.rel = true ∧ q.op = .cadd (t.g b) ∧
        (∀ r : Reg, u.g r = t.g r) ∧ u.held = true) ∧
    (s.work.spanOf c tr (t.g a).toNat 8 .read = (.ok ((key, n, kind) :: rest), v) → t.clear kind = true →
      (s.Issues t (.ctest d a sc) [a] [d] 0 0 → s.Reaches key → ∃ s' u, exec (.ctest d a sc) s = .next s' ∧ still s' ∧
        s'.me = some u ∧ u.pc = t.advance.pc ∧ (d ≠ 0 → u.g d = BitVec.ofNat 64 value) ∧
        ∀ r : Reg, r ≠ d → u.g r = t.g r) ∧
      (s.Issues t (.cwait a b sc) [a, b] [] 0 0 → met = false →
        let target := (t.g b).toNat
        (t.unsatisfied key target = true → exec (.cwait a b sc) s = .next (s.kept v)) ∧
        (t.unsatisfied key target = false → s.Reaches key →
          (target ≤ value → ∃ s' u, exec (.cwait a b sc) s = .next s' ∧ still s' ∧ s'.me = some u ∧
            u.pc = t.advance.pc ∧ u.waits = none ∧ ∀ r : Reg, u.g r = t.g r) ∧
          (value < target → ∃ s', exec (.cwait a b sc) s = .next s' ∧ still s' ∧ s'.me = some { t with
            waits := some { pc := t.pc, key := key, target := target, met := false } })))))) ∧
  (∀ (s : State) (k p : Nat) (t : Thread) (q : Pend) (x : Piece) (v : Word), s.mem.wf →
    aget s.m.thr k = some t → t.pendAt p = some q → q.op = .cadd v → q.pieces = [x] → q.dest = none →
    t.mayPerform q 0 = true → s.m.way (agentDie k) x.key = .go → s.FreePort x.key →
    let old := s.work.read x.key 8
    ∃ s' u, exec (.counterAddAtHome k p) s = .next s' ∧ aget s'.m.thr k = some u ∧
      u.pend = t.pend.filter (fun e => e.id != p) ∧ (∀ r : Reg, u.g r = t.g r) ∧
      (∀ a, a < x.key ∨ x.key + 8 ≤ a → s'.mem.read a = s.mem.read a) ∧
      (old + v.toNat < 2 ^ 64 → u.pc = t.advance.pc ∧ (s.Plain x.key 8 → s'.work.read x.key 8 = old + v.toNat ∧
        ∀ j y z, j ≠ k → aget s.m.thr j = some y → y.waits = some z → z.key = x.key → z.target ≤ old + v.toNat →
          (aget s'.m.thr j).bind (·.waits) = some { z with met := true })) ∧
      (2 ^ 64 ≤ old + v.toNat → s'.mem = s.mem ∧
        u = ({ t with pend := t.pend.filter (fun e => e.id != p) } : Thread).trap 0x0A t.pc q.va s.m.tb))

/-- R118: SWSET of an aligned sync word of its own cluster sets TARGET, clears COUNT and OVF, arms it unless TARGET is
0 and leaves GEN; SWWAIT passes once GEN has reached g[b], and until then its thread stays as it is. The word that a
SWWAIT names is a sync word from then on: its reserved bits read 0 (R116; log 65), and no other bit changes. -/
def Obligations.SyncWordWords : Prop :=
  ∀ (s : State) (t : Thread) (a b : Reg) (sc : BitVec 4) (g key n : Nat) (kind : Kind)
    (rest : List (Nat × Nat × Kind)) (v : Work), s.mem.wf →
    let c := agentCache s.m.cur
    let tr := s.m.transOf s.m.cur t
    let va := (t.g a).toNat
    let gen := v.read (key + 8) 4
    va % 16 = 0 → tr.cluster = some g → winBase ≤ va → va + 16 ≤ winBase + s.m.scratchLen g → t.clear kind = true →
    (s.Issues t (.swset a b sc) [a, b] [] 0 0 → (t.g b).toNat < 2 ^ 32 →
      s.work.spanOf c tr va 16 .both = (.ok ((key, n, kind) :: rest), v) →
      ∃ s' u, exec (.swset a b sc) s = .next s' ∧ s'.me = some u ∧ u.pc = t.advance.pc ∧
        (∀ r : Reg, u.g r = t.g r) ∧ s'.work.read key 4 = (t.g b).toNat ∧ s'.work.read (key + 4) 4 = 0 ∧
        s'.work.read (key + 8) 4 = gen ∧ s'.work.read (key + 12) 4 = (if t.g b = 0 then 0 else 1) ∧
        s.Keeps s' key 16) ∧
    (s.Issues t (.swwait a b sc) [a, b] [] 0 0 →
      s.work.spanOf c tr va 16 .read = (.ok ((key, n, kind) :: rest), v) →
      let ahead := (gen + 2 ^ 32 - (t.g b).toNat % 2 ^ 32) % 2 ^ 32
      ∃ s' u, exec (.swwait a b sc) s = .next s' ∧ s.Keeps s' (key + 12) 4 ∧ s'.me = some u ∧
        (∀ i, i < 4 → s'.work.byte (key + 12 + i) = s'.m.settles (key + 12 + i) (v.byte (key + 12 + i))) ∧
        (ahead < 2 ^ 31 → u.pc = t.advance.pc ∧ ∀ r : Reg, u.g r = t.g r) ∧
        (2 ^ 31 ≤ ahead → u = t))

/-- R117: arrivals at an armed sync word with a target. COUNT grows by the bytes, to at most 2^32 - 1 with OVF set
where it would pass that; then each whole TARGET in COUNT is taken out and advances GEN by one. Arrivals at an unarmed
word are ignored. -/
def Obligations.SyncWordCountsArrivals : Prop :=
  ∀ (x : SyncWord) (n : Nat), x.count < 2 ^ 32 →
    (x.armed = false → x.arrive n = x) ∧
    (x.armed = true → 0 < x.target → ∃ gens, (x.arrive n).count < x.target ∧
      gens * x.target + (x.arrive n).count = min (x.count + n) (2 ^ 32 - 1) ∧
      (x.arrive n).gen = (x.gen + gens) % 2 ^ 32 ∧ (x.arrive n).ovf = (x.ovf || decide (2 ^ 32 ≤ x.count + n)) ∧
      (x.arrive n).target = x.target ∧ (x.arrive n).armed = true)

/-- R119 and R107: FENCE passes when none of the accesses its kind names is outstanding, and SBWAIT when none of the
outstanding words set a slot it names and no such slot is poisoned; until then the word waits and nothing changes. -/
def Obligations.FencesAndSlotWaits : Prop :=
  ∀ (s : State) (t : Thread),
    (∀ (k : BitVec 3) (sc : BitVec 4), s.Issues t (.fence k sc) [] [] 0 0 →
      let waits := fun (p : Pend) => match p.op with
        | .load _ | .amo _ _ _ | .cas _ _ _ => true
        | .store | .red _ _ _ | .cadd _ => decide (k ≠ 1)
        | _ => false
      (t.pend.any waits = false → exec (.fence k sc) s = .next (s.withMe t.advance)) ∧
      (t.pend.any waits = true → exec (.fence k sc) s = .next s)) ∧
    ∀ m : BitVec 7, m ≠ 0 → s.me = some t →
      let named := fun (k : Nat) => decide (1 ≤ k) && m.getLsbD (k - 1)
      ((∀ p ∈ t.pend, named p.set = false) → (∀ k, named k = true → t.slotPoisoned k = none) →
        exec (.sbwait m) s = .next (s.withMe t.advance)) ∧
      ((∃ p ∈ t.pend, named p.set = true) → exec (.sbwait m) s = .next s)

/-! ## Engine jobs, descriptors, places, groups and triggers -/

/-- R125: an engine word whose card is readable and passes every check, with fewer than 16 jobs of its thread
outstanding and no hold-up, is accepted: the job is queued with what the card says, its word is outstanding under
its slot, g[d] is the thread's next tag, the word passes on, and no byte changes but what ports take and the
reserved bits of the sync word that a SYNC card names (R116; log 65). A GATH or SCAT reads its index tensor as it is
accepted; that it is held at its thread until the accesses and jobs that its footprint orders before that read are
done is the model's reading (log 129). R125 and R131: an engine word whose card fails a check traps with cause 0x0D,
TRAP.VAL the address of the card word at fault, and performs nothing; which of several faults is reported, and which
word of a field of 8 bytes, is the model's choice (logs 117, 118). A check that waits for a detour holds the word
(R374). What the checks of a trapping or held word read through a port stays in the log (log 59). -/
def Obligations.EngineWordsAreAcceptedOrTrap : Prop :=
  (∀ (s : State) (t : Thread) (d a : Reg) (sl ws : BitVec 3) (bytes : List Byte) (early job : Job) (v v' w : Work),
    t.jobsOut < 16 → s.m.hold.phase = 0 → Ctl.card t (t.g a) s.work = .ok (bytes, v) →
    let card := fun (kind : Nat) (foot : Bool) => checkCard s.m.cur t t.nextPend (t.g a) bytes kind foot
    let accepted := fun (i : Instr) (fail : Option (Nat × Word)) =>
      let c := parseCard bytes
      ∃ s' u q j, exec i s = .next s' ∧ s'.me = some u ∧
        (if c.sync then s.Keeps s' (scratchKey (s.m.cur / 8) (c.syncw.toNat - winBase) + 12) 4 else s.Keeps s' 0 0) ∧
        u.pc = t.advance.pc ∧ u.pend = t.pend ++ [q] ∧ q.set = sl.toNat ∧ q.op = .job s.m.nextJob ∧
        u.jobTag = t.jobTag + 1 ∧ (d ≠ 0 → u.g d = BitVec.ofNat 64 (t.jobTag + 1)) ∧
        (∀ r : Reg, r ≠ d → u.g r = t.g r) ∧ aget s'.m.jobs s.m.nextJob = some j ∧
        j.card = parseCard bytes ∧ j.pos = 0 ∧ j.fail = fail ∧ j.agent = s.m.cur ∧ j.cardVa = t.g a
    let indexed := fun (i : Instr) (kind : Nat) => card kind true v = .ok (early, v') →
      (v.indexWaits t s.m.cur early = true → exec i s = .next (s.kept v')) ∧
      (v.indexWaits t s.m.cur early = false → card kind false v' = .ok (job, w) → accepted i job.fail)
    (s.Issues t (.copy d a sl ws) [a] [d] sl ws → card 1 false v = .ok (job, w) → accepted (.copy d a sl ws) none) ∧
    (s.Issues t (.gath d a sl ws) [a] [d] sl ws → indexed (.gath d a sl ws) 2) ∧
    (s.Issues t (.scat d a sl ws) [a] [d] sl ws → indexed (.scat d a sl ws) 3) ∧
    (s.Issues t (.coll d a sl ws) [a] [d] sl ws → card 4 false v = .ok (job, w) → accepted (.coll d a sl ws) none)) ∧
  (∀ (s : State) (t : Thread) (d a : Reg) (sl ws : BitVec 3) (bytes : List Byte) (off : Nat) (early : Job) (v v' u : Work),
    t.jobsOut < 16 → s.m.hold.phase = 0 → Ctl.card t (t.g a) s.work = .ok (bytes, v) →
    let card := fun (kind : Nat) (foot : Bool) => checkCard s.m.cur t t.nextPend (t.g a) bytes kind foot
    let fails := fun (i : Instr) (kind : Nat) (foot : Bool) (x : Work) =>
      (card kind foot x = .error (some off, u) →
        exec i s = .next ((s.kept u).traps t 0x0D (t.g a + BitVec.ofNat 64 off))) ∧
      (card kind foot x = .error (none, u) → exec i s = .next (s.kept u))
    let indexed := fun (i : Instr) (kind : Nat) => fails i kind true v ∧
      (card kind true v = .ok (early, v') → v.indexWaits t s.m.cur early = false → fails i kind false v')
    let plain := fun (i : Instr) (kind : Nat) => fails i kind false v
    (s.Issues t (.copy d a sl ws) [a] [d] sl ws → plain (.copy d a sl ws) 1) ∧
    (s.Issues t (.gath d a sl ws) [a] [d] sl ws → indexed (.gath d a sl ws) 2) ∧
    (s.Issues t (.scat d a sl ws) [a] [d] sl ws → indexed (.scat d a sl ws) 3) ∧
    (s.Issues t (.coll d a sl ws) [a] [d] sl ws → plain (.coll d a sl ws) 4))

/-- R125, R128, R117: an accepted job whose writes are all performed and which makes no add completes: the job is
gone, its word is no longer outstanding, and no byte changes. One of a job's writes moves an element, once no
earlier job bars its accesses (R258): where source and destination lie on one page each, the bytes read, or a
collective's bytes, are the bytes written, and the job goes on to the next element. One of a SYNC job that falls
into its cluster's scratchpad counts its bytes into the job's sync word; no other byte changes, but for what a
walk's port takes in record mode and replay (R394, R395). A job that has failed is gone without an add; its job
record is queued and its thread, if it lives, is asked to park with cause 0x0D and the card's address. R126: what
the moves of a job are. Move m of a COPY takes element m of SRC to element m of DST; move m of a GATH takes element
m mod L of row IDX[m / L] of SRC to the same element of row m / L of DST, L the elements of a row, and a SCAT the
other way round. What a job waits for follows log 61. -/
def Obligations.JobsMoveCompleteAndFail : Prop :=
  (∀ (s : State) (n : Nat) (j : Job), aget s.m.jobs n = some j →
    (j.fail = none → s.m.jobReady j = true → j.card.kind ≠ 4 → j.pos = j.moves → j.card.ctr = 0 →
      ∃ s', exec (.jobComplete n) s = .next s' ∧ s'.mem = s.mem ∧ aget s'.m.jobs n = none ∧
        ∀ t, aget s.m.thr j.agent = some t →
          aget s'.m.thr j.agent = some { t with pend := t.pend.filter (fun p => p.op != .job n) }) ∧
    (∀ kd sz kl v1 v2 (dv : Nat) (d : List Byte), s.mem.wf → j.fail = none → s.m.jobReady j = true → j.pos < j.moves →
      s.m.moveFree j j.pos = true → s.m.brgFailed = 0 → d.length = sz →
      ((∃ sv ks kk, j.card.kind ≠ 4 ∧ j.move j.pos = some (dv, sv, sz) ∧
          s.work.spanOf (fiCache j.die) j.trans sv sz .read = (.ok [(ks, sz, kk)], v1) ∧ kk ≠ .dv ∧
          v1.poisoned ks sz = false ∧ s.FreePort ks ∧ d = v1.bytes ks sz) ∨
        (∃ data, j.card.kind = 4 ∧ j.data = some data ∧ j.pos < j.dstD.count ∧ dv = j.dstD.elem j.pos ∧ v1 = s.work ∧
          d = (data.drop (j.pos * fmtSize j.dstD.fmt)).take (fmtSize j.dstD.fmt))) →
      v1.spanOf (fiCache j.die) j.trans dv sz .write = (.ok [(kd, sz, kl)], v2) → kl ≠ .dv → s.FreePort kd →
      s.Plain kd sz →
      let g := j.agent / 8
      let key := scratchKey g (j.card.syncw.toNat - winBase)
      let counts := j.card.sync = true ∧ scratchKey g 0 ≤ kd ∧ kd < scratchKey (g + 1) 0
      (counts → j.card.syncw.toNat % 16 = 0 ∧ (kd + sz ≤ key ∨ key + 16 ≤ kd)) →
      ∃ s', exec (.syncWordArrival n) s = .next s' ∧ s'.work.bytes kd sz = d ∧
        (counts → s'.work.syncAt key = (v2.syncAt key).arrive sz) ∧
        (∀ a, a < kd ∨ kd + sz ≤ a → (counts → a < key ∨ key + 16 ≤ a) → ¬ s.m.portTakes a →
          s'.mem.read a = s.mem.read a) ∧
        aget s'.m.jobs n = some { j with pos := j.pos + 1 }) ∧
    (∀ code va p, j.fail = some (code, va) → j.trans.part = some p →
      ∃ s', exec (.jobFail n) s = .next s' ∧ s'.mem = s.mem ∧ aget s'.m.jobs n = none ∧
        (s'.m.part p).jobRecs = (s.m.part p).jobRecs ++
          [{ agent := j.agent, failure := code, cardVa := j.cardVa, va := va, tag := j.tag, tb := s.m.tb }] ∧
        ∀ t, aget s.m.thr j.agent = some t → t.pend.any (fun e => e.op == .job n) = true →
          ∃ u, aget s'.m.thr j.agent = some u ∧ u.parks = t.parks ++ [{ cause := 0x0D, val := j.cardVa }] ∧
            u.pend = t.pend.filter (fun e => e.op != .job n))) ∧
  (∀ (j : Job) (m : Nat),
    (j.card.kind = 1 → m < j.srcD.count →
      j.move m = some (j.dstD.elem m, j.srcD.elem m, fmtSize j.srcD.fmt)) ∧
    (j.card.kind = 2 → m < j.indices.length * j.srcD.rowLen → ∃ r, j.indices[m / j.srcD.rowLen]? = some r ∧
      j.move m = some (j.dstD.elem m, j.srcD.elem (r * j.srcD.rowLen + m % j.srcD.rowLen), fmtSize j.srcD.fmt)) ∧
    (j.card.kind = 3 → m < j.indices.length * j.srcD.rowLen → ∃ r, j.indices[m / j.srcD.rowLen]? = some r ∧
      j.move m = some (j.dstD.elem (r * j.srcD.rowLen + m % j.srcD.rowLen), j.srcD.elem m, fmtSize j.srcD.fmt)))

/-- R122 and R130: TDSET of bytes whose VALID is 0, or of a well-formed descriptor, stores its 128 bytes at its place of
the partition's table and gives 0; of a malformed one it gives 0x100 plus the offset of the first breaking word and
stores nothing. TDINV of a valid entry clears its VALID bit and gives 0, and of an invalid one gives 1. An id above 4095
gives 0x1000 and stores nothing, in both. A table whose package refuses the partition traps both with cause 0x06 (R354),
TRAP.VAL the PA of the entry (the model's choice, log 150). FOOT of a card that passes its checks writes into the card
NFOOT, UNDECL 0, an entry for each range in order, the rest of the five entries 0, and changes no other bit; it gives
NFOOT (the LEN of a range of 2^32 bytes or more is a free value, log 39). -/
def Obligations.DescriptorWordsAndFoot : Prop :=
  ∀ (s : State) (t : Thread) (d a b : Reg) (sl ws : BitVec 3) (pa : Nat), s.mem.wf → d ≠ 0 →
    let c := agentCache s.m.cur
    let tr := s.m.transOf s.m.cur t
    (∀ (rs : List (Nat × Nat × Kind)) (v : Work), s.Issues t (.tdset d a sl ws b) [a, b] [d] sl ws →
      (t.g a).toNat % 128 = 0 → s.work.spanOf c tr (t.g a).toNat 128 .read = (.ok rs, v) →
      (∀ r ∈ rs, r.2.2 ≠ .dv ∧ s.Reaches r.1) → t.clear .rc = true →
      s.m.descPa (s.m.partOf s.m.cur t) (t.g b).toNat = some pa →
      let bytes := (v.portsNow true rs).bytesOf rs
      let refused := s.m.descRefused (s.m.partOf s.m.cur t) (t.g b).toNat
      ((t.g b).toNat ≤ 4095 → refused = false → bytes.length = 128 →
        ((parseDesc bytes).valid = false ∨ descFault bytes = none →
          ∃ s' u, exec (.tdset d a sl ws b) s = .next s' ∧ s'.me = some u ∧ u.g d = 0 ∧ u.pc = t.advance.pc ∧
            s'.work.bytes pa 128 = bytes ∧ s.Keeps s' pa 128) ∧
        ∀ o, (parseDesc bytes).valid = true → descFault bytes = some o →
          ∃ s' u, exec (.tdset d a sl ws b) s = .next s' ∧ s.Keeps s' 0 0 ∧ s'.me = some u ∧
            u.g d = BitVec.ofNat 64 (0x100 + o) ∧ u.pc = t.advance.pc) ∧
      ((t.g b).toNat ≤ 4095 → refused = true → exec (.tdset d a sl ws b) s =
        .next ((s.kept (v.portsNow true rs)).traps t 0x06 (BitVec.ofNat 64 pa))) ∧
      (4095 < (t.g b).toNat → ∃ s' u, exec (.tdset d a sl ws b) s = .next s' ∧ s.Keeps s' 0 0 ∧
        s'.me = some u ∧ u.g d = 0x1000 ∧ u.pc = t.advance.pc)) ∧
    (s.Issues t (.tdinv d a sl ws) [a] [d] sl ws → 4095 < (t.g a).toNat →
      ∃ s' u, exec (.tdinv d a sl ws) s = .next s' ∧ s'.mem = s.mem ∧ s'.me = some u ∧ u.g d = 0x1000 ∧
        u.pc = t.advance.pc) ∧
    (s.Issues t (.tdinv d a sl ws) [a] [d] sl ws → (t.g a).toNat ≤ 4095 →
      s.m.descPa (s.m.partOf s.m.cur t) (t.g a).toNat = some pa →
      let refused := s.m.descRefused (s.m.partOf s.m.cur t) (t.g a).toNat
      (refused = true → exec (.tdinv d a sl ws) s = .next (s.traps t 0x06 (BitVec.ofNat 64 pa))) ∧
      (refused = false → s.FreePort pa → s.work.read pa 4 < 2 ^ 31 → ∃ s' u, exec (.tdinv d a sl ws) s = .next s' ∧ s'.mem = s.mem ∧
        s'.me = some u ∧ u.g d = 1 ∧ u.pc = t.advance.pc) ∧
      (refused = false → s.FreePort pa → 2 ^ 31 ≤ s.work.read pa 4 → ∃ s' u, exec (.tdinv d a sl ws) s = .next s' ∧ s'.me = some u ∧ u.g d = 0 ∧
        u.pc = t.advance.pc ∧ s'.work.read pa 4 = s.work.read pa 4 - 2 ^ 31 ∧
        ∀ x, x < pa ∨ pa + 4 ≤ x → s'.mem.read x = s.mem.read x)) ∧
    (∀ (bytes : List Byte) (job : Job) (key : Nat) (kd : Kind) (v v' v'' : Work),
      s.Issues t (.foot d a sl ws) [a] [d] sl ws → Ctl.card t (t.g a) s.work = .ok (bytes, v) →
      let w0 := fieldAt bytes 0 4
      let kind := bits w0 28 4
      let es := footEntries kind job
      1 ≤ kind → kind ≤ 4 → checkCard s.m.cur t t.nextPend (t.g a) bytes kind true v = .ok (job, v') →
      v'.spanOf c tr (t.g a).toNat 128 .write = (.ok [(key, 128, kd)], v'') → s.FreePort key → s.Plain key 128 →
      ∃ s' u, exec (.foot d a sl ws) s = .next s' ∧ s.Keeps s' key 128 ∧ s'.me = some u ∧ u.pc = t.advance.pc ∧
        u.g d = BitVec.ofNat 64 es.length ∧
        let out := s'.work.bytes key 128
        bits (fieldAt out 0 4) 12 4 = es.length ∧ bitAt (fieldAt out 0 4) 26 = false ∧
        (∀ i, i < 32 → i < 12 ∨ 16 ≤ i → i ≠ 26 → bitAt (fieldAt out 0 4) i = bitAt w0 i) ∧
        (out.drop 4).take 44 = (bytes.drop 4).take 44 ∧
        (∀ k r, es[k]? = some r → fieldAt out (48 + 16 * k) 8 = (r.lo % 2 ^ 64).toNat ∧
          (r.len < 2 ^ 32 → fieldAt out (56 + 16 * k) 4 = r.len) ∧
          fieldAt out (60 + 16 * k) 4 = if r.wr then 2 else 1) ∧
        ∀ k, es.length ≤ k → k < 5 → (out.drop (48 + 16 * k)).take 16 = zeroBytes 16)

/-- R149: PQREQ with a link to give puts a place of the caller at the tail, gives its handle in g[d], and sets c to
whether it is at the head; with none to give it gives 0 and clears c, and no queue changes. R149: PQWAIT and PQTRY at
the head acquire the place and pass; PQWAIT elsewhere waits with nothing changed, and PQTRY elsewhere clears c. A
handle that is no place of the caller traps with cause 0x0B, TRAP.VAL the handle. The link is a free value (logs 24,
41). -/
def Obligations.PlaceRequestsAndWaits : Prop :=
  (∀ (s : State) (t : Thread) (d a : Reg) (sl ws : BitVec 3) (c : CReg) (key part : Nat) (kind : Kind) (v : Work),
    d ≠ 0 → s.Issues t (.pqreq d a sl ws c) [a] [d] sl ws → (t.g a).toNat % 16 = 0 →
    s.work.translate (agentCache s.m.cur) (s.m.transOf s.m.cur t) (t.g a).toNat .both = (.ok (key, kind), v) →
    key < nearLen → t.clear .rc = true → s.Reaches key → s.m.partOf s.m.cur t = some part →
    let taken := s.m.linksIn (sliceOf key) (fun _ => true)
    let mine := (s.m.linksIn (sliceOf key) (fun p => p.part == part)).length
    ((∃ n, n < 8192 ∧ n ∉ taken) → mine < (s.m.part part).pqLimit →
      ∃ s' u p, exec (.pqreq d a sl ws c) s = .next s' ∧ s'.me = some u ∧ u.pc = t.advance.pc ∧
        agetD s'.m.places key [] = agetD s.m.places key [] ++ [p] ∧ p.holder = s.m.cur ∧ p.part = part ∧
        p.link ∉ taken ∧ p.link < 8192 ∧ p.abandoned = false ∧ u.g d = BitVec.ofNat 64 (p.handle key) ∧
        u.c c = decide (agetD s.m.places key [] = [])) ∧
    ((s.m.part part).pqLimit ≤ mine → ∃ s' u, exec (.pqreq d a sl ws c) s = .next s' ∧ s.Keeps s' 0 0 ∧
      s'.me = some u ∧ u.pc = t.advance.pc ∧ u.g d = 0 ∧ u.c c = false ∧ s'.m.places = s.m.places)) ∧
  (∀ (s : State) (t : Thread) (a : Reg) (sl ws : BitVec 3) (c : CReg),
    (∀ key i p, s.m.findPlace s.m.cur (t.g a) = some (key, i, p) → (agetD s.m.places key [])[i]? = some p →
      t.clear .rc = true → s.Reaches key →
      (s.Issues t (.pqwait a sl ws) [a] [] sl ws →
        (i = 0 → ∃ s' u q, exec (.pqwait a sl ws) s = .next s' ∧ s'.me = some u ∧ u.pc = t.advance.pc ∧
          (agetD s'.m.places key []).head? = some q ∧ q = { p with acquired := true } ∧ ∀ r : Reg, u.g r = t.g r) ∧
        (i ≠ 0 → exec (.pqwait a sl ws) s = .next s)) ∧
      (s.Issues t (.pqtry a sl ws c) [a] [] sl ws →
        ∃ s' u, exec (.pqtry a sl ws c) s = .next s' ∧ s'.me = some u ∧ u.pc = t.advance.pc ∧
          u.c c = decide (i = 0) ∧ (∀ r : Reg, u.g r = t.g r) ∧ (i ≠ 0 → s'.m.places = s.m.places ∧ s'.mem = s.mem) ∧
          (i = 0 → (agetD s'.m.places key []).head? = some { p with acquired := true }))) ∧
    (s.m.findPlace s.m.cur (t.g a) = none →
      (s.Issues t (.pqwait a sl ws) [a] [] sl ws → exec (.pqwait a sl ws) s = .next (s.traps t 0x0B (t.g a))) ∧
      (s.Issues t (.pqtry a sl ws c) [a] [] sl ws → exec (.pqtry a sl ws c) s = .next (s.traps t 0x0B (t.g a)))))

/-- R149: PQGIVE gives the place to a live thread of the place's partition; PQSWAP exchanges two unacquired places of
one queue; PQDROP of a place not at the head abandons it; PQDONE of the acquired head place advances the head past it.
Each passes to the next word. -/
def Obligations.PlacesChangeHands : Prop :=
  ∀ (s : State) (t : Thread) (a b : Reg) (sl ws : BitVec 3) (key i : Nat) (p : Place),
    s.m.findPlace s.m.cur (t.g a) = some (key, i, p) → (agetD s.m.places key [])[i]? = some p →
    t.pend.any (fun e => e.op.orders) = false → s.Reaches key →
    let passes := fun (ins : Instr) (queue : List Place) =>
      ∃ s' u, exec ins s = .next s' ∧ s'.me = some u ∧ u.pc = t.advance.pc ∧ (∀ r : Reg, u.g r = t.g r) ∧
        agetD s'.m.places key [] = queue
    let q := agetD s.m.places key []
    (∀ other, s.Issues t (.pqgive a sl ws b) [a, b] [] sl ws → aget s.m.thr (t.g b).toNat = some other →
      s.m.partOf (t.g b).toNat other = some p.part → other.run ≠ .halted →
      passes (.pqgive a sl ws b) (q.set i { p with holder := (t.g b).toNat, acquired := false })) ∧
    (∀ j p', s.Issues t (.pqswap a sl ws b) [a, b] [] sl ws → s.m.findPlace s.m.cur (t.g b) = some (key, j, p') →
      p.acquired = false → p'.acquired = false → passes (.pqswap a sl ws b) ((q.set i p').set j p)) ∧
    (s.Issues t (.pqdrop a sl ws) [a] [] sl ws → i ≠ 0 →
      passes (.pqdrop a sl ws) (q.set i { p with abandoned := true })) ∧
    (s.Issues t (.pqdone a sl ws) [a] [] sl ws → i = 0 → p.acquired = true →
      passes (.pqdone a sl ws) (q.tail.dropWhile (fun e => e.abandoned)))

/-- R145: GJOIN of a new word gives the count of members before it and counts one more member and one more join; of a
word the thread belongs to it gives -2, and from a thread of eight groups -1. GLEAVE of a member counts one member
fewer and ends the membership. -/
def Obligations.GroupWords : Prop :=
  ∀ (s : State) (t : Thread) (d a : Reg) (sl ws : BitVec 3) (key n : Nat) (kind : Kind)
    (rest : List (Nat × Nat × Kind)) (v : Work), s.mem.wf → d ≠ 0 → (t.g a).toNat % 16 = 0 → key < nearLen →
    s.work.spanOf (agentCache s.m.cur) (s.m.transOf s.m.cur t) (t.g a).toNat 16 .both =
      (.ok ((key, n, kind) :: rest), v) → (∀ r ∈ (key, n, kind) :: rest, s.Reaches r.1) →
    (s.Issues t (.gjoin d a sl ws) [a] [d] sl ws →
      (key ∈ t.groups → ∃ s' u, exec (.gjoin d a sl ws) s = .next s' ∧ s.Keeps s' 0 0 ∧ s'.me = some u ∧
        u.g d = 0xFFFFFFFFFFFFFFFE ∧ u.pc = t.advance.pc) ∧
      (key ∉ t.groups → 8 ≤ t.groups.length → ∃ s' u, exec (.gjoin d a sl ws) s = .next s' ∧ s.Keeps s' 0 0 ∧
        s'.me = some u ∧ u.g d = 0xFFFFFFFFFFFFFFFF ∧ u.pc = t.advance.pc) ∧
      (key ∉ t.groups → t.groups.length < 8 → ∃ s' u, exec (.gjoin d a sl ws) s = .next s' ∧ s'.me = some u ∧
        u.g d = BitVec.ofNat 64 (v.read key 4) ∧ u.pc = t.advance.pc ∧ u.groups = t.groups ++ [key] ∧
        s'.work.read key 4 = (v.read key 4 + 1) % 2 ^ 32 ∧
        s'.work.read (key + 4) 4 = (v.read (key + 4) 4 + 1) % 2 ^ 32 ∧ s.Keeps s' key 8)) ∧
    (s.Issues t (.gleave a sl ws) [a] [] sl ws → key ∈ t.groups → (∀ e ∈ s.m.jobs, e.2.agent ≠ s.m.cur) →
      ∃ s' u, exec (.gleave a sl ws) s = .next s' ∧ s'.me = some u ∧ u.pc = t.advance.pc ∧
        u.groups = t.groups.filter (fun x => x != key) ∧
        s'.work.read key 4 = (v.read key 4 + 2 ^ 32 - 1) % 2 ^ 32 ∧ s.Keeps s' key 4)

/-- R146 and R147: TRIG of a counter below the block's threshold, with room at its slice, binds it and gives 1 in bit
0 where it replaced a binding; UNTRIG gives 0 and removes a binding, and 1 where there is none. No byte changes but
what ports take in record mode and replay (R394, R395). -/
def Obligations.TriggerWords : Prop :=
  ∀ (s : State) (t : Thread) (d a b : Reg) (sl ws : BitVec 3) (key n : Nat) (kind : Kind)
    (rest : List (Nat × Nat × Kind)) (v w : Work), d ≠ 0 → (t.g a).toNat % 8 = 0 → key < nearLen →
    s.work.spanOf (agentCache s.m.cur) (s.m.transOf s.m.cur t) (t.g a).toNat 8 .read =
      (.ok ((key, n, kind) :: rest), v) → (∀ r ∈ (key, n, kind) :: rest, s.Reaches r.1) →
    (∀ (blk : List Byte) (l : Launch), s.Issues t (.trig d a sl ws b) [a, b] [d] sl ws →
      Ctl.block (t.g b) 32 32 v = .ok (blk, w) → fieldAt blk 8 8 % 4 = 0 → fieldAt blk 0x10 8 % 8 = 0 →
      fieldAt blk 0x19 3 = 0 → fieldAt blk 0x1C 4 = 0 → t.sys = none → s.m.launch? t.launch = some l →
      fieldAt blk 0x18 1 < l.regions.length → w.read key 8 < fieldAt blk 0 8 →
      (s.m.trigs.filter (fun e => sliceOf e.1 == sliceOf key)).length < 256 → blk.length = 32 →
      ∃ s' u x, exec (.trig d a sl ws b) s = .next s' ∧ s.Keeps s' 0 0 ∧ s'.me = some u ∧ u.pc = t.advance.pc ∧
        u.g d = (if (aget s.m.trigs key).isSome then 1 else 0) ∧ s'.m.trigs = aset s.m.trigs key x ∧
        x.thresh.toNat = fieldAt blk 0 8 ∧ x.image.toNat = fieldAt blk 8 8 ∧
        x.region = fieldAt blk 0x18 1 ∧ x.launch = t.launch) ∧
    (s.Issues t (.untrig d a sl ws) [a] [d] sl ws →
      ∃ s' u, exec (.untrig d a sl ws) s = .next s' ∧ s.Keeps s' 0 0 ∧ s'.me = some u ∧ u.pc = t.advance.pc ∧
        u.g d = (if (aget s.m.trigs key).isSome then 0 else 1) ∧ aget s'.m.trigs key = none)

/-! ## Ports, loads and threads of a region -/

/-- R131, R136, R138 to R141: STRM opens the stream its block asks for and gives the port's next number; STRS takes
that number, puts its token at the end of the port's stream and is outstanding until the token enters; TAKE is
outstanding, with its tensor, count and list, behind the port's earlier TAKEs; DRAIN of an idle port closes its stream
and gives 0. Each passes to its next word and changes no byte but what its block's port takes (R394, R395). -/
def Obligations.StreamWords : Prop :=
  ∀ (s : State) (t : Thread) (d a : Reg) (sl ws : BitVec 3) (l : Launch) (r : Region) (b : List Byte) (v : Work),
    s.Bound t l r →
    let w0 := fieldAt b 0 4
    let port := bits w0 16 8
    let passes := fun (i : Instr) (post : State → Thread → Port → Prop) =>
      ∃ s' u r', exec i s = .next s' ∧ s.Keeps s' 0 0 ∧ s'.me = some u ∧ u.pc = t.advance.pc ∧
        (∀ x : Reg, x ≠ d → u.g x = t.g x) ∧ s'.m.region? t.launch t.region = some r' ∧ post s' u (r'.port port)
    let rest4 := firstNonzero b 0x10 4 = none
    let table := fun (v : Work) => ∀ k, v.m.descPa (v.m.partOf v.m.cur t) (bits w0 0 12) = some k → s.FreePort k
    (∀ (m : BitVec 1) (x : Desc) (src : PortIn), s.Issues t (.strm d a sl ws m) [a] [d] sl ws →
      Ctl.block (t.g a) 32 32 s.work = .ok (b, v) → rest4 →
      bits w0 28 4 = 0 → bits w0 12 3 = 0 → v.m.source r port = some src → src.net < 2 →
      v.desc (v.m.partOf v.m.cur t) (bits w0 0 12) = some x → table v →
      (if m = 1 then bits w0 24 4 ≤ 7 ∨ bits w0 24 4 = 15 else bits w0 24 4 = 0) →
      (r.port port).stream = none → fieldAt b 4 4 = 0 → fieldAt b 8 4 = 0 → fieldAt b 0x0C 4 = 0 →
      passes (.strm d a sl ws m) (fun _ u q =>
        (d ≠ 0 → u.g d = BitVec.ofNat 64 (r.port port).next) ∧ q.next = (r.port port).next ∧
        ∃ st, q.stream = some st ∧ st.strs = false ∧ st.desc = x ∧ st.nextRow = 0 ∧ st.idem = decide (m = 1) ∧
          st.retry = (if bits w0 24 4 = 15 then 2 else bits w0 24 4) ∧ st.eos = bitAt w0 15 ∧
          st.rows = (x.bytes + netBytes src.net - 1) / netBytes src.net)) ∧
    (∀ (src : PortIn), s.Issues t (.strs d a sl ws) [a] [d] sl ws →
      Ctl.block (t.g a) 128 128 s.work = .ok (b, v) → bits w0 24 8 = 0 → bits w0 2 14 = 0 → bits w0 0 2 = 0 →
      v.m.source r port = some src → src.net < 2 → (r.port port).stream = none → firstNonzero b 4 15 = none →
      passes (.strs d a sl ws) (fun _ u q =>
        (∀ x : Reg, u.g x = t.g x) ∧ q.next = ((r.port port).next + 1) % 65536 ∧
        (∃ p, u.pend = t.pend ++ [p] ∧ p.op = .strs port ∧ p.set = sl.toNat) ∧
        ∃ st tok, q.stream = some st ∧ st.strs = true ∧ st.waiting = [(tok, s.m.cur, t.nextPend)] ∧
          tok.item = (r.port port).next ∧ tok.kind = 0 ∧ tok.tag = false ∧ tok.net = src.net ∧
          tok.pay = BitVec.ofNat 512 (fieldAt b 0x40 (netBytes src.net)))) ∧
    (∀ (x : Desc) (tx ty c side net : Nat), s.Issues t (.take d a sl ws) [a] [d] sl ws →
      Ctl.block (t.g a) 32 32 s.work = .ok (b, v) → rest4 → bits w0 24 8 = 0 → bits w0 12 4 = 0 →
      v.m.sinkAt r port = some (tx, ty, c, side, net) → net < 2 →
      v.desc (v.m.partOf v.m.cur t) (bits w0 0 12) = some x → table v → fieldAt b 4 4 ≠ 0 →
      fieldAt b 4 4 * netBytes net ≤ x.bytes →
      passes (.take d a sl ws) (fun _ u q =>
        (∀ x : Reg, u.g x = t.g x) ∧ (∃ p, u.pend = t.pend ++ [p] ∧ p.op = .take port ∧ p.set = sl.toNat) ∧
        q.takes = (r.port port).takes ++
          [TakeSt.mk s.m.cur t.nextPend x (fieldAt b 4 4) (BitVec.ofNat 64 (fieldAt b 8 8)) 0 b])) ∧
    (s.Issues t (.drain d a sl ws) [a] [d] sl ws → Ctl.block (t.g a) 32 32 s.work = .ok (b, v) → rest4 →
      bits w0 24 8 = 0 → bits w0 0 16 = 0 → v.m.isSource r port = true → (r.port port).idle = true →
      passes (.drain d a sl ws) (fun _ u q => (d ≠ 0 → u.g d = 0) ∧ u.pend = t.pend ∧ q.stream = none))

/-- R151 and R152: RINJ gives 2 for a port with no stream, 1 for an item that has not finally failed, and 0 for one
that has, which becomes a further attempt of its port. ERRD of an empty error queue gives all ones; of another it
writes the oldest record's 32 bytes at its place, removes the record and gives how many remain. ERRC removes the
records of its port. That RINJ of a failed item of STRS leaves the port as it was is the model's choice (log 50), and
that ERRC takes every port number below 256, a boundary link's or not, is the model's reading (log 71). -/
def Obligations.FailedItemWords : Prop :=
  ∀ (s : State) (t : Thread) (d a b : Reg) (sl ws : BitVec 3) (l : Launch) (r : Region), s.mem.wf → s.Bound t l r →
    let passes := fun (i : Instr) (post : State → Thread → Region → Prop) =>
      ∃ s' u r', exec i s = .next s' ∧ s'.me = some u ∧ u.pc = t.advance.pc ∧
        (∀ x : Reg, x ≠ d → u.g x = t.g x) ∧ s'.m.region? t.launch t.region = some r' ∧ post s' u r'
    let q := r.port (t.g a).toNat
    (s.Issues t (.rinj d a sl ws b) [a, b] [d] sl ws → d ≠ 0 → (t.g a).toNat < 256 → (t.g b).toNat < 65536 →
      s.m.isSource r (t.g a).toNat = true →
      (q.stream = none → passes (.rinj d a sl ws b) (fun s' u _ => s'.mem = s.mem ∧ u.g d = 2)) ∧
      (∀ st, q.stream = some st →
        (q.failed.find? (fun f => f.1 == (t.g b).toNat) = none →
          passes (.rinj d a sl ws b) (fun s' u _ => s'.mem = s.mem ∧ u.g d = 1)) ∧
        (∀ f, q.failed.find? (fun f => f.1 == (t.g b).toNat) = some f → st.strs = true →
          passes (.rinj d a sl ws b) (fun s' _ r' => s'.mem = s.mem ∧ r'.port (t.g a).toNat = q)) ∧
        (∀ f, q.failed.find? (fun f => f.1 == (t.g b).toNat) = some f → st.strs = false →
          passes (.rinj d a sl ws b) (fun s' u r' => s'.mem = s.mem ∧ u.g d = 0 ∧
            (r'.port (t.g a).toNat).failed = q.failed.erase f ∧
            (r'.port (t.g a).toNat).attempts = q.attempts ++
              [Attempt.mk (t.g b).toNat f.2.1 (f.2.2 + 1) true false true])))) ∧
    (s.Issues t (.errd d a sl ws) [a] [d] sl ws → d ≠ 0 → (t.g a).toNat % 32 = 0 →
      (r.errq = [] → passes (.errd d a sl ws) (fun s' u _ => s'.mem = s.mem ∧ u.g d = 0xFFFFFFFFFFFFFFFF)) ∧
      (∀ e rest key kind v, r.errq = e :: rest → t.clear kind = true → s.Reaches key → s.Plain key 32 →
        s.work.spanOf (agentCache s.m.cur) (s.m.transOf s.m.cur t) (t.g a).toNat 32 .write = (.ok [(key, 32, kind)], v) →
        passes (.errd d a sl ws) (fun s' u r' => u.g d = BitVec.ofNat 64 rest.length ∧ r'.errq = rest ∧
          s'.work.bytes key 32 = e.bytes ∧ s.Keeps s' key 32))) ∧
    (s.Issues t (.errc a sl ws) [a] [] sl ws → (t.g a).toNat < 256 →
      passes (.errc a sl ws) (fun s' _ r' => s'.mem = s.mem ∧
        r'.errq = r.errq.filter (fun e => e.port != (t.g a).toNat)))

/-- R133, R306 and R372: CFGL of an aligned image whose first two words translate, and CFGR of a good header, are
outstanding and give the fabric manager a load of their image; so is CFGR of a header with words that carry an
uncorrectable error, which its load reports with cause 0x0A. CFGR of a bad header traps at its first bad word. -/
def Obligations.LoadWordsQueueALoad : Prop :=
  ∀ (s : State) (t : Thread) (d a : Reg) (sl ws : BitVec 3) (l : Launch) (r : Region) (v : Work), s.Bound t l r →
    let queues := fun (i : Instr) (restore : Bool) (words : List Nat) (reads : List (Nat × Nat)) =>
      ∃ s' u p x, exec i s = .next s' ∧ s.Keeps s' 0 0 ∧ s'.me = some u ∧ u.pc = t.advance.pc ∧
        (∀ x : Reg, u.g x = t.g x) ∧ u.pend = t.pend ++ [p] ∧ p.op = .cfg s.m.nextLoad ∧ p.set = sl.toNat ∧
        p.dest = (if d = 0 then none else some d) ∧ aget s'.m.loads s.m.nextLoad = some x ∧
        s'.m.nextLoad = s.m.nextLoad + 1 ∧ x.launch = t.launch ∧ x.region = t.region ∧ x.image = t.g a ∧
        x.report = .word s.m.cur t.nextPend ∧ x.nbv = t.nbv ∧ x.prio = l.prio ∧ x.accepted = false ∧
        x.restore = restore ∧ x.words = words ∧ x.reads = reads
    (∀ rs, s.Issues t (.cfgl d a sl ws) [a] [d] sl ws → (t.g a).toNat % 4 = 0 →
      s.work.spanOf (agentCache s.m.cur) (s.m.transOf s.m.cur t) (t.g a).toNat 8 .read = (.ok rs, v) →
      queues (.cfgl d a sl ws) false [] []) ∧
    ∀ b rs v', s.Issues t (.cfgr d a sl ws) [a] [d] sl ws → Ctl.block (t.g a) headLen 64 s.work = .ok (b, v) →
      Ctl.span (t.g a).toNat headLen .read v = .ok (rs, v') →
      let struck := v'.struckWords 0 rs
      (imageHeaderFault b = none ∨ struck ≠ [] →
        queues (.cfgr d a sl ws) true (wordsOf 64 b) (struck.map (fun i => (i, 0x0A)))) ∧
      ∀ o, imageHeaderFault b = some o → struck = [] →
        exec (.cfgr d a sl ws) s = .next ((s.kept v').traps t 0x0D (t.g a + BitVec.ofNat 64 o))

/-- R134, R61, R133, R306 and R307: the fabric manager of a die accepts the load that is next; a tile stages its
words once the old tail has passed, which is to say once tailPassed, the model's reading of R134 (log 106); a load
that every tile has staged commits or is discarded whole: its status becomes the result of the word it reports to, a
load with a fault leaves every cluster as it was, and one without starts an empty region. R133, R332: a context
image is checked in order, its words struck or unreadable, its shape (status 2), its CRC (4), the words of its
sections, its relocated values (0x12) and the routes that leave the partition (8), and is discarded at the first
that fails; a good one is restored; one whose relocated values wait for a detour waits with them (R374). What the
words of the sections must be is the model's imageWordFault (logs 15, 125), and what a good image leaves its
Work.restore (logs 15, 144): the bytes of an image are the model's own. A load that a CREQ asked for stands decided
until its status, 0 too, reaches its tile; until it is decided CREQ_COMPLETE changes nothing. -/
def Obligations.LoadsAcceptStageCommit : Prop :=
  ∀ (s : State) (n : Nat) (d : Load),
    (∀ die, s.m.nextLoadOf die = some (n, d) → s.m.brgWait = [] → someWait d.reads = false →
      ∃ s' e, exec (.loadAccept die) s = .next s' ∧ s.Keeps s' 0 0 ∧ aget s'.m.loads n = some e ∧ e.accepted = true ∧
        e = { d with accepted := true, words := e.words, reads := e.reads } ∧ s'.m.clusters = s.m.clusters ∧
        (d.restore = true → d.words <+: e.words)) ∧
    (∀ (p : Where) (r : Region), s.m.openLoad n = some (d, p, r) →
      (∀ x y, r.has r.cluster x y = true → s.m.tailPassed p r d x y = true →
        ∃ s' e, exec (.loadStageAtTile n x y) s = .next s' ∧ s'.mem = s.mem ∧ aget s'.m.loads n = some e ∧
          e = { d with staged := e.staged } ∧ (∀ k, k ∈ e.staged ↔ k ∈ d.staged ∨ k = 8 * y + x) ∧
          s'.m.clusters = s.m.clusters) ∧
      ((∀ c ∈ r.extent.cells, 8 * (c.2 + r.y0) + c.1 + r.x0 ∈ d.staged) →
        (∀ l, s.m.launch? d.launch = some l → l.ending = false) →
        (d.restore = false →
          let im := s.m.imageOf d r
          let status := d.imageStatus im (s.m.crossFaults p r im)
          ((∃ k id, d.report = .word k id) ∨ (∃ g x y c, d.report = .creq g x y c)) →
          ∃ s', exec (.configCommit n) s = .next s' ∧ s'.mem = s.mem ∧
            (∀ k id, d.report = .word k id → aget s'.m.loads n = none ∧ s.Ends s' k id (BitVec.ofNat 64 status)) ∧
            (∀ g x y c, d.report = .creq g x y c → aget s'.m.loads n = some { d with
              accepted := true, fault := some (status % 256, status / 2 ^ 16 % 2 ^ 16), staged := [] }) ∧
            (status ≠ 0 → s'.m.clusters = s.m.clusters ∧ s'.m.launches = s.m.launches) ∧
            (status = 0 → ∃ r', s'.m.region? p.l p.r = some r' ∧ r'.state = (if r.state = 0 then 1 else r.state))) ∧
        (d.restore = true → ∀ k id, d.report = .word k id →
          let b := d.words.flatMap (toBytes 4)
          let crc := b.length - 48
          let fits := bits (fieldAt b 4 4) 0 3 + 1 = r.rows ∧ bits (fieldAt b 4 4) 3 3 + 1 = r.cols ∧
            bits (fieldAt b 4 4) 6 1 = (r.x0 + r.y0) % 2
          let discards := fun (status : Nat) => ∃ s', exec (.configCommit n) s = .next s' ∧ s.Keeps s' 0 0 ∧
            aget s'.m.loads n = none ∧ s.Ends s' k id (BitVec.ofNat 64 status) ∧
            s'.m.clusters = s.m.clusters ∧ s'.m.launches = s.m.launches
          (∀ f, lowestFault d.reads = some f → discards (f.2 + f.1 % 2 ^ 16 * 2 ^ 16)) ∧
          (lowestFault d.reads = none →
            (¬ fits → discards 2) ∧
            (fits → crc32c ((b.take crc).drop 0x900) ≠ fieldAt b crc 4 → discards 4) ∧
            (fits → crc32c ((b.take crc).drop 0x900) = fieldAt b crc 4 →
              (∀ f, imageWordFault r.extent (s.m.pword r.cluster) b = some f → discards (f.2 + f.1 % 2 ^ 16 * 2 ^ 16)) ∧
              (imageWordFault r.extent (s.m.pword r.cluster) b = none → ∀ v,
                let moved := Work.relocate (fiCache (r.cluster / 24)) d.trans (relocOf b) b s.work
                (moved = (.error .wait, v) → exec (.configCommit n) s = .next (s.commit v)) ∧
                (∀ f, f ≠ .wait → moved = (.error f, v) → discards 0x12) ∧
                (∀ x, moved = (.ok x, v) →
                  let u := v.restore p r x
                  let out := (u.m.ctxsOf r).any (fun e => e.2.routes.any (fun q =>
                    u.m.enters p r (keyX e.1) (keyY e.1) q.dst))
                  (out = true → discards 8) ∧
                  (out = false → ∃ s', exec (.configCommit n) s = .next s' ∧ aget s'.m.loads n = none ∧
                    s.Ends s' k id 0 ∧ s'.m.clusters = (u.rejoin p).m.clusters)))))))) ∧
    (∀ g x y c k q, aget s.m.loads n = some d → d.report = .creq g x y c → s.m.ctx? g x y c = some k →
      k.creq = some q → q.load = n →
      (∀ cause i, d.fault = some (cause, i) →
        ∃ s' k', exec (.creqComplete n) s = .next s' ∧ s'.mem = s.mem ∧ aget s'.m.loads n = none ∧
          s'.m.ctx? g x y c = some k' ∧ k' = { k with creq := some { q with status := some (cause + i * 2 ^ 16) } }) ∧
      (d.fault = none → exec (.creqComplete n) s = .next s))

/-- R138 to R141, R151 and R366: the ports' own events. The token of an STRS enters the buffer its port feeds and the
word completes with its number; the next row of a stream's tensor enters likewise and takes the port's next number; an
attempt to be made again is read again and enters; a data token at the head of a sink port's buffer is written at the
next place of the first TAKE's tensor, and its item number in the list if there is one, and completes it when it is the
last of its COUNT; the first DRAIN of a drained port gives the count of failed items and closes the port. Of reserved
bits of sync words (R116) and what ports take (R394, R395) the byte clauses say nothing. -/
def Obligations.PortEventsTakeEffect : Prop :=
  ∀ (s : State) (l r p : Nat), s.mem.wf →
    (∀ x q src d k (tok : Tok), s.work.inlet l r p = some (x, q, src) → src.dests = [d] →
      s.m.ctx? q.cluster src.x src.y src.c = some k → (k.hop d).marks = [] → (k.hop d).anti = [] → k.stale d = false →
      k.netOf d = tok.net →
      let enters := fun (s' : State) => s.Keeps s' 0 0 ∧
        ∃ k', s'.m.ctx? q.cluster src.x src.y src.c = some k' ∧ (k'.hop d).q = (k.hop d).q ++ [tok] ∧
          ∀ d', d' ≠ d → (k'.hop d').q = (k.hop d').q
      (∀ st j id rest, (q.port p).stream = some st → st.strs = true → st.waiting = (tok, j, id) :: rest →
        tok.kind = 0 → (q.port p).attempts = [] →
        ∃ s', exec (.sourcePortInject l r p) s = .next s' ∧ enters s' ∧
          s.Ends s' j id (BitVec.ofNat 64 tok.item)) ∧
      (∀ st v, (q.port p).stream = some st → st.strs = false → (q.port p).attempts.any (fun a => a.waiting) = false →
        s.m.performed st.after = true → st.nextRow < st.rows → (q.port p).busy (q.port p).next = false →
        s.work.rowTok x q.cluster p src.net (q.port p).next st.nextRow st.desc = (some tok, v) →
        ∃ s' r', exec (.sourcePortInject l r p) s = .next s' ∧ enters s' ∧ s'.m.region? l r = some r' ∧
          (r'.port p).next = ((q.port p).next + 1) % 65536 ∧
          (r'.port p).stream = some { st with nextRow := st.nextRow + 1 }) ∧
      (∀ st a row n v, (q.port p).stream = some st →
        (q.port p).attempts.find? (fun a => a.item == n && a.waiting) = some a → a.row = some row →
        (q.port p).attempt n = none → s.work.rowTok x q.cluster p src.net n row st.desc = (some tok, v) →
        ∃ s', exec (.itemReinject l r p n) s = .next s' ∧ enters s')) ∧
    (∀ x q tx ty c side net k rest u (tok : Tok) (rs ls : List (Nat × Nat × Kind)) (v v' w : Work),
      s.m.launch? l = some x → s.m.region? l r = some q →
      s.m.sinkAt q p = some (tx, ty, c, side, net) → (q.port p).takes = k :: rest →
      s.m.ctx? q.cluster tx ty c = some u → (u.hop side).q.head? = some tok → q.state = 1 → tok.kind = 0 →
      tok.tag = false → 1 ≤ k.count →
      w = (s.work.modCtx q.cluster tx ty c (fun u => u.pop side s.m.tb)).active { l := l, r := r } →
      let wb := netBytes net
      let runs := fun (es : List (Nat × Nat)) (y : Work) =>
        Work.elemRuns (q.cluster / 24) (x.fabricTrans q.cluster) .write es y
      let d := toBytes wb tok.pay.toNat
      let total := fun (l : List (Nat × Nat × Kind)) => (l.map (fun r => r.2.1)).sum
      runs (k.desc.packed (k.written * wb) wb) w = (.ok rs, v) → total rs = wb →
      (k.list = 0 ∧ ls = [] ∨ k.list ≠ 0 ∧ total ls = 2 ∧ (∀ r ∈ ls, s.FreePort r.1) ∧
        runs [((k.list.toNat + 2 * k.written) % 2 ^ 64, 2)] (v.deviceWrite rs d) = (.ok ls, v')) →
      (rs ++ ls).Pairwise (fun a b => a.1 + a.2.1 ≤ b.1 ∨ b.1 + b.2.1 ≤ a.1) → (∀ r ∈ rs ++ ls, s.Plain r.1 r.2.1) →
      (∀ y, aget s.m.thr k.agent = some y → y.takeMay k.pend rs = true ∧ y.takeMay k.pend ls = true) →
      ∃ s' u' r', exec (.takeToken l r p) s = .next s' ∧
        s'.work.bytesOf (rs ++ ls) = d ++ (if k.list = 0 then [] else toBytes 2 tok.item) ∧
        (∀ a, (∀ r ∈ rs ++ ls, a < r.1 ∨ r.1 + r.2.1 ≤ a) → ¬ s.m.portTakes a → s'.mem.read a = s.mem.read a) ∧
        s'.m.ctx? q.cluster tx ty c = some u' ∧ (u'.hop side).q = (u.hop side).q.tail ∧ s'.m.region? l r = some r' ∧
        (k.count = 1 → (r'.port p).takes = rest ∧
          s.Ends s' k.agent k.pend (BitVec.ofNat 64 ((k.written + 1) % 2 ^ 32))) ∧
        (1 < k.count → (r'.port p).takes = { k with written := k.written + 1, count := k.count - 1 } :: rest)) ∧
    (∀ x q k rest a, s.m.launch? l = some x → s.m.region? l r = some q → (q.port p).drains = k :: rest →
      (q.port p).drained = true → k.agent = some a → k.list = 0 → x.ending = false → (q.port p).unsent = [] →
      ∃ s' r', exec (.drainComplete l r p) s = .next s' ∧ s'.mem = s.mem ∧
        s.Ends s' a k.pend (BitVec.ofNat 64 (q.port p).failed.length) ∧
        s'.m.region? l r = some r' ∧ (r'.port p).stream = none ∧ (r'.port p).drains = rest ∧
        (r'.port p).failed = [])

/-! ## Threads, saves, scans, debug words, traps, system registers -/

/-- R142, R143, R144: SPAWN of a well-formed block starts the lowest-numbered free thread of the cluster it names, at
its entry, with its parameters in g1 to g14, and gives its number; with none free it gives all ones. EXIT of a thread
with nothing outstanding but jobs ends it. YIELD gives up the thread's next turn; on a core it has no effect. -/
def Obligations.ThreadsStartAndEnd : Prop :=
  ∀ (s : State) (t : Thread) (d a : Reg) (sl ws : BitVec 3),
    (∀ (l : Launch) (r : Region) b v, s.Issues t (.spawn d a sl ws) [a] [d] sl ws → s.Bound t l r → d ≠ 0 →
      Ctl.block (t.g a) 128 128 s.work = .ok (b, v) → t.pend.any (fun p => p.op.orders) = false →
      let x := parseSpawn b (s.m.cur / 8)
      x.entry.toNat % 4 = 0 → fieldAt b 9 1 = 0 → fieldAt b 0x0B 1 = 0 → fieldAt b 0x0C 4 = 0 →
      x.region < l.regions.length → l.regions.any (fun r => r.cluster == x.cluster) = true →
      (∀ k, s.m.freeThread x.cluster = some k → ∃ s' u n, exec (.spawn d a sl ws) s = .next s' ∧ s.Keeps s' 0 0 ∧
        s'.me = some u ∧ u.pc = t.advance.pc ∧ u.g d = BitVec.ofNat 64 k ∧ (∀ y : Reg, y ≠ d → u.g y = t.g y) ∧
        aget s'.m.thr k = some n ∧ n.pc = x.entry ∧ n.run = .ready ∧ n.sys = none ∧ n.launch = t.launch ∧
        n.region = x.region ∧ n.pend = [] ∧ n.loops = [] ∧ n.conds = 0 ∧
        ∀ j, j < 14 → n.g (BitVec.ofNat 5 (j + 1)) = BitVec.ofNat 64 (fieldAt b (0x10 + 8 * j) 8)) ∧
      (s.m.freeThread x.cluster = none → ∃ s' u, exec (.spawn d a sl ws) s = .next s' ∧ s.Keeps s' 0 0 ∧
        s'.me = some u ∧ u.pc = t.advance.pc ∧ u.g d = 0xFFFFFFFFFFFFFFFF ∧ (∀ y : Reg, y ≠ d → u.g y = t.g y))) ∧
    (s.Issues t .exit [] [] 0 0 → t.sys = none → t.leaving = true →
      ∃ s', exec .exit s = .next s' ∧ s'.me = none ∧ ∀ k, k ≠ s.m.cur → aget s.m.thr k = none → aget s'.m.thr k = none) ∧
    (s.Issues t .yield [] [] 0 0 →
      ∃ s', exec .yield s = .next s' ∧ s'.mem = s.mem ∧ s'.me = some { t with yielded := t.sys.isNone }.advance)

/-- R153, R380: MSAV of an aligned range that translates to writable near memory or scratchpad, laps no range of its
account and fits the account's limit is admitted and gives 0; one of no length or unaligned gives 3; once a hold-up
has begun it gives 1. MSCL of an admitted base removes its range and gives 0, and of another gives 1. That ranges lap
where their VAs do, whatever bytes stand behind, is the model's reading (log 79). -/
def Obligations.MustSaveWords : Prop :=
  ∀ (s : State) (t : Thread) (d a b : Reg) (sl ws : BitVec 3), d ≠ 0 →
    let passes := fun (i : Instr) (v : Word) (saves : Thread → Prop) =>
      ∃ s' u, exec i s = .next s' ∧ s.Keeps s' 0 0 ∧ s'.me = some u ∧ u.pc = t.advance.pc ∧ u.g d = v ∧
        (∀ y : Reg, y ≠ d → u.g y = t.g y) ∧ saves u
    let base := (t.g a).toNat
    let len := (t.g b).toNat
    let hyp := decide (t.priv = .h)
    let part := (s.m.partOf s.m.cur t).getD 16
    (s.Issues t (.msav d a sl ws b) [a, b] [d] sl ws →
      (s.m.hold.phase ≠ 0 → passes (.msav d a sl ws b) 1 (fun u => u.saves = t.saves)) ∧
      (s.m.hold.phase = 0 → (base % 64 ≠ 0 ∨ len % 64 ≠ 0 ∨ len = 0) →
        passes (.msav d a sl ws b) 3 (fun u => u.saves = t.saves)) ∧
      (∀ rs v, s.m.hold.phase = 0 → base % 64 = 0 → len % 64 = 0 → len ≠ 0 → t.saves.length < 16 →
        (∀ e ∈ s.m.saves, e.2.va.toNat + e.2.len ≤ base ∨ base + len ≤ e.2.va.toNat) →
        s.m.charged hyp part + len + 64 ≤ s.m.limit hyp part →
        s.work.spanOf (agentCache s.m.cur) (s.m.transOf s.m.cur t) base len .write = (.ok rs, v) →
        (∀ r ∈ rs, r.1 < nearLen ∨ 2 ^ 60 ≤ r.1) →
        passes (.msav d a sl ws b) 0 (fun u => ∃ r, u.saves = t.saves ++ [r] ∧ r.va = t.g a ∧ r.len = len ∧
          r.hyp = hyp ∧ r.part = part ∧ r.pages = rs.map (fun q => (q.1, q.2.1))))) ∧
    (s.Issues t (.mscl d a sl ws) [a] [d] sl ws → s.m.hold.phase = 0 →
      (t.saves.any (fun r => r.va == t.g a) = true →
        passes (.mscl d a sl ws) 0 (fun u => u.saves = t.saves.filter (fun r => r.va != t.g a))) ∧
      (t.saves.any (fun r => r.va == t.g a) = false → passes (.mscl d a sl ws) 1 (fun u => u.saves = t.saves)))

/-- R154, R397 to R399: SCAN at H of an idle cluster holds its core until the scan ends; of one that is not idle it
gives 3, and of no cluster 4. A scan whose signature matches ends with 0, one whose does not with 1 and its cluster
out of the map, one that a placement request stops, before or at its compare, with 2; that a launch which waited for the
cluster before the scan began stops it too is the model's reading (log 109). Each leaves the cluster's scratchpad zero
and every other byte as it was (the failing one where no launch waits, whose status might be written). -/
def Obligations.ScansOfClusters : Prop :=
  ∀ (s : State) (t : Thread) (d a : Reg) (sl ws : BitVec 3) (g : Nat) (x : Scan), s.mem.wf →
    (∀ c, s.Issues t (.scan d a sl ws) [a] [d] sl ws → t.sys = some c → c.h = true → d ≠ 0 →
      (191 < (t.g a).toNat → ∃ s' u, exec (.scan d a sl ws) s = .next s' ∧ s'.mem = s.mem ∧ s'.me = some u ∧
        u.g d = 4 ∧ u.pc = t.advance.pc) ∧
      ((t.g a).toNat ≤ 191 → s.m.idle (t.g a).toNat = false → ∃ s' u, exec (.scan d a sl ws) s = .next s' ∧
        s'.mem = s.mem ∧ s'.me = some u ∧ u.g d = 3 ∧ u.pc = t.advance.pc) ∧
      ((t.g a).toNat ≤ 191 → s.m.idle (t.g a).toNat = true → ∃ s' u y, exec (.scan d a sl ws) s = .next s' ∧
        s'.mem = s.mem ∧ s'.me = some u ∧ u.held = true ∧ aget s'.m.scans (t.g a).toNat = some y ∧
        y.core = s.m.cur ∧ y.tb = s.m.tb ∧ u.pc = t.advance.pc ∧ ∀ r : Reg, u.g r = t.g r)) ∧
    (aget s.m.scans g = some x →
      let ends := fun (i : Instr) (result : Word) (map : Nat → Prop) =>
        ∃ s', exec i s = .next s' ∧ aget s'.m.scans g = none ∧ s.Ends s' x.core x.pend result ∧ map s'.m.clmap ∧
          (∀ k, scratchKey g 0 ≤ k → k < scratchKey (g + 1) 0 → s'.mem.read k = 0) ∧
          (∀ k, k < scratchKey g 0 ∨ scratchKey (g + 1) 0 ≤ k → s'.mem.read k = s.mem.read k)
      (x.tb + 200000 ≤ s.m.tb → s.m.wanted g = false → (s.m.injArm = false ∨ s.m.injG ≠ g) →
        ends (.scanCompare g true) 0 (fun m => m = s.m.clmap)) ∧
      (x.tb + 200000 ≤ s.m.tb → (∀ e ∈ s.m.launches, e.2.waits = false) → ends (.scanCompare g false) 1 (fun m => bitAt m g = false)) ∧
      (s.m.wanted g = true → ends (.scanAbort g) 2 (fun m => m = s.m.clmap) ∧
        ∀ ok, ends (.scanCompare g ok) 2 (fun m => m = s.m.clmap)))

/-- R155 to R157: TRCE of a good block with ENABLE starts a trace and gives 0, without it ends the trace and gives
what it has written; MARK passes, and puts g[a] and TB as a marker of kind 3 at the next place of the trace's buffer
(or, where the record is more than 64 cycles late, which is free in the model (log 121), counts it for a gap record);
BRK arms the lowest free slot and gives its number, or clears the slot it names; DUMP of a region that does not run
passes with what its writing gives, into fewer than 64 bytes 1 and nothing written, into 64 to 511 the header alone
and 1, where nothing on the way waits for a detour; a running region it freezes first. The bytes from 512 on are those
of the model's own Work.dump (log 52). -/
def Obligations.DebugWords : Prop :=
  ∀ (s : State) (t : Thread) (d a b : Reg) (sl ws : BitVec 3) (l : Launch) (r : Region) (blk : List Byte) (v : Work),
    s.Bound t l r → d ≠ 0 →
    let passes := fun (i : Instr) (post : Thread → Region → Prop) =>
      ∃ s' u r', exec i s = .next s' ∧ s.Keeps s' 0 0 ∧ s'.me = some u ∧ u.pc = t.advance.pc ∧
        (∀ y : Reg, y ≠ d → u.g y = t.g y) ∧ s'.m.region? t.launch t.region = some r' ∧ post u r'
    (s.Issues t (.trce d a sl ws) [a] [d] sl ws → Ctl.block (t.g a) 32 32 s.work = .ok (blk, v) →
      fieldAt blk 0 8 % 64 = 0 → fieldAt blk 8 8 % 64 = 0 → 64 ≤ fieldAt blk 8 8 → fieldAt blk 0x10 4 < 16 →
      firstNonzero blk 0x14 3 = none →
      (bitAt (fieldAt blk 0x10 4) 0 = true → passes (.trce d a sl ws) (fun u r' => u.g d = 0 ∧
        ∃ x, r'.trace = some x ∧ x.buf.toNat = fieldAt blk 0 8 % 2 ^ 64 ∧ x.len = fieldAt blk 8 8 ∧ x.written = 0 ∧
          x.stopped = false ∧ x.firings = bitAt (fieldAt blk 0x10 4) 1)) ∧
      (bitAt (fieldAt blk 0x10 4) 0 = false → passes (.trce d a sl ws) (fun u r' => r'.trace = none ∧
        u.g d = BitVec.ofNat 64 (match r.trace with
          | some x => x.written
          | none => 0)))) ∧
    (s.Issues t (.mark a sl ws) [a] [] sl ws →
      (r.trace = none → passes (.mark a sl ws) (fun u r' => r' = r ∧ ∀ y : Reg, u.g y = t.g y)) ∧
      (∀ x key kind v', s.mem.wf → r.trace = some x → x.stopped = false → x.gap = 0 → (x.wrap = true ∨ x.written + 16 ≤ x.len) →
        s.work.fresh.2.spanOf noCache x.trans (x.buf.toNat + (if x.wrap then x.written % x.len else x.written)) 16 .write =
          (.ok [(key, 16, kind)], v') → s.Plain key 16 →
        ∃ s' u r' x', exec (.mark a sl ws) s = .next s' ∧ s'.me = some u ∧ u.pc = t.advance.pc ∧
          (∀ y : Reg, u.g y = t.g y) ∧ s'.m.region? t.launch t.region = some r' ∧ r'.trace = some x' ∧
          if Config.traceLate s.m.free then x' = { x with gap := 1 } ∧ s'.mem = s.mem
          else x'.written = x.written + 16 ∧
            s'.work.bytes key 16 = toBytes 8 (t.g a).toNat ++ toBytes 8 (s.m.tb % 2 ^ 60 + 3 * 2 ^ 60) ∧
            s.Keeps s' key 16)) ∧
    (s.Issues t (.brk d a sl ws) [a] [d] sl ws → Ctl.block (t.g a) 16 16 s.work = .ok (blk, v) →
      bits (fieldAt blk 0 4) 27 5 = 0 → fieldAt blk 8 4 < 65536 → fieldAt blk 0x0C 4 < 4 →
      (∀ k, bitAt (fieldAt blk 0 4) 24 = true → (List.range 4).find? (fun k => (aget r.brks k).isNone) = some k →
        passes (.brk d a sl ws) (fun u r' => u.g d = BitVec.ofNat 64 k ∧ ∃ x, aget r'.brks k = some x ∧
          x.node = bits (fieldAt blk 0 4) 0 24 ∧ x.loop = fieldAt blk 4 4 ∧ x.item = fieldAt blk 8 4)) ∧
      (bitAt (fieldAt blk 0 4) 24 = false → passes (.brk d a sl ws) (fun u r' =>
        u.g d = (if (aget r.brks (fieldAt blk 0x0C 4)).isSome then 0 else 1) ∧
        aget r'.brks (fieldAt blk 0x0C 4) = none))) ∧
    (s.Issues t (.dump d a sl ws b) [a, b] [d] sl ws → (t.g a).toNat % 64 = 0 → t.clear .so = true → s.NoDetour →
      (r.state ≠ 1 → r.quiet = false → (t.g b).toNat < 64 →
        passes (.dump d a sl ws b) (fun u _ => u.g d = 1)) ∧
      (r.state ≠ 1 → r.quiet = false → ∃ s' u, exec (.dump d a sl ws b) s = .next s' ∧ s'.me = some u ∧
        u.pc = t.advance.pc ∧ (∀ y : Reg, y ≠ d → u.g y = t.g y) ∧
        let x := t.startDump s.m.tb
        let o := s.work.dump (agentCache s.m.cur) (s.m.transOf s.m.cur t) (t.g a).toNat (t.g b).toNat x.tb
          (s.work.dumpSecs { l := t.launch, r := t.region } r x.first)
        u.g d = BitVec.ofNat 64 o.1 ∧ s'.mem = (s.commit o.2).mem) ∧
      (∀ key kind v1 v2, s.mem.wf → r.state ≠ 1 → r.quiet = false → 64 ≤ (t.g b).toNat → (t.g b).toNat < 512 → key % 64 = 0 →
        (∀ die, cacheDie (agentCache s.m.cur) = some die → s.m.way die key = .go) → s.Plain key 64 →
        let c := agentCache s.m.cur
        let tr := s.m.transOf s.m.cur t
        s.work.spanOf c tr (t.g a).toNat 8 .write = (.ok [(key, 8, kind)], v1) →
        (v1.deviceWrite [(key, 8, kind)] (toBytes 8 (0xD0C00001 * 2 ^ 32))).spanOf c tr (t.g a).toNat 64 .write =
          (.ok [(key, 64, kind)], v2) →
        ∃ s' u, exec (.dump d a sl ws b) s = .next s' ∧ s'.me = some u ∧ u.pc = t.advance.pc ∧ u.g d = 1 ∧
          s'.work.bytes key 64 = toBytes 8 (0xD0C00002 * 2 ^ 32 + 1) ++ toBytes 8 (t.startDump s.m.tb).tb ++
            toBytes 8 64 ++ zeroBytes 40 ∧ s.Keeps s' key 64) ∧
      (r.state = 1 → l.ending = false → ∃ s' u r', exec (.dump d a sl ws b) s = .next s' ∧ s'.me = some u ∧
        u.pc = t.pc ∧ s'.m.region? t.launch t.region = some r' ∧ r'.state = 2))

/-- R158, R159, R160: TRAP takes cause 0x08 with its immediate as TRAP.VAL and the next word as the PC saved: a thread
is parked, a core at S enters S and one at H enters H. HENT of a core takes cause 0x09 to H. Entering a level writes
its PREV, CAUSE, PC and VAL, and the core continues at its VEC. R158, R76: RETT resumes at the TRAP.PC of its level
with the privilege that PREV names: S, or H for a core at H. At S with PREV naming H it traps with cause 0x06, with
any other PREV with cause 0x01, and with a PC that is no multiple of 4 with cause 0x02 (the model's reading of R96 for
RETT, log 18). A core has one loop stack, which RETT leaves as it is, the model's reading of R102 (log 159). -/
def Obligations.TrapsAreTakenAndReturn : Prop :=
  (∀ (s : State) (t : Thread) (i : BitVec 12),
    let val : Word := i.setWidth 64
    (s.Issues t (.trap i) [] [] 0 0 → t.sys = none →
      exec (.trap i) s = .next (s.withMe { t with
        pc := t.pc + 4, waits := none, run := .parked 0x08 (t.pc + 4) val s.m.tb none false })) ∧
    (∀ c, t.sys = some c →
      let saved := fun (x : TrapSet) (cause : Nat) =>
        { x with prev := (if c.h then 2 else 1), cause := cause, pc := t.pc + 4, val := val }
      (s.Issues t (.trap i) [] [] 0 0 → c.h = false → exec (.trap i) s = .next (s.withMe { t with
        pc := c.sSet.vec, waits := none, sys := some { c with sSet := saved c.sSet 0x08, atVector := true } })) ∧
      (s.Issues t (.trap i) [] [] 0 0 → c.h = true → exec (.trap i) s = .next (s.withMe { t with
        pc := c.hSet.vec, waits := none, sys := some { c with hSet := saved c.hSet 0x08, atVector := true } })) ∧
      (s.Issues t (.hent i) [] [] 0 0 → exec (.hent i) s = .next (s.withMe { t with
        pc := c.hSet.vec, waits := none, sys := some { c with h := true, hSet := saved c.hSet 0x09, atVector := true } })))) ∧
  (∀ (s : State) (t : Thread) (c : CoreRegs), s.Issues t .rett [] [] 0 0 → t.sys = some c →
    let x := if c.h then c.hSet else c.sSet
    let word : Word := (wordOfInstr .rett).setWidth 64
    (x.prev = 1 → x.pc.toNat % 4 = 0 →
      ∃ s' u, exec .rett s = .next s' ∧ s'.mem = s.mem ∧ s'.me = some u ∧ u.pc = x.pc ∧ u.loops = t.loops ∧
        (∀ r : Reg, u.g r = t.g r) ∧ u.sys = some { c with h := false, atVector := false }) ∧
    (x.prev = 2 → c.h = true → x.pc.toNat % 4 = 0 →
      ∃ s' u, exec .rett s = .next s' ∧ s'.mem = s.mem ∧ s'.me = some u ∧ u.pc = x.pc ∧ u.loops = t.loops ∧
        (∀ r : Reg, u.g r = t.g r) ∧ u.sys = some { c with atVector := false }) ∧
    (x.prev = 2 → c.h = false → exec .rett s = .next (s.traps t 0x06 word)) ∧
    (x.prev ≠ 1 → x.prev ≠ 2 → exec .rett s = .next (s.traps t 0x01 word)) ∧
    ((x.prev = 1 ∨ x.prev = 2 ∧ c.h = true) → x.pc.toNat % 4 ≠ 0 → exec .rett s = .next (s.traps t 0x02 x.pc)))

/-- R81, R82, R72 to R76: UDF, a word that the tables do not allocate, and a word with an operand that its format
refuses, of whatever instruction, raise cause 0x01 at themselves, with the word as TRAP.VAL, whatever its slots and
registers hold. -/
def Obligations.IllegalWordsTrap : Prop :=
  ∀ (s : State) (t : Thread), s.me = some t →
    (∀ d a i, exec (.udf d a i) s = .next (s.traps t 0x01 ((wordOfInstr (.udf d a i)).setWidth 64))) ∧
    (∀ w : IWord, exec (.unallocatedWord w) s = .next (s.traps t 0x01 (w.setWidth 64))) ∧
    ∀ (i : Instr) (w : IWord), i.wf = false → encode i = some w → exec i s = .next (s.traps t 0x01 (w.setWidth 64))

/-- R158, R76, R160, R161, R179, R346, R412: SRR gives the register its number names; SRW stores g[a] in a register of
the core's own, SRS ORs it in and SRC clears its bits; a thread's SRW of NBV sets it. A number that names no register
raises cause 0x01, and one that the privilege may not reach cause 0x06, TRAP.VAL the word, whatever g[a] holds. That a
core has selectors and RCTL registers of its own is the model's reading (log 14), and so is what SRS and SRC do to bits
that a write of 1 clears (log 64). -/
def Obligations.SystemRegisterWords : Prop :=
  ∀ (s : State) (t : Thread) (a : Reg) (r : BitVec 12),
    let n := r.toNat
    let old : Word := BitVec.ofNat 64 (s.m.reg s.m.cur t n)
    (s.Issues t (.srr a r) [] [a] 0 0 → a ≠ 0 → regNamed n = true → n ≠ 0xD4 →
      (t.priv = .u → regAtU n = true) → (t.priv = .s → regAtH n = false) →
      ∃ s' u, exec (.srr a r) s = .next s' ∧ s'.mem = s.mem ∧ s'.me = some u ∧ u.g a = old ∧ u.pc = t.advance.pc ∧
        u.sys = t.sys ∧ ∀ y : Reg, y ≠ a → u.g y = t.g y) ∧
    (∀ c, t.sys = some c → ownReg n = true → (c.h = false → regAtH n = false) →
      let stores := fun (i : Instr) (v : Word) =>
        ∃ s' u, exec i s = .next s' ∧ s'.mem = s.mem ∧ s'.me = some u ∧ u.pc = t.advance.pc ∧
          (∀ y : Reg, u.g y = t.g y) ∧ u.sys = some (c.put n v)
      (s.Issues t (.srw a r) [a] [] 0 0 → stores (.srw a r) (t.g a)) ∧
      (s.Issues t (.srs a r) [a] [] 0 0 → stores (.srs a r) (old ||| t.g a)) ∧
      (s.Issues t (.src a r) [a] [] 0 0 → stores (.src a r) (old &&& ~~~(t.g a)))) ∧
    (s.Issues t (.srw a 0x10) [a] [] 0 0 → bits (t.g a).toNat 0 2 ≠ 3 →
      ∃ s' u, exec (.srw a 0x10) s = .next s' ∧ s'.mem = s.mem ∧ s'.me = some u ∧ u.nbv = bits (t.g a).toNat 0 2 ∧
        u.pc = t.advance.pc ∧ ∀ y : Reg, u.g y = t.g y) ∧
    (let word := fun (i : Instr) => (wordOfInstr i).setWidth 64
     s.me = some t →
     (regNamed n = false → exec (.srr a r) s = .next (s.traps t 0x01 (word (.srr a r))) ∧
       ∀ i ∈ [Instr.srw a r, .srs a r, .src a r], exec i s = .next (s.traps t 0x01 (word i))) ∧
     (regNamed n = true → ((t.priv = .u ∧ n ≠ 0x10) ∨ (t.priv = .s ∧ regAtH n = true)) →
       ∀ i ∈ [Instr.srw a r, .srs a r, .src a r], exec i s = .next (s.traps t 0x06 (word i))) ∧
     (regNamed n = true → ((t.priv = .u ∧ regAtU n = false) ∨ (t.priv = .s ∧ regAtH n = true)) →
       exec (.srr a r) s = .next (s.traps t 0x06 (word (.srr a r)))))

/-- R349, R161, R350: TLBI of an aligned address, with no store of its core outstanding, removes every cached
translation of its tag that it covers; a cache acknowledges once the accesses it noted have drained; TLBW passes
when no invalidation of its core is unacknowledged, and WFI when an enabled interrupt is pending; until then nothing
changes. From a thread each, like RETT and HENT, raises cause 0x06, whatever its registers hold. That TLBI acts on
every cache at once is the model's choice (log 8). -/
def Obligations.TranslationAndWaitWords : Prop :=
  ∀ (s : State) (t : Thread) (d a : Reg) (n : BitVec 12),
    (∀ c, t.sys = some c →
      (s.Issues t (.tlbi d a n) [a, d] [] 0 0 → (t.g a).toNat % 4096 = 0 → t.pend.any (fun p => p.op.writes) = false →
        let vmid := if c.h then c.tlbVmid else (s.m.transOf s.m.cur t).vmid
        ∃ s' u, exec (.tlbi d a n) s = .next s' ∧ s'.mem = s.mem ∧ s'.me = some u ∧ u.pc = t.advance.pc ∧
          (∀ y : Reg, u.g y = t.g y) ∧ ∀ k e es, aget s'.m.tlbs k = some es → e ∈ es →
            e.covered vmid ((t.g d).toNat % 2 ^ 16) ((t.g a).toNat / 4096) n.toNat = false) ∧
      (s.Issues t .tlbw [] [] 0 0 →
        (s.m.tlbis.any (fun x => x.2.core == s.m.cur) = false →
          ∃ s', exec .tlbw s = .next s' ∧ s'.mem = s.mem ∧ s'.me = some t.advance) ∧
        (s.m.tlbis.any (fun x => x.2.core == s.m.cur) = true → exec .tlbw s = .next s)) ∧
      (s.Issues t .wfi [] [] 0 0 →
        (s.m.intPend s.m.cur c &&& c.inten &&& intMask c.h ≠ 0 →
          ∃ s', exec .wfi s = .next s' ∧ s'.mem = s.mem ∧ s'.me = some t.advance) ∧
        (s.m.intPend s.m.cur c &&& c.inten &&& intMask c.h = 0 → exec .wfi s = .next s))) ∧
    (∀ k cache x, aget s.m.tlbis k = some x → (agetD x.noted cache []).all s.m.drained = true →
      ∃ s', exec (.tlbiAck k cache) s = .next s' ∧ s'.mem = s.mem ∧
        (∀ y, aget s'.m.tlbis k = some y → aget y.noted cache = none ∧ y.core = x.core) ∧
        (aerase x.noted cache = [] → aget s'.m.tlbis k = none)) ∧
    (t.sys = none → s.me = some t → ∀ i ∈ [Instr.tlbi d a n, .tlbw, .wfi, .rett, .hent n],
      exec i s = .next (s.traps t 0x06 ((wordOfInstr i).setWidth 64)))

/-- R159, R410, R411, R413: a request to park meets its thread at an instruction boundary. The record of a parked
thread, and a job record held back, is written at TAIL of its partition's queue when the queue has room: the 512 bytes
at the entry become the record, no other byte changes but what a walk's port takes, and TAIL moves on. A CWAIT that a
value has satisfied is complete before its thread parks (R114), and a DUMP that has frozen its region completes before
it does (R411). When the device writes a record is the model's reading (logs 34, 35). -/
def Obligations.ParksAndRecords : Prop :=
  ∀ (s : State), s.mem.wf →
    (∀ k t r rest, aget s.m.thr k = some t → t.parks = r :: rest → t.run = .ready → t.held = false → t.sys = none →
      (t.dumping.isSome = true → ∃ s', exec (.threadPark k) s = .next s' ∧ s'.m = s.m) ∧
      (t.dumping = none → ∃ s' u, exec (.threadPark k) s = .next s' ∧ s'.mem = s.mem ∧ aget s'.m.thr k = some u ∧ u.parks = rest ∧
        u.run = .parked r.cause (if t.waits.any (fun x => x.met) then t.advance.pc else t.pc) r.val s.m.tb none false ∧
        ∀ y : Reg, u.g y = t.g y)) ∧
    (∀ p key kind v, let q := s.m.part p
      s.m.hold.phase = 0 → q.trqBase ≠ 0 → q.trqStuck = false → (q.trqTail + 1) % 64 ≠ q.trqHead →
      s.work.spanOf noCache q.trqTrans (q.trqBase.toNat + 512 * q.trqTail) 512 .write = (.ok [(key, 512, kind)], v) →
      s.Plain key 512 →
      let writes := fun (i : Instr) (rec : List Byte) (post : State → Prop) =>
        ∃ s', exec i s = .next s' ∧ s'.work.bytes key 512 = rec ∧ s.Keeps s' key 512 ∧
          (s'.m.part p).trqTail = (q.trqTail + 1) % 64 ∧ post s'
      (∀ r rest, q.jobRecs = r :: rest →
        writes (.jobRecordWrite p) r.bytes (fun s' => (s'.m.part p).jobRecs = rest)) ∧
      (∀ k t cause pc val tb final, aget s.m.thr k = some t → t.run = .parked cause pc val tb none final →
        s.m.partOf k t = some p → t.pend.any (fun e => e.op.access) = false → q.jobRecs = [] →
        writes (.trapRecordWrite k) (t.record k cause pc val tb) (fun s' => ∃ u, aget s'.m.thr k = some u ∧
          u.run = .parked cause pc val tb (some q.trqTail) final)))

/-! ## The fabric: firings, hops, memory, banks, engines, block mode -/

/-- R25, R222, R277: a running tile whose S1 is a value word, whose untied inputs all hold a data token of one item,
whose register order allows it (R202) and to whose context the arbiter gives the turn (R309) fires: each of those
inputs loses its head, no other buffer loses a token, and, where no mark of a FORK stands (R264), a result of the item
waits for each source that has destinations; where a token taken is tagged, the first tagged one is the result and no
register changes. With a token of one other kind at every untied input, those inputs lose their heads and that token
waits in the same places: that a tied input asks for none is the model's choice (log 139), and that the token passes
unchanged its reading (log 99).

What such a firing computes (R201, R202, R205 to R221), where all six words are vector or reducer words: S1 reads the
tokens, a zero for a tied input, and each stage what R201 says of its sources; each gives what its row says (Gives),
exact but for VRSQ, VLOG2 and VEXP2, of which the exact cases are stated, and so do the element registers, the lanes
of LFLAG and, from the next firing, the constants; the result is S6's and the tap S3's. A VCVT without a value fails
there with cause 0x0B (R173): the result is that token, and nothing after it is written; a tap before it holds what
S3 gave, the model's choice (log 137).

CARRY (R284), nothing else in its tile: its initial value starts the loop with index 0 in every lane of the named
register; a true condition takes the back-edge value and the index grows by one; a false one ends the loop and emits
nothing. -/
def Obligations.TilesFire : Prop :=
  ∀ (s : State) (g x y c : Nat) (p : Where) (r : Region) (k : Ctx) (hs : List (Nat × Tok)),
    s.m.running g x y = some (p, r) → s.m.ctx? g x y c = some k → k.bank = false → k.skidFree = true →
    k.isGroup = false → k.isMem = false → (∀ w ∈ k.stages, bits w 24 8 ≠ 0xB8) → k.forks = [] → r.trace = none →
    r.brks = [] →
    let leaves := fun (i : Instr) (ins : List Nat) (post : State → Ctx → Prop) =>
      ∃ s' k', exec i s = .next s' ∧ s'.mem = s.mem ∧ s'.m.ctx? g x y c = some k' ∧
        (∀ i ∈ ins, (k'.hop (4 + i)).q = (k.hop (4 + i)).q.tail) ∧
        (∀ d, (∀ i ∈ ins, d ≠ 4 + i) → (k'.hop d).q = (k.hop d).q) ∧ post s' k'
    let fires := fun (i : Instr) (ins : List Nat) (item : Nat) (post : Ctx → Tok → Tok → Prop) =>
      leaves i ins (fun _ k' => ∃ t4 t5,
        k'.skid = k.skid ++ (if k.dests 4 = [] then [] else [SkidEnt.mk t4 4 (k.dests 4) false])
          ++ (if k.dests 5 = [] then [] else [SkidEnt.mk t5 5 (k.dests 5) false]) ∧
        t4.item = item ∧ t5.item = item ∧ post k' t4 t5)
    let carries := fun (pay : Wide) (u : Tok) => u.kind = 0 ∧ u.tag = false ∧ u.net = 0 ∧ u.pay = pay
    let turn := k.regOk s.m.cyc = true ∧ s.m.hasTurn p r x y c = true
    (∀ i t rest, k.op1 < 0x70 → k.set k.fireIns = some hs → hs = (i, t) :: rest → turn →
      (firstTag hs = none → fires (.tileFiring g x y c) k.fireIns t.item (fun _ u v => u.kind = 0 ∧ v.kind = 0)) ∧
      (∀ e, firstTag hs = some e → fires (.tileFiring g x y c) k.fireIns t.item (fun k' u v =>
        (u.kind = e.kind ∧ u.tag = true ∧ u.net = e.net ∧ u.pay = e.pay) ∧
        (v.kind = e.kind ∧ v.tag = true ∧ v.net = e.net ∧ v.pay = e.pay) ∧
        k'.ev = k.ev ∧ k'.kreg = k.kreg ∧ k'.lflag = k.lflag)) ∧
      (∀ toks : Nat → Wide, firstTag hs = none → k.Vector →
        (∀ i, i < 4 → toks i = if k.tied (4 + i) then 0 else ((k.head i).map (fun t => t.pay)).getD 0) →
        (∀ j i, 1 ≤ j → j ≤ 6 → i < 4 → ((stageW (k.stage j)).a = i + 1 ∨ (stageW (k.stage j)).b = i + 1) →
          bitAt k.fire i = true) →
        ∃ m P E F, k.Runs toks m P E F ∧ fires (.tileFiring g x y c) k.fireIns t.item (fun k' u v =>
          let poison := fun (u : Tok) => u.kind = 0 ∧ u.tag = true ∧ u.net = 0 ∧
            u.pay = poisonPay 0x0B (k.nodeOf (m + 1)).1 s.m.tb t.item
          (m = 6 → carries (P 6) u) ∧ (m < 6 → poison u) ∧ (3 ≤ m → carries (P 3) v) ∧ (m < 3 → poison v) ∧
          (∀ n, agetD k'.ev n 0 = E m n) ∧
          (∀ n, bitAt k'.lflag n = true ↔ bitAt k.lflag n = true ∨ ∃ j, 1 ≤ j ∧ j ≤ m ∧ F j n) ∧
          ∀ n, k.ConstAfter P m n (agetD k'.kreg n 0)))) ∧
    (∀ i t rest, k.op1 < 0x70 → k.fireIns.filterMap (fun i => (k.head i).map (fun t => (i, t))) = hs → hs = (i, t) :: rest →
      hs.length = k.fireIns.length → t.kind ≠ 0 → (∀ h ∈ hs, h.2.kind = t.kind) →
      fires (.nonDataTokenFiring g x y c) k.fireIns t.item (fun _ u v => u = t ∧ v = t)) ∧
    (let s1 := stageW (k.stage 1)
     let cond := s1.aux % 4
     let reg := bits s1.aux 2 3
     let index := fun (k' : Ctx) (n : Nat) => k'.looping = true ∧ k'.index = n ∧
       (∀ l, l < 16 → el 32 l (agetD k'.ev reg 0) = n % 2 ^ 32) ∧ ∀ e, e ≠ reg → agetD k'.ev e 0 = agetD k.ev e 0
     k.op1 = 0x78 → k.damaged = [] → (∀ j, 2 ≤ j → j ≤ 6 → k.stage j = 0) → turn →
      (∀ t, k.looping = false → k.head k.inA = some t → t.kind = 0 → t.tag = false →
        fires (.tileFiring g x y c) [k.inA] t.item (fun k' u v => carries t.pay u ∧ carries t.pay v ∧ index k' 0)) ∧
      (∀ t b, k.looping = true → k.head cond = some t → t.kind = 0 → t.tag = false → cond ≠ k.inB →
        k.tied (4 + k.inB) = false → k.head k.inB = some b → b.kind = 0 → b.tag = false → b.item = t.item → t.isTrue = true →
        fires (.tileFiring g x y c) [cond, k.inB] t.item (fun k' u v =>
          carries b.pay u ∧ carries b.pay v ∧ index k' (k.index + 1))) ∧
      (∀ t, k.looping = true → k.head cond = some t → t.kind = 0 → t.tag = false → t.isTrue = false →
        leaves (.tileFiring g x y c) [cond] (fun _ k' => k'.skid = k.skid ∧ k'.looping = false ∧ k'.ev = k.ev)))

/-- R406, R54, R262: a token at the head of an output hop crosses its link into the buffer that takes it, the oldest
result in the skid enters its buffer, and the next reply of the oldest request enters its buffer, each where there is
space. An anti-token on a hop that passes it on moves to the producer's output, or vanishes with its token there; that
the reverse channel there takes any number is the model's choice (log 101). -/
def Obligations.TokensHop : Prop :=
  ∀ (s : State) (g x y c : Nat) (p : Where) (r : Region) (k : Ctx), s.m.regionAt g x y = some (p, r) → r.cluster = g →
    s.m.ctx? g x y c = some k → r.state = 1 →
    (∀ h t rest nx ny n d, h < 4 → (k.hop h).q = t :: rest → r.beyond x y h = some (nx, ny) →
      s.m.ctx? g nx ny c = some n → n.dests (opposite h) = [d] → n.space d = true → n.Opens d t →
      ∃ s' k' n', exec (.tokenHop g x y c h) s = .next s' ∧ s'.mem = s.mem ∧ s'.m.ctx? g x y c = some k' ∧
        s'.m.ctx? g nx ny c = some n' ∧ (k'.hop h).q = rest ∧ (n'.hop d).q = (n.hop d).q ++ [t]) ∧
    (∀ h e d, (h = 4 ∨ h = 5) → k.skid.find? (fun e => e.source == h) = some e → e.dests = [d] → k.space d = true →
      k.Opens d e.tok →
      ∃ s' k', exec (.tokenHop g x y c h) s = .next s' ∧ s'.mem = s.mem ∧ s'.m.ctx? g x y c = some k' ∧
        k'.skid = k.skid.erase e ∧ (k'.hop d).q = (k.hop d).q ++ [e.tok]) ∧
    (∀ q qs t d, k.reqs = q :: qs → q.replies = [t] → q.ended = true → q.drop = false → k.dests 6 = [d] →
      k.space d = true → k.Opens d t →
      ∃ s' k', exec (.tokenHop g x y c 6) s = .next s' ∧ s'.mem = s.mem ∧ s'.m.ctx? g x y c = some k' ∧
        k'.reqs = qs ∧ (k'.hop d).q = (k.hop d).q ++ [t]) ∧
    (∀ h a rest sw nx ny n, (k.hop h).anti = a :: rest → k.route h = some sw → sw.kill = true → sw.src < 4 →
      r.beyond x y sw.src = some (nx, ny) → s.m.ctx? g nx ny c = some n → (k.dests sw.src).length = 1 →
      let out := n.hop (opposite sw.src)
      ∃ s' k' n', exec (.antiTokenHop g x y c h) s = .next s' ∧ s'.mem = s.mem ∧ s'.m.ctx? g x y c = some k' ∧
        s'.m.ctx? g nx ny c = some n' ∧ (k'.hop h).anti = rest ∧
        (out.q.any (fun t => t.is a) = true →
          (n'.hop (opposite sw.src)).q = out.q.eraseP (fun t => t.is a) ∧ (n'.hop (opposite sw.src)).anti = out.anti) ∧
        (out.q.any (fun t => t.is a) = false →
          (n'.hop (opposite sw.src)).q = out.q ∧ (n'.hop (opposite sw.src)).anti = out.anti ++ [a]))

/-- R285, R286, R110, R348: a request of an AG tile that is issued and translates is performed: a load replies the
bytes at its address, a store writes the low bytes of its data there and nothing else, an atomic replies the old
value and leaves the new one, where no reserved bits of a sync word stand (R116) and but for what a walk's port
takes. One that has waited its time out ends with a poison reply of cause 0x08 and no access, but not where a piece
of it has been performed. A walk for an agent's next fetch puts the leaf it finds first in the agent's cache. When a
walk reads the tables is the model's choice (log 7). -/
def Obligations.FabricMemory : Prop :=
  ∀ (s : State) (g x y c j : Nat) (p : Where) (r : Region) (u : Ctx) (q : Req) (l : Launch), s.mem.wf →
    (s.m.regionAt g x y = some (p, r) → r.cluster = g → s.m.ctx? g x y c = some u → u.reqs[j]? = some q →
      s.m.launch? p.l = some l → q.ended = false → q.done = false → r.state = 1 → u.issued r j q = true →
      let op := bits q.word 24 8
      let ends := fun (i : Instr) (t : Tok → Prop) (mem : State → Prop) =>
        ∃ s' u' t', exec i s = .next s' ∧ s'.m.ctx? g x y c = some u' ∧
          u'.reqs[j]? = some { q with done := true, ended := true, replies := q.replies ++ [t'] } ∧
          t'.item = q.item ∧ t'.kind = 0 ∧ t t' ∧ mem s'
      (∀ key kind v, q.replies = [] → q.got = [] → s.work.reqHome g x y (l.fabricTrans g) q = (.ok (key, kind), v) →
        (kind = .rc ∨ kind = .uo) → s.m.brgFailed = 0 → s.m.hold.phase ≠ 3 → (∀ i, i < q.size → s.FreePort (key + i)) →
        let run : Instr := .memoryReply g x y c { request := j, pieces := [] }
        let old := v.read key q.size
        (op = 0x90 → q.bad = false → v.poisoned key q.size = false →
          ends run (fun t => t.tag = false ∧ t.pay = BitVec.ofNat 512 old) (fun s' => s.Keeps s' 0 0)) ∧
        (op = 0x91 → s.Plain key q.size → ends run (fun t => t.tag = false)
          (fun s' => s'.work.read key q.size = q.data.toNat % 2 ^ (8 * q.size) ∧ s.Keeps s' key q.size)) ∧
        (op = 0x92 → q.bad = false → v.poisoned key q.size = false → bits q.word 1 4 ≤ 8 → s.Plain key q.size →
          ends run (fun t => t.tag = false ∧ t.pay = BitVec.ofNat 512 old)
            (fun s' => s'.work.read key q.size = amoOp (bits q.word 1 4) q.size old (q.data.toNat % 2 ^ (8 * q.size)) ∧
              s.Keeps s' key q.size))) ∧
      (q.tb + Config.memoryTimeout ≤ s.m.tb → q.tb + Config.domainTimeout ≤ s.m.tb →
        (q.home = none → ends (.memoryReplyTimeout g x y c j) (fun t => t.tag = true ∧ bits t.pay.toNat 0 8 = 0x08)
          (fun s' => s'.mem = s.mem)) ∧
        (q.home.isSome = true → ∃ s', exec (.memoryReplyTimeout g x y c j) s = .next s' ∧ s'.m = s.m))) ∧
    (∀ k t e v, k < 1552 → aget s.m.thr k = some t → (agetD s.m.tlbs (agentCache k) []).find? (fun e => e.hits (s.m.transOf k t) t.pc.toNat) = none →
      walk s.work (cacheDie (agentCache k)) (s.m.transOf k t) t.pc.toNat = (.ok e, v) →
      ∃ s', exec (.pageWalk (.agent k)) s = .next s' ∧ s.Keeps s' 0 0 ∧ s'.m.thr = s.m.thr ∧
        (agetD s'.m.tlbs (agentCache k) []).head? = some e)

/-- R291, R289: the bank operations on data. BRD of a slot and chunk inside its ring replies the chunk's 64 bytes. BWR
writes its 64 bytes at the chunk of an empty slot. RPUSH writes its token at the fill of the tail slot, which is full
and passed when its size is reached. RPOP gives the next token of a full head slot, which is empty and passed after
its last. SWAR writes its token at the write position, which moves on around the ring. Each takes its token, and no
other byte changes (SWAR's arrival at its sync word apart). Reserved bits of sync words, which ignore writes (R116), are
none of the bytes written. BWR's pairing of its two heads is the model's reading (log
102). -/
def Obligations.BankOperations : Prop :=
  ∀ (s : State) (g x y c n q wd : Nat) (p : Where) (k : Ctx) (r : Ring) (t : Tok) (rest : List Tok), s.mem.wf →
    let op := fun (code : Nat) => s.m.bankOp g x y c q code = some (p, k, wd, n, r)
    let da := 3 + bits wd 20 4
    let db := 3 + bits wd 16 4
    let takes := (k.hop da).q = t :: rest ∧ t.kind = 0 ∧ t.tag = false
    let slot := bits t.pay.toNat 0 6
    let chunk := bits t.pay.toNat 6 10
    let wb := netBytes (k.netOf da)
    let after := fun (i : Instr) (post : State → Ctx → Prop) =>
      ∃ s' k', exec i s = .next s' ∧ s'.m.ctx? g x y c = some k' ∧ post s' k'
    let writes := fun (s' : State) (o m : Nat) (v : Wide) =>
      s'.work.bytes (shareKey g x y o) m = toBytes m v.toNat ∧
      ∀ a, a < shareKey g x y o ∨ shareKey g x y o + m ≤ a → s'.mem.read a = s.mem.read a
    (∀ d, op 0xA0 → takes → k.dests 4 = [d] → d ≠ da → k.space d = true → k.netOf d = 0 → r.inside slot chunk = true →
      (r.slot slot).err = none → s.work.slotBad g x y r slot = false →
      let out : Tok := { t with net := 0, pay := BitVec.ofNat 512 (ofBytes (s.work.shareBytes g x y (r.at slot (64 * chunk)) 8)) }
      k.Opens d out →
      after (.brd g x y c q) (fun s' k' => s'.mem = s.mem ∧ (k'.hop da).q = rest ∧ (k'.hop d).q = (k.hop d).q ++ [out])) ∧
    (∀ u us, op 0xA1 → takes → (k.hop db).q = u :: us → da ≠ db → k.tied da = false → k.tied db = false →
      u.kind = 0 → u.tag = false → u.item = t.item → r.inside slot chunk = true → (r.slot slot).tag = 0 →
      bitAt t.pay.toNat 31 = false → s.Plain (shareKey g x y (r.at slot (64 * chunk))) 64 →
      after (.bwr g x y c q) (fun s' k' => writes s' (r.at slot (64 * chunk)) 64 u.pay ∧ (k'.hop da).q = rest ∧
        (k'.hop db).q = us)) ∧
    (op 0xA2 → takes → (r.slot r.tail).tag = 0 → s.Plain (shareKey g x y (r.at r.tail 0)) wb →
      after (.rpush g x y c q) (fun s' k' => writes s' (r.at r.tail 0) wb t.pay ∧ (k'.hop da).q = rest ∧
        ∃ r', k'.rings[n]? = some r' ∧ (r'.slot r.tail).item = t.item ∧ (r'.slot r.tail).fill = wb ∧
          (wb < r.size → (r'.slot r.tail).tag = 1 ∧ r'.tail = r.tail) ∧
          (r.size ≤ wb → (r'.slot r.tail).tag = 2 ∧ r'.tail = r.next r.tail))) ∧
    (∀ d, op 0xA3 → (r.slot r.head).tag = 2 → (r.slot r.head).kind = 0 → (r.slot r.head).err = none →
      s.work.slotBad g x y r r.head = false → k.dests 6 = [d] → k.space d = true →
      let m := netBytes (k.netOf d)
      let out : Tok := { item := (r.slot r.head).item, kind := 0, tag := false, net := k.netOf d,
                         pay := BitVec.ofNat 512 (ofBytes (s.work.shareBytes g x y (r.at r.head (m * r.popped)) (m / 8))),
                         srcs := (r.slot r.head).srcs }
      k.Opens d out →
      after (.rpop g x y c q) (fun s' k' => s'.mem = s.mem ∧ (k'.hop d).q = (k.hop d).q ++ [out] ∧
        ∃ r', k'.rings[n]? = some r' ∧
          (m * (r.popped + 1) < r.size → r'.popped = r.popped + 1 ∧ r'.head = r.head) ∧
          (r.size ≤ m * (r.popped + 1) → r'.popped = 0 ∧ r'.head = r.next r.head ∧ (r'.slot r.head).tag = 0))) ∧
    (op 0xA4 → takes →
      let o := shareKey g x y (r.base + r.wpos)
      let w := shareKey g x y (16 * bits wd 2 3)
      (o + wb ≤ w ∨ w + 16 ≤ o) → s.Plain o wb →
      after (.swar g x y c q) (fun s' k' => s'.work.bytes o wb = toBytes wb t.pay.toNat ∧ (k'.hop da).q = rest ∧
        (∀ a, (a < o ∨ o + wb ≤ a) → (a < w ∨ w + 16 ≤ a) → s'.mem.read a = s.mem.read a) ∧
        ∃ r', k'.rings[n]? = some r' ∧ r'.wpos = (r.wpos + wb) % (r.slots * r.size)))

/-- R171, R178, R181, R184 to R186, R189 to R195, R198, R292, R403: a pair begins when both heads are full and the
current area is open; ended, it counts in the current area, its products are added there and to the checksums, and both
rings move past it; a faulted pair adds +0, and the KTth pair drains the area. A drained area converts: its overflow
flag, and its checksum fault. It is pushed into an empty tail slot, element by element in the output format. A grouped
item adds its groups one after another, between which it may stop, and with its last it fills the area; an error that
struck the open area stays with it, the model's reading (log 141). Its groups are those that the model reads in the
weight slots (Work.groupItem, log 164). Non-data slots of one kind at both heads are passed on. How many groups one
event adds is the model's choice (log 105). An FP32 accumulator is kept as its FP40 code (log 163). -/
def Obligations.EnginesRun : Prop :=
  ∀ (s : State) (g e : Nat) (p : Where) (r : Region) (x : Engine), s.m.engine g e = some (p, r, x) → r.state = 1 →
    let same := fun (i : Instr) (post : State → Engine → Prop) =>
      ∃ s' r' x', exec i s = .next s' ∧ s'.m.engine g e = some (p, r', x') ∧ post s' x'
    let A := x.ringA e
    let B := x.ringB e
    let C := x.ringC e
    let check := x.words.find? (fun v => bits v 24 8 == 0x62)
    let first := fun (u v : Option (Nat × Nat)) => if u.isSome then u else v
    (∀ a b, s.m.heads g e x = some (a, b) → x.grouped = false →
      (x.busy = false → x.cur.pairs < x.cfg.kt → (a.slot a.head).kind = 0 → (b.slot b.head).kind = 0 →
        same (.mxPairStart g e) (fun s' x' => s'.mem = s.mem ∧ x' = { x with busy := true })) ∧
      (x.busy = true → A ≠ B →
        let fa := s.work.slotFault g e A a a.head
        let fb := s.work.slotFault g e B b b.head
        same (.mxPairEnd g e) (fun s' x' => s'.mem = s.mem ∧ x'.busy = false ∧
          (let area := if x.cfg.kt ≤ x.cur.pairs + 1 ∧ x.drainState = 0 then x'.drain else x'.cur
           (fa = none → fb = none → mxIsInt x.cfg.bfmt = mxIsInt x.cfg.afmt →
             x.cur.Adds x.cfg x.nbv check.isSome (s.work.ringBytes g A a a.head) (s.work.ringBytes g B b b.head) area) ∧
           ((fa.isSome = true ∨ fb.isSome = true) → x.cur.AddsZero x.cfg area) ∧
           area.fault = first x.cur.fault (first (fa.map faultOf) (fb.map faultOf))) ∧
          ((x.cur.pairs + 1 < x.cfg.kt ∨ x.drainState ≠ 0) → x'.cur.pairs = x.cur.pairs + 1 ∧ x'.drain = x.drain) ∧
          (x.cfg.kt ≤ x.cur.pairs + 1 → x.drainState = 0 →
            x'.drain.pairs = x.cur.pairs + 1 ∧ x'.drainState = 1 ∧ x'.cur = Area.empty) ∧
          ∃ a' b', s'.m.ringOf g x.ctx A = some a' ∧ s'.m.ringOf g x.ctx B = some b' ∧ a'.head = a.next a.head ∧
            b'.head = b.next b.head ∧ (a'.slot a.head).tag = 0 ∧ (b'.slot b.head).tag = 0)) ∧
      (x.busy = false → x.cur.pairs = 0 → x.drainState = 0 → (a.slot a.head).kind ≠ 0 →
        (a.slot a.head).kind = (b.slot b.head).kind → A ≠ B → A ≠ C → B ≠ C →
        ∀ z, s.m.ringOf g x.ctx C = some z → (z.slot z.tail).tag = 0 →
        same (.mxNonDataSlot g e) (fun s' x' => s'.mem = s.mem ∧ x' = x ∧
          ∃ a' b' z', s'.m.ringOf g x.ctx A = some a' ∧ s'.m.ringOf g x.ctx B = some b' ∧
            s'.m.ringOf g x.ctx C = some z' ∧ a'.head = a.next a.head ∧ b'.head = b.next b.head ∧
            z'.tail = z.next z.tail ∧ (z'.slot z.tail).tag = 2 ∧ (z'.slot z.tail).kind = (a.slot a.head).kind))) ∧
    (∀ z, s.m.ringOf g x.ctx C = some z →
      (x.drainState = 1 → (z.slot z.tail).tag ≠ 0 →
        same (.mxConversionEnd g e) (fun s' x' => s'.mem = s.mem ∧ x'.drainState = 2 ∧ x'.cur = x.cur ∧
          x'.drain.vals = x.drain.vals ∧ x'.drain.item = x.drain.item ∧
          (x'.drain.ovf = true ↔ x.drain.ovf = true ∨ (4 ≤ x.cfg.ofmt ∧ ∃ i j, i < 64 ∧ j < 128 ∧
            Outside true (8 * mxOut x.cfg.ofmt) (intVal true 40 (x.drain.at i j % 2 ^ 40)))) ∧
          (check = none → x'.drain.fault = x.drain.fault) ∧
          ∀ v, check = some v → ∃ pass : Prop,
            ({ x.drain with ovf := x'.drain.ovf } : Area).Compared x.cfg x.nbv (bits v 0 16) pass ∧
            (pass → x'.drain.fault = x.drain.fault) ∧ (¬ pass → x'.drain.fault = first x.drain.fault (some (0x04, mxNode e))))) ∧
      (x.drainState = 2 → (z.slot z.tail).tag = 0 → x.drain.fault = none → x.cur.pairs < x.cfg.kt →
        same (.mxDeferredPush g e) (fun s' x' => x' = { x with drain := .empty, drainState := 0 } ∧
          ∃ z', s'.m.ringOf g x.ctx C = some z' ∧ z'.tail = z.next z.tail ∧ (z'.slot z.tail).tag = 2 ∧
            (z'.slot z.tail).item = x.drain.item ∧ (z'.slot z.tail).err = none ∧ (z'.slot z.tail).ovf = x.drain.ovf ∧
            (let w := mxOut x.cfg.ofmt
             let key := fun (n : Nat) => shareKey g C.1.1 C.1.2 (z.at z.tail (64 * n))
             s.mem.wf → z.base % 64 = 0 → z.size % 64 = 0 → (∀ m ∈ x.drain.popped, m.2 = none) →
               (∀ n, n < 128 * w → s.Plain (key n) 64) → ∀ i j, i < 64 → j < 128 →
               let o := (128 * i + j) * w
               Converts x.cfg x.nbv (x.drain.at i j) (elemAt (s'.work.bytes (key (o / 64)) 64) w (o % 64 / w)))))) ∧
    (∀ a b t n, x.grouped = true → x.cur.pairs = 0 → s.m.ringOf g x.ctx A = some a → s.m.ringOf g x.ctx B = some b →
      (b.slot b.head).tag = 2 → (b.slot b.head).kind = 0 → s.work.groupItem g e x a b = some t →
      let full := t.area.over x.cur
      let c := x.cfg
      let k := bits (x.grpWord 1) 0 16 + 1
      let rows := bits (x.grpWord 0) 7 6 + 1
      let acts := fun (j : Nat) (act : Nat → FV) => ∀ p,
        Operand c.bfmt false (scaleAt t.acts c.bsc (t.vecs * k * mxBytes c.bfmt + j * ((k + 31) / 32) + p / 32))
          (elemAt t.acts (mxBytes c.bfmt) (j * k + p)) (act p)
      let adds := fun (act : Nat → FV) => Chain (GroupAdds (bitAt (x.grpWord 0) 20) act) 0
      (n ≠ 0 → x.groups + n < t.total →
        same (.mxGroupItem g ⟨e, n⟩) (fun s' x' => s'.mem = s.mem ∧ x'.groups = x.groups + n ∧ x'.cur.pairs = 0 ∧
          x'.drain = x.drain ∧ x'.drainState = x.drainState ∧
          (mxIsInt c.bfmt = false → ∀ j, j < 128 → j < t.vecs → ∃ act, acts j act ∧
            ∀ i, i < 64 → adds act (t.upTo (x.groups + n) i j) (x'.cur.at i j)))) ∧
      ((n = 0 ∨ t.total ≤ x.groups + n) →
        same (.mxGroupItem g ⟨e, n⟩) (fun s' x' => s'.mem = s.mem ∧ x'.groups = 0 ∧
          (x.cfg.kt ≤ full.pairs → x.drainState = 0 → x'.drain = full ∧ x'.drainState = 1 ∧ x'.cur = Area.empty) ∧
          ((full.pairs < x.cfg.kt ∨ x.drainState ≠ 0) → x'.cur = full ∧ x'.drain = x.drain) ∧
          full.fault = first x.cur.fault t.area.fault ∧
          (mxIsInt c.bfmt = false → t.groups ≠ [] → ∀ j, j < t.vecs → ∃ act, acts j act ∧
            ∀ i, i < rows → adds act (nth t.groups i []) (full.at i j)) ∧
          (∀ i j, t.groups = [] ∨ rows ≤ i ∨ t.vecs ≤ j → i < 64 → j < 128 → full.at i j = 0))))

/-- R135, R309, R311 to R315: BLKM of a good block is outstanding and puts its region in block mode; with every queue
empty and no block chosen the block scheduler ends block mode with 0; a chosen block that is loaded gives its queue's
tokens to the one TENTRY of its image, up to the 32,768 whose numbers are free. At the end of a window the weights of
the contexts that a tile had in it follow the slot-cycles of each; one committed since keeps its own (log 23). -/
def Obligations.BlockModeRuns : Prop :=
  ∀ (s : State) (l r : Nat) (la : Launch) (q : Region), s.m.launch? l = some la → s.m.region? l r = some q →
    (∀ t d a (sl ws : BitVec 3) b v1 v2 v3 v4 rs qs, s.Issues t (.blkm d a sl ws) [a] [d] sl ws → t.sys = none →
      t.launch = l → t.region = r → Ctl.block (t.g a) 64 64 s.work = .ok (b, v1) → 1 ≤ fieldAt b 0 4 →
      fieldAt b 0 4 ≤ 1024 → fieldAt b 4 4 < fieldAt b 0 4 → fieldAt b 8 4 ≠ 0 → 1 ≤ fieldAt b 0x0C 4 →
      fieldAt b 0x0C 4 ≤ 2 ^ 20 → firstNonzero b 0x28 6 = none →
      Ctl.queueArea (fieldAt b 0x18 8) (queueBytes (fieldAt b 0 4) (fieldAt b 0x0C 4)) v1 = .ok ((), v2) →
      Ctl.span (fieldAt b 0x10 8) (8 * fieldAt b 0 4) .read v2 = .ok (rs, v3) →
      Ctl.span (fieldAt b 0x20 8) (32 * fieldAt b 0x0C 4) .read v3 = .ok (qs, v4) →
      (rs ++ qs).all (fun x => t.clear x.2.2) = true → (∀ x ∈ rs ++ qs, s.Reaches x.1) → q.block = none →
      ∃ s' u q' m e, exec (.blkm d a sl ws) s = .next s' ∧ s'.me = some u ∧ u.pc = t.advance.pc ∧
        (∀ y : Reg, u.g y = t.g y) ∧ u.pend = t.pend ++ [e] ∧ e.op = .blkm ∧ e.set = sl.toNat ∧
        s'.m.region? l r = some q' ∧ q'.block = some m ∧ m.agent = s.m.cur ∧ m.pend = e.id ∧
        m.nblk = fieldAt b 0 4 ∧ m.age = fieldAt b 8 4 ∧ m.block = none ∧ m.choice = none) ∧
    (∀ b, q.block = some b → q.state ≠ 2 → la.paused = false → la.floor = false → la.holds = true → b.load = none →
      (b.choice = none → b.block = none → b.rest = [] → (∀ e ∈ b.queues, e.toks = []) →
        ∃ s' q', exec (.blockSchedule l r) s = .next s' ∧ s'.mem = s.mem ∧ s'.m.region? l r = some q' ∧
          q'.block = none ∧ s.Ends s' b.agent b.pend 0) ∧
      (∀ n e key k, b.choice = some n → b.queues[n]? = some e → b.entries = [key] →
        s.m.threadsIn { l := l, r := r } q = [] → e.toks.length ≤ 32768 → (aget s.m.clusters q.cluster).bind (fun x => aget x.ctxs key) = some k →
        ∃ s' q' m k', exec (.blockSchedule l r) s = .next s' ∧ s'.m.region? l r = some q' ∧ q'.block = some m ∧
          m.block = some n ∧ m.choice = none ∧ m.rest = [] ∧ (m.queues[n]?).map (fun x => x.toks) = some [] ∧
          (aget s'.m.clusters q.cluster).bind (fun x => aget x.ctxs key) = some k' ∧
          k'.entry.map (fun x => x.pay) = k.entry.map (fun x => x.pay) ++ e.toks.map (fun x => x.1))) ∧
    (∀ g x y c k, c < 4 → s.m.ctx? g x y c = some k → s.m.reweighs g x y = true →
      let occ := s.m.occOf g x y
      let ds := (List.range 4).filterMap (fun c => (s.m.ctx? g x y c).bind (fun k => k.due))
      ∃ s' k', exec (.contextReweight g x y occ) s = .next s' ∧ s'.mem = s.mem ∧ s'.m.ctx? g x y c = some k' ∧
        (k.due = none → k' = k) ∧ ∀ o, k.due = some o → nth occ c 0 = o ∧
          k' = { k with due := none, weight := if ds.sum = 0 then k.weight else 1 + (16 - ds.length) * o / ds.sum })

/-! ## Stops, commands, launches, the package -/

/-- R324, R327, R363: a hung region is frozen with cause 3, counts as one more hang of its partition, and each thread
bound to it is asked to park with cause 0x10. A freeze is complete once its region is quiescent; a region that an
uncorrectable error stopped is emptied then. -/
def Obligations.HangsAndQuiescence : Prop :=
  ∀ (s : State) (l r : Nat) (x : Launch) (q : Region), s.m.launch? l = some x → s.m.region? l r = some q →
    x.ending = false →
    (s.m.hung x { l := l, r := r } q = true → (s.m.part x.part).hangBase = 0 →
      ∃ s' q', exec (.hangDeclared l r) s = .next s' ∧ s'.m.region? l r = some q' ∧ q'.state = 2 ∧ q'.cause = 3 ∧
        (s'.m.part x.part).hangs = ((s.m.part x.part).hangs + 1) % 2 ^ 32 ∧
        ∀ k t, aget s.m.thr k = some t → t.sys = none → t.launch = l → t.region = r →
          ∃ u, aget s'.m.thr k = some u ∧ u.parks.any (fun e => e.cause == 0x10) = true ∧ u.run = t.run) ∧
    (q.state = 2 → q.quiet = true → s.m.quiescent { l := l, r := r } q = true →
      (q.cause ≠ 4 → ∃ s' q', exec (.freezeQuiescent l r) s = .next s' ∧ s'.mem = s.mem ∧ s'.m.region? l r = some q' ∧
        q' = { q with quiet := false, tbFrz := s.m.tb }) ∧
      (q.cause = 4 → ∃ s' q', exec (.freezeQuiescent l r) s = .next s' ∧ s'.m.region? l r = some q' ∧ q'.state = 0))

/-- R328, R329, R334: the command that a core waits for goes on. FREEZE freezes a running region, and is done with 0
once that is complete; THAW makes a frozen one run; SAVE writes the image, gives its length and leaves the region
frozen, MOVE empties it after, RELEASE empties it; PAUSE stops a running launch and CONTINUE lets it go on; EVICT
without an area ends every thread of a paused launch. A command on what is not in the state it needs is done with 3.
From the trap of a hold-up on nothing goes on again (R381). That EVICT without an area answers 0 is the model's reading
(log 54), and the bytes of the image that SAVE and MOVE write are its choice (log 15). -/
def Obligations.CommandsOfRctl : Prop :=
  ∀ (s : State) (k id at_ : Nat) (t : Thread) (c : CoreRegs) (v : Word) (froze : Bool), aget s.m.thr k = some t →
    t.sys = some c → t.rctl = some (id, v, froze, at_) → (rcmd v.toNat).bad = false →
    s.m.rctlBefore k (s.m.rctlOn k c (rcmd v.toNat)) at_ = false → c.rctlArea.toNat % 64 = 0 →
    let is := fun (n : Nat) => (rcmd v.toNat).cmd = n
    let done := fun (i : Instr) (stat : Nat) (post : State → CoreRegs → Prop) =>
      ∃ s' u c', exec i s = .next s' ∧ aget s'.m.thr k = some u ∧ u.sys = some c' ∧ c'.rctlStat = stat ∧
        (∀ e ∈ u.pend, e.id ≠ id) ∧ u.pc = t.pc ∧ post s' c'
    (∀ p q, s.m.rctlRegion k c (rcmd v.toNat) = some (p, q) → s.m.region? p.l p.r = some q →
      (∀ x, s.m.launch? p.l = some x → x.ending = false) →
      let now := fun (s' : State) (n : Nat) => ∃ q', s'.m.region? p.l p.r = some q' ∧ q'.state = n
      (is 1 → q.state = 1 → ∃ s', exec (.freeze k) s = .next s' ∧ now s' 2) ∧
      (is 1 → q.state = 2 → q.quiet = false → froze = true → done (.freeze k) 0 (fun s' _ => now s' 2)) ∧
      (is 1 → q.state ≠ 1 → froze = false → done (.freeze k) 3 (fun s' _ => s'.mem = s.mem ∧ now s' q.state)) ∧
      (is 2 → q.state = 2 → q.quiet = false → s.m.hold.phase < 2 → done (.thaw k) 0 (fun s' _ => s'.mem = s.mem ∧ now s' 1)) ∧
      (is 2 → q.state ≠ 2 → done (.thaw k) 3 (fun s' _ => s'.mem = s.mem ∧ now s' q.state)) ∧
      (is 5 → q.state = 2 → q.quiet = false → done (.release k) 0 (fun s' _ => s'.mem = s.mem ∧ now s' 0)) ∧
      (∀ u, q.state = 2 → q.quiet = false → froze = true → s.NoDetour →
        let image := s.work.imageBytes p q
        Work.putLines (agentCache k) (s.m.transOf k t) image.length c.rctlArea.toNat image s.work = (true, u) →
        (is 3 → done (.save k) 0 (fun s' c' => s'.mem = (s.commit u).mem ∧ c'.rctlBytes = image.length ∧ now s' 2)) ∧
        (is 4 → done (.move k) 0 (fun s' c' => s'.mem = (s.commit u).mem ∧ c'.rctlBytes = image.length ∧ now s' 0)))) ∧
    (∀ n l, s.m.rctlLaunch k c = some (n, l) → s.m.launch? n = some l → l.state = 1 → l.ending = false →
      (is 6 → l.paused = false → froze = false →
        ∃ s' l', exec (.pause k) s = .next s' ∧ s'.m.launch? n = some l' ∧ l'.paused = true ∧
          ∀ r ∈ l'.regions, r.state ≠ 1) ∧
      (is 7 → l.paused = true → l.settled = true → s.m.hold.phase < 2 → done (.contin k) 0 (fun s' _ => s'.mem = s.mem ∧
        ∃ l', s'.m.launch? n = some l' ∧ l'.paused = false)) ∧
      (is 7 → l.paused = false → done (.contin k) 3 (fun s' _ => s'.mem = s.mem ∧ s'.m.launches = s.m.launches)) ∧
      (is 8 → froze = true → s.m.evictReady n l = true → c.rctlArea = 0 → (s.m.thr.map (fun e => e.1)).Nodup →
        done (.evict k) 0 (fun s' _ => ∀ j u, aget s'.m.thr j = some u → u.sys = none → u.launch ≠ n)))

/-- R298, R301 to R304, R316, R333: a well-formed submission at S is queued with what its block says, and a refused
one leaves the queue as it was, its reason in its status dword. A launch that may be placed takes its clusters, empty,
loads its regions in order, and is refused or started once its loads are done; a waiting one sends cause 0x12 to the
holder's partition; a ballast launch that is wanted pauses, and without a save area its threads are then killed. That
the lowest-numbered core of the partition takes that trap is the model's choice (log 25). -/
def Obligations.LaunchesAreHandled : Prop :=
  ∀ (s : State),
    (∀ (k p : Nat) (t : Thread) (c : CoreRegs) (v : Word) (x : Submit) (u u' : Work) (key : Nat) (kind : Kind),
      s.mem.wf → aget s.m.thr k = some t → t.sys = some c → t.run = .ready → c.h = false →
      s.m.partOfCore (k - 1536) = some p →
      let tr : Trans := { ttb := c.ttb, asid := c.asid, vmid := (s.m.part p).entry.vmid, priv := .s, cluster := none,
                          part := some p, scratch := none }
      Ctl.capture (agentCache k) tr v { s.work with m := { s.m with cur := k } } = .ok (x, u) →
      u.spanOf noCache tr (fieldAt x.block 0x18 8) 8 .write = (.ok [(key, 8, kind)], u') →
      fieldAt x.block 0x18 8 < 2 ^ 64 → s.Plain key 8 →
      let other := fun (s' : State) => ∀ a, (a < key ∨ key + 8 ≤ a) → ¬ s.m.portTakes a →
        s'.mem.read a = s.mem.read a
      (x.refusal s.m (some p) = none → ∃ s' l, exec (.lnchSubmit k v) s = .next s' ∧
        aget s'.m.launches s.m.nextLaunch = some l ∧ s'.m.nextLaunch = s.m.nextLaunch + 1 ∧ l.part = p ∧
        l.prio = x.prio ∧ l.state = 0 ∧ l.placing = false ∧ l.regions = x.regions s.m.tb ∧
        l.spawns = x.starts (x.regions s.m.tb) ∧ s'.work.read key 8 = 0 ∧ other s') ∧
      (∀ reason entry, x.refusal s.m (some p) = some (reason, entry) → reason < 256 →
        ∃ s', exec (.lnchSubmit k v) s = .next s' ∧ s'.m.launches = s.m.launches ∧ s'.m.nextLaunch = s.m.nextLaunch ∧
          s'.work.read key 8 = 4 + reason * 2 ^ 8 + entry % 256 * 2 ^ 16 ∧ other s')) ∧
    (∀ n l, s.m.launch? n = some l →
      (l.placing = false → s.m.placeable n l = true → ∃ s' l', exec (.launchPlacement n) s = .next s' ∧ s'.mem = s.mem ∧
        s'.m.launch? n = some l' ∧ l'.placing = true ∧ l'.state = l.state ∧
        ∀ g ∈ l.clusters, aget s'.m.clusters g = some { ctxs := [], engines := [], pword := l.pword }) ∧
      (l.placing = true → s.m.hold.phase = 0 → (∀ d ∈ s.m.loads, d.2.launch ≠ n) → l.placed < l.regions.length →
        (l.saved = true → s.m.brgWait = []) →
        ∃ s' l', exec (.launchPlacement n) s = .next s' ∧ s'.m.launch? n = some l' ∧ l'.placing = true ∧
          l'.state = l.state ∧ l'.placed = l.placed + 1 ∧
          ∀ r, l.regions[l.placed]? = some r → l.saved = false →
            (r.image = 0 → s'.m.loads = s.m.loads) ∧
            (r.image ≠ 0 → ∃ d, aget s'.m.loads s.m.nextLoad = some d ∧ d.launch = n ∧ d.region = l.placed ∧
              d.image = r.image ∧ d.report = .placement ∧ d.accepted = false ∧ d.fault = none)) ∧
      (l.placing = true → s.m.hold.phase = 0 → (∀ d ∈ s.m.loads, d.2.launch ≠ n) → l.regions.length ≤ l.placed →
        l.saved = false → ∃ s' l', exec (.launchPlacement n) s = .next s' ∧ s'.m.launch? n = some l' ∧ l'.placing = false ∧ l'.state = 1 ∧
        ∀ x j, l.spawns = [x] → s.m.freeThread x.cluster = some j → aget s'.m.thr j = some (x.thread n 0)) ∧
      (∀ d, l.placing = true → s.m.hold.phase = 0 →
        (s.m.loads.filter (fun d => d.2.launch == n && d.2.report == .placement)).find? (fun d => d.2.fault.isSome) = some d →
        ∃ s', exec (.launchPlacement n) s = .next s' ∧ s'.m.launch? n = none) ∧
      (∀ h x c t, l.waits = true → l.prio ≤ 3 → s.m.preWait ≠ 0 → l.since + s.m.preWait ≤ s.m.tb →
        s.m.toAsk l = some (h, x) → (List.range 16).find? (fun c => bitAt (s.m.part x.part).entry.cores c) = some c →
        aget s.m.thr (1536 + c) = some t → t.run = .ready → t.held = false →
        ∃ s' l', exec (.preemptRequest n) s = .next s' ∧ s'.mem = s.mem ∧
          aget s'.m.thr (1536 + c) = some (t.passWait.trap 0x12 t.passWait.pc x.status s.m.tb) ∧
          s'.m.launch? n = some l' ∧
          l'.asked = l.asked ++ [h]) ∧
      (l.prio = 4 → l.state = 1 → l.ending = false →
        s.m.launches.any (fun e => e.2.waits && e.2.prio < 4 && e.2.meets l) = true →
        (l.paused = false → ∃ s' l', exec (.ballastPreempt n) s = .next s' ∧ s'.m.launch? n = some l' ∧
          l'.paused = true ∧ ∀ r ∈ l'.regions, r.state ≠ 1) ∧
        (l.paused = true → l.quiet = true → l.save = 0 → ∃ s', exec (.ballastPreempt n) s = .next s' ∧
          ∀ j u, aget s'.m.thr j = some u → u.sys = none → u.launch = n →
            u.run = .dying ∧ s.m.evictReady n l = false)))

/-- R385 to R388, R378: an average within PWR.LIMIT becomes PWR.NOW and adds to the energy; a sample gives each die
its readings and its level by the levels' rule, and a die that becomes critical begins the hold-up sequence; the daily
measurement gives the reserve and each die's wear, and leaves HOLD.BUDGET. -/
def Obligations.Measurements : Prop :=
  ∀ (s : State),
    (∀ n, n ≤ s.m.power.limit → ∃ s', exec (.powerAverageWindow n) s = .next s' ∧ s'.m.power.now = n ∧
      s'.m.power.energy = s.m.power.energy + n ∧ s'.m.power.limit = s.m.power.limit ∧
      s'.m.power.floor = s.m.power.floor) ∧
    (∀ (d : List (List Nat)) k j x l, k < 8 → d[k]? = some l → l[j]? = some x → j < 18 →
      let level := dieLevel (agetD s.m.heat.level k 0) s.m.heat.warn (hottest (l.map reading))
      ∃ s', exec (.sensorSample d) s = .next s' ∧ s'.mem = s.mem ∧ agetD s'.m.heat.now (18 * k + j) 0 = reading x ∧
        agetD s'.m.heat.level k 0 = level ∧ s'.m.heat.warn = s.m.heat.warn ∧
        (level = 3 → agetD s.m.heat.level k 0 ≠ 3 → s.m.hold.phase = 0 → s'.m.hold.phase = 1 ∧ s'.m.hold.cause = 2)) ∧
    (∀ (e k : Nat) (d : List (List Nat)), k < 10 → ∃ s', exec (.dailyMeasurement e d) s = .next s' ∧ s'.mem = s.mem ∧
      s'.m.hold.res = e ∧ s'.m.hold.budget = s.m.hold.budget ∧
      (agetD s'.m.wear k Wear.init).margin = nth (nth d k []) 2 0 ∧
      (agetD s'.m.wear k Wear.init).roLast = nth (nth d k []) 0 0)

/-- R355, R378, R381 to R384, R395: supply loss begins the hold-up sequence and ends a run of record mode; each running
core then takes cause 0x0E at H; the cut halts the cores and writes the directory; when writing ends the package
resets and keeps the record, and the log of a recording. A reset gives HOLD.BUDGET from the reserve measured and leaves
core 0 alone, at PC 0; where the supply was lost, near memory is zero but for that log. Zero memory, memory that stands
where the supply was not lost, and core 0's PC after a reset are the model's choices (logs 3, 4, 58), as is the moment
of the cut (log 97); the reserve measured is a loaded value (log 28), and what the cut records and abandons is its
reading (log 86). -/
def Obligations.HoldUpAndReset : Prop :=
  ∀ (s : State),
    (s.m.hold.phase = 0 → ∃ s', exec .supplyLoss s = .next s' ∧ s'.mem = s.mem ∧ s'.m.hold =
      { s.m.hold with phase := 1, cause := 1, die := 0, tb := s.m.tb, recCause := 1, placed := s.m.placedNow } ∧
      s'.m.record.ended = true) ∧
    (s.m.hold.phase ≠ 0 → ∃ s', exec .supplyLoss s = .next s' ∧ s'.mem = s.mem ∧ s'.m = s.m) ∧
    (s.m.hold.phase = 1 → ∃ s', exec .holdupTrap s = .next s' ∧ s'.m.hold.phase = 2 ∧
      ∀ k t c, aget s.m.thr k = some t → t.sys = some c → t.run ≠ .halted → ∃ u c', aget s'.m.thr k = some u ∧
        u.sys = some c' ∧ c'.h = true ∧ c'.hSet.cause = 0x0E ∧ c'.hSet.pc = t.passWait.pc ∧ u.pc = c.hSet.vec) ∧
    (s.m.hold.phase = 2 → ∃ s', exec .holdupCut s = .next s' ∧ s'.mem = s.mem ∧ s'.m.hold.phase = 3 ∧
      s'.m.hold.record = s.work.directory ∧ s'.m.hold.recCause = s.m.hold.cause ∧ s'.m.coreRun = 0 ∧
      ∀ k u, aget s'.m.thr k = some u → u.sys.isSome = true → u.run = .halted ∧ u.pend = []) ∧
    (let clean := fun (s' : State) (e : Nat) => s'.m.hold.phase = 0 ∧ s'.m.hold.budget = budgetOf e ∧
        s'.m.hold.res = e ∧ (∀ k, k ≠ 1536 → aget s'.m.thr k = none) ∧
        (∃ t, aget s'.m.thr 1536 = some t ∧ t.pc = 0 ∧ t.sys = some (CoreRegs.start 0)) ∧ s'.m.launches = [] ∧
        s'.m.parts = []
     (∀ e, ∃ s', exec (.packageReset e) s = .next s' ∧ clean s' e ∧ ∀ a, survives a = false → s'.mem.read a = 0) ∧
     (∀ e n, s.mem.wf → s.m.hold.phase = 3 → ∃ s', exec (.holdupWriteEnd ⟨e, n⟩) s = .next s' ∧ clean s' e ∧
       s'.m.hold.record.length = s.m.hold.record.length ∧ s'.m.hold.recCause = s.m.hold.recCause ∧
       let log := s.m.record.base.toNat
       let len := if s.m.record.mode = 1 then s.m.record.written else 0
       s'.work.bytes log len = s.work.bytes log len ∧
       ∀ a, (a < log ∨ log + len ≤ a) → (s.m.hold.cause = 1 → survives a = false → s'.mem.read a = 0) ∧
         (s.m.hold.cause ≠ 1 → s'.mem.read a = s.mem.read a)))

/-- R354, R363, R372 to R374: an uncorrectable error marks the bytes of memory it strikes, and parks for good a
thread that it strikes; a bridge that fails is named in BRG.FAILED, counted and reported to every core, and its
detours come later, when what came from outside and waits at it moves on; an access on its way to a lost port is
outstanding no longer, and one that is no load parks its thread with cause 0x11. Which port serves a byte of far
memory, 768 GiB each in order, is the model's choice (log 21), and what a lost link leaves of words that are no load
its reading (log 88). -/
def Obligations.ErrorsStrike : Prop :=
  ∀ (s : State),
    (∀ a n, ∃ s', exec (.uncorrectableError (.memory a n)) s = .next s' ∧ s'.mem = s.mem ∧ s'.m.thr = s.m.thr ∧
      (∀ k, k ∈ s'.bad ↔ k ∈ s.bad ∨ (a ≤ k ∧ k < a + n))) ∧
    (∀ k t, aget s.m.thr k = some t → t.sys = none → t.run = .ready → ∃ s' u,
      exec (.uncorrectableError (.thread k)) s = .next s' ∧ s'.mem = s.mem ∧ aget s'.m.thr k = some u ∧
      u.run = .parked 0x11 t.pc 0xFFFFFFFFFFFFFFFF s.m.tb none true) ∧
    (∀ b done, b < 14 → bitAt s.m.brgFailed b = false → ∃ s', exec (.bridgeFailure b done) s = .next s' ∧
      s'.m.brgFailed = s.m.brgFailed + 2 ^ b ∧ s'.m.brgEvents = (s.m.brgEvents + 1) % 2 ^ 32 ∧
      s'.m.brgTb = s.m.tb % 2 ^ 32 ∧ s'.m.brgWait = s.m.brgWait ++ [b] ∧
      ∀ k u c, aget s'.m.thr k = some u → u.sys = some c → c.bridge = true) ∧
    (∀ b, b ∈ s.m.brgWait → ∃ s', exec (.bridgeDetour b) s = .next s' ∧ (s.m.inbound = [] → s'.mem = s.mem) ∧
      s'.m.brgWait = s.m.brgWait.filter (fun x => x != b) ∧ s'.m.brgFailed = s.m.brgFailed ∧
      ∀ a n pa, s.m.inbound = [.host (.read a n)] → s.m.hostPa a n = some pa → s.m.record.mode = 0 →
        { s.m with brgWait := s'.m.brgWait }.waySpan hostDie (s.m.keyOf pa) n = .go →
        s'.m.inbound = [] ∧ s'.m.hostOut = some (s.work.bytes (s.m.keyOf pa) n) :: s.m.hostOut ∧ s'.mem = s.mem) ∧
    (∀ port k t p x, s.m.record.mode = 0 → port < 16 → aget s.m.thr k = some t → p ∈ t.pend → p.op.access = true → x ∈ p.pieces →
      x.done = false → 0x100000000000 + port * nearLen ≤ x.key → x.key < 0x100000000000 + (port + 1) * nearLen →
      ∃ s' u, exec (.lostLink (.far port false)) s = .next s' ∧ s'.mem = s.mem ∧ aget s'.m.thr k = some u ∧
        (∀ e ∈ u.pend, e.id ≠ p.id) ∧ (p.op = .store → u.parks.any (fun r => r.cause == 0x11) = true))

/-- R353, R354, R374, R13, R394 to R396: outside record mode the host and other packages get the bytes they may read,
write the bytes they may write and no others, and are refused elsewhere; a request whose way a failed bridge bars waits
for its detour, and one that no way is left for is refused (that it is, and the dies the ports stand on, are the
model's choices: logs 155, 21, 111). In replay the log's next entry is passed in its
time, one whose time has passed diverges, and at the log's end the replay is over. A package joining a domain takes its
TB in time; a session whose heartbeat is lost ends. Where the log ends and the rate of joining are the model's choices
(logs 59, 96). -/
def Obligations.OutsideRequests : Prop :=
  ∀ (s : State), s.mem.wf →
    (s.m.record.mode = 0 →
      let answers := fun (i : Instr) (out : Mach → List (Option (List Byte))) (x : Option (List Byte)) (mem : State → Prop) =>
        ∃ s', exec i s = .next s' ∧ out s'.m = x :: out s.m ∧ mem s'
      let kept := fun (s' : State) => s'.mem = s.mem
      let put := fun (key : Nat) (d : List Byte) (s' : State) => s'.work.bytes key d.length = d ∧
        ∀ a, a < key ∨ key + d.length ≤ a → s'.mem.read a = s.mem.read a
      let goes := fun (die key n : Nat) => s.m.waySpan die key n = .go ∧ s.m.inbound = []
      let barred := fun (i : Instr) (o : Inbound) (out : Mach → List (Option (List Byte))) (way : Way) =>
        (way = .wait → ∃ s', exec i s = .next s' ∧ kept s' ∧ s'.m = { s.m with inbound := s.m.inbound ++ [o] }) ∧
        (way = .lost → answers i out none kept)
      (∀ o, let (a, n) := hostSpan o
        (s.m.hostPa a n = none → answers (.hostAccess o) (·.hostOut) none kept) ∧
        ∀ pa, s.m.hostPa a n = some pa →
          barred (.hostAccess o) (.host o) (·.hostOut) (s.m.waySpan hostDie (s.m.keyOf pa) n)) ∧
      (∀ a n pa, s.m.hostPa a n = some pa → goes hostDie (s.m.keyOf pa) n →
        answers (.hostAccess (.read a n)) (·.hostOut) (some (s.work.bytes (s.m.keyOf pa) n)) kept) ∧
      (∀ a d pa, s.m.hostPa a d.length = some pa → goes hostDie (s.m.keyOf pa) d.length →
        answers (.hostAccess (.write a d)) (·.hostOut) (some []) (put (s.m.keyOf pa) d)) ∧
      (∀ o, (s.m.exported o = false → answers (.domainRequest o) (·.domainOut) none kept) ∧
        (s.m.exported o = true → barred (.domainRequest o) (.domain o) (·.domainOut)
          (s.m.waySpan (scatikDie o.port) o.pa (domainSize o.act)))) ∧
      (∀ vmid pa n port, let o : DomainOp := { vmid := vmid, pa := pa, act := .read n, port := port }
        s.m.exported o = true → goes (scatikDie port) pa n →
        answers (.domainRequest o) (·.domainOut) (some (s.work.bytes pa n)) kept) ∧
      (∀ vmid pa d port, let o : DomainOp := { vmid := vmid, pa := pa, act := .write d, port := port }
        s.m.exported o = true → goes (scatikDie port) pa d.length →
        answers (.domainRequest o) (·.domainOut) (some []) (put pa d))) ∧
    (s.m.record.mode = 2 → s.m.record.ended = false →
      (s.work.logEntry = none → ∃ s', exec (.replayEventDelivery true) s = .next s' ∧ s'.m.record.ended = true) ∧
      (∀ e, s.m.record.div = false → s.work.logEntry = some e → e.src = 0 → s.work.replayDue = true →
        (s.work.passEntry e).replayDue = false → ∃ s', exec (.replayEventDelivery true) s = .next s' ∧
        s'.mem = s.mem ∧ s'.m.record.written = s.m.record.written + e.size) ∧
      (∀ e, s.work.logEntry = some e → e.src ≠ 0 → e.tb < s.m.tb → ∃ s', exec (.replayEventDelivery true) s = .next s' ∧
        s'.mem = s.mem ∧ s'.m.record.div = true ∧ s'.m.record.ended = true)) ∧
    (∀ v : Word, s.m.record.mode = 0 → ∃ s', exec (.packageJoinsDomain v) s = .next s' ∧ s'.mem = s.mem ∧ s'.bad = s.bad ∧
      s'.m = { s.m with joinTb := some v.toNat, slew := 0 }) ∧
    (∀ n, s.m.record.mode = 0 → ∃ s', exec (.heartbeatLoss n) s = .next s' ∧ s'.mem = s.mem ∧
      s'.m.spdm.sessions = s.m.spdm.sessions.filter (fun x => x.1 != n) ∧ s'.m.spdm.out = s.m.spdm.out)

/-- R357, R355: after a good boot and outside record mode each SPDM request is answered on its port with its response
code, and no byte of memory changes. GET_VERSION answers 1.3, NEGOTIATE_ALGORITHMS the device's four algorithms,
GET_DIGESTS the digest of the certificate chain; FINISH, END_SESSION and HEARTBEAT of a session that is not open, and a
request of another kind, answer ERROR. FINISH of a session that is there opens it and answers 0x65 where the message
verifies (whether it does is a free value of the model, log 93) and, where its port requires mutual authentication,
carries the requester's signature, as bit 0 of its first parameter says (log 20); else it answers ERROR, and no session
of that name stays (R396). The codes and the bytes shown are those of DSP0274, which the spec names and
does not give (log 20). -/
def Obligations.SpdmIsAnswered : Prop :=
  ∀ (s : State) (q : SpdmMsg), s.m.boot.stat = 0 → s.m.record.mode = 0 →
    let answers := fun (i : Instr) (code : Byte) (ok : List Byte → Prop) =>
      ∃ s' d, exec i s = .next s' ∧ s'.mem = s.mem ∧ s'.m.spdm.out = (q.port, [0x13, code] ++ d) :: s.m.spdm.out ∧ ok d
    let any := fun (_ : List Byte) => True
    answers (.getVersion q) 0x04 (fun d => d = [0, 0, 0, 1, 0x00, 0x13]) ∧
    answers (.getCapabilities q) 0x61 any ∧ 
    answers (.negotiateAlgorithms q) 0x63 (fun d => d = [0, 0] ++ Config.algorithmBytes [.ed25519, .sha512, .x25519, .aes256Gcm]) ∧
    answers (.getDigests q) 0x01 (fun d => d = [0, 1] ++ sha512 Config.certChain) ∧
    answers (.getCertificate q) 0x02 any ∧ answers (.challenge q) 0x03 any ∧
    (q.param2 = 0 → answers (.getMeasurements q) 0x60 (fun d => d.head? = some 25)) ∧
    (q.param2 = 9 → answers (.getMeasurements q) 0x7F any) ∧
    answers (.keyExchange q) 0x64 any ∧
    (s.m.spdm.session? q = none → answers (.finish q) 0x7F any ∧ answers (.endSession q) 0x7F any ∧
      answers (.heartbeat q) 0x7F any) ∧
    (∀ id port done, s.m.spdm.session? q = some (id, port, done) →
      let verified := (q.port = 0 ∨ bitAt q.param1.toNat 0 = true) ∧ Config.spdmVerifies s.m.free = true
      let finishes := fun (code : Byte) (now : Option (Nat × Nat × Bool)) =>
        ∃ s' d, exec (.finish q) s = .next s' ∧ s'.mem = s.mem ∧
          s'.m.spdm.out = (q.port, [0x13, code] ++ d) :: s.m.spdm.out ∧ s'.m.spdm.session? q = now
      (verified → finishes 0x65 (some (id, port, true))) ∧ (¬ verified → finishes 0x7F none) ∧
      answers (.endSession q) 0x6C any ∧
      (done = true → answers (.heartbeat q) 0x68 any)) ∧
    answers (.spdmUnsupportedRequest q) 0x7F (fun d => d = [0x07, 0])

/-- R159, R161, R323, R336, R339, R355, R356, R383, R393, R399, R413, R414: what a running core's write of a register
that acts does, register by register; one that only H may make raises cause 0x06 at S. A core's own selectors, TRQ.BASE
stored whole, and what PKG.RESET keeps are the model's readings (logs 14, 85, 58); that RESUME reads the thread's record
at the base that TRQ.BASE holds now is its choice (log 146). -/
def Obligations.RegistersThatAct : Prop :=
  ∀ (s : State) (k : Nat) (t : Thread) (c : CoreRegs) (v : Word), aget s.m.thr k = some t → t.sys = some c →
    t.run = .ready →
    let acts := fun (i : Instr) (post : State → Prop) => ∃ s', exec i s = .next s' ∧ post s'
    let kept := fun (s' : State) => s'.mem = s.mem
    let keeps := fun (s' : State) => s.Keeps s' 0 0
    let here : Work := { s.work with m := { s.m with cur := k } }
    (∀ p, s.m.selPart k c = some p →
      acts (.trqBaseWrite k v) (fun s' => kept s' ∧ (s'.m.part p).trqBase = v ∧ (s'.m.part p).trqStuck = false) ∧
      acts (.hangBaseWrite k v) (fun s' => kept s' ∧
        (s'.m.part p).hangBase = BitVec.ofNat 64 (v.toNat / 2 ^ 18 * 2 ^ 18)) ∧
      (∀ n th e d u, s.m.parkedThread p v = some (n, th, some e, false) →
        here.load noCache (s.m.part p).trqTrans (((s.m.part p).trqBase.toNat + 512 * e) % 2 ^ 64) 512 = (.ok d, u) →
        fieldAt d 0 8 = n → fieldAt d 0x130 8 % 4 = 0 →
        acts (.resume k v) (fun s' => keeps s' ∧ ∃ y, aget s'.m.thr n = some y ∧ y.run = .ready ∧
          y.pc = BitVec.ofNat 64 (fieldAt d 0x130 8) ∧ y.conds = BitVec.ofNat 8 (fieldAt d 0x120 1))) ∧
      (∀ n th e f, s.m.parkedThread p v = some (n, th, e, f) →
        (th.leaving = true → acts (.killWrite k v) (fun s' => aget s'.m.thr n = none)) ∧
        (th.leaving = false → acts (.killWrite k v) (fun s' => kept s' ∧
          aget s'.m.thr n = some { th with run := .dying })))) ∧
    (∀ j y, v.toNat = j → j < 16 → (c.h = true ∨ s.m.partOfCore j = s.m.partOfCore (k - 1536)) →
      aget s.m.thr (1536 + j) = some y → y.run ≠ .halted →
      acts (.intSend k v) (fun s' => kept s' ∧
        aget s'.m.thr (1536 + j) = some { y with sys := y.sys.map (fun x => { x with soft := true }) })) ∧
    (c.h = true →
      (v.toNat % 4 = 0 → bitAt s.m.coreRun s.m.coreSel = false → aget s.m.thr (1536 + s.m.coreSel) = none →
        acts (.coreStart k v) (fun s' => kept s' ∧ bitAt s'.m.coreRun s.m.coreSel = true ∧
          aget s'.m.thr (1536 + s.m.coreSel) = some (Thread.start v (some (CoreRegs.start c.httb))))) ∧
      (∀ y, v.toNat < 16 → aget s.m.thr (1536 + v.toNat) = some y → y.run = .ready → y.held = false →
        acts (.coreStop k v) (fun s' => kept s' ∧ bitAt s'.m.coreRun v.toNat = false ∧
          aget s'.m.thr (1536 + v.toNat) = some { y with run := .halted })) ∧
      (16 ≤ v.toNat → acts (.hptApply k v) (fun s' => kept s' ∧ s'.m.hptStat = 6 ∧ s'.m.parts = s.m.parts)) ∧
      (v.toNat < 16 → s.m.present (s.m.hptBase + 256 * v.toNat) = true →
        s.m.refused 0xFF (s.m.hptBase + 256 * v.toNat) = false → s.FreePort (s.m.keyOf (s.m.hptBase + 256 * v.toNat)) →
        let d := s.work.bytes (s.m.keyOf (s.m.hptBase + 256 * v.toNat)) 256
        (s.m.applyStat v.toNat d ≠ 0 → acts (.hptApply k v) (fun s' => kept s' ∧
          s'.m.hptStat = s.m.applyStat v.toNat d ∧ s'.m.parts = s.m.parts)) ∧
        (s.m.applyStat v.toNat d = 0 → acts (.hptApply k v) (fun s' => s'.m.hptStat = 0 ∧
          (s'.m.part v.toNat).entry = parseEntry d))) ∧
      acts (.holdClear k v) (fun s' => kept s' ∧ s'.m.hold.record = [] ∧ s'.m.hold.recCause = 0) ∧
      acts (.pkgReset k v) (fun s' => (∀ j, j ≠ 1536 → aget s'.m.thr j = none) ∧ s'.m.parts = [] ∧
        s'.m.launches = [] ∧ s'.m.hold.phase = 0) ∧
      (∀ d u m, c.measIdx < 8 → Ctl.block v 64 64 here = .ok (d, u) → s.m.meas[c.measIdx]? = some m →
        acts (.measExt k v) (fun s' => keeps s' ∧ s'.m.meas[c.measIdx]? = some (sha512 (m ++ d)))) ∧
      (∀ i b, i < 3 → b < 64 → bitAt v.toNat b = true → aget s.m.scans (64 * i + b) = none →
        acts (.clmapWrite k (0xE0 + i) v) (fun s' => kept s' ∧ bitAt s'.m.clmap (64 * i + b) = true))) ∧
    (c.h = false →
      let word := fun (r : Nat) => (srwWord r).setWidth 64
      exec (.coreStart k v) s = .next (s.putThr k (t.trap 0x06 t.pc (word 0x0F1) s.m.tb)) ∧
      exec (.hptApply k v) s = .next (s.putThr k (t.trap 0x06 t.pc (word 0x0C1) s.m.tb)) ∧
      exec (.pkgReset k v) s = .next (s.putThr k (t.trap 0x06 t.pc (word 0x0D5) s.m.tb))) ∧
    (v.toNat % 64 = 0 → s.m.hold.recCause = 0 → acts (.holdXfer k v) (fun s' => kept s' ∧
      ∃ u c', aget s'.m.thr k = some u ∧ u.sys = some c' ∧ c'.xstat = 3)) ∧
    (v.toNat % 64 = 0 → s.m.hold.recCause ≠ 0 →
      (here.m.entriesOf k c)[c.holdIdx]? = none → acts (.holdXfer k v) (fun s' => kept s' ∧
        ∃ u c', aget s'.m.thr k = some u ∧ u.sys = some c' ∧ c'.xstat = 1)) ∧
    (∀ x ok z, v.toNat % 64 = 0 → s.m.hold.recCause ≠ 0 → s.NoDetour → (here.m.entriesOf k c)[c.holdIdx]? = some x →
      let d := x.entry x.state ++ (if x.typ = 0 && x.state = 0 then [] else x.bytes)
      Work.putLines (agentCache k) (here.m.transOf k t) d.length v.toNat d here = (ok, z) →
      acts (.holdXfer k v) (fun s' => s'.mem = (s.commit z).mem ∧
        ∃ u c', aget s'.m.thr k = some u ∧ u.sys = some c' ∧ c'.xstat = if ok then 0 else 2)) ∧
    (v.toNat % 64 ≠ 0 → exec (.holdXfer k v) s = .next (s.putThr k (t.trap 0x02 t.pc v s.m.tb))) ∧
    (∀ d : Reg, d ≠ 0 → s.m.record.mode = 0 → acts (.entDraw k d) (fun s' => kept s' ∧ ∃ u, aget s'.m.thr k = some u ∧
      u.g d = Config.freeEntropy s.m.free ∧ ∀ y : Reg, y ≠ d → u.g y = t.g y)) ∧
    (∀ r, r < 4096 → ownReg r = true → (c.h = false → regAtH r = false) → acts (.registerWrite k r v) (fun s' => kept s' ∧
      ∃ u, aget s'.m.thr k = some u ∧ u.sys = some (c.put r v) ∧ u.pc = t.pc))

/-! ## Encodings, the step, reset and the memory's form -/

/-- R46, R71 to R76: a well-formed instruction of the table that has a word is what its word decodes to, at every
value of its operands. -/
def Obligations.DecodeOfEncode : Prop :=
  ∀ (i : Instr) (w : IWord), i.wf = true → encode i = some w → decodeWord w = .ok i

/-- R46, R71 to R76: a word that decodes is the word of the instruction it decodes to, so no bit of a word is dropped
and no two words are one instruction. -/
def Obligations.EncodeOfDecode : Prop :=
  ∀ (i : Instr) (w : IWord), decodeWord w = .ok i → encode i = some w

/-- R46 to R49 and the worked encodings of the spec: NOP; LD.w g6, [g5, #8], set sb2, wait sb1; SHRI g6, g5, #16; LOOP
#3 over ten words; MOVK g4, #0x7F00, #2; AMO.add.d.die g3, [g4], g5; PQREQ g14, [g15], c1; SRW #0x0B4, g5; UDF. The
word 0x14 is no ALU operation. -/
def Obligations.DecodesTheseWords : Prop :=
  decodeWord 0b000000_00000_00000_00000_000_00000000 = .ok (.add 0 0 0) ∧
  decodeWord 0b011000_00110_00101_010_001_10_00_000010 = .ok (.ld 6 5 2 1 2 0 2) ∧
  decodeWord 0b001000_00110_00101_0000000000010000 = .ok (.shri 6 5 16) ∧
  decodeWord 0b010100_00000_00000001010_0000000011 = .ok (.loopImm 10 3) ∧
  decodeWord 0b001100_00100_00010_0111111100000000 = .ok (.movk 4 2 0x7F00) ∧
  decodeWord 0b011100_00011_00100_00101_100_00000101 = .ok (.amo 3 4 5 1 0 0 5) ∧
  decodeWord 0b111001_01110_01111_000_000_0000100000 = .ok (.pqreq 14 15 0 0 1) ∧
  decodeWord 0b111111_00000_00101_0100_000010110100 = .ok (.srw 5 0x0B4) ∧
  decodeWord 0b111111_11111_11111_1111_111111111111 = .ok (.udf 31 31 0xFFF) ∧
  ∃ r, decodeWord 0b000000_00000_00000_00000_000_00010100 = .error r

/-- A turn of an agent (R46, R81, R345): the agent that is ready fetches the word at its PC through its translation,
and the step is the execution of the instruction that the word decodes to, at the state with the translation's cache
filled; a word that the maps leave free runs as an illegal word; a CWAIT that a value has satisfied is passed and not
fetched again (R114). A sequencer, and a core, gives its turn to the first of its agents, in round-robin order and
those that have given up their turn last, that would not wait, or to the first where all would, and the order goes on
from the last that did not (R17, R144). The machine's agenda, which is the model's own (log 1), says which of them it
is; with none, they take turns; an event of the agenda, an instruction no control word encodes, is executed by itself;
and a logged event that is due in replay comes before all of these (R395). In a run of record mode or replay the agenda
brings only what may come then, and else the machine is left to itself (the model's reading, log 156). -/
def Obligations.StepRunsDecodedInstruction : Prop :=
  (∀ (y : State) (k : Nat) (t : Thread), aget y.m.thr k = some t → y.m.mayTurn t = true → t.run ≠ .dying →
    (t.parks = [] ∨ t.dumping.isSome = true) →
    let x : State := { y with m := { y.m with cur := k } }
    (t.waits.any (fun e => e.met) = true → y.turn k = .next (x.putThr k { t.passWait with yielded := false })) ∧
    ∀ key n z, t.waits.any (fun e => e.met) = false → x.work.translate (agentCache k) (x.m.transOf k t) t.pc.toNat .fetch = (.ok (key, n), z) →
      z.m.way (agentDie k) key = .go → x.FreePort key → z.poisoned key 4 = false →
      let w := BitVec.ofNat 32 (z.read key 4)
      let v : State := State.putThr (x.commit z) k t.fetched
      (∀ i, decodeWord w = .ok i → y.turn k = exec i v) ∧
      ∀ r, decodeWord w = .error r → y.turn k = exec (.unallocatedWord w) v) ∧
  (∀ (y : State) (u k : Nat) (a b : List Nat),
    ((y.m.order u = a ++ k :: b ∧ (∀ j ∈ a, y.stalls j = true) ∧ y.stalls k = false) ∨
      (y.m.order u = k :: b ∧ ∀ j ∈ k :: b, y.stalls j = true)) →
    y.unitTurn u = y.issue k) ∧
  (∀ (y : State) (k : Nat),
    (∀ v, y.turn k = .next v → (y.stands k v = true → y.issue k = .next v) ∧
      (y.stands k v = false → y.issue k = .next { v with m := { v.m with
        lastTurn := aset v.m.lastTurn (unitOf k) k
        thr := v.m.thr.map (fun e => (e.1, if (y.m.skipped k).contains e.1 then { e.2 with yielded := false } else e.2)) } })) ∧
    (∀ f, y.turn k = .fault f → y.issue k = .fault f) ∧ ∀ f, y.turn k = .refused f → y.issue k = .refused f) ∧
  ∀ s : State, let t := s.tick
    (t.work.replayDue = true → step s = exec (.replayEventDelivery true) t) ∧
    (t.work.replayDue = false →
      (∀ k l, t.m.agenda = .turn k :: l → t.m.scripted = false →
        step s = State.unitTurn { t with m := { t.m with agenda := l } } (unitOf k)) ∧
      (∀ a l, t.m.agenda = a :: l → t.m.scripted = true → (∀ i, a = .ev i → t.mayTake i = false) → (∀ n, a ≠ .wait n) →
        step s = State.free { t with m := { t.m with agenda := l } }) ∧
      (∀ u, t.m.agenda = [] → t.m.turn % 2 = 0 → pick t.m.units (t.m.turn / 2) = some u → step s = t.unitTurn u) ∧
      (∀ i, t.m.agenda = [] → t.m.turn % 2 = 1 → pick t.m.events (t.m.turn / 2) = some i → step s = exec i t) ∧
      ∀ i l, t.m.agenda = .ev i :: l → encode i = none → t.mayTake i = true → step s = exec i { t with m := { t.m with agenda := l } })

/-- The model's own form of memory (log 3), kept by every step: addresses rise, and no entry equals what an unlisted
address reads as. -/
def Obligations.StepKeepsMemoryCanonical : Prop :=
  ∀ s s' : State, Safety.memOk s → step s = .next s' → Safety.memOk s'

/-- What package reset leaves (R12, R338, R339, R355, and the Reset columns): TB is 0, no partition's entry is valid,
core 0 of N is the one agent, at H with INT.EN 0xF and H.PSEL 16, the fifteen other cores are stopped, every
measurement register is 0, and the hang, place, walk and preemption registers hold their table's values. Core 0's PC
and registers are 0 by the model's choice (log 4), and memory lists nothing, in its canonical form, and reads 0 (log
3). -/
def Obligations.ResetState : Prop :=
  let s := State.reset
  s.m.tb = 0 ∧ s.m.parts = [] ∧ s.m.coreRun = 1 ∧ s.m.coreSel = 0 ∧
  (∀ p, (s.m.part p).entry.valid = false ∧ (s.m.part p).hangInt = 0x000F4240 ∧ (s.m.part p).pqLimit = 8192 ∧
    (s.m.part p).walkLimit = 32) ∧
  (∃ t c, s.m.thr = [(1536, t)] ∧ t.sys = some c ∧ t.run = .ready ∧ c.h = true ∧ c.inten = 0xF ∧ c.psel = 16 ∧
    t.pc = 0 ∧ t.loops = [] ∧ t.nbv = 0 ∧ (∀ x, t.g x = 0) ∧ ∀ x, t.c x = false) ∧
  s.m.preWait = 0x000186A0 ∧ (∀ d ∈ s.m.meas, d = List.replicate 64 0) ∧
  s.m.launches = [] ∧ s.m.jobs = [] ∧ Safety.memOk s ∧ ∀ x, s.mem.read x = 0
end

