-- ==== Sys2Proof/Laws/Numbers.lean ====
section
/-!
SUPPORT. The model's decoding, exact arithmetic and rounding meet the relations of Values: a prover cites these and
unfolds no number format.
-/

namespace Sys2Proof.Machine

theorem NumFmt.fb_pos (f : NumFmt) : 0 < f.fb := by cases f <;> decide

/-- The unit of the subnormals of a format. -/
theorem NumFmt.mag_of (f : NumFmt) (k m : Nat) (h : m ≤ 2 ^ (f.fb + 1)) (hk : k = 0 ∨ 2 ^ f.fb ≤ m) :
    f.mag (k * 2 ^ f.fb + m) = m * (2 : ℚ) ^ ((2 - 2 ^ (f.eb - 1) - f.fb : ℤ) + k) := by
  have hp : 0 < 2 ^ f.fb := Nat.pow_pos (by decide)
  rw [pow_succ] at h
  unfold NumFmt.mag
  generalize (2 - 2 ^ (f.eb - 1) - f.fb : ℤ) = u at *
  generalize 2 ^ f.fb = t at *
  dsimp only
  by_cases hlt : k * t + m < t
  · have : k = 0 := by
      rcases hk with hk | hk
      · exact hk
      · omega
    subst this
    simp only [zero_mul, zero_add] at hlt ⊢
    rw [if_pos hlt]; simp
  · rw [if_neg hlt]
    have two : (2 : ℚ) ≠ 0 := by norm_num
    by_cases hm : m < t
    · rcases hk with hk | hk
      · subst hk; omega
      · omega
    · by_cases hm2 : m = 2 * t
      · have h1 : (k * t + m) % t = 0 := by
          rw [hm2]; rw [← Nat.add_mul]; exact Nat.mul_mod_left _ _
        have h2 : (k * t + m) / t = k + 2 := by
          rw [hm2, ← Nat.add_mul]; exact Nat.mul_div_cancel _ hp
        rw [h1, h2, hm2]
        have h3 : k + 2 - 1 = k + 1 := rfl
        rw [h3]
        push_cast
        rw [← add_assoc, zpow_add_one₀ two]
        ring
      · have h2 : (k * t + m) / t = k + 1 := by
          rw [Nat.mul_comm, Nat.mul_add_div hp]
          have : m / t = 1 := by
            apply Nat.div_eq_of_lt_le <;> omega
          omega
        have h1 : (k * t + m) % t + t = m := by
          rw [Nat.mul_comm, Nat.mul_add_mod]
          have : m % t = m - t := by
            rw [Nat.mod_eq_sub_mod (by omega)]
            exact Nat.mod_eq_of_lt (by omega)
          omega
        rw [h1, h2]
        simp

/-- Each code above another stands for a greater magnitude. -/
theorem NumFmt.mag_lt (f : NumFmt) (c : Nat) : f.mag c < f.mag (c + 1) := by
  have hp : 0 < 2 ^ f.fb := Nat.pow_pos (by decide)
  have key : ∃ k m, c = k * 2 ^ f.fb + m ∧ m + 1 ≤ 2 ^ (f.fb + 1) ∧ (k = 0 ∨ 2 ^ f.fb ≤ m) := by
    by_cases h : c < 2 ^ (f.fb + 1)
    · exact ⟨0, c, by simp, h, .inl rfl⟩
    · refine ⟨c / 2 ^ f.fb - 1, c % 2 ^ f.fb + 2 ^ f.fb, ?_, ?_, .inr (Nat.le_add_left _ _)⟩
      · have h1 := Nat.div_add_mod c (2 ^ f.fb)
        have h2 : 1 ≤ c / 2 ^ f.fb := by
          rw [pow_succ] at h
          exact (Nat.one_le_div_iff hp).2 (by omega)
        obtain ⟨j, hj⟩ := Nat.exists_eq_add_of_le h2
        rw [hj] at h1 ⊢
        rw [Nat.add_sub_cancel_left, Nat.mul_comm]
        rw [Nat.mul_add] at h1
        omega
      · have := Nat.mod_lt c hp
        rw [pow_succ]; omega
  obtain ⟨k, m, rfl, h, hk⟩ := key
  rw [f.mag_of k m (by omega) hk, Nat.add_assoc, f.mag_of k (m + 1) h (hk.imp id (fun h => by omega))]
  have : (0 : ℚ) < 2 ^ ((2 - 2 ^ (f.eb - 1) - f.fb : ℤ) + k) := zpow_pos (by norm_num) _
  push_cast
  nlinarith

theorem NumFmt.mag_zero (f : NumFmt) : f.mag 0 = 0 := by
  unfold NumFmt.mag
  simp

/-- The exponent of a positive fraction. -/
theorem ilog2_spec (n d : Nat) (hn : n ≠ 0) (hd : d ≠ 0) :
    (2 : ℚ) ^ ilog2 n d ≤ n / d ∧ (n / d : ℚ) < 2 ^ (ilog2 n d + 1) := by
  have two : (2 : ℚ) ≠ 0 := by norm_num
  have hd' : (0 : ℚ) < d := by exact_mod_cast Nat.pos_of_ne_zero hd
  have n1 : (2 : ℚ) ^ n.log2 ≤ n := by exact_mod_cast Nat.log2_self_le hn
  have n2 : (n : ℚ) < 2 ^ n.log2 * 2 := by
    have := @Nat.lt_log2_self n; rw [pow_succ] at this; exact_mod_cast this
  have d1 : (2 : ℚ) ^ d.log2 ≤ d := by exact_mod_cast Nat.log2_self_le hd
  have d2 : (d : ℚ) < 2 ^ d.log2 * 2 := by
    have := @Nat.lt_log2_self d; rw [pow_succ] at this; exact_mod_cast this
  have pz : ∀ z : ℤ, (0 : ℚ) < 2 ^ z := fun z => zpow_pos (by norm_num) z
  unfold ilog2
  generalize n.log2 = a at *
  generalize d.log2 = b at *
  have hab : (2 : ℚ) ^ ((a : ℤ) - b) * 2 ^ b = 2 ^ a := by
    rw [← zpow_natCast, ← zpow_natCast, ← zpow_add₀ two]; congr 1; ring
  have pb : (0 : ℚ) < 2 ^ b := by positivity
  have lower : (2 : ℚ) ^ ((a : ℤ) - b - 1) ≤ n / d := by
    rw [le_div_iff₀ hd', zpow_sub_one₀ two]
    have := pz ((a : ℤ) - b)
    nlinarith
  have upper : (n / d : ℚ) < 2 ^ ((a : ℤ) - b + 1) := by
    rw [div_lt_iff₀ hd', zpow_add_one₀ two]
    have := pz ((a : ℤ) - b)
    nlinarith
  dsimp only
  split
  · rename_i h0
    have he : (2 : ℚ) ^ ((a : ℤ) - b) = ((2 ^ ((a : ℤ) - b).toNat : Nat) : ℚ) := by
      push_cast
      rw [← zpow_natCast]; congr 1; omega
    split
    · rename_i hlt
      refine ⟨lower, ?_⟩
      rw [sub_add_cancel, div_lt_iff₀ hd', he]
      have : n < 2 ^ ((a : ℤ) - b).toNat * d := by rw [Nat.mul_comm]; exact hlt
      exact_mod_cast this
    · rename_i hge
      refine ⟨?_, upper⟩
      rw [le_div_iff₀ hd', he]
      have : 2 ^ ((a : ℤ) - b).toNat * d ≤ n := by rw [Nat.mul_comm]; omega
      exact_mod_cast this
  · rename_i h0
    have he : (2 : ℚ) ^ ((a : ℤ) - b) * ((2 ^ (-((a : ℤ) - b)).toNat : Nat) : ℚ) = 1 := by
      push_cast
      rw [← zpow_natCast, ← zpow_add₀ two]
      have : ((a : ℤ) - b) + ((-((a : ℤ) - b)).toNat : ℤ) = 0 := by omega
      rw [this]; simp
    have pk := pz ((a : ℤ) - b)
    split
    · rename_i hlt
      refine ⟨lower, ?_⟩
      rw [sub_add_cancel, div_lt_iff₀ hd']
      have h1 : (n : ℚ) * (2 ^ (-((a : ℤ) - b)).toNat : Nat) < d := by exact_mod_cast hlt
      nlinarith
    · rename_i hge
      refine ⟨?_, upper⟩
      rw [le_div_iff₀ hd']
      have h1 : (d : ℚ) ≤ (n : ℚ) * (2 ^ (-((a : ℤ) - b)).toNat : Nat) := by exact_mod_cast Nat.le_of_not_lt hge
      nlinarith

/-- A fraction divided by a power of two. -/
theorem scaled_spec (n d : Nat) (hd : d ≠ 0) (k : ℤ) :
    (scaled n d k).2 ≠ 0 ∧ ((scaled n d k).1 / (scaled n d k).2 : ℚ) * 2 ^ k = n / d := by
  have two : (2 : ℚ) ≠ 0 := by norm_num
  have hd' : (d : ℚ) ≠ 0 := by exact_mod_cast hd
  unfold scaled
  split
  · rename_i h
    refine ⟨Nat.mul_ne_zero hd (by positivity), ?_⟩
    have : (2 : ℚ) ^ k = 2 ^ k.toNat := by rw [← zpow_natCast]; congr 1; omega
    push_cast
    rw [this]
    field_simp
  · rename_i h
    refine ⟨hd, ?_⟩
    have : (2 : ℚ) ^ (-k).toNat * 2 ^ k = 1 := by
      rw [← zpow_natCast, ← zpow_add₀ two]
      have : ((-k).toNat : ℤ) + k = 0 := by omega
      rw [this]; simp
    push_cast
    field_simp
    linear_combination (n : ℚ) * this

/-! ## Rounding into a binary format -/

/-- A number's fraction has a denominator. -/
def FV.Ok (v : FV) : Prop := ∀ s n d, v = .num s n d → d ≠ 0

/-- The code of a positive fraction rounded, the exponent unbounded. -/
def NumFmt.codeOf (f : NumFmt) (rnd : Nat) (s : Bool) (n d : Nat) : Nat :=
  let emin : ℤ := 1 - (2 ^ (f.eb - 1) - 1)
  let e : ℤ := max (ilog2 n d) emin
  let p := scaled n d (e - f.fb)
  (e - emin).toNat * 2 ^ f.fb + if roundUp rnd s (p.1 / p.2) (p.1 % p.2) p.2 then p.1 / p.2 + 1 else p.1 / p.2

theorem NumFmt.codeOf_near (f : NumFmt) (rnd : Nat) (hr : rnd < 4) (s : Bool) (n d : Nat) (hn : n ≠ 0) (hd : d ≠ 0) :
    f.Near rnd s (n / d) (f.codeOf rnd s n d) := by
  have two : (2 : ℚ) ≠ 0 := by norm_num
  have pz : ∀ z : ℤ, (0 : ℚ) < 2 ^ z := fun z => zpow_pos (by norm_num) z
  obtain ⟨l1, l2⟩ := ilog2_spec n d hn hd
  unfold NumFmt.codeOf
  dsimp only
  set emin : ℤ := 1 - (2 ^ (f.eb - 1) - 1) with hemin
  set e : ℤ := max (ilog2 n d) emin with he
  obtain ⟨s1, s2⟩ := scaled_spec n d hd (e - f.fb)
  generalize (scaled n d (e - f.fb)).1 = a at *
  generalize (scaled n d (e - f.fb)).2 = b at *
  set k := (e - emin).toNat with hk
  have hek : e = emin + k := by omega
  set P : ℚ := 2 ^ (e - f.fb) with hP
  have P0 : 0 < P := pz _
  have b0 : (0 : ℚ) < b := by exact_mod_cast Nat.pos_of_ne_zero s1
  have hab := Nat.div_add_mod a b
  have hmod := Nat.mod_lt a (Nat.pos_of_ne_zero s1)
  set q := a / b with hq
  set r := a % b with hrr
  have hy : (a / b : ℚ) = q + r / b := by
    have : (a : ℚ) = b * q + r := by exact_mod_cast hab.symm
    rw [this]; field_simp
  have r1 : (r / b : ℚ) < 1 := by rw [div_lt_one b0]; exact_mod_cast hmod
  have r0 : (0 : ℚ) ≤ r / b := by positivity
  have hx : (n / d : ℚ) = (q + r / b) * P := by rw [← s2, hy]
  have e1 : (n / d : ℚ) < 2 ^ (e + 1) :=
    lt_of_lt_of_le l2 (zpow_le_zpow_right₀ (by norm_num) (by omega))
  have hfb : (2 : ℚ) ^ (f.fb + 1) * P = 2 ^ (e + 1) := by
    rw [hP, ← zpow_natCast, ← zpow_add₀ two]; congr 1; push_cast; ring
  have hfb' : (2 : ℚ) ^ f.fb * P = 2 ^ e := by
    rw [hP, ← zpow_natCast, ← zpow_add₀ two]; congr 1; ring
  have qhi : q < 2 ^ (f.fb + 1) := by
    have : (q : ℚ) < 2 ^ (f.fb + 1) := by
      by_contra hc
      have hc := not_lt.1 hc
      have : (2 : ℚ) ^ (f.fb + 1) * P ≤ (q + r / b) * P := by
        apply mul_le_mul_of_nonneg_right _ P0.le; linarith
      rw [hfb, ← hx] at this; linarith
    exact_mod_cast this
  have qlo : k = 0 ∨ 2 ^ f.fb ≤ q := by
    by_cases h0 : k = 0
    · exact .inl h0
    · right
      have hee : e = ilog2 n d := by omega
      have h3 : (2 : ℚ) ^ f.fb * P ≤ (q + r / b) * P := by rw [hfb', ← hx, hee]; exact l1
      have h4 : (2 : ℚ) ^ f.fb ≤ q + r / b := le_of_mul_le_mul_right h3 P0
      have h5 : (2 : ℚ) ^ f.fb < q + 1 := by linarith
      have h6 : 2 ^ f.fb < q + 1 := by exact_mod_cast h5
      omega
  have mag : ∀ m, m ≤ 2 ^ (f.fb + 1) → (k = 0 ∨ 2 ^ f.fb ≤ m) → f.mag (k * 2 ^ f.fb + m) = m * P := by
    intro m h1 h2
    rw [f.mag_of k m h1 h2, hP]
    congr 2
    rw [hek, hemin]; ring
  have pow2 : 2 ^ f.fb % 2 = 0 := by
    obtain ⟨j, hj⟩ := Nat.exists_eq_add_of_le f.fb_pos
    rw [hj, pow_add, pow_one]; exact Nat.mul_mod_right _ _
  have par : ∀ m, (k * 2 ^ f.fb + m) % 2 = m % 2 := by
    intro m; rw [Nat.add_mod, Nat.mul_mod, pow2]; simp
  have mq : f.mag (k * 2 ^ f.fb + q) = q * P := mag q qhi.le qlo
  have mq1 : f.mag (k * 2 ^ f.fb + q + 1) = (q + 1) * P := by
    have := mag (q + 1) qhi (qlo.imp id (fun h => by omega))
    rw [← Nat.add_assoc] at this; rw [this]; push_cast; ring
  have lowq : 0 < k * 2 ^ f.fb + q → f.mag (k * 2 ^ f.fb + q - 1) < q * P := by
    intro h
    have := f.mag_lt (k * 2 ^ f.fb + q - 1)
    rw [Nat.sub_add_cancel h, mq] at this; exact this
  have upq1 : (q + 1) * P < f.mag (k * 2 ^ f.fb + q + 1 + 1) := by rw [← mq1]; exact f.mag_lt _
  have xq : q * P ≤ (n / d : ℚ) := by rw [hx]; nlinarith
  have xq1 : (n / d : ℚ) < (q + 1) * P := by rw [hx]; nlinarith
  have half : ∀ t : ℚ, (2 * (n / d : ℚ) = (2 * q + 2 * (r / b)) * P) := by intro t; rw [hx]; ring
  have half := half 0
  have x0 : (0 : ℚ) < n / d := by
    have : (0 : ℚ) < n := by exact_mod_cast Nat.pos_of_ne_zero hn
    have : (0 : ℚ) < d := by exact_mod_cast Nat.pos_of_ne_zero hd
    positivity
  have rb : ∀ {x y : Nat}, (x : ℚ) * (1 / b) ≤ y * (1 / b) ↔ x ≤ y := by
    intro x y
    rw [mul_le_mul_iff_left₀ (by positivity)]; exact Nat.cast_le
  -- twice the remainder against the divisor
  have cle : 2 * r ≤ b → 2 * (r / b : ℚ) ≤ 1 := by
    intro h
    have : (2 * r : ℚ) ≤ b := by exact_mod_cast h
    rw [← mul_div_assoc, div_le_one b0]; exact this
  have clt : 2 * r < b → 2 * (r / b : ℚ) < 1 := by
    intro h
    have : (2 * r : ℚ) < b := by exact_mod_cast h
    rw [← mul_div_assoc, div_lt_one b0]; exact this
  have cge : b ≤ 2 * r → 1 ≤ 2 * (r / b : ℚ) := by
    intro h
    have : (b : ℚ) ≤ 2 * r := by exact_mod_cast h
    rw [← mul_div_assoc, one_le_div b0]; exact this
  have cgt : b < 2 * r → 1 < 2 * (r / b : ℚ) := by
    intro h
    have : (b : ℚ) < 2 * r := by exact_mod_cast h
    rw [← mul_div_assoc, one_lt_div b0]; exact this
  have rpos : r ≠ 0 → (0 : ℚ) < r / b := by
    intro h
    have : (0 : ℚ) < r := by exact_mod_cast Nat.pos_of_ne_zero h
    positivity
  by_cases hup : roundUp rnd s q r b = true
  · rw [if_pos hup, ← Nat.add_assoc]
    refine ⟨fun h0 => ?_, fun ha => ?_, fun h1 h2 => ?_⟩
    · subst h0
      simp only [roundUp, Bool.or_eq_true, decide_eq_true_eq, Bool.and_eq_true, beq_iff_eq] at hup
      rw [Nat.add_sub_cancel, mq, mq1]
      refine ⟨fun _ => ⟨?_, fun hodd => ?_⟩, ?_, fun _ => ?_⟩
      · rw [half]
        have : 1 ≤ 2 * (r / b : ℚ) := cge (by omega)
        nlinarith
      · rw [Nat.add_assoc, par] at hodd
        rw [half]
        have : 1 < 2 * (r / b : ℚ) := cgt (by omega)
        nlinarith
      · linarith
      · linarith
    · rw [Nat.add_sub_cancel, mq, mq1]
      have : r ≠ 0 := by
        intro hz
        rw [hz] at hup
        have hrn : rnd = 2 ∨ rnd = 3 := by
          simp only [away, Bool.or_eq_true, Bool.and_eq_true, beq_iff_eq] at ha; omega
        rcases hrn with h | h <;> subst h <;> simp [roundUp] at hup
      refine ⟨Nat.succ_pos _, ?_, xq1.le⟩
      rw [hx]; have := rpos this; nlinarith
    · exfalso
      have hrn : rnd = 1 ∨ rnd = 2 ∨ rnd = 3 := by omega
      rcases hrn with h | h | h <;> subst h <;> cases s <;> simp [roundUp, away] at hup h2
  · rw [if_neg hup]
    refine ⟨fun h0 => ?_, fun ha => ?_, fun h1 h2 => ?_⟩
    · subst h0
      simp only [roundUp, Bool.or_eq_true, decide_eq_true_eq, Bool.and_eq_true, beq_iff_eq, not_or, not_and] at hup
      refine ⟨fun hpos => ?_, ?_, fun hodd => ?_⟩
      · have := lowq hpos
        rw [mq]
        exact ⟨by linarith, fun _ => by linarith⟩
      · rw [mq, mq1, half]
        have : 2 * (r / b : ℚ) ≤ 1 := cle (by omega)
        nlinarith
      · rw [par] at hodd
        rw [mq, mq1, half]
        have : 2 * (r / b : ℚ) < 1 := clt (by omega)
        nlinarith
    · have hz : r = 0 := by
        simp only [away, Bool.or_eq_true, Bool.and_eq_true, beq_iff_eq] at ha
        rcases ha with ⟨h, h'⟩ | ⟨h, h'⟩
        · subst h h'; simpa [roundUp] using hup
        · simp only [Bool.not_eq_eq_eq_not, Bool.not_true] at h'
          subst h h'; simpa [roundUp] using hup
      have hxq : (n / d : ℚ) = q * P := by rw [hx, hz]; simp
      have hq0 : q ≠ 0 := by
        intro h0; rw [h0] at hxq; simp at hxq; rcases hxq with h | h
        · exact hn h
        · exact hd h
      have hpos : 0 < k * 2 ^ f.fb + q := Nat.add_pos_right _ (Nat.pos_of_ne_zero hq0)
      exact ⟨hpos, by rw [hxq]; exact lowq hpos, by rw [mq, hxq]⟩
    · rw [mq, mq1]; exact ⟨xq, xq1⟩

/-- The model's rounding into a binary format (R172). -/
theorem roundBin_rounds (f : NumFmt) (hf : f ≠ .d8) (rnd : Nat) (hr : rnd < 4) (sat flush : Bool) (v : FV) (hv : v.Ok) :
    RoundsTo f rnd sat flush v (roundBin f rnd sat flush v) := by
  cases v with
  | nan => rfl
  | inf s => simp [RoundsTo, roundBin, hf]
  | num s n d =>
    have hd : d ≠ 0 := hv s n d rfl
    have hd' : (d : ℚ) ≠ 0 := by exact_mod_cast hd
    simp only [RoundsTo, hf, if_false]
    by_cases hn : n = 0
    · subst hn; simp [roundBin]
    · have hn' : (n : ℚ) ≠ 0 := by exact_mod_cast hn
      rw [if_neg (div_ne_zero hn' hd')]
      refine ⟨f.codeOf rnd s n d, f.codeOf_near rnd hr s n d hn hd, ?_⟩
      have hrb : roundBin f rnd sat flush (.num s n d) =
          if maxCode f < f.codeOf rnd s n d then
            signBit f s + (if (rnd == 0 || (rnd == 2 && s) || (rnd == 3 && !s)) && !sat then maxCode f + 1 else maxCode f)
          else if flush && f.codeOf rnd s n d < 2 ^ f.fb then signBit f s
          else signBit f s + f.codeOf rnd s n d := by
        unfold roundBin NumFmt.codeOf
        simp only [hn, if_false]
      rw [hrb]
      generalize f.codeOf rnd s n d = c
      refine ⟨fun h => ?_, fun h => ⟨fun ha => ?_, fun h1 h2 => ?_⟩⟩
      · rw [if_neg (by omega)]
        by_cases hfl : flush = true ∧ c < 2 ^ f.fb
        · simp [hfl]
        · rw [if_neg hfl]
          have : (flush && decide (c < 2 ^ f.fb)) = false := by simpa using hfl
          simp [this]
      · rw [if_pos h]
        have : (rnd == 0 || (rnd == 2 && s) || (rnd == 3 && !s)) = true := by
          rcases ha with ha | ha
          · simp [ha]
          · simp only [away, Bool.or_eq_true] at ha ⊢; tauto
        rw [this]; cases sat <;> simp
      · rw [if_pos h]
        have : (rnd == 0 || (rnd == 2 && s) || (rnd == 3 && !s)) = false := by
          simp only [away, Bool.or_eq_false_iff] at h2 ⊢
          exact ⟨⟨by simpa using h1, h2.1⟩, h2.2⟩
        rw [this]; simp

/-! ## Codes and the numbers they stand for -/

theorem mkNum_is (s : Bool) (n d : Nat) (hd : d ≠ 0) : (mkNum s n d).Is s (n / d) := by
  have hg : Nat.gcd n d ≠ 0 := fun h => hd (Nat.gcd_eq_zero_iff.1 h).2
  have h1 : (n / Nat.gcd n d) * Nat.gcd n d = n := Nat.div_mul_cancel (Nat.gcd_dvd_left n d)
  have h2 : (d / Nat.gcd n d) * Nat.gcd n d = d := Nat.div_mul_cancel (Nat.gcd_dvd_right n d)
  have h3 : d / Nat.gcd n d ≠ 0 := by intro h; rw [h, Nat.zero_mul] at h2; exact hd h2.symm
  refine ⟨_, _, rfl, h3, ?_⟩
  have hg' : (Nat.gcd n d : ℚ) ≠ 0 := by exact_mod_cast hg
  have e1 : (n : ℚ) = ((n / Nat.gcd n d : Nat) : ℚ) * Nat.gcd n d := by exact_mod_cast h1.symm
  have e2 : (d : ℚ) = ((d / Nat.gcd n d : Nat) : ℚ) * Nat.gcd n d := by exact_mod_cast h2.symm
  calc _ = ((n / Nat.gcd n d : Nat) * Nat.gcd n d : ℚ) / ((d / Nat.gcd n d : Nat) * Nat.gcd n d) :=
        (mul_div_mul_right _ _ hg').symm
    _ = n / d := by rw [← e1, ← e2]

theorem FV.scale_is (s : Bool) (n d : Nat) (hd : d ≠ 0) (k : ℤ) : ((FV.num s n d).scale k).Is s (n / d * 2 ^ k) := by
  have hd' : (d : ℚ) ≠ 0 := by exact_mod_cast hd
  unfold FV.scale
  dsimp only
  split
  · have h := mkNum_is s (n * 2 ^ k.toNat) d hd
    have e : (2 : ℚ) ^ k = 2 ^ k.toNat := by rw [← zpow_natCast]; congr 1; omega
    rw [e]
    convert h using 1
    push_cast; ring
  · have h := mkNum_is s n (d * 2 ^ (-k).toNat) (Nat.mul_ne_zero hd (by positivity))
    have e : (2 : ℚ) ^ k = (2 ^ (-k).toNat)⁻¹ := by
      rw [← zpow_natCast, ← zpow_neg]; congr 1; omega
    rw [e]
    convert h using 1
    push_cast; field_simp

/-- A value with a sign and a magnitude is no NaN, no infinity, and has a denominator. -/
theorem FV.Is.ok {v : FV} {s : Bool} {q : ℚ} (h : v.Is s q) : v.Ok := by
  obtain ⟨n, d, rfl, hd, _⟩ := h
  intro _ _ _ e; cases e; exact hd

/-- The model's decoding of a binary code (R165, R181). -/
theorem decodeBin_stands (f : NumFmt) (hf : f ≠ .d8) (flush : Bool) (code : Nat) :
    Stands f flush code (decodeBin f flush code) := by
  have hw : f.width - 1 = f.fb + f.eb := by cases f <;> first | rfl | exact absurd rfl hf
  have hp : 0 < 2 ^ f.fb := Nat.pow_pos (by decide)
  have hE : 0 < 2 ^ f.eb := Nat.pow_pos (by decide)
  have h1 : code % 2 ^ (f.width - 1) / 2 ^ f.fb = bits code f.fb f.eb := by
    rw [hw, pow_add, Nat.mod_mul_right_div_self]; rfl
  have h2 : code % 2 ^ (f.width - 1) % 2 ^ f.fb = bits code 0 f.fb := by
    rw [hw, pow_add, Nat.mod_mul_right_mod]; simp [bits]
  have hlt : bits code f.fb f.eb < 2 ^ f.eb := Nat.mod_lt _ hE
  have hm : bits code 0 f.fb < 2 ^ f.fb := Nat.mod_lt _ hp
  have hc : code % 2 ^ (f.width - 1) = 2 ^ f.fb * bits code f.fb f.eb + bits code 0 f.fb := by
    rw [← h1, ← h2]; exact (Nat.div_add_mod _ _).symm
  unfold Stands decodeBin maxCode
  dsimp only
  rw [hc]
  generalize hee : bits code f.fb f.eb = e at *
  generalize bits code 0 f.fb = m at *
  have hmax : (2 ^ f.eb - 1) * 2 ^ f.fb - 1 + 1 = (2 ^ f.eb - 1) * 2 ^ f.fb := by
    apply Nat.sub_add_cancel
    have : 1 ≤ 2 ^ f.eb - 1 := by cases f <;> decide
    exact Nat.mul_pos this hp
  rw [if_neg hf, hmax]
  by_cases he : e = 2 ^ f.eb - 1
  · rw [if_pos he, he, Nat.mul_comm]
    by_cases hm0 : m = 0
    · rw [if_pos hm0, hm0]; simp
    · rw [if_neg hm0, if_pos (by omega)]
  · have hbig : 2 ^ f.fb * e + m < (2 ^ f.eb - 1) * 2 ^ f.fb := by
      have : e + 1 ≤ 2 ^ f.eb - 1 := by omega
      calc 2 ^ f.fb * e + m < 2 ^ f.fb * e + 2 ^ f.fb := by omega
        _ = 2 ^ f.fb * (e + 1) := by ring
        _ ≤ 2 ^ f.fb * (2 ^ f.eb - 1) := Nat.mul_le_mul_left _ this
        _ = _ := Nat.mul_comm _ _
    rw [if_neg he, if_neg (by omega), if_neg (by omega)]
    by_cases h0 : e = 0
    · subst h0
      rw [if_pos rfl, Nat.mul_zero, Nat.zero_add]
      have mag : f.mag m = m * (2 : ℚ) ^ (2 - 2 ^ (f.eb - 1) - f.fb : ℤ) := by
        have := f.mag_of 0 m (by rw [pow_succ]; omega) (.inl rfl)
        simpa using this
      by_cases hz : m = 0 ∨ flush = true
      · have : (m = 0 || flush) = true := by simpa using hz
        have hq : (if flush = true ∧ m < 2 ^ f.fb then 0 else f.mag m) = 0 := by
          rcases hz with h | h
          · subst h; rw [f.mag_zero]; simp
          · rw [if_pos ⟨h, hm⟩]
        rw [hq, if_pos (by simpa using hz)]
        exact ⟨0, 1, rfl, by decide, by simp⟩
      · have hz' : ¬ ((m = 0 : Prop) ∨ flush = true) := hz
        rw [if_neg (by simpa using hz), if_neg (fun h => hz (.inr h.1)), mag]
        have h := FV.scale_is (bitAt code (f.width - 1)) m 1 (by decide) (1 - (2 ^ (f.eb - 1) - 1) - f.fb)
        convert h using 1
        rw [Nat.cast_one, div_one]; congr 2; ring
    · have hge : ¬ (2 ^ f.fb * e + m < 2 ^ f.fb) := by
        have : 2 ^ f.fb * 1 ≤ 2 ^ f.fb * e := Nat.mul_le_mul_left _ (by omega)
        omega
      rw [if_neg h0, if_neg (fun h => hge h.2)]
      have h := FV.scale_is (bitAt code (f.width - 1)) (m + 2 ^ f.fb) 1 (by decide) ((e : ℤ) - (2 ^ (f.eb - 1) - 1) - f.fb)
      have mag := f.mag_of (e - 1) (m + 2 ^ f.fb) (by rw [pow_succ]; omega) (.inr (by omega))
      have hs : (e - 1) * 2 ^ f.fb + (m + 2 ^ f.fb) = 2 ^ f.fb * e + m := by
        obtain ⟨j, hj⟩ := Nat.exists_eq_add_of_le (Nat.one_le_iff_ne_zero.2 h0)
        rw [hj, Nat.add_sub_cancel_left]; ring
      rw [hs] at mag
      rw [mag]
      convert h using 1
      rw [Nat.cast_one, div_one]; congr 2
      have : ((e - 1 : Nat) : ℤ) = (e : ℤ) - 1 := by omega
      rw [this]; ring

/-- The model's magnitudes of D8 are those of the table of R168. -/
theorem d8Mag_rat (m : Nat) (h2 : 2 ≤ m) (h : m < 128) :
    (d8Mag m).2 ≠ 0 ∧ ((d8Mag m).1 / (d8Mag m).2 : ℚ) = d8Rat m := by
  have key : ∀ m : Fin 128, 2 ≤ m.val → (d8Mag m).2 ≠ 0 ∧ ((d8Mag m).1 / (d8Mag m).2 : ℚ) = d8Rat m := by decide +kernel
  exact key ⟨m, h⟩ h2

theorem decodeD8_stands (flush : Bool) (code : Nat) : Stands .d8 flush code (decodeD8 code) := by
  unfold Stands decodeD8
  have hw : NumFmt.d8.width - 1 = 7 := rfl
  dsimp only
  rw [hw, if_pos rfl, show (2 : Nat) ^ 7 = 128 from rfl]
  by_cases h0 : code % 128 = 0
  · rw [if_pos h0, if_pos h0]
    split
    · rfl
    · exact ⟨0, 1, rfl, by decide, by simp⟩
  · rw [if_neg h0, if_neg h0]
    by_cases h1 : code % 128 = 1
    · rw [if_pos h1, if_pos h1]
    · rw [if_neg h1, if_neg h1]
      obtain ⟨a, b⟩ := d8Mag_rat (code % 128) (by omega) (Nat.mod_lt _ (by decide))
      exact ⟨_, _, rfl, a, b⟩

/-- The model's decoding of an element's code (R165, R168). -/
theorem decodeF_stands (f : NumFmt) (flush : Bool) (code : Nat) (h : code < 2 ^ f.width) :
    Stands f flush code (decodeF f flush code) := by
  unfold decodeF
  cases f
  case d8 =>
    show Stands .d8 flush code (decodeD8 (code % 256))
    rw [Nat.mod_eq_of_lt (show code < 256 from h)]
    exact decodeD8_stands flush code
  all_goals
    dsimp only
    rw [Nat.mod_eq_of_lt h]
    exact decodeBin_stands _ (by decide) flush code

theorem decodeF_ok (f : NumFmt) (flush : Bool) (code : Nat) (h : code < 2 ^ f.width) : (decodeF f flush code).Ok := by
  have hs := decodeF_stands f flush code h
  generalize decodeF f flush code = v at *
  unfold Stands at hs
  dsimp only at hs
  intro s n d e
  repeat' split at hs
  all_goals first
    | (rw [hs] at e; cases e)
    | exact hs.ok s n d e

/-! ## Exact arithmetic -/

theorem FV.rat_is {v : FV} {s : Bool} {q : ℚ} (h : v.Is s q) : v.rat = if s then -q else q := by
  obtain ⟨n, d, rfl, _, hq⟩ := h
  simp [FV.rat, hq]

theorem FV.sgn_is {v : FV} {s : Bool} {q : ℚ} (h : v.Is s q) : v.sgn = s := by
  obtain ⟨n, d, rfl, _, _⟩ := h; rfl

/-- The model's exact sum (R176, R190). -/
theorem FV.add_isSum (nz : Bool) (a b : FV) (ha : a.Ok) (hb : b.Ok) :
    IsSum nz a b (a.add nz b) ∧ (a.add nz b).Ok := by
  cases a with
  | nan => simp [IsSum, FV.add, FV.Ok]
  | inf s =>
    cases b with
    | nan => simp [IsSum, FV.add, FV.Ok]
    | inf u => simp only [IsSum, FV.add]; constructor <;> (split <;> simp_all [FV.Ok])
    | num u m e => simp [IsSum, FV.add, FV.Ok]
  | num s n d =>
    cases b with
    | nan => simp [IsSum, FV.add, FV.Ok]
    | inf u => simp [IsSum, FV.add, FV.Ok]
    | num u m e =>
      have hd := ha s n d rfl
      have he := hb u m e rfl
      have hd' : (d : ℚ) ≠ 0 := by exact_mod_cast hd
      have he' : (e : ℚ) ≠ 0 := by exact_mod_cast he
      have dp : (0 : ℚ) < d := by exact_mod_cast Nat.pos_of_ne_zero hd
      have ep : (0 : ℚ) < e := by exact_mod_cast Nat.pos_of_ne_zero he
      have hde : d * e ≠ 0 := Nat.mul_ne_zero hd he
      suffices h : ((FV.num s n d).add nz (.num u m e)).Exactly ((FV.num s n d).rat + (FV.num u m e).rat)
          (if s = u then s else nz) by
        refine ⟨?_, FV.Is.ok h⟩
        unfold IsSum
        rw [if_neg (by simp)]
        exact h
      unfold FV.Exactly FV.add
      have quot : ∀ x : Nat, (x / (d * e : Nat) : ℚ) = (x : ℚ) / (d * e) := by intro x; push_cast; rfl
      by_cases hsu : s = u
      · subst hsu
        simp only [if_true]
        have h := mkNum_is s (n * e + m * d) (d * e) hde
        have hsum : ((n * e + m * d : Nat) / (d * e : Nat) : ℚ) = n / d + m / e := by
          push_cast; field_simp
        rw [hsum] at h
        have nn : (0 : ℚ) ≤ n / d + m / e := by positivity
        cases s
        · have hr : (FV.num false n d).rat + (FV.num false m e).rat = n / d + m / e := by simp [FV.rat]
          rw [hr, abs_of_nonneg nn]
          have : (if (n / d + m / e : ℚ) = 0 then false else decide ((n / d + m / e : ℚ) < 0)) = false := by
            split
            · rfl
            · simpa using nn
          rw [this]; exact h
        · have hr : (FV.num true n d).rat + (FV.num true m e).rat = -(n / d + m / e) := by simp [FV.rat]; ring
          rw [hr, abs_neg, abs_of_nonneg nn]
          have : (if (-(n / d + m / e) : ℚ) = 0 then true else decide ((-(n / d + m / e) : ℚ) < 0)) = true := by
            split
            · rfl
            · rename_i h0
              have : (0 : ℚ) ≠ n / d + m / e := fun hh => h0 (by rw [← hh]; simp)
              have : (0 : ℚ) < n / d + m / e := lt_of_le_of_ne nn this
              rw [decide_eq_true_eq]; linarith
          rw [this]; exact h
      · have hus : (u == s) = false := by cases s <;> cases u <;> simp_all
        simp only [hsu, if_false]
        -- the sum, as a signed difference of the two products
        have hr : (FV.num s n d).rat + (FV.num u m e).rat = (if s then -1 else 1) * (((n * e : Nat) : ℚ) - (m * d : Nat)) / (d * e) := by
          cases s <;> cases u <;> simp_all [FV.rat] <;> field_simp <;> ring
        rw [hr]
        have pde : (0 : ℚ) < d * e := by positivity
        split
        · rename_i heq
          have : (((n * e : Nat) : ℚ) - (m * d : Nat)) = 0 := by rw [heq]; simp
          rw [this]
          simp only [mul_zero, zero_div, if_true, abs_zero]
          exact ⟨0, 1, rfl, by decide, by simp⟩
        · rename_i hne
          split
          · rename_i hlt
            have hpos : (0 : ℚ) < ((n * e : Nat) : ℚ) - (m * d : Nat) := by
              have : ((m * d : Nat) : ℚ) < (n * e : Nat) := by exact_mod_cast hlt
              linarith
            have h := mkNum_is s (n * e - m * d) (d * e) hde
            rw [quot, Nat.cast_sub hlt.le] at h
            have q0 : (0 : ℚ) < (((n * e : Nat) : ℚ) - (m * d : Nat)) / (d * e) := by positivity
            cases s
            · have : ((if false = true then (-1 : ℚ) else 1) * (((n * e : Nat) : ℚ) - (m * d : Nat)) / (d * e)) = (((n * e : Nat) : ℚ) - (m * d : Nat)) / (d * e) := by simp
              rw [this, if_neg q0.ne', abs_of_pos q0, decide_eq_false (not_lt.2 q0.le)]; exact h
            · have : ((if true = true then (-1 : ℚ) else 1) * (((n * e : Nat) : ℚ) - (m * d : Nat)) / (d * e)) = -((((n * e : Nat) : ℚ) - (m * d : Nat)) / (d * e)) := by simp; ring
              rw [this, if_neg (by linarith), abs_neg, abs_of_pos q0, decide_eq_true (by linarith)]; exact h
          · rename_i hge
            have hlt : n * e < m * d := by omega
            have hpos : (0 : ℚ) < ((m * d : Nat) : ℚ) - (n * e : Nat) := by
              have : ((n * e : Nat) : ℚ) < (m * d : Nat) := by exact_mod_cast hlt
              linarith
            have h := mkNum_is u (m * d - n * e) (d * e) hde
            rw [quot, Nat.cast_sub hlt.le] at h
            have q0 : (0 : ℚ) < (((m * d : Nat) : ℚ) - (n * e : Nat)) / (d * e) := by positivity
            cases s
            · have hu : u = true := by cases u <;> simp_all
              subst hu
              have : ((if false = true then (-1 : ℚ) else 1) * (((n * e : Nat) : ℚ) - (m * d : Nat)) / (d * e)) = -((((m * d : Nat) : ℚ) - (n * e : Nat)) / (d * e)) := by simp; ring
              rw [this, if_neg (by linarith), abs_neg, abs_of_pos q0, decide_eq_true (by linarith)]; exact h
            · have hu : u = false := by cases u <;> simp_all
              subst hu
              have : ((if true = true then (-1 : ℚ) else 1) * (((n * e : Nat) : ℚ) - (m * d : Nat)) / (d * e)) = (((m * d : Nat) : ℚ) - (n * e : Nat)) / (d * e) := by simp
              rw [this, if_neg q0.ne', abs_of_pos q0, decide_eq_false (not_lt.2 q0.le)]; exact h

/-- The model's exact product (R190). -/
theorem FV.mul_isProd (a b : FV) (ha : a.Ok) (hb : b.Ok) : IsProd a b (a.mul b) ∧ (a.mul b).Ok := by
  have zero : ∀ (s : Bool) (n d : Nat), d ≠ 0 → ((FV.num s n d).rat = 0 ↔ n = 0) := by
    intro s n d hd
    have : (d : ℚ) ≠ 0 := by exact_mod_cast hd
    cases s <;> simp [FV.rat, this]
  cases a with
  | nan => simp [IsProd, FV.mul, FV.Ok]
  | inf s =>
    cases b with
    | nan => simp [IsProd, FV.mul, FV.Ok]
    | inf u => simp [IsProd, FV.mul, FV.Ok]
    | num u m e =>
      have he := hb u m e rfl
      simp only [IsProd, FV.mul, zero u m e he, FV.sgn]
      by_cases h : m = 0 <;> simp [h, FV.Ok]
  | num s n d =>
    cases b with
    | nan => simp [IsProd, FV.mul, FV.Ok]
    | inf u =>
      have hd := ha s n d rfl
      simp only [IsProd, FV.mul, zero s n d hd, FV.sgn]
      by_cases h : n = 0 <;> simp [h, FV.Ok]
      cases s <;> cases u <;> rfl
    | num u m e =>
      have hd := ha s n d rfl
      have he := hb u m e rfl
      have hde : d * e ≠ 0 := Nat.mul_ne_zero hd he
      have hd' : (d : ℚ) ≠ 0 := by exact_mod_cast hd
      have he' : (e : ℚ) ≠ 0 := by exact_mod_cast he
      suffices h : (mkNum (s != u) (n * m) (d * e)).Exactly ((FV.num s n d).rat * (FV.num u m e).rat) (s != u) by
        refine ⟨?_, FV.Is.ok h⟩
        simpa [IsProd, FV.sgn, FV.mul] using h
      have h := mkNum_is (s != u) (n * m) (d * e) hde
      unfold FV.Exactly
      have hm : ((n * m : Nat) / (d * e : Nat) : ℚ) = |(FV.num s n d).rat * (FV.num u m e).rat| := by
        have p : (0 : ℚ) ≤ (n / d) * (m / e) := by positivity
        have : |(FV.num s n d).rat * (FV.num u m e).rat| = |(n / d : ℚ) * (m / e)| := by
          cases s <;> cases u <;> simp [FV.rat]
        rw [this, abs_of_nonneg p]; push_cast; field_simp
      rw [← hm]
      split
      · exact h
      · rename_i h0
        have : decide ((FV.num s n d).rat * (FV.num u m e).rat < 0) = (s != u) := by
          have p : (0 : ℚ) ≤ (n / d) * (m / e) := by positivity
          cases s <;> cases u <;> simp [FV.rat] at h0 ⊢
          · exact p
          · have : (0 : ℚ) < (n / d) * (m / e) := lt_of_le_of_ne p (by intro hh; simp [hd', he'] at hh; simp_all)
            linarith
          · have : (0 : ℚ) < (n / d) * (m / e) := lt_of_le_of_ne p (by intro hh; simp [hd', he'] at hh; simp_all)
            linarith
          · exact p
        rw [this]; exact h

/-! ## Rounding into D8 (R170) -/

theorem d8Order_codes : ∀ m : Fin 128, m.val ≠ 1 → m.val = 0 ∨ m.val ∈ d8Order := by decide +kernel

theorem d8Order_sorted : (0 :: d8Order).Pairwise (fun a b => d8Z a < d8Z b) := by decide +kernel

theorem d8Order_range : ∀ m ∈ d8Order, 2 ≤ m ∧ m < 128 := by decide +kernel

/-- Every finite magnitude of D8 is in the list. -/
theorem D8Code.mem {m : Nat} (h : D8Code m) : m ∈ 0 :: d8Order := by
  rcases d8Order_codes ⟨m, h.1⟩ h.2 with e | e
  · rw [show m = 0 from e]; exact List.mem_cons_self ..
  · exact List.mem_cons_of_mem _ e

theorem D8Code.of_mem {m : Nat} (h : m ∈ 0 :: d8Order) : D8Code m := by
  rcases List.mem_cons.1 h with e | e
  · subst e; exact ⟨by decide, by decide⟩
  · have := d8Order_range m e; exact ⟨this.2, by omega⟩

theorem d8MagZ_rat {m : Nat} (h : D8Code m) : (d8MagZ m).2 ≠ 0 ∧ ((d8MagZ m).1 / (d8MagZ m).2 : ℚ) = d8Z m := by
  unfold d8MagZ d8Z
  by_cases h0 : m = 0
  · simp [h0]
  · rw [if_neg h0, if_neg h0]; exact d8Mag_rat m (by have := h.2; omega) h.1

/-- The neighbours of a magnitude in a rising list of codes. -/
theorem d8Near_spec (n d : Nat) (hd : d ≠ 0) : ∀ (l : List Nat) (lo : Nat), d8Z lo ≤ n / d →
    (lo :: l).Pairwise (fun a b => d8Z a < d8Z b) → (∀ m ∈ l, 2 ≤ m ∧ m < 128) →
    (d8Near n d lo l).1 ∈ lo :: l ∧ d8Z (d8Near n d lo l).1 ≤ n / d ∧
    (∀ c ∈ lo :: l, d8Z c ≤ n / d → d8Z c ≤ d8Z (d8Near n d lo l).1) ∧
    (∀ h, (d8Near n d lo l).2 = some h → h ∈ l ∧ (n / d : ℚ) < d8Z h ∧
      ∀ c ∈ lo :: l, (n / d : ℚ) < d8Z c → d8Z h ≤ d8Z c) ∧
    ((d8Near n d lo l).2 = none → ∀ c ∈ lo :: l, d8Z c ≤ n / d)
  | [], lo, h, _, _ => by
    simp only [d8Near, List.mem_singleton, forall_eq]
    exact ⟨trivial, h, fun _ => le_refl _, by simp, fun _ => h⟩
  | c :: l, lo, h, hs, hr => by
    obtain ⟨c1, c2⟩ := hr c (List.mem_cons_self ..)
    obtain ⟨m1, m2⟩ := d8Mag_rat c c1 c2
    have hz : d8Z c = d8Rat c := by unfold d8Z; rw [if_neg (by omega)]
    have hd' : (0 : ℚ) < d := by exact_mod_cast Nat.pos_of_ne_zero hd
    have hm' : (0 : ℚ) < (d8Mag c).2 := by exact_mod_cast Nat.pos_of_ne_zero m1
    have iff : ((d8Mag c).1 * d ≤ n * (d8Mag c).2) ↔ d8Z c ≤ n / d := by
      rw [hz, ← m2, div_le_div_iff₀ hm' hd']; exact_mod_cast Iff.rfl
    obtain ⟨hlo, hs'⟩ := List.pairwise_cons.1 hs
    unfold d8Near
    by_cases hc : (d8Mag c).1 * d ≤ n * (d8Mag c).2
    · rw [if_pos hc]
      obtain ⟨i1, i2, i3, i4, i5⟩ := d8Near_spec n d hd l c (iff.1 hc) hs' (fun m hm => hr m (List.mem_cons_of_mem _ hm))
      have hlc : d8Z lo < d8Z c := hlo c (List.mem_cons_self ..)
      refine ⟨List.mem_cons_of_mem _ i1, i2, fun x hx hxv => ?_, fun y hy => ?_, fun hn x hx => ?_⟩
      · rcases List.mem_cons.1 hx with e | e
        · rw [e]; exact hlc.le.trans (i3 c (List.mem_cons_self ..) (iff.1 hc))
        · exact i3 x e hxv
      · obtain ⟨j1, j2, j3⟩ := i4 y hy
        refine ⟨List.mem_cons_of_mem _ j1, j2, fun x hx hxv => ?_⟩
        rcases List.mem_cons.1 hx with e | e
        · rw [e] at hxv; linarith
        · exact j3 x e hxv
      · rcases List.mem_cons.1 hx with e | e
        · rw [e]; exact h
        · exact i5 hn x e
    · rw [if_neg hc]
      have hlt : (n / d : ℚ) < d8Z c := not_le.1 (fun hh => hc (iff.2 hh))
      have above : ∀ x ∈ c :: l, d8Z c ≤ d8Z x := by
        intro x hx
        rcases List.mem_cons.1 hx with e | e
        · rw [e]
        · exact ((List.pairwise_cons.1 hs').1 x e).le
      refine ⟨List.mem_cons_self .., h, fun x hx hxv => ?_, fun y hy => ?_, fun hn => by simp at hn⟩
      · rcases List.mem_cons.1 hx with e | e
        · rw [e]
        · have := above x e; linarith
      · simp only [Option.some.injEq] at hy
        subst hy
        refine ⟨List.mem_cons_self .., hlt, fun x hx hxv => ?_⟩
        rcases List.mem_cons.1 hx with e | e
        · rw [e] at hxv; linarith
        · exact above x e

theorem d8Z_max : ∀ m ∈ 0 :: d8Order, d8Z m ≤ 10 ^ 13 := by decide +kernel

theorem d8Z_inj : ∀ a ∈ 0 :: d8Order, ∀ b ∈ 0 :: d8Order, d8Z a ≤ d8Z b → d8Z b ≤ d8Z a → a = b := by
  intro a ha b hb h1 h2
  have hs := d8Order_sorted
  rcases List.pairwise_iff_getElem.1 hs with hp
  obtain ⟨i, hi, rfl⟩ := List.getElem_of_mem ha
  obtain ⟨j, hj, rfl⟩ := List.getElem_of_mem hb
  rcases Nat.lt_trichotomy i j with h | h | h
  · have := hp i j hi hj h; linarith
  · subst h; rfl
  · have := hp j i hj hi h; linarith

/-- The model's conversion to D8 (R170). -/
theorem roundD8_rounds (rnd : Nat) (hr : rnd < 4) (sat flush : Bool) (v : FV) (hv : v.Ok) :
    RoundsTo .d8 rnd sat flush v (roundD8 rnd sat v) := by
  have hsb : ∀ s, signBit .d8 s = if s then 0x80 else 0 := fun s => rfl
  cases v with
  | nan => rfl
  | inf s => simp [RoundsTo, roundD8, hsb]
  | num s n d =>
    have hd : d ≠ 0 := hv s n d rfl
    have hd' : (0 : ℚ) < d := by exact_mod_cast Nat.pos_of_ne_zero hd
    have x0 : (0 : ℚ) ≤ n / d := by positivity
    obtain ⟨i1, i2, i3, i4, i5⟩ := d8Near_spec n d hd d8Order 0 (by simpa [d8Z] using x0) d8Order_sorted d8Order_range
    simp only [RoundsTo, if_true]
    unfold roundD8
    generalize hnear : d8Near n d 0 d8Order = r at *
    obtain ⟨lo, hi⟩ := r
    simp only [hnear]
    dsimp only at i1 i2 i3 i4 i5
    have clo := D8Code.of_mem i1
    obtain ⟨z1, z2⟩ := d8MagZ_rat clo
    have z1' : (0 : ℚ) < (d8MagZ lo).2 := by exact_mod_cast Nat.pos_of_ne_zero z1
    have exact_iff : ((d8MagZ lo).1 * d == n * (d8MagZ lo).2) = true ↔ d8Z lo = n / d := by
      rw [beq_iff_eq, ← z2, div_eq_div_iff z1'.ne' hd'.ne']; exact_mod_cast Iff.rfl
    by_cases hq : (n / d : ℚ) = 0
    · rw [if_pos hq]
      have hn : n = 0 := by
        rcases div_eq_zero_iff.1 hq with h | h
        · exact_mod_cast h
        · exact absurd h hd'.ne'
      have lo0 : lo = 0 := by
        apply d8Z_inj lo i1 0 (List.mem_cons_self ..)
        · rw [hq] at i2; simpa [d8Z] using i2
        · exact i3 0 (List.mem_cons_self ..) (by rw [hq]; simp [d8Z])
      subst lo0
      have hex := exact_iff.2 (by rw [hq]; rfl)
      rw [hex]
      subst hn
      have : rnd = 0 ∨ rnd = 1 ∨ rnd = 2 ∨ rnd = 3 := by omega
      cases hi <;> rcases this with h | h | h | h <;> subst h <;> simp
    · rw [if_neg hq]
      have xpos : (0 : ℚ) < n / d := lt_of_le_of_ne x0 (Ne.symm hq)
      -- the two candidates
      have mlo : d8Z lo ≤ n / d := i2
      have both : ∀ k, D8Code k → d8Z k ≤ d8Z lo ∨ (n / d : ℚ) < d8Z k := by
        intro k hk
        by_cases h : d8Z k ≤ n / d
        · exact .inl (i3 k hk.mem h)
        · exact .inr (not_le.1 h)
      -- the code that stands for a magnitude
      have code : ∀ c, (if c = 0 then 0 else (if s then 0x80 else 0) + c) = if c = 0 then 0 else signBit .d8 s + c := by
        intro c; rw [hsb]
      cases hi with
      | none =>
        have allle := i5 rfl
        have lomax : d8Z lo = 10 ^ 13 := by
          have h3 : (3 : Nat) ∈ 0 :: d8Order := by decide
          have e3 : d8Z 3 = 10 ^ 13 := by decide +kernel
          have := i3 3 h3 (allle 3 h3)
          have := d8Z_max lo i1
          linarith
        have lo3 : lo = 3 := by
          apply d8Z_inj lo i1 3 (by decide)
          · rw [lomax]; decide +kernel
          · rw [lomax]; decide +kernel
        have big : (55 * 10 ^ 12 < (n / d : ℚ)) ↔ 55000000000000 * d < n := by
          rw [lt_div_iff₀ hd']
          have : ((55 * 10 ^ 12 : ℚ)) * d < n ↔ ((55000000000000 * d : Nat) : ℚ) < n := by push_cast; norm_num
          rw [this]; exact_mod_cast Iff.rfl
        have e13 : (10 ^ 13 < (n / d : ℚ)) ↔ ¬ d8Z lo = n / d := by
          rw [← lomax]; exact ⟨fun h => h.ne, fun h => lt_of_le_of_ne i2 h⟩
        have infc : (if (if sat = true then 3 else 1) = 0 then 0 else (if s = true then 128 else 0) + (if sat = true then 3 else 1)) =
            signBit .d8 s + (if sat = true then 3 else 1) := by rw [hsb]; cases sat <;> simp
        have toLo : ∀ k, D8Code k → d8Z k ≤ d8Z lo := by
          intro k hk; exact i3 k hk.mem (allle k hk.mem)
        have hrn : rnd = 0 ∨ rnd = 1 ∨ rnd = 2 ∨ rnd = 3 := by omega
        rcases hrn with h | h | h
        · subst h
          by_cases hb : 55 * 10 ^ 12 < (n / d : ℚ)
          · rw [if_pos (.inl ⟨rfl, hb⟩)]
            simp only [decide_eq_true (big.1 hb), if_true]
            exact infc
          · rw [if_neg (by simp [away, hb])]
            have : decide (55000000000000 * d < n) = false := decide_eq_false (fun h => hb (big.2 h))
            simp only [this]
            refine ⟨lo, ⟨clo, fun _ k hk => ⟨?_, fun _ => ?_⟩, by simp [away], by simp⟩, by rw [← code]; simp⟩
            · have := toLo k hk
              rw [abs_of_nonneg (by linarith), abs_of_nonneg (by linarith)]; linarith
            · rename_i hh
              have := toLo k hk
              rw [abs_of_nonneg (by linarith), abs_of_nonneg (by linarith)] at hh; linarith
        · subst h
          rw [if_neg (by simp [away])]
          refine ⟨lo, ⟨clo, by simp, by simp [away], fun _ _ => ⟨mlo, fun k hk h => toLo k hk⟩⟩, by rw [← code]; simp⟩
        · have hn0 : rnd ≠ 0 := by omega
          by_cases ha : away rnd s = true
          · by_cases hex : d8Z lo = n / d
            · rw [if_neg (by rintro (⟨h, _⟩ | ⟨_, h⟩); exacts [hn0 h, e13.1 h hex])]
              refine ⟨lo, ⟨clo, fun h => absurd h hn0, fun _ => ⟨hex.ge, fun k hk h => by rw [hex]; exact h⟩, fun _ h => by rw [ha] at h; simp at h⟩, ?_⟩
              rw [exact_iff.2 hex]
              rcases h with h | h <;> subst h <;> cases s <;> simp_all [away]
            · rw [if_pos (.inr ⟨ha, e13.2 hex⟩)]
              have hne : ((d8MagZ lo).1 * d == n * (d8MagZ lo).2) = false := by
                rw [Bool.eq_false_iff]; exact fun h => hex (exact_iff.1 h)
              rw [hne, ← infc]
              rcases h with h | h <;> subst h <;> cases s <;> simp [away] at ha ⊢
          · rw [Bool.not_eq_true] at ha
            rw [if_neg (by rintro (⟨h, _⟩ | ⟨h, _⟩); exacts [hn0 h, by rw [ha] at h; simp at h])]
            refine ⟨lo, ⟨clo, fun h => absurd h hn0, by rw [ha]; simp, fun _ _ => ⟨mlo, fun k hk h => toLo k hk⟩⟩, ?_⟩
            rcases h with h | h <;> subst h <;> cases s <;> simp_all [away]
      | some h =>
        obtain ⟨j1, j2, j3⟩ := i4 h rfl
        have hmem : h ∈ 0 :: d8Order := List.mem_cons_of_mem _ j1
        have ch := D8Code.of_mem hmem
        have h2 := d8Order_range h j1
        obtain ⟨w1, w2⟩ := d8Mag_rat h h2.1 h2.2
        have w1' : (0 : ℚ) < (d8Mag h).2 := by exact_mod_cast Nat.pos_of_ne_zero w1
        have hz : d8Z h = d8Rat h := by unfold d8Z; rw [if_neg (by omega)]
        have hmax := d8Z_max h hmem
        have notbig : ¬ (55 * 10 ^ 12 < (n / d : ℚ)) := by
          intro hb; have : (10 : ℚ) ^ 13 ≤ 55 * 10 ^ 12 := by norm_num
          linarith
        have not13 : ¬ (10 ^ 13 < (n / d : ℚ)) := by intro hb; linarith
        have hne0 : h ≠ 0 := by omega
        rw [if_neg (by rintro (⟨_, hb⟩ | ⟨_, hb⟩); exacts [notbig hb, not13 hb])]
        have near_iff : decide (((d8MagZ lo).1 * (d8Mag h).2 + (d8Mag h).1 * (d8MagZ lo).2) * d < 2 * n * ((d8MagZ lo).2 * (d8Mag h).2)) = true ↔
            d8Z lo + d8Z h < 2 * (n / d) := by
          rw [decide_eq_true_eq, hz, ← z2, ← w2, div_add_div _ _ z1'.ne' w1'.ne', ← mul_div_assoc,
            div_lt_div_iff₀ (by positivity) hd']
          constructor
          · intro hh
            have : (((d8MagZ lo).1 * (d8Mag h).2 + (d8Mag h).1 * (d8MagZ lo).2) * d : ℚ) < 2 * n * ((d8MagZ lo).2 * (d8Mag h).2) := by
              exact_mod_cast hh
            linarith
          · intro hh
            have : (((d8MagZ lo).1 * (d8Mag h).2 + (d8Mag h).1 * (d8MagZ lo).2) * d : ℚ) < 2 * n * ((d8MagZ lo).2 * (d8Mag h).2) := by
              linarith
            exact_mod_cast this
        have hup : ∀ k, D8Code k → (n / d : ℚ) < d8Z k → d8Z h ≤ d8Z k := fun k hk hh => j3 k hk.mem hh
        have hrn : rnd = 0 ∨ rnd = 1 ∨ rnd = 2 ∨ rnd = 3 := by omega
        rcases hrn with e | e | e
        · subst e
          by_cases hb : d8Z lo + d8Z h < 2 * (n / d)
          · refine ⟨h, ⟨ch, fun _ k hk => ?_, by simp [away], by simp⟩, ?_⟩
            · have h1 : |(n / d : ℚ) - d8Z h| = d8Z h - n / d := by rw [abs_sub_comm, abs_of_pos (by linarith)]
              rw [h1]
              rcases both k hk with hk' | hk'
              · rw [abs_of_nonneg (by linarith)]
                exact ⟨by linarith, fun hh => by linarith⟩
              · have := hup k hk hk'
                rw [abs_sub_comm, abs_of_pos (by linarith)]
                exact ⟨by linarith, fun hh => by linarith⟩
            · simp only [near_iff.2 hb, if_true]; rw [← code]
          · have hf : decide (((d8MagZ lo).1 * (d8Mag h).2 + (d8Mag h).1 * (d8MagZ lo).2) * d < 2 * n * ((d8MagZ lo).2 * (d8Mag h).2)) = false := by
              rw [Bool.eq_false_iff]; exact fun hh => hb (near_iff.1 hh)
            refine ⟨lo, ⟨clo, fun _ k hk => ?_, by simp [away], by simp⟩, ?_⟩
            · have h1 : |(n / d : ℚ) - d8Z lo| = n / d - d8Z lo := abs_of_nonneg (by linarith)
              rw [h1]
              rcases both k hk with hk' | hk'
              · rw [abs_of_nonneg (by linarith)]
                exact ⟨by linarith, fun hh => by linarith⟩
              · have := hup k hk hk'
                rw [abs_sub_comm, abs_of_pos (by linarith)]
                exact ⟨by linarith, fun hh => by linarith⟩
            · simp only [hf]; rw [← code]; simp
        · subst e
          refine ⟨lo, ⟨clo, by simp, by simp [away], fun _ _ => ⟨mlo, fun k hk hh => i3 k hk.mem hh⟩⟩, by rw [← code]; simp⟩
        · have hn0 : rnd ≠ 0 := by omega
          by_cases ha : away rnd s = true
          · by_cases hex : d8Z lo = n / d
            · refine ⟨lo, ⟨clo, fun h => absurd h hn0, fun _ => ⟨hex.ge, fun k hk hh => by rw [hex]; exact hh⟩, fun _ h => by rw [ha] at h; simp at h⟩, ?_⟩
              rw [exact_iff.2 hex]
              rcases e with e | e <;> subst e <;> cases s <;> simp_all [away]
            · refine ⟨h, ⟨ch, fun h => absurd h hn0, fun _ => ⟨j2.le, fun k hk hh => ?_⟩, fun _ h => by rw [ha] at h; simp at h⟩, ?_⟩
              · rcases both k hk with hk' | hk'
                · exact absurd (le_antisymm mlo (hh.trans hk')) hex
                · exact hup k hk hk'
              · have hne : ((d8MagZ lo).1 * d == n * (d8MagZ lo).2) = false := by
                  rw [Bool.eq_false_iff]; exact fun h => hex (exact_iff.1 h)
                rw [hne]
                rcases e with e | e <;> subst e <;> cases s <;> simp_all [away]
          · rw [Bool.not_eq_true] at ha
            refine ⟨lo, ⟨clo, fun h => absurd h hn0, by rw [ha]; simp, fun _ _ => ⟨mlo, fun k hk hh => i3 k hk.mem hh⟩⟩, ?_⟩
            rcases e with e | e <;> subst e <;> cases s <;> simp_all [away]

/-- The model's one rounding (R172). -/
theorem encodeF_rounds (f : NumFmt) (rnd : Nat) (hr : rnd < 4) (sat flush : Bool) (v : FV) (hv : v.Ok) :
    RoundsTo f rnd sat flush v (encodeF f rnd sat flush v) := by
  cases f
  case d8 => exact roundD8_rounds rnd hr sat flush v hv
  all_goals exact roundBin_rounds _ (by decide) rnd hr sat flush v hv

end Sys2Proof.Machine
end

