-- ==== Sys2Proof/Laws/Lanes.lean ====
section
/-!
SUPPORT. What element words compute, element by element: a prover cites compute_gives and unfolds no lane.
-/

namespace Sys2Proof.Machine

/-! ## Elements -/

theorem FV.zero_ok : FV.zero.Ok := by intro _ _ _ e; cases e; decide

theorem splitBits_eq (w : Nat) : ∀ n v, splitBits w n v = (List.range n).map (fun k => v / 2 ^ (w * k) % 2 ^ w)
  | 0, _ => rfl
  | n + 1, v => by
    rw [splitBits, splitBits_eq w n, List.range_succ_eq_map, List.map_cons, List.map_map]
    congr 1
    · simp
    · apply List.map_congr_left
      intro k _
      simp only [Function.comp]
      rw [Nat.div_div_eq_div_mul, ← pow_add, Nat.mul_succ, Nat.add_comm]

theorem joinBits_lt (w : Nat) : ∀ l, joinBits w l < 2 ^ (w * l.length)
  | [] => by simp [joinBits]
  | x :: r => by
    have h := joinBits_lt w r
    have hx : x % 2 ^ w < 2 ^ w := Nat.mod_lt _ (Nat.pow_pos (by decide))
    rw [joinBits, List.length_cons, Nat.mul_succ, pow_add]
    calc x % 2 ^ w + 2 ^ w * joinBits w r < 2 ^ w + 2 ^ w * joinBits w r := by omega
      _ = 2 ^ w * (joinBits w r + 1) := by ring
      _ ≤ 2 ^ w * 2 ^ (w * r.length) := Nat.mul_le_mul_left _ h
      _ = _ := Nat.mul_comm _ _

theorem joinBits_el (w : Nat) : ∀ (l : List Nat) (n : Nat), joinBits w l / 2 ^ (w * n) % 2 ^ w = l.getD n 0 % 2 ^ w
  | [], n => by simp [joinBits]
  | x :: r, 0 => by
    simp only [joinBits, Nat.mul_zero, pow_zero, Nat.div_one, List.getD_cons_zero, Nat.add_mul_mod_self_left, Nat.mod_mod]
  | x :: r, n + 1 => by
    have hx : x % 2 ^ w < 2 ^ w := Nat.mod_lt _ (Nat.pow_pos (by decide))
    have hp : 0 < 2 ^ w := Nat.pow_pos (by decide)
    rw [joinBits, Nat.mul_succ, Nat.add_comm (w * n), pow_add, ← Nat.div_div_eq_div_mul, Nat.add_mul_div_left _ _ hp,
      Nat.div_eq_of_lt hx, Nat.zero_add, joinBits_el w r n, List.getD_cons_succ]

/-- An element of a token of elements. -/
theorem el_ofElems (w : Nat) (l : List Nat) (n : Nat) (h : w * l.length ≤ 512) :
    el w n (ofElems w l) = l.getD n 0 % 2 ^ w := by
  unfold el ofElems
  have hlt : joinBits w l < 2 ^ 512 := lt_of_lt_of_le (joinBits_lt w l) (Nat.pow_le_pow_right (by decide) h)
  rw [BitVec.toNat_ofNat, Nat.mod_eq_of_lt hlt, joinBits_el]

theorem el_lt (w n : Nat) (v : Wide) : el w n v < 2 ^ w := Nat.mod_lt _ (Nat.pow_pos (by decide))

theorem ty_bits (ty : Nat) : tyWidth ty * (16 * tyCount ty) = 512 := by
  unfold tyWidth tyCount
  split <;> rfl

theorem tyCount_pos (ty : Nat) : 0 < tyCount ty := by unfold tyCount; split <;> decide
theorem tyWidth_pos (ty : Nat) : 0 < tyWidth ty := by unfold tyWidth tyCount; split <;> decide

theorem elems_eq (ty : Nat) (v : Wide) : elems ty v = (List.range (16 * tyCount ty)).map (fun n => el (tyWidth ty) n v) :=
  splitBits_eq _ _ _

theorem lanes_eq (v : Wide) : lanes v = (List.range 16).map (fun n => el 32 n v) := splitBits_eq _ _ _

theorem lane_eq (v : Wide) (k : Nat) : lane v k = el 32 k v := rfl

/-- Past the last there is nothing. -/
theorem el_out (w n : Nat) (v : Wide) (h : 512 ≤ w * n) : el w n v = 0 := by
  unfold el
  rw [Nat.div_eq_of_lt (lt_of_lt_of_le v.isLt (Nat.pow_le_pow_right (by decide) h))]
  simp

theorem nth_elems (ty n : Nat) (v : Wide) : nth (elems ty v) n 0 = el (tyWidth ty) n v := by
  unfold nth
  rw [elems_eq, List.getD_eq_getElem?_getD, List.getElem?_map]
  by_cases h : n < 16 * tyCount ty
  · rw [List.getElem?_range h]; rfl
  · rw [List.getElem?_eq_none (by simpa using h)]
    rw [el_out]
    · rfl
    · rw [← ty_bits ty]; exact Nat.mul_le_mul_left _ (by omega)

/-- An element of a token of lanes. -/
theorem el_ofLanes (l : List Nat) (n : Nat) (h : l.length ≤ 16) : el 32 n (ofLanes l) = l.getD n 0 % 2 ^ 32 :=
  el_ofElems 32 l n (by omega)

/-- A token made lane by lane. -/
theorem el_ofLanes_map (f : Nat → Nat) (k : Nat) (h : k < 16) : el 32 k (ofLanes ((List.range 16).map f)) = f k % 2 ^ 32 := by
  rw [el_ofLanes _ _ (by simp), List.getD_eq_getElem?_getD, List.getElem?_map, List.getElem?_range h]
  rfl

/-! ## Flags -/

/-- A sum of the powers of two of the lanes that hold. -/
theorem flags_bit (p : Nat → Bool) : ∀ (n : Nat),
    (List.range n).foldl (fun f k => if p k then f + 2 ^ k else f) 0 < 2 ^ n ∧
    ∀ k, k < n → bitAt ((List.range n).foldl (fun f k => if p k then f + 2 ^ k else f) 0) k = p k
  | 0 => by simp
  | n + 1 => by
    obtain ⟨h1, h2⟩ := flags_bit p n
    rw [List.range_succ, List.foldl_append]
    generalize (List.range n).foldl (fun f k => if p k then f + 2 ^ k else f) 0 = x at *
    simp only [List.foldl_cons, List.foldl_nil]
    refine ⟨by rw [pow_succ]; split <;> omega, fun k hk => ?_⟩
    rcases Nat.lt_succ_iff_lt_or_eq.1 hk with h | h
    · rw [← h2 k h]
      split
      · unfold bitAt
        obtain ⟨j, rfl⟩ := Nat.exists_eq_add_of_lt h
        have : 2 ^ (k + j + 1) = 2 ^ k * (2 * 2 ^ j) := by rw [pow_add, pow_add, pow_one]; ring
        rw [this, Nat.add_mul_div_left _ _ (Nat.pow_pos (by decide)), Nat.add_mul_mod_self_left]
      · rfl
    · subst h
      unfold bitAt
      split
      · rename_i hp
        rw [Nat.add_div_right _ (Nat.pow_pos (by decide)), Nat.div_eq_of_lt h1, hp]; rfl
      · rename_i hp
        rw [Nat.div_eq_of_lt h1]
        have : p k = false := by simpa using hp
        rw [this]; rfl

/-- The elements and flags of a result. -/
theorem resOf_el (ty : Nat) (l : List (Nat × Bool)) (h : l.length = 16 * tyCount ty) (n : Nat) :
    el (tyWidth ty) n (resOf ty l).val = (l.getD n (0, false)).1 % 2 ^ tyWidth ty := by
  unfold resOf
  dsimp only
  rw [el_ofElems _ _ _ (by rw [List.length_map, h, ty_bits])]
  congr 1
  rw [List.getD_eq_getElem?_getD, List.getD_eq_getElem?_getD, List.getElem?_map]
  cases l[n]? <;> rfl

theorem resOf_flag (ty : Nat) (l : List (Nat × Bool)) (k : Nat) (hk : k < 16) :
    bitAt (resOf ty l).flags k = true ↔ ∃ n, n / tyCount ty = k ∧ (l.getD n (0, false)).2 = true := by
  have hc := tyCount_pos ty
  unfold resOf
  dsimp only
  rw [(flags_bit (fun k => ((l.drop (tyCount ty * k)).take (tyCount ty)).any (·.2)) 16).2 k hk, List.any_eq_true]
  constructor
  · rintro ⟨x, hx, hx2⟩
    obtain ⟨i, hi, rfl⟩ := List.getElem_of_mem hx
    rw [List.getElem_take, List.getElem_drop] at hx2
    rw [List.length_take] at hi
    refine ⟨tyCount ty * k + i, ?_, ?_⟩
    · rw [Nat.mul_add_div hc, Nat.div_eq_of_lt (by omega)]; rfl
    · rw [List.getD_eq_getElem?_getD, List.getElem?_eq_getElem]; exact hx2
  · rintro ⟨n, rfl, hn⟩
    have hm := Nat.div_add_mod n (tyCount ty)
    have hlt := Nat.mod_lt n hc
    have hb : n < l.length := by
      by_contra hh
      rw [List.getD_eq_getElem?_getD, List.getElem?_eq_none (by omega)] at hn
      simp at hn
    refine ⟨l[n], ?_, by rwa [List.getD_eq_getElem?_getD, List.getElem?_eq_getElem hb] at hn⟩
    rw [List.mem_iff_getElem]
    refine ⟨n % tyCount ty, by rw [List.length_take, List.length_drop]; omega, ?_⟩
    rw [List.getElem_take, List.getElem_drop]
    congr 1

/-- Elements made one by one: the result, and the lanes it flags. -/
theorem resOf_map (ty : Nat) (f : Nat → Nat × Bool) :
    (∀ n, n < 16 * tyCount ty → el (tyWidth ty) n (resOf ty ((List.range (16 * tyCount ty)).map f)).val = (f n).1 % 2 ^ tyWidth ty) ∧
    ∀ k, k < 16 → (bitAt (resOf ty ((List.range (16 * tyCount ty)).map f)).flags k = true ↔
      ∃ n, n / tyCount ty = k ∧ (f n).2 = true) := by
  have get : ∀ n, n < 16 * tyCount ty → ((List.range (16 * tyCount ty)).map f).getD n (0, false) = f n := by
    intro n h
    rw [List.getD_eq_getElem?_getD, List.getElem?_map, List.getElem?_range h]; rfl
  refine ⟨fun n h => ?_, fun k hk => ?_⟩
  · rw [resOf_el ty _ (by simp), get n h]
  · rw [resOf_flag ty _ k hk]
    have hc := tyCount_pos ty
    have inr : ∀ n, n / tyCount ty = k → n < 16 * tyCount ty := by
      intro n h
      have := Nat.lt_mul_of_div_lt (show n / tyCount ty < 16 by omega) hc
      exact this
    constructor
    · rintro ⟨n, h1, h2⟩; exact ⟨n, h1, by rwa [get n (inr n h1)] at h2⟩
    · rintro ⟨n, h1, h2⟩; exact ⟨n, h1, by rwa [get n (inr n h1)]⟩

theorem map1_eq (ty : Nat) (f : Nat → Nat × Bool) (x : Wide) :
    map1 ty f x = resOf ty ((List.range (16 * tyCount ty)).map (fun n => f (el (tyWidth ty) n x))) := by
  unfold map1; rw [elems_eq, List.map_map]; rfl

theorem map2_eq (ty : Nat) (f : Nat → Nat → Nat × Bool) (x y : Wide) :
    map2 ty f x y = resOf ty ((List.range (16 * tyCount ty)).map (fun n => f (el (tyWidth ty) n x) (el (tyWidth ty) n y))) := by
  unfold map2; rw [elems_eq, elems_eq, List.zipWith_map, List.zipWith_self]

theorem map3_eq (ty : Nat) (f : Nat → Nat → Nat → Nat × Bool) (x y z : Wide) :
    map3 ty f x y z = resOf ty ((List.range (16 * tyCount ty)).map (fun n =>
      f (el (tyWidth ty) n x) (el (tyWidth ty) n y) (el (tyWidth ty) n z))) := by
  unfold map3
  rw [elems_eq, elems_eq, elems_eq, List.zip_map', List.zipWith_map, List.zipWith_self]

/-! ## Integers -/

theorem intVal_toSigned (w x : Nat) (h : x < 2 ^ w) : toSigned w x = intVal true w x := by
  unfold toSigned intVal
  rw [Nat.mod_eq_of_lt h]
  by_cases hh : x < 2 ^ (w - 1)
  · rw [if_pos hh, if_neg (by simp; exact hh)]
  · rw [if_neg hh, if_pos ⟨rfl, by omega⟩]

theorem intOf_el (ty n : Nat) (v : Wide) : intOf ty (el (tyWidth ty) n v) = intEl ty n v := by
  unfold intOf intEl
  split
  · rename_i h; rw [intVal_toSigned _ _ (el_lt ..), h]
  · rename_i h
    have : tySigned ty = false := by simpa using h
    simp [intVal, this]

/-- The model brings exact integers into a type (R164). -/
theorem fitInt_fits (sg : Bool) (w : Nat) (hw : 0 < w) (sat : Bool) (z : Int) :
    Fits sg w sat z (fitInt sg w sat z).1 ∧ ((fitInt sg w sat z).2 = true ↔ sat = true ∧ Outside sg w z) ∧
      (fitInt sg w sat z).1 < 2 ^ w := by
  have hp : (0 : Int) < 2 ^ w := by positivity
  have hp' : (0 : Int) < 2 ^ (w - 1) := by positivity
  have hww : (2 : Int) ^ w = 2 * 2 ^ (w - 1) := by
    obtain ⟨j, rfl⟩ := Nat.exists_eq_add_of_lt hw
    simp [pow_succ]; ring
  have hle : intMin sg w ≤ intMax sg w := by
    cases sg <;> simp only [intMin, intMax, Bool.false_eq_true, if_true, if_false] <;> omega
  have nn : ∀ y : Int, ((y % 2 ^ w).toNat : Int) = y % 2 ^ w := fun y => Int.toNat_of_nonneg (Int.emod_nonneg _ hp.ne')
  have lt : ∀ y : Int, (y % 2 ^ w).toNat < 2 ^ w := by
    intro y
    have := Int.emod_lt_of_pos y hp
    have h2 : ((y % 2 ^ w).toNat : Int) < ((2 ^ w : Nat) : Int) := by rw [nn]; push_cast; exact this
    exact_mod_cast h2
  unfold fitInt Fits Outside
  dsimp only
  by_cases h : intMin sg w ≤ z ∧ z ≤ intMax sg w
  · rw [if_pos h]
    refine ⟨?_, ?_, lt _⟩
    · rw [nn, min_eq_right h.2, max_eq_right h.1]; simp
    · simp; intro; omega
  · rw [if_neg h]
    cases sat
    · simp only [Bool.false_eq_true, if_false]
      exact ⟨nn _, by simp, lt _⟩
    · simp only [if_true]
      refine ⟨?_, ?_, lt _⟩
      · rw [nn]
        by_cases h1 : z < intMin sg w
        · rw [if_pos h1, min_eq_right (by omega), max_eq_left (by omega)]
        · rw [if_neg h1, min_eq_left (by omega), max_eq_right (by omega)]
      · simp only [true_and, true_iff]; omega

/-- Results brought from exact integers, element by element. -/
theorem resOf_brings (ty : Nat) (sat : Bool) (z : Nat → Int) :
    let r := resOf ty ((List.range (16 * tyCount ty)).map (fun n => fitInt (tySigned ty) (tyWidth ty) sat (z n)))
    Brings ty sat z r.val (fun k => bitAt r.flags k = true) := by
  dsimp only
  obtain ⟨h1, h2⟩ := resOf_map ty (fun n => fitInt (tySigned ty) (tyWidth ty) sat (z n))
  refine ⟨fun n hn => ?_, fun k hk => ?_⟩
  · obtain ⟨f1, _, f3⟩ := fitInt_fits (tySigned ty) (tyWidth ty) (tyWidth_pos ty) sat (z n)
    rw [h1 n hn, Nat.mod_eq_of_lt f3]; exact f1
  · refine (h2 k hk).trans ?_
    constructor
    · rintro ⟨n, e, f⟩
      have := (fitInt_fits (tySigned ty) (tyWidth ty) (tyWidth_pos ty) sat (z n)).2.1.1 f
      exact ⟨this.1, n, e, this.2⟩
    · rintro ⟨hs, n, e, o⟩
      exact ⟨n, e, (fitInt_fits (tySigned ty) (tyWidth ty) (tyWidth_pos ty) sat (z n)).2.1.2 ⟨hs, o⟩⟩

/-! ## Floating and D8 elements -/

/-- A rounded value's code fits its format. -/
theorem RoundsTo.lt {f : NumFmt} {rnd : Nat} {sat flush : Bool} {v : FV} {code : Nat}
    (h : RoundsTo f rnd sat flush v code) : code < 2 ^ f.width := by
  have hmax : f ≠ .d8 → maxCode f + 1 < 2 ^ (f.width - 1) := by intro hf; cases f <;> first | decide | exact absurd rfl hf
  have hs : ∀ s c, c < 2 ^ (f.width - 1) → signBit f s + c < 2 ^ f.width := by
    intro s c hc
    have : 2 ^ f.width = 2 ^ (f.width - 1) + 2 ^ (f.width - 1) := by cases f <;> rfl
    unfold signBit; split <;> omega
  have hinf : ∀ s, signBit f s + (if f = .d8 then (if sat then 3 else 1) else if sat then maxCode f else maxCode f + 1) < 2 ^ f.width := by
    intro s
    apply hs
    by_cases hf : f = .d8
    · subst hf; rw [if_pos rfl]; split <;> decide
    · rw [if_neg hf]; have := hmax hf; split <;> omega
  cases v with
  | nan =>
    simp only [RoundsTo] at h; rw [h]; cases f <;> decide
  | inf s => simp only [RoundsTo] at h; rw [h]; exact hinf s
  | num s n d =>
    simp only [RoundsTo] at h
    have pos : 0 < 2 ^ (f.width - 1) := Nat.pow_pos (by decide)
    split at h
    · rename_i hf
      split at h
      · rw [h]; exact Nat.pow_pos (by decide)
      · split at h
        · rw [h, hf]; have := hinf s; rw [hf] at this; exact this
        · obtain ⟨m, hm, rfl⟩ := h
          have := hm.1.1
          split
          · exact Nat.pow_pos (by decide)
          · apply hs; subst hf; exact this
    · rename_i hf
      have := hmax hf
      split at h
      · rw [h]; exact hs s 0 pos
      · obtain ⟨c, _, h1, h2⟩ := h
        by_cases hc : c ≤ maxCode f
        · rw [h1 hc]; apply hs; split <;> omega
        · obtain ⟨h3, h4⟩ := h2 (by omega)
          by_cases ha : rnd = 0 ∨ away rnd s = true
          · have hi := hinf s
            rw [if_neg hf] at hi
            rw [h3 ha]; exact hi
          · rw [not_or, Bool.not_eq_true] at ha
            rw [h4 ha.1 ha.2]; apply hs; omega

theorem tyFmt_width (ty : Nat) (h : tyFloat ty = true) : (tyFmt ty).width = tyWidth ty := by
  have : ty = 3 ∨ ty = 4 ∨ ty = 5 ∨ ty = 6 := by
    unfold tyFloat at h; simp at h; omega
  rcases this with h | h | h | h <;> subst h <;> rfl

/-- An element of a type has a code of its format. -/
theorem el_fmt (ty n : Nat) (v : Wide) : el (tyWidth ty) n v < 2 ^ (tyFmt ty).width := by
  refine lt_of_lt_of_le (el_lt ..) (Nat.pow_le_pow_right (by decide) ?_)
  by_cases h : ty = 4 ∨ ty = 5 ∨ ty = 6
  · rcases h with h | h | h <;> subst h <;> decide
  · have : tyFmt ty = .fp32 := by unfold tyFmt; split <;> simp_all
    rw [this]; exact Nat.div_le_self 32 _

/-- The model's value of an element. -/
theorem fltOf_val (ty : Nat) (flush : Bool) (n : Nat) (v : Wide) : Val ty flush n v (fltOf ty flush (el (tyWidth ty) n v)) :=
  decodeF_stands _ _ _ (el_fmt ty n v)

theorem fltOf_ok (ty : Nat) (flush : Bool) (n : Nat) (v : Wide) : (fltOf ty flush (el (tyWidth ty) n v)).Ok :=
  decodeF_ok _ _ _ (el_fmt ty n v)

/-- Results rounded once, element by element. -/
theorem resOf_rounds (ty rnd : Nat) (hr : rnd < 4) (sat flush : Bool) (ht : tyFloat ty = true) (v : Nat → FV) (P : Nat → FV → Prop)
    (hv : ∀ n, (v n).Ok ∧ P n (v n)) :
    let r := resOf ty ((List.range (16 * tyCount ty)).map (fun n => fltRes ty rnd sat flush (v n)))
    Rounds ty rnd sat flush P r.val ∧ ∀ k, k < 16 → ¬ bitAt r.flags k = true := by
  dsimp only
  obtain ⟨h1, h2⟩ := resOf_map ty (fun n => fltRes ty rnd sat flush (v n))
  refine ⟨fun n hn => ⟨v n, (hv n).2, ?_⟩, fun k hk hf => ?_⟩
  · have hround := encodeF_rounds (tyFmt ty) rnd hr sat flush (v n) (hv n).1
    rw [h1 n hn]
    have hlt := hround.lt
    rw [tyFmt_width ty ht] at hlt
    have : (fltRes ty rnd sat flush (v n)).1 = encodeF (tyFmt ty) rnd sat flush (v n) := rfl
    rw [this, Nat.mod_eq_of_lt hlt]
    exact hround
  · obtain ⟨n, _, h⟩ := (h2 k hk).1 hf
    cases h

theorem FV.Ok.neg {v : FV} (h : v.Ok) : v.neg.Ok := by
  cases v with
  | num s n d => intro _ _ _ e; cases e; exact h _ _ _ rfl
  | nan => intro _ _ _ e; cases e
  | inf s => intro _ _ _ e; cases e
theorem FV.Ok.abs {v : FV} (h : v.Ok) : v.abs.Ok := by
  cases v with
  | num s n d => intro _ _ _ e; cases e; exact h _ _ _ rfl
  | nan => intro _ _ _ e; cases e
  | inf s => intro _ _ _ e; cases e
theorem FV.Ok.unsign {v : FV} (h : v.Ok) : v.unsign.Ok := by
  cases v with
  | num s n d =>
    intro a b c e
    unfold FV.unsign at e
    dsimp only at e
    split at e <;> cases e
    · decide
    · exact h _ _ _ rfl
  | nan => intro _ _ _ e; cases e
  | inf s => intro _ _ _ e; cases e

/-- The model's order of values (R169, R207). -/
theorem FV.lt_less (a b : FV) (ha : a.Ok) (hb : b.Ok) : a.lt b = true ↔ a.Less b := by
  cases a with
  | nan => simp [FV.lt, FV.Less]
  | inf s => cases b <;> simp [FV.lt, FV.Less]
  | num s n d =>
    cases b with
    | nan => simp [FV.lt, FV.Less]
    | inf u => simp [FV.lt, FV.Less]
    | num u m e =>
      have dp : (0 : ℚ) < d := by exact_mod_cast Nat.pos_of_ne_zero (ha s n d rfl)
      have ep : (0 : ℚ) < e := by exact_mod_cast Nat.pos_of_ne_zero (hb u m e rfl)
      have cross : n * e < m * d ↔ (n / d : ℚ) < m / e := by
        rw [div_lt_div_iff₀ dp ep]; exact_mod_cast Iff.rfl
      have cross' : m * d < n * e ↔ (m / e : ℚ) < n / d := by
        rw [div_lt_div_iff₀ ep dp]; exact_mod_cast Iff.rfl
      have n0 : (0 : ℚ) ≤ n / d := by positivity
      have m0 : (0 : ℚ) ≤ m / e := by positivity
      have nz : n = 0 ↔ (n / d : ℚ) = 0 := by rw [div_eq_zero_iff]; simp [dp.ne']
      have mz : m = 0 ↔ (m / e : ℚ) = 0 := by rw [div_eq_zero_iff]; simp [ep.ne']
      unfold FV.lt FV.Less FV.rat
      cases s <;> cases u <;> simp only [Bool.false_eq_true, if_true, if_false, decide_eq_true_eq, Bool.or_eq_true, bne_iff_ne, ne_eq]
      · rw [cross]
      · constructor
        · intro h; cases h
        · intro h; linarith
      · rw [nz, mz]
        constructor
        · rintro (h | h)
          · have := lt_of_le_of_ne n0 (Ne.symm h); linarith
          · have := lt_of_le_of_ne m0 (Ne.symm h); linarith
        · intro h
          by_contra hh
          rw [not_or, not_not, not_not] at hh
          rw [hh.1, hh.2] at h; simp at h
      · rw [cross']; constructor <;> intro h <;> linarith

theorem FV.eq_less (a b : FV) (ha : a.Ok) (hb : b.Ok) (h1 : a ≠ .nan) (h2 : b ≠ .nan) :
    a.eq b = true ↔ ¬ a.Less b ∧ ¬ b.Less a := by
  cases a with
  | nan => exact absurd rfl h1
  | inf s =>
    cases b with
    | nan => exact absurd rfl h2
    | inf u => cases s <;> cases u <;> simp [FV.eq, FV.Less]
    | num u m e => cases s <;> simp [FV.eq, FV.Less]
  | num s n d =>
    cases b with
    | nan => exact absurd rfl h2
    | inf u => cases u <;> simp [FV.eq, FV.Less]
    | num u m e =>
      have dp : (0 : ℚ) < d := by exact_mod_cast Nat.pos_of_ne_zero (ha s n d rfl)
      have ep : (0 : ℚ) < e := by exact_mod_cast Nat.pos_of_ne_zero (hb u m e rfl)
      have n0 : (0 : ℚ) ≤ n / d := by positivity
      have m0 : (0 : ℚ) ≤ m / e := by positivity
      have nz : n = 0 ↔ (n / d : ℚ) = 0 := by rw [div_eq_zero_iff]; simp [dp.ne']
      have mz : m = 0 ↔ (m / e : ℚ) = 0 := by rw [div_eq_zero_iff]; simp [ep.ne']
      have cross : n * e = m * d ↔ (n / d : ℚ) = m / e := by
        rw [div_eq_div_iff dp.ne' ep.ne']; exact_mod_cast Iff.rfl
      have key : (¬ (FV.num s n d).Less (.num u m e) ∧ ¬ (FV.num u m e).Less (.num s n d)) ↔
          (FV.num s n d).rat = (FV.num u m e).rat := by
        show (¬ (FV.num s n d).rat < (FV.num u m e).rat ∧ ¬ (FV.num u m e).rat < (FV.num s n d).rat) ↔ _
        constructor
        · rintro ⟨h, h'⟩; exact le_antisymm (not_lt.1 h') (not_lt.1 h)
        · intro h; rw [h]; simp
      rw [key]
      unfold FV.eq FV.rat
      by_cases hn : n = 0
      · have hn' := nz.1 hn
        simp only [hn, if_true, beq_iff_eq]
        rw [mz]
        simp only [Nat.cast_zero, zero_div, neg_zero, ite_self]
        cases u <;> simp only [Bool.false_eq_true, if_true, if_false] <;> constructor <;> intro h <;> linarith
      · have hn' : (n / d : ℚ) ≠ 0 := fun h => hn (nz.2 h)
        have npos := lt_of_le_of_ne n0 (Ne.symm hn')
        simp only [hn, if_false, Bool.and_eq_true, beq_iff_eq]
        rw [cross]
        cases s <;> cases u <;> simp only [Bool.false_eq_true, if_true, if_false, true_and, false_and, reduceCtorEq] <;>
          constructor <;> intro h <;> first | linarith | cases h

theorem FV.below_under (a b : FV) (ha : a.Ok) (hb : b.Ok) : a.below b = true ↔ a.Under b := by
  have is0 : ∀ s n d u, d ≠ 0 → ((FV.num s n d).Is u 0 ↔ s = u ∧ n = 0) := by
    intro s n d u hd
    have hd' : (d : ℚ) ≠ 0 := by exact_mod_cast hd
    constructor
    · rintro ⟨n', d', e, h1, h2⟩
      cases e
      rcases div_eq_zero_iff.1 h2 with h | h
      · exact ⟨rfl, by exact_mod_cast h⟩
      · exact absurd h hd'
    · rintro ⟨rfl, rfl⟩; exact ⟨0, d, rfl, hd, by simp⟩
  have other : ∀ u, ¬ FV.nan.Is u 0 ∧ ∀ s, ¬ (FV.inf s).Is u 0 := by
    intro u; exact ⟨fun ⟨_, _, e, _⟩ => (by cases e), fun s ⟨_, _, e, _⟩ => (by cases e)⟩
  unfold FV.below FV.Under
  rw [← FV.lt_less a b ha hb]
  cases a with
  | nan => simp [(other _).1]
  | inf s => simp [(other _).2]
  | num s n d =>
    cases b with
    | nan => simp [(other _).1]
    | inf u => simp [(other _).2]
    | num u m e =>
      have hd := ha s n d rfl
      have he := hb u m e rfl
      simp only [is0 s n d _ hd, is0 u m e _ he]
      by_cases h : n = 0 ∧ m = 0
      · obtain ⟨rfl, rfl⟩ := h
        have : (FV.num s 0 d).lt (.num u 0 e) = false := by cases s <;> cases u <;> simp [FV.lt]
        cases s <;> cases u <;> simp [this]
      · have hf : (decide (n = 0) && decide (m = 0)) = false := by simpa using h
        rw [if_neg (by simpa using h)]
        constructor
        · exact .inl
        · rintro (hh | ⟨_, _, h1, h2, _⟩)
          · exact hh
          · exact absurd ⟨h1.2, h2.2⟩ h

/-! ## Sums of many values -/

/-- A value t is the sum of a list up to the sign of a zero, which is that of R176. -/
def SumState (nz : Bool) (l : List FV) (t : FV) : Prop :=
  t.Ok ∧ if FV.nan ∈ l ∨ (.inf true ∈ l ∧ .inf false ∈ l) then t = .nan
  else if .inf true ∈ l then t = .inf true
  else if .inf false ∈ l then t = .inf false
  else ∃ s n d, t = .num s n d ∧ t.rat = (l.map FV.rat).sum ∧ (n = 0 → s = zeroSign nz l)

theorem FV.rat_num (s : Bool) (n d : Nat) : (FV.num s n d).rat = if s then -(n / d : ℚ) else n / d := rfl

theorem FV.rat_sgn (v : FV) : (v.sgn = true → v.rat ≤ 0) ∧ (v.sgn = false → 0 ≤ v.rat) := by
  cases v with
  | nan => simp [FV.rat]
  | inf s => simp [FV.rat]
  | num s n d =>
    have : (0 : ℚ) ≤ n / d := by positivity
    cases s <;> simp [FV.sgn, FV.rat, this]

theorem sum_sgn (l : List FV) : (l.all (fun v => v.sgn) = true → (l.map FV.rat).sum ≤ 0) ∧
    (l.all (fun v => !v.sgn) = true → 0 ≤ (l.map FV.rat).sum) := by
  induction l with
  | nil => simp
  | cons v r ih =>
    simp only [List.all_cons, Bool.and_eq_true, List.map_cons, List.sum_cons, Bool.not_eq_true']
    exact ⟨fun h => add_nonpos (v.rat_sgn.1 h.1) (ih.1 h.2), fun h => add_nonneg (v.rat_sgn.2 h.1) (ih.2 (by simpa using h.2))⟩

theorem zeroSign_append (nz : Bool) (l : List FV) (hl : l ≠ []) (v : FV) :
    zeroSign nz (l ++ [v]) = if zeroSign nz l = v.sgn ∧ (l.all (fun v => v.sgn) = true ∨ l.all (fun v => !v.sgn) = true) then v.sgn else nz := by
  unfold zeroSign
  rw [List.all_append, List.all_append]
  simp only [List.all_cons, List.all_nil, Bool.and_true]
  have excl : l.all (fun v => v.sgn) = true → l.all (fun v => !v.sgn) = false := by
    intro h
    obtain ⟨x, r, rfl⟩ := List.exists_cons_of_ne_nil hl
    simp only [List.all_cons, Bool.and_eq_true] at h
    simp [h.1]
  cases h1 : l.all (fun v => v.sgn) <;> cases h2 : l.all (fun v => !v.sgn) <;> cases h3 : v.sgn <;> cases nz <;> simp_all

theorem SumState.step {nz : Bool} {l : List FV} {t v : FV} (h : SumState nz l t) (hl : l ≠ []) (hv : v.Ok) :
    SumState nz (l ++ [v]) (t.add nz v) := by
  obtain ⟨ok, h⟩ := h
  refine ⟨(FV.add_isSum nz t v ok hv).2, ?_⟩
  simp only [List.mem_append, List.mem_singleton]
  by_cases c1 : FV.nan ∈ l ∨ (.inf true ∈ l ∧ .inf false ∈ l)
  · rw [if_pos c1] at h
    rw [if_pos (by tauto), h]; rfl
  · rw [if_neg c1] at h
    by_cases c2 : FV.inf true ∈ l
    · rw [if_pos c2] at h
      subst h
      have c3 : FV.inf false ∉ l := fun hh => c1 (.inr ⟨c2, hh⟩)
      have c4 : FV.nan ∉ l := fun hh => c1 (.inl hh)
      cases v with
      | nan => rw [if_pos (by simp)]; rfl
      | inf s => cases s <;> simp [c2, c3, c4, FV.add]
      | num s n d => simp [c2, c3, c4, FV.add]
    · rw [if_neg c2] at h
      by_cases c3 : FV.inf false ∈ l
      · rw [if_pos c3] at h
        subst h
        have c4 : FV.nan ∉ l := fun hh => c1 (.inl hh)
        cases v with
        | nan => rw [if_pos (by simp)]; rfl
        | inf s => cases s <;> simp [c2, c3, c4, FV.add]
        | num s n d => simp [c2, c3, c4, FV.add]
      · rw [if_neg c3] at h
        obtain ⟨s, n, d, rfl, hr, hz⟩ := h
        have c4 : FV.nan ∉ l := fun hh => c1 (.inl hh)
        cases v with
        | nan => rw [if_pos (by simp)]; rfl
        | inf u => cases u <;> simp [c2, c3, c4, FV.add]
        | num u m e =>
          rw [if_neg (by simp [c2, c4]), if_neg (by simp [c2]), if_neg (by simp [c3])]
          have hd := ok s n d rfl
          have he := hv u m e rfl
          have dp : (0 : ℚ) < d := by exact_mod_cast Nat.pos_of_ne_zero hd
          have ep : (0 : ℚ) < e := by exact_mod_cast Nat.pos_of_ne_zero he
          have hs := (FV.add_isSum nz _ _ ok hv).1
          unfold IsSum at hs
          rw [if_neg (by simp)] at hs
          replace hs : ((FV.num s n d).add nz (.num u m e)).Exactly ((FV.num s n d).rat + (FV.num u m e).rat)
            (if s = u then s else nz) := hs
          obtain ⟨n', d', e', hd', hq⟩ := hs
          set x := (FV.num s n d).rat with hx
          set y := (FV.num u m e).rat with hy
          rw [List.map_append, List.sum_append, ← hr]
          simp only [List.map_cons, List.map_nil, List.sum_cons, List.sum_nil, add_zero]
          rw [← hy]
          refine ⟨_, _, _, e', ?_, fun h0 => ?_⟩
          · rw [e', FV.rat_num, hq]
            by_cases hxy : x + y = 0
            · rw [hxy]; simp
            · rw [if_neg hxy]
              by_cases hlt : x + y < 0
              · rw [decide_eq_true hlt, if_pos rfl, abs_of_neg hlt]; ring
              · rw [decide_eq_false hlt]; simp; linarith
          · subst h0
            have hxy : x + y = 0 := by
              rw [← abs_eq_zero, ← hq]; simp
            rw [if_pos hxy, zeroSign_append nz l hl, show (FV.num u m e).sgn = u from rfl]
            by_cases hn : n = 0
            · rw [← hz hn]
              have hx0 : x = 0 := by rw [hx, hn]; simp [FV.rat]
              by_cases hsu : s = u
              · subst hsu
                simp only [if_true, true_and]
                split
                · rfl
                · rename_i hmix
                  rw [hz hn]
                  unfold zeroSign
                  rw [not_or, Bool.not_eq_true, Bool.not_eq_true] at hmix
                  rw [hmix.1, hmix.2]; rfl
              · simp [hsu]
            · -- opposite numbers: their signs differ, so the list is mixed
              have hxne : x ≠ 0 := by
                have : (n / d : ℚ) ≠ 0 := by
                  rw [Ne, div_eq_zero_iff]; push Not; exact ⟨by exact_mod_cast hn, dp.ne'⟩
                rw [hx]; unfold FV.rat; cases s <;> simpa using this
              have hsu : ¬ s = u := by
                rintro rfl
                have a1 := (FV.num s n d).rat_sgn
                have a2 := (FV.num s m e).rat_sgn
                rw [← hx] at a1; rw [← hy] at a2
                cases s
                · have := a1.2 rfl; have := a2.2 rfl; exact hxne (by linarith)
                · have := a1.1 rfl; have := a2.1 rfl; exact hxne (by linarith)
              rw [if_neg hsu]
              split
              · rename_i hall
                exfalso
                have s1 := sum_sgn l
                rw [← hr] at s1
                have a2 := (FV.num u m e).rat_sgn
                rw [← hy] at a2
                obtain ⟨hzs, hall⟩ := hall
                rcases hall with hall | hall
                · have hz1 : zeroSign nz l = true := by unfold zeroSign; rw [hall]; rfl
                  rw [hz1] at hzs
                  have := s1.1 hall; have := a2.1 hzs.symm
                  exact hxne (by linarith)
                · have hz1 : zeroSign nz l = false := by
                    unfold zeroSign; rw [hall]
                    have : l.all (fun v => v.sgn) = false := by
                      obtain ⟨z, r, rfl⟩ := List.exists_cons_of_ne_nil hl
                      simp only [List.all_cons, Bool.and_eq_true, Bool.not_eq_true'] at hall ⊢
                      rw [hall.1]; rfl
                    rw [this]; rfl
                  rw [hz1] at hzs
                  have := s1.2 hall; have := a2.2 hzs.symm
                  exact hxne (by linarith)
              · rfl

theorem SumState.one (nz : Bool) (a : FV) (ha : a.Ok) : SumState nz [a] a := by
  refine ⟨ha, ?_⟩
  cases a with
  | nan => simp
  | inf s => cases s <;> simp
  | num s n d =>
    rw [if_neg (by simp), if_neg (by simp), if_neg (by simp)]
    refine ⟨s, n, d, rfl, by simp, fun _ => ?_⟩
    cases s <;> cases nz <;> simp [zeroSign, FV.sgn]

theorem SumState.fold (nz : Bool) : ∀ (l pre : List FV) (t : FV), pre ≠ [] → SumState nz pre t → (∀ v ∈ l, v.Ok) →
    SumState nz (pre ++ l) (l.foldl (fun t v => t.add nz v) t)
  | [], pre, t, _, h, _ => by simpa using h
  | v :: l, pre, t, hp, h, ho => by
    have := SumState.fold nz l (pre ++ [v]) (t.add nz v) (by simp) (h.step hp (ho v (List.mem_cons_self ..)))
      (fun x hx => ho x (List.mem_cons_of_mem _ hx))
    simpa using this

/-- A sum is the exact sum of its list. -/
theorem SumState.total {nz : Bool} {l : List FV} {t : FV} (h : SumState nz l t) : IsTotal (zeroSign nz l) l t := by
  obtain ⟨ok, h⟩ := h
  unfold IsTotal
  split
  · rwa [if_pos ‹_›] at h
  · rw [if_neg ‹_›] at h
    split
    · rwa [if_pos ‹_›] at h
    · rw [if_neg ‹_›] at h
      split
      · rwa [if_pos ‹_›] at h
      · rw [if_neg ‹_›] at h
        obtain ⟨s, n, d, rfl, hr, hz⟩ := h
        have hd := ok s n d rfl
        have dp : (0 : ℚ) < d := by exact_mod_cast Nat.pos_of_ne_zero hd
        have n0 : (0 : ℚ) ≤ n / d := by positivity
        rw [← hr]
        have key : (if (FV.num s n d).rat = 0 then zeroSign nz l else decide ((FV.num s n d).rat < 0)) = s := by
          by_cases hn : n = 0
          · rw [if_pos (by rw [hn]; simp [FV.rat]), hz hn]
          · have hne : (n / d : ℚ) ≠ 0 := by
              rw [Ne, div_eq_zero_iff]; push Not; exact ⟨by exact_mod_cast hn, dp.ne'⟩
            have npos := lt_of_le_of_ne n0 (Ne.symm hne)
            cases s
            · have hrat : (FV.num false n d).rat = n / d := by simp [FV.rat]
              rw [hrat, if_neg hne, decide_eq_false (not_lt.2 n0)]
            · have hrat : (FV.num true n d).rat = -(n / d) := by simp [FV.rat]
              rw [hrat, if_neg (by linarith), decide_eq_true (by linarith)]
        unfold FV.Exactly
        rw [key]
        refine ⟨n, d, rfl, hd, ?_⟩
        cases s
        · have hrat : (FV.num false n d).rat = n / d := by simp [FV.rat]
          rw [hrat, abs_of_nonneg n0]
        · have hrat : (FV.num true n d).rat = -(n / d) := by simp [FV.rat]
          rw [hrat, abs_neg, abs_of_nonneg n0]

/-- Zeros do without their signs. -/
theorem IsTotal.unsign {z : Bool} {l : List FV} {t : FV} (h : IsTotal z l t) : IsTotal false l t.unsign := by
  unfold IsTotal at h ⊢
  split
  · rw [if_pos ‹_›] at h; rw [h]; rfl
  · rw [if_neg ‹_›] at h
    split
    · rw [if_pos ‹_›] at h; rw [h]; rfl
    · rw [if_neg ‹_›] at h
      split
      · rw [if_pos ‹_›] at h; rw [h]; rfl
      · rw [if_neg ‹_›] at h
        obtain ⟨n, d, rfl, hd, hq⟩ := h
        have hd' : (d : ℚ) ≠ 0 := by exact_mod_cast hd
        by_cases hn : n = 0
        · have h0 : (l.map FV.rat).sum = 0 := by rw [← abs_eq_zero, ← hq, hn]; simp
          unfold FV.Exactly
          rw [h0]
          exact ⟨0, 1, by simp [FV.unsign, hn], by decide, by simp⟩
        · have h0 : (l.map FV.rat).sum ≠ 0 := by
            rw [← abs_ne_zero, ← hq, Ne, div_eq_zero_iff]
            push Not; exact ⟨by exact_mod_cast hn, hd'⟩
          unfold FV.Exactly
          rw [if_neg h0, if_neg h0]
          exact ⟨n, d, by simp [FV.unsign, hn], hd, hq⟩

theorem FV.unsign_mem (l : List FV) : (FV.nan ∈ l.map FV.unsign ↔ FV.nan ∈ l) ∧
    (∀ s, FV.inf s ∈ l.map FV.unsign ↔ FV.inf s ∈ l) ∧ (l.map FV.unsign).map FV.rat = l.map FV.rat := by
  have c : ∀ v : FV, (v.unsign = .nan ↔ v = .nan) ∧ (∀ s, v.unsign = .inf s ↔ v = .inf s) ∧ v.unsign.rat = v.rat := by
    intro v
    cases v with
    | nan => simp [FV.unsign]
    | inf s => simp [FV.unsign]
    | num s n d =>
      unfold FV.unsign
      dsimp only
      by_cases hn : n = 0 <;> simp [hn, FV.rat]
  refine ⟨?_, fun s => ?_, ?_⟩
  · rw [List.mem_map]
    exact ⟨fun ⟨v, h, e⟩ => by rwa [← (c v).1.1 e], fun h => ⟨_, h, rfl⟩⟩
  · rw [List.mem_map]
    exact ⟨fun ⟨v, h, e⟩ => by rwa [← ((c v).2.1 s).1 e], fun h => ⟨_, h, rfl⟩⟩
  · rw [List.map_map]
    apply List.map_congr_left
    intro v _
    exact (c v).2.2

/-- The model's exact sum of many values, their zeros unsigned (R176). -/
theorem sumFV_total (l : List FV) (h : ∀ v ∈ l, v.Ok) :
    IsTotal false l (l.foldl (fun a p => a.add false p.unsign) FV.zero).unsign ∧
      (l.foldl (fun a p => a.add false p.unsign) FV.zero).Ok := by
  have z : FV.zero.Ok := by intro _ _ _ e; cases e; decide
  have hf : l.foldl (fun a p => a.add false p.unsign) FV.zero = (l.map FV.unsign).foldl (fun t v => t.add false v) FV.zero := by
    rw [List.foldl_map]
  have st := SumState.fold false (l.map FV.unsign) [FV.zero] FV.zero (by simp) (SumState.one false _ z) (by
    intro v hv
    obtain ⟨x, hx, rfl⟩ := List.mem_map.1 hv
    exact (h x hx).unsign)
  rw [← hf] at st
  refine ⟨?_, st.1⟩
  have ht := st.total.unsign
  obtain ⟨m1, m2, m3⟩ := FV.unsign_mem l
  unfold IsTotal at ht ⊢
  have hz : FV.zero.rat = 0 := by simp [FV.zero, FV.rat]
  simp only [List.cons_append, List.nil_append, List.mem_cons, m1, m2, List.map_cons, List.sum_cons, m3, hz, zero_add,
    show FV.nan ≠ FV.zero from by simp [FV.zero], show ∀ s, FV.inf s ≠ FV.zero from by simp [FV.zero], false_or] at ht
  exact ht

/-! ## A value by any of its fractions -/

/-- Two values that stand for one code. -/
def FV.Alike (v w : FV) : Prop := v = w ∨ ∃ s q, v.Is s q ∧ w.Is s q

theorem Stands.alike {f : NumFmt} {flush : Bool} {c : Nat} {v w : FV} (hv : Stands f flush c v) (hw : Stands f flush c w) :
    v.Alike w := by
  unfold Stands at hv hw
  dsimp only at hv hw
  unfold FV.Alike
  split_ifs at hv hw <;> first | exact .inl (hv.trans hw.symm) | exact .inr ⟨_, _, hv, hw⟩

theorem FV.Is.unique {v : FV} {s u : Bool} {q p : ℚ} (h : v.Is s q) (k : v.Is u p) : s = u ∧ q = p := by
  obtain ⟨n, d, rfl, _, rfl⟩ := h
  obtain ⟨_, _, e, _, rfl⟩ := k
  cases e; exact ⟨rfl, rfl⟩

theorem FV.Alike.nan {v w : FV} (h : v.Alike w) : v = .nan ↔ w = .nan := by
  rcases h with rfl | ⟨s, q, ⟨_, _, rfl, _⟩, ⟨_, _, rfl, _⟩⟩
  · rfl
  · simp

theorem FV.Alike.less {v w : FV} (h : v.Alike w) (x : FV) : (v.Less x ↔ w.Less x) ∧ (x.Less v ↔ x.Less w) := by
  rcases h with rfl | ⟨s, q, hv, hw⟩
  · exact ⟨Iff.rfl, Iff.rfl⟩
  · have e : v.rat = w.rat := by rw [FV.rat_is hv, FV.rat_is hw]
    obtain ⟨_, _, rfl, _⟩ := hv
    obtain ⟨_, _, rfl, _⟩ := hw
    cases x <;> simp [FV.Less, e]

theorem FV.less_trans {a b c : FV} (h : a.Less b) (k : b.Less c) : a.Less c := by
  cases a <;> cases b <;> cases c <;> simp_all [FV.Less]
  exact lt_trans h k

theorem FV.less_split {a b : FV} (c : FV) (hc : c ≠ .nan) (h : a.Less b) : a.Less c ∨ c.Less b := by
  cases a <;> cases b <;> cases c <;> simp_all [FV.Less]
  rename_i s n d u m e v j k
  rcases lt_or_ge (FV.num s n d).rat (FV.num v j k).rat with h1 | h1
  · exact .inl h1
  · exact .inr (lt_of_le_of_lt h1 h)

/-! ## The choice of a reducer -/

theorem val_nan (ty : Nat) (flush : Bool) (n : Nat) (A : Wide) :
    Val ty flush n A .nan ↔ (fltOf ty flush (el (tyWidth ty) n A)).isNan = true := by
  have hv := fltOf_val ty flush n A
  constructor
  · intro h; rw [(Stands.alike h hv).nan.1 rfl]; rfl
  · intro h
    generalize fltOf ty flush (el (tyWidth ty) n A) = x at *
    cases x
    · exact hv
    all_goals cases h

theorem beats_iff (isMax : Bool) (ty : Nat) (flush : Bool) (A : Wide) (m n : Nat) :
    beats isMax ty flush (el (tyWidth ty) m A) (el (tyWidth ty) n A) = true ↔ Beats isMax ty flush A m n := by
  unfold beats Beats
  by_cases ht : tyFloat ty = true
  · rw [if_pos ht, if_pos ht]
    have hm := fltOf_val ty flush m A
    have hn := fltOf_val ty flush n A
    have om := fltOf_ok ty flush m A
    have on := fltOf_ok ty flush n A
    dsimp only
    constructor
    · intro h
      refine ⟨_, _, hm, hn, ?_⟩
      split at h
      · rw [if_pos ‹_›]; exact (FV.lt_less _ _ on om).1 h
      · rw [if_neg ‹_›]; exact (FV.lt_less _ _ om on).1 h
    · rintro ⟨x, y, hx, hy, h⟩
      have ax := (Stands.alike hx hm).less
      have ay := (Stands.alike hy hn).less
      split at h
      · rw [if_pos ‹_›]; rw [FV.lt_less _ _ on om, ← (ay _).1, ← (ax _).2]; exact h
      · rw [if_neg ‹_›]; rw [FV.lt_less _ _ om on, ← (ax _).1, ← (ay _).2]; exact h
  · rw [if_neg ht, if_neg ht, intOf_el, intOf_el]
    cases isMax <;> simp

theorem Beats.trans {isMax : Bool} {ty : Nat} {flush : Bool} {A : Wide} {a b c : Nat}
    (h : Beats isMax ty flush A a b) (k : Beats isMax ty flush A b c) : Beats isMax ty flush A a c := by
  unfold Beats at *
  by_cases ht : tyFloat ty = true
  · rw [if_pos ht] at *
    obtain ⟨x, y, hx, hy, h⟩ := h
    obtain ⟨y', z, hy', hz, k⟩ := k
    refine ⟨x, z, hx, hz, ?_⟩
    have al := (Stands.alike hy hy').less
    cases isMax
    · exact FV.less_trans h (((al z).1).2 k)
    · exact FV.less_trans k (((al x).1).1 h)
  · rw [if_neg ht] at *
    cases isMax <;> simp only [Bool.false_eq_true, if_true, if_false] at * <;> omega

theorem Beats.split {isMax : Bool} {ty : Nat} {flush : Bool} {A : Wide} {a b : Nat} (c : Nat)
    (hc : tyFloat ty = true → ¬ Val ty flush c A .nan) (h : Beats isMax ty flush A a b) :
    Beats isMax ty flush A a c ∨ Beats isMax ty flush A c b := by
  unfold Beats at *
  by_cases ht : tyFloat ty = true
  · simp only [if_pos ht] at *
    obtain ⟨x, y, hx, hy, h⟩ := h
    have hz := fltOf_val ty flush c A
    have nn : fltOf ty flush (el (tyWidth ty) c A) ≠ .nan := fun e => hc ht (by rw [← e]; exact hz)
    cases isMax
    · simp only [Bool.false_eq_true, if_false] at *
      rcases FV.less_split _ nn h with k | k
      · exact .inl ⟨_, _, hx, hz, k⟩
      · exact .inr ⟨_, _, hz, hy, k⟩
    · simp only [if_true] at *
      rcases FV.less_split _ nn h with k | k
      · exact .inr ⟨_, _, hz, hy, k⟩
      · exact .inl ⟨_, _, hx, hz, k⟩
  · simp only [if_neg ht] at *
    cases isMax <;> simp only [Bool.false_eq_true, if_true, if_false] at * <;> omega

/-- The model's choice among elements (R220). -/
theorem bestOf_isBest (isMax : Bool) (ty : Nat) (flush : Bool) (A : Wide) : ∀ (k n : Nat) (best : Option (Nat × Nat)),
    IsBest isMax ty flush A n (best.map (·.1)) → (∀ p, best = some p → p.2 = el (tyWidth ty) p.1 A) →
    let r := bestOf isMax ty flush n ((List.range' n k).map (fun i => el (tyWidth ty) i A)) best
    IsBest isMax ty flush A (n + k) (r.map (·.1)) ∧ ∀ p, r = some p → p.2 = el (tyWidth ty) p.1 A
  | 0, n, best, h, hb => by
    simp only [List.range'_zero, List.map_nil, bestOf, Nat.add_zero]; exact ⟨h, hb⟩
  | k + 1, n, best, h, hb => by
    rw [List.range'_succ, List.map_cons]
    unfold bestOf
    rw [show n + (k + 1) = n + 1 + k by omega]
    have snd : (tyFloat ty && (fltOf ty flush (el (tyWidth ty) n A)).isNan) = true ↔ ¬ (tyFloat ty = true → ¬ Val ty flush n A .nan) := by
      rw [val_nan, Bool.and_eq_true]; tauto
    by_cases hs : (tyFloat ty && (fltOf ty flush (el (tyWidth ty) n A)).isNan) = true
    · rw [if_pos hs]
      refine bestOf_isBest isMax ty flush A k (n + 1) best ?_ hb
      unfold IsBest at h ⊢
      dsimp only at h ⊢
      cases best with
      | none =>
        intro m hm hh
        rcases Nat.lt_succ_iff_lt_or_eq.1 hm with e | e
        · exact h m e hh
        · rw [e] at hh; exact snd.1 hs hh
      | some p =>
        obtain ⟨h1, h2, h3⟩ := h
        refine ⟨by omega, h2, fun m hm hh => ?_⟩
        rcases Nat.lt_succ_iff_lt_or_eq.1 hm with e | e
        · exact h3 m e hh
        · rw [e] at hh; exact absurd hh (snd.1 hs)
    · rw [if_neg hs]
      have sn : tyFloat ty = true → ¬ Val ty flush n A .nan := by
        by_contra hh; exact hs (snd.2 hh)
      cases best with
      | none =>
        refine bestOf_isBest isMax ty flush A k (n + 1) (some (n, _)) ?_ (fun p e => by cases e; rfl)
        refine ⟨Nat.lt_succ_self n, sn, fun m hm hh => ⟨fun hlt => ?_, fun hgt => by dsimp only at hgt; omega⟩⟩
        exact absurd hh (h m hlt)
      | some p =>
        obtain ⟨m, y⟩ := p
        have hy : y = el (tyWidth ty) m A := hb _ rfl
        subst hy
        obtain ⟨h1, h2, h3⟩ := h
        dsimp only at h1 h2 h3 ⊢
        by_cases hbt : beats isMax ty flush (el (tyWidth ty) n A) (el (tyWidth ty) m A) = true
        · rw [if_pos hbt]
          have hB := (beats_iff ..).1 hbt
          refine bestOf_isBest isMax ty flush A k (n + 1) (some (n, _)) ?_ (fun p e => by cases e; rfl)
          refine ⟨Nat.lt_succ_self n, sn, fun j hj hh => ⟨fun hlt => ?_, fun hgt => by dsimp only at hgt; omega⟩⟩
          rcases Nat.lt_trichotomy j m with e | e | e
          · exact hB.trans ((h3 j hlt hh).1 e)
          · rw [e]; exact hB
          · rcases hB.split j hh with k | k
            · exact k
            · exact absurd k ((h3 j hlt hh).2 e)
        · rw [if_neg hbt]
          refine bestOf_isBest isMax ty flush A k (n + 1) (some (m, _)) ?_ (fun p e => by cases e; rfl)
          refine ⟨by dsimp only; omega, h2, fun j hj hh => ?_⟩
          rcases Nat.lt_succ_iff_lt_or_eq.1 hj with e | e
          · exact h3 j e hh
          · subst e
            exact ⟨fun hlt => by dsimp only at hlt; omega, fun _ hB => hbt ((beats_iff ..).2 hB)⟩

/-- The model's choice among the first N elements. -/
theorem bestOf_first (isMax : Bool) (ty : Nat) (flush : Bool) (A : Wide) (N : Nat) :
    let r := bestOf isMax ty flush 0 ((List.range N).map (fun i => el (tyWidth ty) i A)) none
    IsBest isMax ty flush A N (r.map (·.1)) ∧ ∀ p, r = some p → p.2 = el (tyWidth ty) p.1 A := by
  have := bestOf_isBest isMax ty flush A N 0 none (fun n h => absurd h (Nat.not_lt_zero n)) (by simp)
  rw [← List.range_eq_range', Nat.zero_add] at this
  exact this

/-! ## Conversion to an integer (R173) -/

theorem RoundsInt.unique {rnd : Nat} (hr : rnd < 4) {q : ℚ} {y z : Int} (hy : RoundsInt rnd q y) (hz : RoundsInt rnd q z) : y = z := by
  obtain ⟨y0, y1, y2, y3⟩ := hy
  obtain ⟨z0, z1, z2, z3⟩ := hz
  have : rnd = 0 ∨ rnd = 1 ∨ rnd = 2 ∨ rnd = 3 := by omega
  rcases this with h | h | h | h
  · obtain ⟨a1, a2⟩ := y0 h
    obtain ⟨b1, b2⟩ := z0 h
    by_contra hne
    have d1 : |(y : ℚ) - z| ≤ 1 := by
      have := abs_sub_le (y : ℚ) q z
      rw [abs_sub_comm q] at this; linarith
    have d2 : |y - z| ≤ 1 := by
      have : ((|y - z| : Int) : ℚ) ≤ ((1 : Int) : ℚ) := by push_cast; exact d1
      exact_mod_cast this
    have d3 : |(y : ℚ) - z| = 1 := by
      have : |y - z| = 1 := by
        have : 0 < |y - z| := abs_pos.2 (sub_ne_zero.2 hne)
        omega
      exact_mod_cast this
    have t := abs_sub_le (y : ℚ) q z
    rw [abs_sub_comm q] at t
    have e1 : |(y : ℚ) - q| = 1 / 2 := by linarith
    have e2 : |(z : ℚ) - q| = 1 / 2 := by linarith
    have p1 := a2 e1
    have p2 := b2 e2
    have := abs_le.1 d2
    omega
  · rw [y1 h, z1 h]
  · rw [y2 h, z2 h]
  · rw [y3 h, z3 h]

theorem roundInt_rounds (rnd : Nat) (hr : rnd < 4) (s : Bool) (n d : Nat) (hd : d ≠ 0) :
    RoundsInt rnd (FV.num s n d).rat (roundInt rnd s n d) := by
  have dp : (0 : ℚ) < d := by exact_mod_cast Nat.pos_of_ne_zero hd
  have hab := Nat.div_add_mod n d
  have hmod := Nat.mod_lt n (Nat.pos_of_ne_zero hd)
  unfold roundInt
  dsimp only
  set q := n / d with hq
  set r := n % d with hrr
  have hy : (n / d : ℚ) = q + r / d := by
    have : (n : ℚ) = d * q + r := by exact_mod_cast hab.symm
    rw [this]; field_simp
  have r1 : (r / d : ℚ) < 1 := by rw [div_lt_one dp]; exact_mod_cast hmod
  have r0 : (0 : ℚ) ≤ r / d := by positivity
  have rz : r = 0 → (r / d : ℚ) = 0 := by intro h; rw [h]; simp
  have rp : r ≠ 0 → (0 : ℚ) < r / d := by
    intro h
    have : (0 : ℚ) < r := by exact_mod_cast Nat.pos_of_ne_zero h
    positivity
  have cmp : (2 * r < d → (r / d : ℚ) < 1 / 2) ∧ (2 * r = d → (r / d : ℚ) = 1 / 2) ∧ (d < 2 * r → (1 / 2 : ℚ) < r / d) := by
    refine ⟨fun h => ?_, fun h => ?_, fun h => ?_⟩
    · have : (2 * r : ℚ) < d := by exact_mod_cast h
      rw [div_lt_iff₀ dp]; linarith
    · have : (2 * r : ℚ) = d := by exact_mod_cast h
      rw [div_eq_iff dp.ne']; linarith
    · have : (d : ℚ) < 2 * r := by exact_mod_cast h
      rw [lt_div_iff₀ dp]; linarith
  have fl : ∀ z : Int, (z : ℚ) ≤ (n / d : ℚ) → (n / d : ℚ) < z + 1 → ⌊(n / d : ℚ)⌋ = z := fun z a b => Int.floor_eq_iff.2 ⟨a, b⟩
  have hfl : ⌊(n / d : ℚ)⌋ = (q : Int) := fl q (by rw [hy]; push_cast; linarith) (by rw [hy]; push_cast; linarith)
  have hce : ⌈(n / d : ℚ)⌉ = if r = 0 then (q : Int) else q + 1 := by
    rw [Int.ceil_eq_iff]
    split
    · rename_i h; rw [hy, rz h]; push_cast; constructor <;> linarith
    · rename_i h; have := rp h; rw [hy]; push_cast; constructor <;> linarith
  have hrat : (FV.num s n d).rat = if s then -(n / d : ℚ) else n / d := rfl
  rw [hrat]
  have hcases : rnd = 0 ∨ rnd = 1 ∨ rnd = 2 ∨ rnd = 3 := by omega
  rcases hcases with h | h | h | h <;> subst h
  · refine ⟨fun _ => ?_, by simp, by simp, by simp⟩
    by_cases hup : roundUp 0 s q r d = true
    · rw [if_pos hup]
      simp only [roundUp, Bool.or_eq_true, decide_eq_true_eq, Bool.and_eq_true, beq_iff_eq] at hup
      have h12 : (1 / 2 : ℚ) ≤ r / d := by
        rcases hup with h | ⟨h, _⟩
        · exact (cmp.2.2 h).le
        · exact (cmp.2.1 h).ge
      have dist : |(((q + 1 : Nat) : Int) : ℚ) - n / d| = 1 - r / d := by
        rw [hy]; push_cast
        rw [abs_of_nonneg (by linarith)]; ring
      have par : (1 - (r / d : ℚ)) = 1 / 2 → ((q + 1 : Nat) : Int) % 2 = 0 := by
        intro e
        rcases hup with h | ⟨_, h⟩
        · have := cmp.2.2 h; linarith
        · omega
      cases s
      · simp only [Bool.false_eq_true, if_false]
        rw [dist]; exact ⟨by linarith, par⟩
      · simp only [if_true]
        have : |((-((q + 1 : Nat) : Int) : Int) : ℚ) - -(n / d)| = 1 - r / d := by
          rw [← dist, ← abs_neg]; congr 1; push_cast; ring
        rw [this]; exact ⟨by linarith, fun e => by have := par e; omega⟩
    · rw [if_neg hup]
      simp only [roundUp, Bool.or_eq_true, decide_eq_true_eq, Bool.and_eq_true, beq_iff_eq, not_or, not_and] at hup
      have h12 : (r / d : ℚ) ≤ 1 / 2 := by
        rcases Nat.lt_or_ge (2 * r) d with h | h
        · exact (cmp.1 h).le
        · exact (cmp.2.1 (by omega)).le
      have dist : |((q : Int) : ℚ) - n / d| = r / d := by
        rw [hy, abs_sub_comm]; push_cast
        rw [abs_of_nonneg (by linarith)]; ring
      have par : (r / d : ℚ) = 1 / 2 → (q : Int) % 2 = 0 := by
        intro e
        have : 2 * r = d := by
          rcases Nat.lt_trichotomy (2 * r) d with h | h | h
          · have := cmp.1 h; linarith
          · exact h
          · exact absurd h hup.1
        have := hup.2 this; omega
      cases s
      · simp only [Bool.false_eq_true, if_false]
        rw [dist]; exact ⟨h12, par⟩
      · simp only [if_true]
        have : |((-(q : Int) : Int) : ℚ) - -(n / d)| = r / d := by
          rw [← dist, ← abs_neg]; congr 1; push_cast; ring
        rw [this]; exact ⟨h12, fun e => by have := par e; omega⟩
  · refine ⟨by simp, fun _ => ?_, by simp, by simp⟩
    have : roundUp 1 s q r d = false := rfl
    rw [this]
    have n0 : (0 : ℚ) ≤ n / d := by positivity
    cases s
    · simp only [Bool.false_eq_true, if_false]
      rw [if_neg (not_lt.2 n0), hfl]
    · simp only [Bool.false_eq_true, if_true, if_false]
      split
      · rw [Int.ceil_neg, hfl]
      · rename_i h
        have : (n / d : ℚ) = 0 := by linarith
        rw [this] at hfl ⊢
        simp at hfl ⊢; omega
  · refine ⟨by simp, by simp, fun _ => ?_, by simp⟩
    cases s
    · have : roundUp 2 false q r d = false := rfl
      rw [this]; simp [hfl]
    · simp only [if_true]
      rw [Int.floor_neg, hce]
      by_cases h : r = 0 <;> simp [roundUp, h]
  · refine ⟨by simp, by simp, by simp, fun _ => ?_⟩
    cases s
    · simp only [Bool.false_eq_true, if_false]
      rw [hce]
      by_cases h : r = 0 <;> simp [roundUp, h]
    · have : roundUp 3 true q r d = false := rfl
      rw [this]; simp [Int.ceil_neg, hfl]

theorem FV.ofInt_exactly (z : Int) : (FV.ofInt z).Exactly z false := by
  unfold FV.ofInt FV.Exactly
  refine ⟨z.natAbs, 1, ?_, by decide, ?_⟩
  · congr 1
    by_cases h : (z : ℚ) = 0
    · have : z = 0 := by exact_mod_cast h
      subst this; simp
    · rw [if_neg h]
      by_cases h' : z < 0
      · rw [decide_eq_true h', decide_eq_true (by exact_mod_cast h')]
      · rw [decide_eq_false h', decide_eq_false (by intro hh; exact h' (by exact_mod_cast hh))]
  · rw [Nat.cast_one, div_one, Nat.cast_natAbs, Int.cast_abs]

/-- The model's conversion of one code (R212, R173). -/
theorem cvEl_cv (src dst rnd : Nat) (hr : rnd < 4) (sat flush : Bool) (c : Nat) (hc : c < 2 ^ tyWidth src) :
    (cvEl src dst rnd sat flush c = none ↔ CvFails src dst rnd sat flush c) ∧
    ∀ p, cvEl src dst rnd sat flush c = some p → Cv src dst rnd sat flush c p.1 (p.2 = true) ∧ p.1 < 2 ^ tyWidth dst := by
  have hcf : c < 2 ^ (tyFmt src).width := by
    refine lt_of_lt_of_le hc (Nat.pow_le_pow_right (by decide) ?_)
    by_cases h : src = 4 ∨ src = 5 ∨ src = 6
    · rcases h with h | h | h <;> subst h <;> decide
    · have : tyFmt src = .fp32 := by unfold tyFmt; split <;> simp_all
      rw [this]; exact Nat.div_le_self 32 _
  have hv := decodeF_stands (tyFmt src) flush c hcf
  have ho := decodeF_ok (tyFmt src) flush c hcf
  have hwp := tyWidth_pos dst
  unfold cvEl CvFails Cv
  dsimp only
  by_cases hs : tyFloat src = true
  · simp only [hs, if_true, true_and]
    by_cases hd : tyFloat dst = true
    · simp only [hd, if_true]
      refine ⟨by simp, fun p hp => ?_⟩
      simp only [Option.some.injEq] at hp
      subst hp
      have hround := encodeF_rounds (tyFmt dst) rnd hr sat flush _ ho
      refine ⟨⟨_, hv, hround, by simp [fltRes]⟩, ?_⟩
      have := hround.lt
      rw [tyFmt_width dst hd] at this; exact this
    · have hd' : tyFloat dst = false := by simpa using hd
      simp only [hd', Bool.false_eq_true, if_false, true_and]
      have hx : fltOf src flush c = decodeF (tyFmt src) flush c := rfl
      rw [hx]
      generalize decodeF (tyFmt src) flush c = x at *
      have pw : (0 : Int) < 2 ^ tyWidth dst := by positivity
      have nn : ∀ y : Int, ((y % 2 ^ tyWidth dst).toNat : Int) = y % 2 ^ tyWidth dst :=
        fun y => Int.toNat_of_nonneg (Int.emod_nonneg _ pw.ne')
      have lt : ∀ y : Int, (y % 2 ^ tyWidth dst).toNat < 2 ^ tyWidth dst := by
        intro y
        have h1 := Int.emod_lt_of_pos y pw
        have h2 : ((y % 2 ^ tyWidth dst).toNat : Int) < ((2 ^ tyWidth dst : Nat) : Int) := by rw [nn]; push_cast; exact h1
        exact_mod_cast h2
      cases x with
      | nan =>
        unfold toIntType
        cases sat
        · simp only [Bool.false_eq_true, if_false, true_and]
          exact ⟨⟨fun _ => ⟨.nan, hv, .inl rfl⟩, fun _ => trivial⟩, by simp⟩
        · simp only [if_true, reduceCtorEq, false_and, true_and]
          intro p hp
          cases hp
          exact ⟨⟨.nan, hv, by simp, by simp, fun s q h => by obtain ⟨_, _, e, _⟩ := h; cases e⟩, Nat.pow_pos (by decide)⟩
      | inf s =>
        unfold toIntType
        cases sat
        · simp only [Bool.false_eq_true, if_false, true_and]
          exact ⟨⟨fun _ => ⟨.inf s, hv, .inr (.inl ⟨s, rfl⟩)⟩, fun _ => trivial⟩, by simp⟩
        · simp only [if_true, reduceCtorEq, false_and, true_and]
          intro p hp
          cases hp
          refine ⟨⟨.inf s, hv, by simp, fun u e => ?_, fun s q h => by obtain ⟨_, _, e, _⟩ := h; cases e⟩, lt _⟩
          cases e
          exact ⟨nn _, rfl⟩
      | num s n d =>
        have hdd := ho s n d rfl
        have hri := roundInt_rounds rnd hr s n d hdd
        have his : (FV.num s n d).Is s (n / d) := ⟨n, d, rfl, hdd, rfl⟩
        unfold toIntType
        dsimp only
        generalize roundInt rnd s n d = z at *
        have cvof : ∀ p : Nat × Bool, Fits (tySigned dst) (tyWidth dst) sat z p.1 → (p.2 = true ↔ sat = true ∧ Outside (tySigned dst) (tyWidth dst) z) →
            ∃ x, Stands (tyFmt src) flush c x ∧ ((x = .nan → p.1 = 0 ∧ p.2 = true) ∧
              (∀ s, x = .inf s → (p.1 : Int) = (if s then intMin (tySigned dst) (tyWidth dst) else intMax (tySigned dst) (tyWidth dst)) % 2 ^ tyWidth dst ∧ p.2 = true) ∧
              (∀ s q, x.Is s q → ∃ z, RoundsInt rnd x.rat z ∧ Fits (tySigned dst) (tyWidth dst) sat z p.1 ∧ (p.2 = true ↔ sat = true ∧ Outside (tySigned dst) (tyWidth dst) z))) :=
          fun p h1 h2 => ⟨_, hv, by simp, by simp, fun _ _ _ => ⟨z, hri, h1, h2⟩⟩
        by_cases hin : intMin (tySigned dst) (tyWidth dst) ≤ z ∧ z ≤ intMax (tySigned dst) (tyWidth dst)
        · rw [if_pos hin]
          refine ⟨⟨by simp, ?_⟩, fun p hp => ?_⟩
          · rintro ⟨_, x, hx, h⟩
            have al := Stands.alike hx hv
            rcases h with h | ⟨u, h⟩ | ⟨u, q, y, h1, h2, h3⟩
            · exact absurd (al.nan.1 h) (by simp)
            · rcases al with e | ⟨_, _, ⟨_, _, e, _⟩, _⟩
              · rw [h] at e; cases e
              · rw [h] at e; cases e
            · have hrat : x.rat = (FV.num s n d).rat := by
                rcases al with e | ⟨_, _, e1, e2⟩
                · rw [e]
                · rw [FV.rat_is e1, FV.rat_is e2]
              rw [hrat] at h2
              rw [RoundsInt.unique hr h2 hri] at h3
              unfold Outside at h3; omega
          · simp only [Option.some.injEq] at hp
            subst hp
            obtain ⟨f1, f2, f3⟩ := fitInt_fits (tySigned dst) (tyWidth dst) hwp sat z
            exact ⟨cvof _ f1 f2, f3⟩
        · rw [if_neg hin]
          have hout : Outside (tySigned dst) (tyWidth dst) z := by unfold Outside; omega
          cases sat
          · simp only [Bool.false_eq_true, if_false, true_and]
            exact ⟨⟨fun _ => ⟨_, hv, .inr (.inr ⟨s, _, z, his, hri, hout⟩)⟩, fun _ => trivial⟩, by simp⟩
          · simp only [if_true, reduceCtorEq, false_and, true_and]
            intro p hp
            simp only [Option.some.injEq] at hp
            subst hp
            obtain ⟨f1, f2, f3⟩ := fitInt_fits (tySigned dst) (tyWidth dst) hwp true z
            have hcv := cvof _ f1 f2
            simp only [true_and] at hcv
            exact ⟨hcv, f3⟩
  · have hs' : tyFloat src = false := by simpa using hs
    simp only [hs', Bool.false_eq_true, if_false, false_and]
    have hi : intOf src c = intVal (tySigned src) (tyWidth src) c := by
      unfold intOf
      split
      · rename_i h; rw [intVal_toSigned _ _ hc, h]
      · rename_i h
        have : tySigned src = false := by simpa using h
        simp [intVal, this]
    rw [hi]
    refine ⟨by split <;> simp, fun p hp => ?_⟩
    by_cases hd : tyFloat dst = true
    · simp only [hd, if_true, Option.some.injEq] at hp ⊢
      subst hp
      have hz := FV.ofInt_exactly (intVal (tySigned src) (tyWidth src) c)
      have hround := encodeF_rounds (tyFmt dst) rnd hr sat flush _ hz.ok
      refine ⟨⟨⟨_, hz, hround⟩, by simp [fltRes]⟩, ?_⟩
      have := hround.lt
      rw [tyFmt_width dst hd] at this; exact this
    · have hd' : tyFloat dst = false := by simpa using hd
      simp only [hd', Bool.false_eq_true, if_false, Option.some.injEq] at hp ⊢
      subst hp
      obtain ⟨f1, f2, f3⟩ := fitInt_fits (tySigned dst) (tyWidth dst) hwp sat (intVal (tySigned src) (tyWidth src) c)
      exact ⟨⟨f1, f2⟩, f3⟩

end Sys2Proof.Machine
end

