-- ==== Sys2Proof/Laws/Maps.lean ====
section
/-!
SUPPORT. What the sparse maps hold after an update.
-/

namespace Sys2Proof.Machine

variable {α : Type}

/-- A key set reads back; no other key changes. -/
theorem aget_aset (m : AMap α) (k j : Nat) (v : α) :
    aget (aset m k v) j = if j = k then some v else aget m j := by
  induction m with
  | nil =>
    by_cases h : j = k
    · simp [aset, aget, h]
    · simp [aset, aget, h, Ne.symm h]
  | cons e r ih =>
    obtain ⟨i, u⟩ := e
    by_cases h : j = k
    · subst h
      simp only [aset]
      split
      · simp [aget]
      · split
        · simp [aget]
        · rename_i h1 h2
          simp_all [aget, Ne.symm h2]
    · simp only [aset]
      split
      · simp [aget, Ne.symm h]
      · split
        · rename_i h1 h2
          subst h2
          simp [aget, Ne.symm h]
        · simp_all [aget]

@[simp] theorem aget_aset_same (m : AMap α) (k : Nat) (v : α) : aget (aset m k v) k = some v := by
  simp [aget_aset]

theorem aget_aset_ne (m : AMap α) {k j : Nat} (v : α) (h : j ≠ k) : aget (aset m k v) j = aget m j := by
  simp [aget_aset, h]

/-- A key taken out holds nothing; no other key changes. -/
theorem aget_aerase (m : AMap α) (k j : Nat) : aget (aerase m k) j = if j = k then none else aget m j := by
  induction m with
  | nil => simp [aerase, aget]
  | cons e r ih =>
    obtain ⟨i, u⟩ := e
    by_cases h : i = k
    · have h1 : aerase ((i, u) :: r) k = aerase r k := by simp [aerase, h]
      rw [h1, ih]
      by_cases h' : j = k
      · simp [h']
      · have : ¬ i = j := by omega
        simp [h', aget, this]
    · have h1 : aerase ((i, u) :: r) k = (i, u) :: aerase r k := by simp [aerase, h]
      rw [h1]
      by_cases h' : i = j
      · have : ¬ j = k := by omega
        simp [aget, h', this]
      · simp [aget, h', ih]

/-- A present key changed reads back changed; no other key changes. -/
theorem aget_amod (m : AMap α) (k j : Nat) (f : α → α) :
    aget (amod m k f) j = if j = k then (aget m k).map f else aget m j := by
  unfold amod
  split
  · rename_i v h
    simp [aget_aset, h]
  · rename_i h
    by_cases h' : j = k <;> simp_all

theorem aget_amod_ne (m : AMap α) {k j : Nat} (f : α → α) (h : j ≠ k) : aget (amod m k f) j = aget m j := by
  simp [aget_amod, h]

/-- A key that is not there is not changed. -/
theorem amod_absent (m : AMap α) (k : Nat) (f : α → α) (h : aget m k = none) : amod m k f = m := by
  simp [amod, h]

end Sys2Proof.Machine
end

