-- ==== Sys2Proof/Laws/Memory.lean ====
section
/-!
SUPPORT. Every memory operation keeps the canonical form, and reads back what was written.
-/

namespace Sys2Proof.Machine

/-- Every entry lies above a key. -/
def Memory.above (a : Nat) (m : Memory) : Prop := ∀ c ∈ m, a < c.1

theorem Memory.wf_nil : Memory.wf [] := by simp [Memory.wf]

theorem Memory.wf_cons {j : Nat} {u : Byte} {r : Memory} :
    Memory.wf ((j, u) :: r) ↔ Memory.above j r ∧ u ≠ 0 ∧ Memory.wf r := by
  simp only [Memory.wf, Memory.above, List.pairwise_cons, List.mem_cons, forall_eq_or_imp]
  constructor
  · rintro ⟨⟨h1, h2⟩, h3, h4⟩
    exact ⟨fun c hc => h1 c hc, h3, h2, h4⟩
  · rintro ⟨h1, h3, h2, h4⟩
    exact ⟨⟨fun c hc => h1 c hc, h2⟩, h3, h4⟩

theorem Memory.above_mono {a b : Nat} {m : Memory} (h : a ≤ b) (hm : m.above b) : m.above a :=
  fun c hc => Nat.lt_of_le_of_lt h (hm c hc)

/-- Below its entries a memory reads 0. -/
theorem Memory.read_above {m : Memory} {a x : Nat} (h : m.above a) (hx : x ≤ a) : Memory.read m x = 0 := by
  cases m with
  | nil => rfl
  | cons e r =>
    obtain ⟨j, u⟩ := e
    have := h (j, u) (by simp)
    simp only [Memory.read]
    rw [if_pos (by omega)]

theorem Memory.read_cons {j : Nat} {u : Byte} {r : Memory} (h : r.above j) (x : Nat) :
    Memory.read ((j, u) :: r) x = if x = j then u else Memory.read r x := by
  simp only [Memory.read]
  by_cases h1 : x < j
  · rw [if_pos h1, if_neg (by omega), Memory.read_above h (by omega)]
  · rw [if_neg h1]

/-- What Memory.cons makes: its key reads the byte, the rest is as it was. -/
theorem Memory.cons_spec {a : Nat} {v : Byte} {m : Memory} (hm : m.wf) (ha : m.above a) :
    Memory.wf (Memory.cons a v m) ∧ (∀ b, b < a → Memory.above b (Memory.cons a v m)) ∧
      ∀ x, Memory.read (Memory.cons a v m) x = if x = a then v else Memory.read m x := by
  unfold Memory.cons
  split
  · rename_i h0
    refine ⟨hm, fun b hb => Memory.above_mono (by omega) ha, fun x => ?_⟩
    split
    · subst x; rw [h0, Memory.read_above ha (Nat.le_refl _)]
    · rfl
  · rename_i h0
    refine ⟨Memory.wf_cons.2 ⟨ha, h0, hm⟩, ?_, Memory.read_cons ha⟩
    intro b hb c hc
    rcases List.mem_cons.1 hc with rfl | hc
    · exact hb
    · exact Nat.lt_trans hb (ha c hc)

/-- What Memory.insert makes, for an f that keeps the form above the key. -/
theorem Memory.insert_spec {f : Memory → Memory} {a : Nat} {v : Byte}
    (hf : ∀ m, Memory.wf m → m.above a → Memory.wf (f m) ∧ (f m).above a) :
    ∀ m : Memory, m.wf →
      Memory.wf (Memory.insert f a v m) ∧
      (∀ b, b < a → m.above b → Memory.above b (Memory.insert f a v m)) ∧
      ∃ r : Memory, r.wf ∧ r.above a ∧ (∀ x, a < x → Memory.read r x = Memory.read m x) ∧
        ∀ x, Memory.read (Memory.insert f a v m) x =
          if x < a then Memory.read m x else if x = a then v else Memory.read (f r) x
  | [], _ => by
    have h0 := hf [] Memory.wf_nil (by simp [Memory.above])
    have hc := Memory.cons_spec (v := v) h0.1 h0.2
    refine ⟨hc.1, fun b hb _ => hc.2.1 b hb, [], Memory.wf_nil, by simp [Memory.above], fun _ _ => rfl, fun x => ?_⟩
    simp only [Memory.insert, hc.2.2]
    by_cases h1 : x < a
    · rw [if_pos h1, if_neg (by omega), Memory.read_above h0.2 (by omega)]; rfl
    · rw [if_neg h1]
  | (j, u) :: r, hm => by
    obtain ⟨hj, hu, hr⟩ := Memory.wf_cons.1 hm
    simp only [Memory.insert]
    split
    · rename_i hlt
      obtain ⟨h1, h2, t, ht, hta, htr, htx⟩ := Memory.insert_spec hf r hr
      have hja : Memory.above j (Memory.insert f a v r) := h2 j hlt hj
      refine ⟨Memory.wf_cons.2 ⟨hja, hu, h1⟩, ?_, t, ht, hta, ?_, ?_⟩
      · intro b hb hab c hc
        rcases List.mem_cons.1 hc with rfl | hc
        · exact hab (j, u) (by simp)
        · exact Nat.lt_trans (hab (j, u) (by simp)) (hja c hc)
      · intro x hx
        rw [htr x hx, Memory.read_cons hj, if_neg (by omega)]
      · intro x
        rw [Memory.read_cons hja, Memory.read_cons hj, htx x]
        by_cases h3 : x = j
        · subst h3; simp [hlt]
        · simp [h3]
    · rename_i hge
      have ht : Memory.wf (if j = a then r else (j, u) :: r) := by split <;> assumption
      have hta : Memory.above a (if j = a then r else (j, u) :: r) := by
        split
        · subst j; exact hj
        · intro c hc
          rcases List.mem_cons.1 hc with rfl | hc
          · exact Nat.lt_of_le_of_ne (by omega) (by omega)
          · exact Nat.lt_of_le_of_lt (by omega) (hj c hc)
      have h0 := hf _ ht hta
      have hc := Memory.cons_spec (v := v) h0.1 h0.2
      refine ⟨hc.1, fun b hb _ => hc.2.1 b hb, _, ht, hta, ?_, ?_⟩
      · intro x hx
        split
        · rename_i he
          subst he
          rw [Memory.read_cons hj, if_neg (by omega)]
        · rfl
      · intro x
        rw [hc.2.2]
        by_cases h1 : x < a
        · rw [if_pos h1, if_neg (by omega), Memory.read_above h0.2 (by omega)]
          simp only [Memory.read]
          rw [if_pos (by omega)]
        · rw [if_neg h1]

/-- A write keeps the canonical form. -/
theorem Memory.write_wf {m : Memory} (h : m.wf) (a : Nat) (v : Byte) : (m.write a v).wf :=
  (Memory.insert_spec (f := id) (fun _ hm ha => ⟨hm, ha⟩) m h).1

/-- A byte written reads back; no other byte changes. -/
theorem Memory.read_write {m : Memory} (h : m.wf) (a x : Nat) (v : Byte) :
    (m.write a v).read x = if x = a then v else m.read x := by
  obtain ⟨_, _, r, _, _, hr, hx⟩ := Memory.insert_spec (f := id) (v := v) (fun _ hm ha => ⟨hm, ha⟩) m h
  rw [show m.write a v = Memory.insert id a v m from rfl, hx x]
  by_cases h1 : x < a
  · rw [if_pos h1, if_neg (by omega)]
  · rw [if_neg h1]
    by_cases h2 : x = a
    · simp [h2]
    · rw [if_neg h2, if_neg h2]; exact hr x (by omega)

/-! ## Logs -/

/-- Keys strictly rise. -/
abbrev keysRise (l : List (Nat × Byte)) : Prop := l.Pairwise (fun x y => x.1 < y.1)

/-- Merging a log of rising keys keeps the form, and reads the log first. -/
theorem Memory.merge_spec : ∀ (l : List (Nat × Byte)) (m : Memory), keysRise l → m.wf →
    Memory.wf (Memory.merge l m) ∧
    (∀ b, (∀ p ∈ l, b < p.1) → m.above b → Memory.above b (Memory.merge l m)) ∧
    ∀ x, Memory.read (Memory.merge l m) x = (aget l x).getD (Memory.read m x)
  | [], m, _, hm => ⟨hm, fun _ _ h => h, fun _ => rfl⟩
  | (a, v) :: r, m, hl, hm => by
    have hl1 := (List.pairwise_cons.1 hl).1
    have hl2 := (List.pairwise_cons.1 hl).2
    obtain ⟨h1, h2, t, ht, hta, htr, htx⟩ := Memory.insert_spec (f := Memory.merge r) (v := v)
      (fun m hm ha => ⟨(Memory.merge_spec r m hl2 hm).1, (Memory.merge_spec r m hl2 hm).2.1 a (fun p hp => hl1 p hp) ha⟩) m hm
    refine ⟨h1, fun b hb hab => h2 b (hb (a, v) (by simp)) hab, fun x => ?_⟩
    rw [Memory.merge, htx x]
    have habs : ∀ (r : List (Nat × Byte)), (∀ p ∈ r, a < p.1) → ∀ x, x ≤ a → aget r x = none := by
      intro r
      induction r with
      | nil => intros; rfl
      | cons p r ih =>
        intro hp x hx
        have h1 := hp p (by simp)
        obtain ⟨i, w⟩ := p
        have h2 : a < i := h1
        simp only [aget]
        rw [if_neg (by omega)]
        exact ih (fun q hq => hp q (by simp [hq])) x hx
    by_cases h3 : x < a
    · rw [if_pos h3]
      simp only [aget]
      rw [if_neg (by omega), habs r (fun p hp => hl1 p hp) x (by omega)]; rfl
    · rw [if_neg h3]
      by_cases h4 : x = a
      · simp [aget, h4]
      · rw [if_neg h4, (Memory.merge_spec r t hl2 ht).2.2 x, htr x (by omega)]
        simp only [aget]
        rw [if_neg (by omega)]

theorem aget_older (l : List (Nat × Byte)) (p : Nat × Byte) (hl : keysRise l) :
    keysRise (older l p) ∧ (∀ b, (∀ q ∈ l, b < q.1) → b < p.1 → ∀ q ∈ older l p, b < q.1) ∧
      ∀ x, aget (older l p) x = (aget l x).or (if p.1 = x then some p.2 else none) := by
  induction l with
  | nil => simp [older, aget]
  | cons q r ih =>
    obtain ⟨i, w⟩ := q
    obtain ⟨k, v⟩ := p
    have hl1 := (List.pairwise_cons.1 hl).1
    have hl2 := (List.pairwise_cons.1 hl).2
    obtain ⟨ih1, ih2, ih3⟩ := ih hl2
    simp only [older]
    split
    · rename_i hlt
      have hk : k < i := hlt
      refine ⟨List.pairwise_cons.2 ⟨?_, hl⟩, ?_, ?_⟩
      · intro q hq
        rcases List.mem_cons.1 hq with rfl | hq
        · exact hk
        · exact Nat.lt_trans hk (hl1 q hq)
      · intro b hb hbk q hq
        rcases List.mem_cons.1 hq with rfl | hq
        · exact hbk
        · exact hb q hq
      · intro x
        have habs : ∀ (r : List (Nat × Byte)), (∀ q ∈ r, k < q.1) → aget r k = none := by
          intro r
          induction r with
          | nil => intros; rfl
          | cons p r ih =>
            intro hp
            have h1 := hp p (by simp)
            obtain ⟨i, w⟩ := p
            have h2 : k < i := h1
            simp only [aget]
            rw [if_neg (by omega)]
            exact ih (fun q hq => hp q (by simp [hq]))
        by_cases hx : k = x
        · subst hx
          have h0 : aget ((i, w) :: r) k = none := habs _ (by
            intro q hq
            rcases List.mem_cons.1 hq with rfl | hq
            · exact hk
            · exact Nat.lt_trans hk (hl1 q hq))
          rw [h0]; simp [aget]
        · rw [show aget ((k, v) :: (i, w) :: r) x = aget ((i, w) :: r) x from if_neg hx]
          simp [hx]
    · split
      · rename_i he
        have hk : k = i := he
        subst hk
        refine ⟨hl, fun b hb _ => hb, fun x => ?_⟩
        by_cases hx : k = x <;> simp [aget, hx]
      · rename_i h1 h2
        refine ⟨List.pairwise_cons.2 ⟨?_, ih1⟩, ?_, ?_⟩
        · exact ih2 i (fun q hq => hl1 q hq) (by have h1' : ¬ k < i := h1; have h2' : ¬ k = i := h2; show i < k; omega)
        · intro b hb hbk q hq
          rcases List.mem_cons.1 hq with rfl | hq
          · exact hb (i, w) (by simp)
          · exact ih2 b (fun q hq => hb q (by simp [hq])) hbk q hq
        · intro x
          simp only [aget]
          split
          · simp
          · exact ih3 x

theorem aget_olders (log : List (Nat × Byte)) : ∀ acc : List (Nat × Byte), keysRise acc →
    keysRise (log.foldl older acc) ∧ ∀ x, aget (log.foldl older acc) x = (aget acc x).or (aget log x) := by
  induction log with
  | nil => intro acc h; exact ⟨h, fun x => by simp [aget]⟩
  | cons p r ih =>
    intro acc h
    obtain ⟨h1, _, h3⟩ := aget_older acc p h
    obtain ⟨h4, h5⟩ := ih (older acc p) h1
    refine ⟨h4, fun x => ?_⟩
    obtain ⟨k, v⟩ := p
    rw [List.foldl_cons, h5 x, h3 x]
    by_cases hk : k = x <;> cases aget acc x <;> simp [aget, hk]

/-- A log done at once keeps the form. -/
theorem Memory.applyLog_wf {m : Memory} (h : m.wf) (log : List (Nat × Byte)) : (m.applyLog log).wf :=
  (Memory.merge_spec _ m (aget_olders log [] (by simp [keysRise])).1 h).1

/-- After a log, a byte reads as its newest write, or as it was. -/
theorem Memory.read_applyLog {m : Memory} (h : m.wf) (log : List (Nat × Byte)) (x : Nat) :
    (m.applyLog log).read x = (aget log x).getD (m.read x) := by
  have h1 := aget_olders log [] (by simp [keysRise])
  rw [Memory.applyLog, (Memory.merge_spec _ m h1.1 h).2.2 x, h1.2 x]
  simp [aget]

/-- The entries that a test keeps are in the form. -/
theorem Memory.filter_wf {m : Memory} (h : m.wf) (f : Nat × Byte → Bool) : Memory.wf (m.filter f) :=
  ⟨h.1.filter f, fun c hc => h.2 c (List.mem_filter.1 hc).1⟩

theorem Memory.read_filter : ∀ {m : Memory}, m.wf → ∀ (f : Nat → Bool) (x : Nat),
    Memory.read (m.filter (fun c => f c.1)) x = if f x then m.read x else 0
  | [], _, f, x => by simp [Memory.read]
  | (j, u) :: r, h, f, x => by
    obtain ⟨hj, _, hr⟩ := Memory.wf_cons.1 h
    have ih := Memory.read_filter hr f x
    rw [Memory.read_cons hj]
    by_cases hf : f j
    · have hj' : Memory.above j (r.filter (fun c => f c.1)) := fun c hc => hj c (List.mem_filter.1 hc).1
      rw [show ((j, u) :: r).filter (fun c => f c.1) = (j, u) :: r.filter (fun c => f c.1) by simp [hf],
        Memory.read_cons hj', ih]
      by_cases hx : x = j
      · simp [hx, hf]
      · simp [hx]
    · rw [show ((j, u) :: r).filter (fun c => f c.1) = r.filter (fun c => f c.1) by simp [hf], ih]
      by_cases hx : x = j
      · subst hx; simp [hf]
      · simp [hx]

/-! ## The workspace -/

/-- What a meaning leaves in memory keeps the form. -/
theorem State.commit_wf {s : State} (h : s.mem.wf) (w : Work) : (s.commit w).mem.wf := by
  unfold State.commit
  apply Memory.applyLog_wf
  split
  · exact Memory.filter_wf h _
  · exact h

/-- What a meaning leaves at a key: the byte as its workspace saw it. -/
theorem State.read_commit {s : State} (h : s.mem.wf) {w : Work} (hb : w.base = s.mem) (x : Nat) :
    (s.commit w).mem.read x = w.byte x := by
  unfold State.commit Work.byte
  by_cases hw : w.wiped
  · rw [if_pos hw]
    simp only [Memory.read_applyLog (Memory.filter_wf h _) w.log x, Memory.read_filter h survives x, hw, hb]
    cases aget w.log x <;> cases survives x <;> simp
  · rw [if_neg hw]
    simp only [Memory.read_applyLog h w.log x, hb]
    cases aget w.log x <;> simp [hw]

/-- The byte written reads back; no other byte changes. -/
theorem Work.byte_putByte (w : Work) (a x : Nat) (v : Byte) :
    (w.putByte a v).byte x = if x = a then v else w.byte x := by
  by_cases h : x = a
  · simp [Work.putByte, Work.byte, aget, h]
  · simp [Work.putByte, Work.byte, aget, h, Ne.symm h]

/-- A number written changes no byte outside its own. -/
theorem Work.byte_write (w : Work) : ∀ (n a v x : Nat), (x < a ∨ a + n ≤ x) →
    (w.write a n v).byte x = w.byte x := by
  intro n
  induction n generalizing w with
  | zero => intros; rfl
  | succ n ih =>
    intro a v x hx
    rw [Work.write, ih _ _ _ x (by omega), Work.byte_putByte, if_neg (by omega)]

/-- Bytes written change no byte outside their own. -/
theorem Work.byte_putBytes (w : Work) (d : List Byte) : ∀ (a x : Nat), (x < a ∨ a + d.length ≤ x) →
    (w.putBytes a d).byte x = w.byte x := by
  induction d generalizing w with
  | nil => intros; rfl
  | cons v r ih =>
    intro a x hx
    rw [List.length_cons] at hx
    rw [Work.putBytes, ih _ _ x (by omega), Work.byte_putByte, if_neg (by omega)]

/-- A number written reads back, as much of it as its bytes hold (R2). -/
theorem Work.read_write (w : Work) : ∀ (n a v : Nat), (w.write a n v).read a n = v % 256 ^ n := by
  intro n
  induction n generalizing w with
  | zero => intro a v; simp [Work.read, Nat.mod_one]
  | succ n ih =>
    intro a v
    simp only [Work.read, Work.write]
    rw [ih, Work.byte_write _ _ _ _ _ (Or.inl (by omega)), Work.byte_putByte, if_pos rfl]
    rw [BitVec.toNat_ofNat, show (2 : Nat) ^ 8 = 256 from rfl, show 256 ^ (n + 1) = 256 * 256 ^ n from Nat.pow_succ', Nat.mod_mul]

end Sys2Proof.Machine
end

