-- ==== Sys2Proof/Laws/State.lean ====
section
/-!
SUPPORT. What each update of the state changes, one lemma per field per update, so that no later proof
unfolds a record update.
-/

namespace Sys2Proof.Machine


/-! ## A register of a thread written -/

@[simp] theorem Thread.setG_conds (t : Thread) (r : Reg) (v : Word) :
    (t.setG r v).conds = t.conds := by unfold Thread.setG; split <;> rfl
@[simp] theorem Thread.setG_pc (t : Thread) (r : Reg) (v : Word) :
    (t.setG r v).pc = t.pc := by unfold Thread.setG; split <;> rfl
@[simp] theorem Thread.setG_loops (t : Thread) (r : Reg) (v : Word) :
    (t.setG r v).loops = t.loops := by unfold Thread.setG; split <;> rfl
@[simp] theorem Thread.setG_pend (t : Thread) (r : Reg) (v : Word) :
    (t.setG r v).pend = t.pend := by unfold Thread.setG; split <;> rfl
@[simp] theorem Thread.setG_nextPend (t : Thread) (r : Reg) (v : Word) :
    (t.setG r v).nextPend = t.nextPend := by unfold Thread.setG; split <;> rfl
@[simp] theorem Thread.setG_nbv (t : Thread) (r : Reg) (v : Word) :
    (t.setG r v).nbv = t.nbv := by unfold Thread.setG; split <;> rfl
@[simp] theorem Thread.setG_launch (t : Thread) (r : Reg) (v : Word) :
    (t.setG r v).launch = t.launch := by unfold Thread.setG; split <;> rfl
@[simp] theorem Thread.setG_region (t : Thread) (r : Reg) (v : Word) :
    (t.setG r v).region = t.region := by unfold Thread.setG; split <;> rfl
@[simp] theorem Thread.setG_groups (t : Thread) (r : Reg) (v : Word) :
    (t.setG r v).groups = t.groups := by unfold Thread.setG; split <;> rfl
@[simp] theorem Thread.setG_jobTag (t : Thread) (r : Reg) (v : Word) :
    (t.setG r v).jobTag = t.jobTag := by unfold Thread.setG; split <;> rfl
@[simp] theorem Thread.setG_saves (t : Thread) (r : Reg) (v : Word) :
    (t.setG r v).saves = t.saves := by unfold Thread.setG; split <;> rfl
@[simp] theorem Thread.setG_yielded (t : Thread) (r : Reg) (v : Word) :
    (t.setG r v).yielded = t.yielded := by unfold Thread.setG; split <;> rfl
@[simp] theorem Thread.setG_waits (t : Thread) (r : Reg) (v : Word) :
    (t.setG r v).waits = t.waits := by unfold Thread.setG; split <;> rfl
@[simp] theorem Thread.setG_dumping (t : Thread) (r : Reg) (v : Word) :
    (t.setG r v).dumping = t.dumping := by unfold Thread.setG; split <;> rfl
@[simp] theorem Thread.setG_run (t : Thread) (r : Reg) (v : Word) :
    (t.setG r v).run = t.run := by unfold Thread.setG; split <;> rfl
@[simp] theorem Thread.setG_parks (t : Thread) (r : Reg) (v : Word) :
    (t.setG r v).parks = t.parks := by unfold Thread.setG; split <;> rfl
@[simp] theorem Thread.setG_sys (t : Thread) (r : Reg) (v : Word) :
    (t.setG r v).sys = t.sys := by unfold Thread.setG; split <;> rfl

/-- g0 reads 0 whatever is written (R85). -/
@[simp] theorem Thread.g_zero (t : Thread) : t.g 0 = 0 := rfl

/-- A write to g0 is discarded (R85). -/
@[simp] theorem Thread.setG_zero (t : Thread) (v : Word) : t.setG 0 v = t := rfl

/-- A register written reads back, and no other changes; g0 still reads 0. -/
theorem Thread.g_setG (t : Thread) (r x : Reg) (v : Word) :
    (t.setG r v).g x = if x = r ∧ r ≠ 0 then v else t.g x := by
  by_cases hr : r = 0
  · have : ¬ (x = r ∧ r ≠ 0) := fun h => h.2 hr
    rw [if_neg this, hr, Thread.setG_zero]
  · by_cases hx : x = 0
    · have : ¬ (x = r ∧ r ≠ 0) := fun h => hr (h.1 ▸ hx)
      rw [if_neg this, hx, Thread.g_zero, Thread.g_zero]
    · unfold Thread.g Thread.setG
      rw [if_neg hx, if_neg hx]
      simp only [if_neg hr]
      by_cases h : x = r
      · subst h
        simp only [Vector.getElem_set_self]
        exact (if_pos ⟨trivial, hx⟩).symm
      · have h1 : r.toNat ≠ x.toNat := fun e => h (BitVec.eq_of_toNat_eq e.symm)
        have h2 : ¬ (x = r ∧ r ≠ 0) := fun e => h e.1
        simp only [if_neg h2]
        simp [h1]

@[simp] theorem Thread.g_setG_same (t : Thread) (r : Reg) (v : Word) (h : r ≠ 0) : (t.setG r v).g r = v := by
  rw [Thread.g_setG, if_pos ⟨rfl, h⟩]

theorem Thread.g_setG_ne (t : Thread) {r x : Reg} (v : Word) (h : x ≠ r) : (t.setG r v).g x = t.g x := by
  rw [Thread.g_setG, if_neg (fun e => h e.1)]

@[simp] theorem Thread.c_setG (t : Thread) (r : Reg) (v : Word) (k : CReg) : (t.setG r v).c k = t.c k := by
  simp [Thread.c]

/-! ## A condition register written -/

@[simp] theorem Thread.setC_regs (t : Thread) (k : CReg) (v : Bool) : (t.setC k v).regs = t.regs := rfl
@[simp] theorem Thread.setC_pc (t : Thread) (k : CReg) (v : Bool) : (t.setC k v).pc = t.pc := rfl
@[simp] theorem Thread.setC_loops (t : Thread) (k : CReg) (v : Bool) : (t.setC k v).loops = t.loops := rfl
@[simp] theorem Thread.setC_pend (t : Thread) (k : CReg) (v : Bool) : (t.setC k v).pend = t.pend := rfl
@[simp] theorem Thread.setC_nextPend (t : Thread) (k : CReg) (v : Bool) :
    (t.setC k v).nextPend = t.nextPend := rfl
@[simp] theorem Thread.setC_poison (t : Thread) (k : CReg) (v : Bool) : (t.setC k v).poison = t.poison := rfl
@[simp] theorem Thread.setC_slotPoison (t : Thread) (k : CReg) (v : Bool) :
    (t.setC k v).slotPoison = t.slotPoison := rfl
@[simp] theorem Thread.setC_nbv (t : Thread) (k : CReg) (v : Bool) : (t.setC k v).nbv = t.nbv := rfl
@[simp] theorem Thread.setC_launch (t : Thread) (k : CReg) (v : Bool) : (t.setC k v).launch = t.launch := rfl
@[simp] theorem Thread.setC_region (t : Thread) (k : CReg) (v : Bool) : (t.setC k v).region = t.region := rfl
@[simp] theorem Thread.setC_groups (t : Thread) (k : CReg) (v : Bool) : (t.setC k v).groups = t.groups := rfl
@[simp] theorem Thread.setC_jobTag (t : Thread) (k : CReg) (v : Bool) : (t.setC k v).jobTag = t.jobTag := rfl
@[simp] theorem Thread.setC_saves (t : Thread) (k : CReg) (v : Bool) : (t.setC k v).saves = t.saves := rfl
@[simp] theorem Thread.setC_yielded (t : Thread) (k : CReg) (v : Bool) :
    (t.setC k v).yielded = t.yielded := rfl
@[simp] theorem Thread.setC_waits (t : Thread) (k : CReg) (v : Bool) :
    (t.setC k v).waits = t.waits := rfl
@[simp] theorem Thread.setC_dumping (t : Thread) (k : CReg) (v : Bool) :
    (t.setC k v).dumping = t.dumping := rfl
@[simp] theorem Thread.setC_run (t : Thread) (k : CReg) (v : Bool) : (t.setC k v).run = t.run := rfl
@[simp] theorem Thread.setC_parks (t : Thread) (k : CReg) (v : Bool) : (t.setC k v).parks = t.parks := rfl
@[simp] theorem Thread.setC_sys (t : Thread) (k : CReg) (v : Bool) : (t.setC k v).sys = t.sys := rfl
@[simp] theorem Thread.g_setC (t : Thread) (k : CReg) (v : Bool) (r : Reg) : (t.setC k v).g r = t.g r := rfl

/-- A condition register written reads back, and no other changes. -/
theorem Thread.c_setC (t : Thread) (k j : CReg) (v : Bool) :
    (t.setC k v).c j = if j = k then v else t.c j := by
  have h : ∀ (x : BitVec 8) (k j : BitVec 3) (v : Bool),
      (if v then x ||| BitVec.twoPow 8 k.toNat else x &&& ~~~(BitVec.twoPow 8 k.toNat)).getLsbD j.toNat =
        if j = k then v else x.getLsbD j.toNat := by
    intro x k j v
    have hj : j.toNat < 8 := j.isLt
    by_cases hjk : j = k
    · subst hjk; cases v <;> simp [hj]
    · have hn : ¬ j.toNat = k.toNat := fun e => hjk (BitVec.eq_of_toNat_eq e)
      cases v <;> simp [hjk, hj, hn]
  exact h t.conds k j v

/-! ## The program counter and the loop stack -/

@[simp] theorem Thread.endAt_regs (t : Thread) (e : Word) : (t.endAt e).regs = t.regs := rfl
@[simp] theorem Thread.endAt_conds (t : Thread) (e : Word) : (t.endAt e).conds = t.conds := rfl
@[simp] theorem Thread.endAt_pend (t : Thread) (e : Word) : (t.endAt e).pend = t.pend := rfl
@[simp] theorem Thread.endAt_nextPend (t : Thread) (e : Word) : (t.endAt e).nextPend = t.nextPend := rfl
@[simp] theorem Thread.endAt_poison (t : Thread) (e : Word) : (t.endAt e).poison = t.poison := rfl
@[simp] theorem Thread.endAt_slotPoison (t : Thread) (e : Word) : (t.endAt e).slotPoison = t.slotPoison := rfl
@[simp] theorem Thread.endAt_nbv (t : Thread) (e : Word) : (t.endAt e).nbv = t.nbv := rfl
@[simp] theorem Thread.endAt_launch (t : Thread) (e : Word) : (t.endAt e).launch = t.launch := rfl
@[simp] theorem Thread.endAt_region (t : Thread) (e : Word) : (t.endAt e).region = t.region := rfl
@[simp] theorem Thread.endAt_groups (t : Thread) (e : Word) : (t.endAt e).groups = t.groups := rfl
@[simp] theorem Thread.endAt_jobTag (t : Thread) (e : Word) : (t.endAt e).jobTag = t.jobTag := rfl
@[simp] theorem Thread.endAt_saves (t : Thread) (e : Word) : (t.endAt e).saves = t.saves := rfl
@[simp] theorem Thread.endAt_yielded (t : Thread) (e : Word) : (t.endAt e).yielded = t.yielded := rfl
@[simp] theorem Thread.endAt_waits (t : Thread) (e : Word) : (t.endAt e).waits = t.waits := rfl
@[simp] theorem Thread.endAt_dumping (t : Thread) (e : Word) : (t.endAt e).dumping = t.dumping := rfl
@[simp] theorem Thread.endAt_run (t : Thread) (e : Word) : (t.endAt e).run = t.run := rfl
@[simp] theorem Thread.endAt_parks (t : Thread) (e : Word) : (t.endAt e).parks = t.parks := rfl
@[simp] theorem Thread.endAt_sys (t : Thread) (e : Word) : (t.endAt e).sys = t.sys := rfl
@[simp] theorem Thread.g_endAt (t : Thread) (e : Word) (r : Reg) : (t.endAt e).g r = t.g r := rfl
@[simp] theorem Thread.c_endAt (t : Thread) (e : Word) (k : CReg) : (t.endAt e).c k = t.c k := rfl
@[simp] theorem Thread.branch_regs (t : Thread) (a : Word) : (t.branch a).regs = t.regs := rfl
@[simp] theorem Thread.branch_conds (t : Thread) (a : Word) : (t.branch a).conds = t.conds := rfl
@[simp] theorem Thread.branch_pend (t : Thread) (a : Word) : (t.branch a).pend = t.pend := rfl
@[simp] theorem Thread.branch_nextPend (t : Thread) (a : Word) : (t.branch a).nextPend = t.nextPend := rfl
@[simp] theorem Thread.branch_poison (t : Thread) (a : Word) : (t.branch a).poison = t.poison := rfl
@[simp] theorem Thread.branch_slotPoison (t : Thread) (a : Word) :
    (t.branch a).slotPoison = t.slotPoison := rfl
@[simp] theorem Thread.branch_nbv (t : Thread) (a : Word) : (t.branch a).nbv = t.nbv := rfl
@[simp] theorem Thread.branch_launch (t : Thread) (a : Word) : (t.branch a).launch = t.launch := rfl
@[simp] theorem Thread.branch_region (t : Thread) (a : Word) : (t.branch a).region = t.region := rfl
@[simp] theorem Thread.branch_groups (t : Thread) (a : Word) : (t.branch a).groups = t.groups := rfl
@[simp] theorem Thread.branch_jobTag (t : Thread) (a : Word) : (t.branch a).jobTag = t.jobTag := rfl
@[simp] theorem Thread.branch_saves (t : Thread) (a : Word) : (t.branch a).saves = t.saves := rfl
@[simp] theorem Thread.branch_yielded (t : Thread) (a : Word) : (t.branch a).yielded = t.yielded := rfl
@[simp] theorem Thread.branch_waits (t : Thread) (a : Word) : (t.branch a).waits = t.waits := rfl
@[simp] theorem Thread.branch_dumping (t : Thread) (a : Word) : (t.branch a).dumping = t.dumping := rfl
@[simp] theorem Thread.branch_run (t : Thread) (a : Word) : (t.branch a).run = t.run := rfl
@[simp] theorem Thread.branch_parks (t : Thread) (a : Word) : (t.branch a).parks = t.parks := rfl
@[simp] theorem Thread.branch_sys (t : Thread) (a : Word) : (t.branch a).sys = t.sys := rfl
@[simp] theorem Thread.g_branch (t : Thread) (a : Word) (r : Reg) : (t.branch a).g r = t.g r := rfl
@[simp] theorem Thread.c_branch (t : Thread) (a : Word) (k : CReg) : (t.branch a).c k = t.c k := rfl
@[simp] theorem Thread.advance_regs (t : Thread) : (t.advance).regs = t.regs := rfl
@[simp] theorem Thread.advance_conds (t : Thread) : (t.advance).conds = t.conds := rfl
@[simp] theorem Thread.advance_pend (t : Thread) : (t.advance).pend = t.pend := rfl
@[simp] theorem Thread.advance_nextPend (t : Thread) : (t.advance).nextPend = t.nextPend := rfl
@[simp] theorem Thread.advance_poison (t : Thread) : (t.advance).poison = t.poison := rfl
@[simp] theorem Thread.advance_slotPoison (t : Thread) : (t.advance).slotPoison = t.slotPoison := rfl
@[simp] theorem Thread.advance_nbv (t : Thread) : (t.advance).nbv = t.nbv := rfl
@[simp] theorem Thread.advance_launch (t : Thread) : (t.advance).launch = t.launch := rfl
@[simp] theorem Thread.advance_region (t : Thread) : (t.advance).region = t.region := rfl
@[simp] theorem Thread.advance_groups (t : Thread) : (t.advance).groups = t.groups := rfl
@[simp] theorem Thread.advance_jobTag (t : Thread) : (t.advance).jobTag = t.jobTag := rfl
@[simp] theorem Thread.advance_saves (t : Thread) : (t.advance).saves = t.saves := rfl
@[simp] theorem Thread.advance_yielded (t : Thread) : (t.advance).yielded = t.yielded := rfl
@[simp] theorem Thread.advance_waits (t : Thread) : (t.advance).waits = t.waits := rfl
@[simp] theorem Thread.advance_dumping (t : Thread) : (t.advance).dumping = t.dumping := rfl
@[simp] theorem Thread.advance_run (t : Thread) : (t.advance).run = t.run := rfl
@[simp] theorem Thread.advance_parks (t : Thread) : (t.advance).parks = t.parks := rfl
@[simp] theorem Thread.advance_sys (t : Thread) : (t.advance).sys = t.sys := rfl
@[simp] theorem Thread.g_advance (t : Thread) (r : Reg) : (t.advance).g r = t.g r := rfl
@[simp] theorem Thread.c_advance (t : Thread) (k : CReg) : (t.advance).c k = t.c k := rfl
@[simp] theorem Thread.branch_pc (t : Thread) (a : Word) : (t.branch a).pc = a := rfl
@[simp] theorem Thread.advance_pc (t : Thread) : t.advance.pc = (endProcess t.pc t.loops).1 := rfl
@[simp] theorem Thread.advance_loops (t : Thread) : t.advance.loops = (endProcess t.pc t.loops).2 := rfl

/-- With no loop, a word passes to the next (R98). -/
theorem Thread.advance_pc_flat (t : Thread) (h : t.loops = []) : t.advance.pc = t.pc + 4 := by
  simp [h, endProcess]

/-! ## Traps -/

@[simp] theorem Thread.trap_regs (t : Thread) (c : Nat) (p v : Word) (tb : Nat) :
    (t.trap c p v tb).regs = t.regs := by
  unfold Thread.trap; split
  · rfl
  · unfold Thread.enter; dsimp only; split <;> rfl
@[simp] theorem Thread.trap_conds (t : Thread) (c : Nat) (p v : Word) (tb : Nat) :
    (t.trap c p v tb).conds = t.conds := by
  unfold Thread.trap; split
  · rfl
  · unfold Thread.enter; dsimp only; split <;> rfl
@[simp] theorem Thread.trap_loops (t : Thread) (c : Nat) (p v : Word) (tb : Nat) :
    (t.trap c p v tb).loops = t.loops := by
  unfold Thread.trap; split
  · rfl
  · unfold Thread.enter; dsimp only; split <;> rfl
@[simp] theorem Thread.trap_pend (t : Thread) (c : Nat) (p v : Word) (tb : Nat) :
    (t.trap c p v tb).pend = t.pend := by
  unfold Thread.trap; split
  · rfl
  · unfold Thread.enter; dsimp only; split <;> rfl
@[simp] theorem Thread.trap_nextPend (t : Thread) (c : Nat) (p v : Word) (tb : Nat) :
    (t.trap c p v tb).nextPend = t.nextPend := by
  unfold Thread.trap; split
  · rfl
  · unfold Thread.enter; dsimp only; split <;> rfl
@[simp] theorem Thread.trap_poison (t : Thread) (c : Nat) (p v : Word) (tb : Nat) :
    (t.trap c p v tb).poison = t.poison := by
  unfold Thread.trap; split
  · rfl
  · unfold Thread.enter; dsimp only; split <;> rfl
@[simp] theorem Thread.trap_slotPoison (t : Thread) (c : Nat) (p v : Word) (tb : Nat) :
    (t.trap c p v tb).slotPoison = t.slotPoison := by
  unfold Thread.trap; split
  · rfl
  · unfold Thread.enter; dsimp only; split <;> rfl
@[simp] theorem Thread.trap_nbv (t : Thread) (c : Nat) (p v : Word) (tb : Nat) :
    (t.trap c p v tb).nbv = t.nbv := by
  unfold Thread.trap; split
  · rfl
  · unfold Thread.enter; dsimp only; split <;> rfl
@[simp] theorem Thread.trap_launch (t : Thread) (c : Nat) (p v : Word) (tb : Nat) :
    (t.trap c p v tb).launch = t.launch := by
  unfold Thread.trap; split
  · rfl
  · unfold Thread.enter; dsimp only; split <;> rfl
@[simp] theorem Thread.trap_region (t : Thread) (c : Nat) (p v : Word) (tb : Nat) :
    (t.trap c p v tb).region = t.region := by
  unfold Thread.trap; split
  · rfl
  · unfold Thread.enter; dsimp only; split <;> rfl
@[simp] theorem Thread.trap_groups (t : Thread) (c : Nat) (p v : Word) (tb : Nat) :
    (t.trap c p v tb).groups = t.groups := by
  unfold Thread.trap; split
  · rfl
  · unfold Thread.enter; dsimp only; split <;> rfl
@[simp] theorem Thread.trap_jobTag (t : Thread) (c : Nat) (p v : Word) (tb : Nat) :
    (t.trap c p v tb).jobTag = t.jobTag := by
  unfold Thread.trap; split
  · rfl
  · unfold Thread.enter; dsimp only; split <;> rfl
@[simp] theorem Thread.trap_saves (t : Thread) (c : Nat) (p v : Word) (tb : Nat) :
    (t.trap c p v tb).saves = t.saves := by
  unfold Thread.trap; split
  · rfl
  · unfold Thread.enter; dsimp only; split <;> rfl
@[simp] theorem Thread.trap_yielded (t : Thread) (c : Nat) (p v : Word) (tb : Nat) :
    (t.trap c p v tb).yielded = t.yielded := by
  unfold Thread.trap; split
  · rfl
  · unfold Thread.enter; dsimp only; split <;> rfl
@[simp] theorem Thread.trap_dumping (t : Thread) (c : Nat) (p v : Word) (tb : Nat) :
    (t.trap c p v tb).dumping = t.dumping := by
  unfold Thread.trap; split
  · rfl
  · unfold Thread.enter; dsimp only; split <;> rfl
@[simp] theorem Thread.trap_parks (t : Thread) (c : Nat) (p v : Word) (tb : Nat) :
    (t.trap c p v tb).parks = t.parks := by
  unfold Thread.trap; split
  · rfl
  · unfold Thread.enter; dsimp only; split <;> rfl
@[simp] theorem Thread.g_trap (t : Thread) (c : Nat) (p v : Word) (tb : Nat) (r : Reg) :
    (t.trap c p v tb).g r = t.g r := by unfold Thread.g; simp
@[simp] theorem Thread.c_trap (t : Thread) (c : Nat) (p v : Word) (tb : Nat) (k : CReg) :
    (t.trap c p v tb).c k = t.c k := by simp [Thread.c]
@[simp] theorem Thread.trap_user (t : Thread) (c : Nat) (p v : Word) (tb : Nat) (h : t.sys = none) :
    t.trap c p v tb = { t with run := .parked c p v tb none false, waits := none, pc := p } := by
  simp [Thread.trap, h, Thread.park]
@[simp] theorem Thread.trap_core (t : Thread) (c : Nat) (p v : Word) (tb : Nat) (k : CoreRegs) (h : t.sys = some k) :
    t.trap c p v tb = t.enter k (k.h || c == 0x09) c p v := by
  simp [Thread.trap, h]

/-! ## Outstanding words -/

@[simp] theorem Thread.addPend_regs (t : Thread) (p : Nat → Pend) : (t.addPend p).regs = t.regs := rfl
@[simp] theorem Thread.addPend_conds (t : Thread) (p : Nat → Pend) : (t.addPend p).conds = t.conds := rfl
@[simp] theorem Thread.addPend_pc (t : Thread) (p : Nat → Pend) : (t.addPend p).pc = t.pc := rfl
@[simp] theorem Thread.addPend_loops (t : Thread) (p : Nat → Pend) : (t.addPend p).loops = t.loops := rfl
@[simp] theorem Thread.addPend_poison (t : Thread) (p : Nat → Pend) : (t.addPend p).poison = t.poison := rfl
@[simp] theorem Thread.addPend_nbv (t : Thread) (p : Nat → Pend) : (t.addPend p).nbv = t.nbv := rfl
@[simp] theorem Thread.addPend_launch (t : Thread) (p : Nat → Pend) : (t.addPend p).launch = t.launch := rfl
@[simp] theorem Thread.addPend_region (t : Thread) (p : Nat → Pend) : (t.addPend p).region = t.region := rfl
@[simp] theorem Thread.addPend_groups (t : Thread) (p : Nat → Pend) : (t.addPend p).groups = t.groups := rfl
@[simp] theorem Thread.addPend_jobTag (t : Thread) (p : Nat → Pend) : (t.addPend p).jobTag = t.jobTag := rfl
@[simp] theorem Thread.addPend_saves (t : Thread) (p : Nat → Pend) : (t.addPend p).saves = t.saves := rfl
@[simp] theorem Thread.addPend_yielded (t : Thread) (p : Nat → Pend) :
    (t.addPend p).yielded = t.yielded := rfl
@[simp] theorem Thread.addPend_waits (t : Thread) (p : Nat → Pend) :
    (t.addPend p).waits = t.waits := rfl
@[simp] theorem Thread.addPend_dumping (t : Thread) (p : Nat → Pend) :
    (t.addPend p).dumping = t.dumping := rfl
@[simp] theorem Thread.addPend_run (t : Thread) (p : Nat → Pend) : (t.addPend p).run = t.run := rfl
@[simp] theorem Thread.addPend_parks (t : Thread) (p : Nat → Pend) : (t.addPend p).parks = t.parks := rfl
@[simp] theorem Thread.addPend_sys (t : Thread) (p : Nat → Pend) : (t.addPend p).sys = t.sys := rfl
@[simp] theorem Thread.addPend_pend (t : Thread) (p : Nat → Pend) :
    (t.addPend p).pend = t.pend ++ [p t.nextPend] := rfl
@[simp] theorem Thread.addPend_nextPend (t : Thread) (p : Nat → Pend) :
    (t.addPend p).nextPend = t.nextPend + 1 := rfl
@[simp] theorem Thread.g_addPend (t : Thread) (p : Nat → Pend) (r : Reg) : (t.addPend p).g r = t.g r := rfl
@[simp] theorem Thread.endPend_conds (t : Thread) (id : Nat) (v : Option Word) :
    (t.endPend id v).conds = t.conds := by
  unfold Thread.endPend; split
  · rfl
  · dsimp only; split <;> simp
@[simp] theorem Thread.endPend_pc (t : Thread) (id : Nat) (v : Option Word) :
    (t.endPend id v).pc = t.pc := by
  unfold Thread.endPend; split
  · rfl
  · dsimp only; split <;> simp
@[simp] theorem Thread.endPend_loops (t : Thread) (id : Nat) (v : Option Word) :
    (t.endPend id v).loops = t.loops := by
  unfold Thread.endPend; split
  · rfl
  · dsimp only; split <;> simp
@[simp] theorem Thread.endPend_nextPend (t : Thread) (id : Nat) (v : Option Word) :
    (t.endPend id v).nextPend = t.nextPend := by
  unfold Thread.endPend; split
  · rfl
  · dsimp only; split <;> simp
@[simp] theorem Thread.endPend_nbv (t : Thread) (id : Nat) (v : Option Word) :
    (t.endPend id v).nbv = t.nbv := by
  unfold Thread.endPend; split
  · rfl
  · dsimp only; split <;> simp
@[simp] theorem Thread.endPend_launch (t : Thread) (id : Nat) (v : Option Word) :
    (t.endPend id v).launch = t.launch := by
  unfold Thread.endPend; split
  · rfl
  · dsimp only; split <;> simp
@[simp] theorem Thread.endPend_region (t : Thread) (id : Nat) (v : Option Word) :
    (t.endPend id v).region = t.region := by
  unfold Thread.endPend; split
  · rfl
  · dsimp only; split <;> simp
@[simp] theorem Thread.endPend_groups (t : Thread) (id : Nat) (v : Option Word) :
    (t.endPend id v).groups = t.groups := by
  unfold Thread.endPend; split
  · rfl
  · dsimp only; split <;> simp
@[simp] theorem Thread.endPend_jobTag (t : Thread) (id : Nat) (v : Option Word) :
    (t.endPend id v).jobTag = t.jobTag := by
  unfold Thread.endPend; split
  · rfl
  · dsimp only; split <;> simp
@[simp] theorem Thread.endPend_saves (t : Thread) (id : Nat) (v : Option Word) :
    (t.endPend id v).saves = t.saves := by
  unfold Thread.endPend; split
  · rfl
  · dsimp only; split <;> simp
@[simp] theorem Thread.endPend_yielded (t : Thread) (id : Nat) (v : Option Word) :
    (t.endPend id v).yielded = t.yielded := by
  unfold Thread.endPend; split
  · rfl
  · dsimp only; split <;> simp
@[simp] theorem Thread.endPend_waits (t : Thread) (id : Nat) (v : Option Word) :
    (t.endPend id v).waits = t.waits := by
  unfold Thread.endPend; split
  · rfl
  · dsimp only; split <;> simp
@[simp] theorem Thread.endPend_dumping (t : Thread) (id : Nat) (v : Option Word) :
    (t.endPend id v).dumping = t.dumping := by
  unfold Thread.endPend; split
  · rfl
  · dsimp only; split <;> simp
@[simp] theorem Thread.endPend_run (t : Thread) (id : Nat) (v : Option Word) :
    (t.endPend id v).run = t.run := by
  unfold Thread.endPend; split
  · rfl
  · dsimp only; split <;> simp
@[simp] theorem Thread.endPend_parks (t : Thread) (id : Nat) (v : Option Word) :
    (t.endPend id v).parks = t.parks := by
  unfold Thread.endPend; split
  · rfl
  · dsimp only; split <;> simp
@[simp] theorem Thread.endPend_sys (t : Thread) (id : Nat) (v : Option Word) :
    (t.endPend id v).sys = t.sys := by
  unfold Thread.endPend; split
  · rfl
  · dsimp only; split <;> simp

/-! ## A thread put into a state -/

@[simp] theorem State.putThr_mem (s : State) (k : Nat) (t : Thread) : (s.putThr k t).mem = s.mem := rfl
@[simp] theorem State.putThr_bad (s : State) (k : Nat) (t : Thread) : (s.putThr k t).bad = s.bad := rfl
@[simp] theorem State.putThr_thr (s : State) (k : Nat) (t : Thread) :
    (s.putThr k t).m.thr = aset s.m.thr k t := rfl
@[simp] theorem State.putThr_tb (s : State) (k : Nat) (t : Thread) : (s.putThr k t).m.tb = s.m.tb := rfl
@[simp] theorem State.putThr_pace (s : State) (k : Nat) (t : Thread) : (s.putThr k t).m.pace = s.m.pace := rfl
@[simp] theorem State.putThr_cyc (s : State) (k : Nat) (t : Thread) : (s.putThr k t).m.cyc = s.m.cyc := rfl
@[simp] theorem State.putThr_cycPace (s : State) (k : Nat) (t : Thread) :
    (s.putThr k t).m.cycPace = s.m.cycPace := rfl
@[simp] theorem State.putThr_free (s : State) (k : Nat) (t : Thread) : (s.putThr k t).m.free = s.m.free := rfl
@[simp] theorem State.putThr_agenda (s : State) (k : Nat) (t : Thread) :
    (s.putThr k t).m.agenda = s.m.agenda := rfl
@[simp] theorem State.putThr_turn (s : State) (k : Nat) (t : Thread) : (s.putThr k t).m.turn = s.m.turn := rfl
@[simp] theorem State.putThr_cur (s : State) (k : Nat) (t : Thread) : (s.putThr k t).m.cur = s.m.cur := rfl
@[simp] theorem State.putThr_parts (s : State) (k : Nat) (t : Thread) :
    (s.putThr k t).m.parts = s.m.parts := rfl
@[simp] theorem State.putThr_places (s : State) (k : Nat) (t : Thread) :
    (s.putThr k t).m.places = s.m.places := rfl
@[simp] theorem State.putThr_gens (s : State) (k : Nat) (t : Thread) : (s.putThr k t).m.gens = s.m.gens := rfl
@[simp] theorem State.putThr_trigs (s : State) (k : Nat) (t : Thread) :
    (s.putThr k t).m.trigs = s.m.trigs := rfl
@[simp] theorem State.putThr_jobs (s : State) (k : Nat) (t : Thread) : (s.putThr k t).m.jobs = s.m.jobs := rfl
@[simp] theorem State.putThr_nextJob (s : State) (k : Nat) (t : Thread) :
    (s.putThr k t).m.nextJob = s.m.nextJob := rfl
@[simp] theorem State.putThr_tlbs (s : State) (k : Nat) (t : Thread) : (s.putThr k t).m.tlbs = s.m.tlbs := rfl
@[simp] theorem State.putThr_tlbis (s : State) (k : Nat) (t : Thread) :
    (s.putThr k t).m.tlbis = s.m.tlbis := rfl
@[simp] theorem State.putThr_nextTlbi (s : State) (k : Nat) (t : Thread) :
    (s.putThr k t).m.nextTlbi = s.m.nextTlbi := rfl
@[simp] theorem State.putThr_launches (s : State) (k : Nat) (t : Thread) :
    (s.putThr k t).m.launches = s.m.launches := rfl
@[simp] theorem State.putThr_nextLaunch (s : State) (k : Nat) (t : Thread) :
    (s.putThr k t).m.nextLaunch = s.m.nextLaunch := rfl
@[simp] theorem State.putThr_loads (s : State) (k : Nat) (t : Thread) :
    (s.putThr k t).m.loads = s.m.loads := rfl
@[simp] theorem State.putThr_nextLoad (s : State) (k : Nat) (t : Thread) :
    (s.putThr k t).m.nextLoad = s.m.nextLoad := rfl
@[simp] theorem State.putThr_clusters (s : State) (k : Nat) (t : Thread) :
    (s.putThr k t).m.clusters = s.m.clusters := rfl
@[simp] theorem State.putThr_scans (s : State) (k : Nat) (t : Thread) :
    (s.putThr k t).m.scans = s.m.scans := rfl
@[simp] theorem State.putThr_hptBase (s : State) (k : Nat) (t : Thread) :
    (s.putThr k t).m.hptBase = s.m.hptBase := rfl
@[simp] theorem State.putThr_hptStat (s : State) (k : Nat) (t : Thread) :
    (s.putThr k t).m.hptStat = s.m.hptStat := rfl
@[simp] theorem State.putThr_coreSel (s : State) (k : Nat) (t : Thread) :
    (s.putThr k t).m.coreSel = s.m.coreSel := rfl
@[simp] theorem State.putThr_coreRun (s : State) (k : Nat) (t : Thread) :
    (s.putThr k t).m.coreRun = s.m.coreRun := rfl
@[simp] theorem State.putThr_hostBase (s : State) (k : Nat) (t : Thread) :
    (s.putThr k t).m.hostBase = s.m.hostBase := rfl
@[simp] theorem State.putThr_hostLen (s : State) (k : Nat) (t : Thread) :
    (s.putThr k t).m.hostLen = s.m.hostLen := rfl
@[simp] theorem State.putThr_hostPart (s : State) (k : Nat) (t : Thread) :
    (s.putThr k t).m.hostPart = s.m.hostPart := rfl
@[simp] theorem State.putThr_meas (s : State) (k : Nat) (t : Thread) : (s.putThr k t).m.meas = s.m.meas := rfl
@[simp] theorem State.putThr_preWait (s : State) (k : Nat) (t : Thread) :
    (s.putThr k t).m.preWait = s.m.preWait := rfl
@[simp] theorem State.putThr_brgFailed (s : State) (k : Nat) (t : Thread) :
    (s.putThr k t).m.brgFailed = s.m.brgFailed := rfl
@[simp] theorem State.putThr_brgEvents (s : State) (k : Nat) (t : Thread) :
    (s.putThr k t).m.brgEvents = s.m.brgEvents := rfl
@[simp] theorem State.putThr_brgTb (s : State) (k : Nat) (t : Thread) :
    (s.putThr k t).m.brgTb = s.m.brgTb := rfl
@[simp] theorem State.putThr_brgWait (s : State) (k : Nat) (t : Thread) :
    (s.putThr k t).m.brgWait = s.m.brgWait := rfl
@[simp] theorem State.putThr_clmap (s : State) (k : Nat) (t : Thread) :
    (s.putThr k t).m.clmap = s.m.clmap := rfl
@[simp] theorem State.putThr_injArm (s : State) (k : Nat) (t : Thread) :
    (s.putThr k t).m.injArm = s.m.injArm := rfl
@[simp] theorem State.putThr_injG (s : State) (k : Nat) (t : Thread) : (s.putThr k t).m.injG = s.m.injG := rfl
@[simp] theorem State.putThr_hold (s : State) (k : Nat) (t : Thread) : (s.putThr k t).m.hold = s.m.hold := rfl
@[simp] theorem State.putThr_heat (s : State) (k : Nat) (t : Thread) : (s.putThr k t).m.heat = s.m.heat := rfl
@[simp] theorem State.putThr_power (s : State) (k : Nat) (t : Thread) :
    (s.putThr k t).m.power = s.m.power := rfl
@[simp] theorem State.putThr_wear (s : State) (k : Nat) (t : Thread) : (s.putThr k t).m.wear = s.m.wear := rfl
@[simp] theorem State.putThr_record (s : State) (k : Nat) (t : Thread) :
    (s.putThr k t).m.record = s.m.record := rfl
@[simp] theorem State.putThr_boot (s : State) (k : Nat) (t : Thread) : (s.putThr k t).m.boot = s.m.boot := rfl
@[simp] theorem State.putThr_spdm (s : State) (k : Nat) (t : Thread) : (s.putThr k t).m.spdm = s.m.spdm := rfl
@[simp] theorem State.putThr_farPorts (s : State) (k : Nat) (t : Thread) :
    (s.putThr k t).m.farPorts = s.m.farPorts := rfl
@[simp] theorem State.putThr_packages (s : State) (k : Nat) (t : Thread) :
    (s.putThr k t).m.packages = s.m.packages := rfl
@[simp] theorem State.putThr_own (s : State) (k : Nat) (t : Thread) : (s.putThr k t).m.own = s.m.own := rfl
@[simp] theorem State.putThr_joinTb (s : State) (k : Nat) (t : Thread) :
    (s.putThr k t).m.joinTb = s.m.joinTb := rfl
@[simp] theorem State.putThr_lastTurn (s : State) (k : Nat) (t : Thread) :
    (s.putThr k t).m.lastTurn = s.m.lastTurn := rfl
@[simp] theorem State.putThr_exited (s : State) (k : Nat) (t : Thread) :
    (s.putThr k t).m.exited = s.m.exited := rfl
@[simp] theorem State.putThr_keptStat (s : State) (k : Nat) (t : Thread) :
    (s.putThr k t).m.keptStat = s.m.keptStat := rfl
@[simp] theorem State.putThr_slew (s : State) (k : Nat) (t : Thread) :
    (s.putThr k t).m.slew = s.m.slew := rfl
@[simp] theorem State.putThr_crossings (s : State) (k : Nat) (t : Thread) :
    (s.putThr k t).m.crossings = s.m.crossings := rfl
@[simp] theorem State.putThr_hostOut (s : State) (k : Nat) (t : Thread) :
    (s.putThr k t).m.hostOut = s.m.hostOut := rfl
@[simp] theorem State.putThr_domainOut (s : State) (k : Nat) (t : Thread) :
    (s.putThr k t).m.domainOut = s.m.domainOut := rfl

/-! ## A workspace committed -/

@[simp] theorem State.commit_m (s : State) (w : Work) : (s.commit w).m = w.m := rfl
@[simp] theorem State.commit_bad (s : State) (w : Work) : (s.commit w).bad = w.bad := rfl
@[simp] theorem State.work_m (s : State) : s.work.m = s.m := rfl
@[simp] theorem State.work_base (s : State) : s.work.base = s.mem := rfl
@[simp] theorem State.work_log (s : State) : s.work.log = [] := rfl
@[simp] theorem State.work_bad (s : State) : s.work.bad = s.bad := rfl
@[simp] theorem State.work_wiped (s : State) : s.work.wiped = false := rfl
@[simp] theorem Work.putByte_m (w : Work) (a : Nat) (v : Byte) : (w.putByte a v).m = w.m := rfl
@[simp] theorem Work.putByte_base (w : Work) (a : Nat) (v : Byte) : (w.putByte a v).base = w.base := rfl
@[simp] theorem Work.putByte_wiped (w : Work) (a : Nat) (v : Byte) : (w.putByte a v).wiped = w.wiped := rfl
@[simp] theorem Work.mach_base (w : Work) (f : Mach → Mach) : (w.mach f).base = w.base := rfl
@[simp] theorem Work.mach_log (w : Work) (f : Mach → Mach) : (w.mach f).log = w.log := rfl
@[simp] theorem Work.mach_bad (w : Work) (f : Mach → Mach) : (w.mach f).bad = w.bad := rfl
@[simp] theorem Work.mach_wiped (w : Work) (f : Mach → Mach) : (w.mach f).wiped = w.wiped := rfl
@[simp] theorem Work.putThr_base (w : Work) (k : Nat) (t : Thread) : (w.putThr k t).base = w.base := rfl
@[simp] theorem Work.putThr_log (w : Work) (k : Nat) (t : Thread) : (w.putThr k t).log = w.log := rfl
@[simp] theorem Work.putThr_bad (w : Work) (k : Nat) (t : Thread) : (w.putThr k t).bad = w.bad := rfl
@[simp] theorem Work.putThr_wiped (w : Work) (k : Nat) (t : Thread) : (w.putThr k t).wiped = w.wiped := rfl
@[simp] theorem Work.modThr_base (w : Work) (k : Nat) (f : Thread → Thread) :
    (w.modThr k f).base = w.base := rfl
@[simp] theorem Work.modThr_log (w : Work) (k : Nat) (f : Thread → Thread) : (w.modThr k f).log = w.log := rfl
@[simp] theorem Work.modThr_bad (w : Work) (k : Nat) (f : Thread → Thread) : (w.modThr k f).bad = w.bad := rfl
@[simp] theorem Work.modThr_wiped (w : Work) (k : Nat) (f : Thread → Thread) :
    (w.modThr k f).wiped = w.wiped := rfl
@[simp] theorem Work.mach_m (w : Work) (f : Mach → Mach) : (w.mach f).m = f w.m := rfl
@[simp] theorem Work.putThr_m_tb (w : Work) (k : Nat) (t : Thread) : (w.putThr k t).m.tb = w.m.tb := rfl
@[simp] theorem Work.putThr_m_pace (w : Work) (k : Nat) (t : Thread) : (w.putThr k t).m.pace = w.m.pace := rfl
@[simp] theorem Work.putThr_m_cyc (w : Work) (k : Nat) (t : Thread) : (w.putThr k t).m.cyc = w.m.cyc := rfl
@[simp] theorem Work.putThr_m_cycPace (w : Work) (k : Nat) (t : Thread) :
    (w.putThr k t).m.cycPace = w.m.cycPace := rfl
@[simp] theorem Work.putThr_m_free (w : Work) (k : Nat) (t : Thread) : (w.putThr k t).m.free = w.m.free := rfl
@[simp] theorem Work.putThr_m_agenda (w : Work) (k : Nat) (t : Thread) :
    (w.putThr k t).m.agenda = w.m.agenda := rfl
@[simp] theorem Work.putThr_m_turn (w : Work) (k : Nat) (t : Thread) : (w.putThr k t).m.turn = w.m.turn := rfl
@[simp] theorem Work.putThr_m_cur (w : Work) (k : Nat) (t : Thread) : (w.putThr k t).m.cur = w.m.cur := rfl
@[simp] theorem Work.putThr_m_thr (w : Work) (k : Nat) (t : Thread) :
    (w.putThr k t).m.thr = aset w.m.thr k t := rfl
@[simp] theorem Work.putThr_m_parts (w : Work) (k : Nat) (t : Thread) :
    (w.putThr k t).m.parts = w.m.parts := rfl
@[simp] theorem Work.putThr_m_places (w : Work) (k : Nat) (t : Thread) :
    (w.putThr k t).m.places = w.m.places := rfl
@[simp] theorem Work.putThr_m_gens (w : Work) (k : Nat) (t : Thread) : (w.putThr k t).m.gens = w.m.gens := rfl
@[simp] theorem Work.putThr_m_trigs (w : Work) (k : Nat) (t : Thread) :
    (w.putThr k t).m.trigs = w.m.trigs := rfl
@[simp] theorem Work.putThr_m_jobs (w : Work) (k : Nat) (t : Thread) : (w.putThr k t).m.jobs = w.m.jobs := rfl
@[simp] theorem Work.putThr_m_nextJob (w : Work) (k : Nat) (t : Thread) :
    (w.putThr k t).m.nextJob = w.m.nextJob := rfl
@[simp] theorem Work.putThr_m_tlbs (w : Work) (k : Nat) (t : Thread) : (w.putThr k t).m.tlbs = w.m.tlbs := rfl
@[simp] theorem Work.putThr_m_tlbis (w : Work) (k : Nat) (t : Thread) :
    (w.putThr k t).m.tlbis = w.m.tlbis := rfl
@[simp] theorem Work.putThr_m_nextTlbi (w : Work) (k : Nat) (t : Thread) :
    (w.putThr k t).m.nextTlbi = w.m.nextTlbi := rfl
@[simp] theorem Work.putThr_m_launches (w : Work) (k : Nat) (t : Thread) :
    (w.putThr k t).m.launches = w.m.launches := rfl
@[simp] theorem Work.putThr_m_nextLaunch (w : Work) (k : Nat) (t : Thread) :
    (w.putThr k t).m.nextLaunch = w.m.nextLaunch := rfl
@[simp] theorem Work.putThr_m_loads (w : Work) (k : Nat) (t : Thread) :
    (w.putThr k t).m.loads = w.m.loads := rfl
@[simp] theorem Work.putThr_m_nextLoad (w : Work) (k : Nat) (t : Thread) :
    (w.putThr k t).m.nextLoad = w.m.nextLoad := rfl
@[simp] theorem Work.putThr_m_clusters (w : Work) (k : Nat) (t : Thread) :
    (w.putThr k t).m.clusters = w.m.clusters := rfl
@[simp] theorem Work.putThr_m_scans (w : Work) (k : Nat) (t : Thread) :
    (w.putThr k t).m.scans = w.m.scans := rfl
@[simp] theorem Work.putThr_m_hptBase (w : Work) (k : Nat) (t : Thread) :
    (w.putThr k t).m.hptBase = w.m.hptBase := rfl
@[simp] theorem Work.putThr_m_hptStat (w : Work) (k : Nat) (t : Thread) :
    (w.putThr k t).m.hptStat = w.m.hptStat := rfl
@[simp] theorem Work.putThr_m_coreSel (w : Work) (k : Nat) (t : Thread) :
    (w.putThr k t).m.coreSel = w.m.coreSel := rfl
@[simp] theorem Work.putThr_m_coreRun (w : Work) (k : Nat) (t : Thread) :
    (w.putThr k t).m.coreRun = w.m.coreRun := rfl
@[simp] theorem Work.putThr_m_hostBase (w : Work) (k : Nat) (t : Thread) :
    (w.putThr k t).m.hostBase = w.m.hostBase := rfl
@[simp] theorem Work.putThr_m_hostLen (w : Work) (k : Nat) (t : Thread) :
    (w.putThr k t).m.hostLen = w.m.hostLen := rfl
@[simp] theorem Work.putThr_m_hostPart (w : Work) (k : Nat) (t : Thread) :
    (w.putThr k t).m.hostPart = w.m.hostPart := rfl
@[simp] theorem Work.putThr_m_meas (w : Work) (k : Nat) (t : Thread) : (w.putThr k t).m.meas = w.m.meas := rfl
@[simp] theorem Work.putThr_m_preWait (w : Work) (k : Nat) (t : Thread) :
    (w.putThr k t).m.preWait = w.m.preWait := rfl
@[simp] theorem Work.putThr_m_brgFailed (w : Work) (k : Nat) (t : Thread) :
    (w.putThr k t).m.brgFailed = w.m.brgFailed := rfl
@[simp] theorem Work.putThr_m_brgEvents (w : Work) (k : Nat) (t : Thread) :
    (w.putThr k t).m.brgEvents = w.m.brgEvents := rfl
@[simp] theorem Work.putThr_m_brgTb (w : Work) (k : Nat) (t : Thread) :
    (w.putThr k t).m.brgTb = w.m.brgTb := rfl
@[simp] theorem Work.putThr_m_brgWait (w : Work) (k : Nat) (t : Thread) :
    (w.putThr k t).m.brgWait = w.m.brgWait := rfl
@[simp] theorem Work.putThr_m_clmap (w : Work) (k : Nat) (t : Thread) :
    (w.putThr k t).m.clmap = w.m.clmap := rfl
@[simp] theorem Work.putThr_m_injArm (w : Work) (k : Nat) (t : Thread) :
    (w.putThr k t).m.injArm = w.m.injArm := rfl
@[simp] theorem Work.putThr_m_injG (w : Work) (k : Nat) (t : Thread) : (w.putThr k t).m.injG = w.m.injG := rfl
@[simp] theorem Work.putThr_m_hold (w : Work) (k : Nat) (t : Thread) : (w.putThr k t).m.hold = w.m.hold := rfl
@[simp] theorem Work.putThr_m_heat (w : Work) (k : Nat) (t : Thread) : (w.putThr k t).m.heat = w.m.heat := rfl
@[simp] theorem Work.putThr_m_power (w : Work) (k : Nat) (t : Thread) :
    (w.putThr k t).m.power = w.m.power := rfl
@[simp] theorem Work.putThr_m_wear (w : Work) (k : Nat) (t : Thread) : (w.putThr k t).m.wear = w.m.wear := rfl
@[simp] theorem Work.putThr_m_record (w : Work) (k : Nat) (t : Thread) :
    (w.putThr k t).m.record = w.m.record := rfl
@[simp] theorem Work.putThr_m_boot (w : Work) (k : Nat) (t : Thread) : (w.putThr k t).m.boot = w.m.boot := rfl
@[simp] theorem Work.putThr_m_spdm (w : Work) (k : Nat) (t : Thread) : (w.putThr k t).m.spdm = w.m.spdm := rfl
@[simp] theorem Work.putThr_m_farPorts (w : Work) (k : Nat) (t : Thread) :
    (w.putThr k t).m.farPorts = w.m.farPorts := rfl
@[simp] theorem Work.putThr_m_packages (w : Work) (k : Nat) (t : Thread) :
    (w.putThr k t).m.packages = w.m.packages := rfl
@[simp] theorem Work.putThr_m_own (w : Work) (k : Nat) (t : Thread) : (w.putThr k t).m.own = w.m.own := rfl
@[simp] theorem Work.putThr_m_joinTb (w : Work) (k : Nat) (t : Thread) :
    (w.putThr k t).m.joinTb = w.m.joinTb := rfl
@[simp] theorem Work.putThr_m_lastTurn (w : Work) (k : Nat) (t : Thread) :
    (w.putThr k t).m.lastTurn = w.m.lastTurn := rfl
@[simp] theorem Work.putThr_m_exited (w : Work) (k : Nat) (t : Thread) :
    (w.putThr k t).m.exited = w.m.exited := rfl
@[simp] theorem Work.putThr_m_keptStat (w : Work) (k : Nat) (t : Thread) :
    (w.putThr k t).m.keptStat = w.m.keptStat := rfl
@[simp] theorem Work.putThr_m_slew (w : Work) (k : Nat) (t : Thread) :
    (w.putThr k t).m.slew = w.m.slew := rfl
@[simp] theorem Work.putThr_m_crossings (w : Work) (k : Nat) (t : Thread) :
    (w.putThr k t).m.crossings = w.m.crossings := rfl
@[simp] theorem Work.putThr_m_hostOut (w : Work) (k : Nat) (t : Thread) :
    (w.putThr k t).m.hostOut = w.m.hostOut := rfl
@[simp] theorem Work.putThr_m_domainOut (w : Work) (k : Nat) (t : Thread) :
    (w.putThr k t).m.domainOut = w.m.domainOut := rfl
@[simp] theorem Work.modThr_m_tb (w : Work) (k : Nat) (f : Thread → Thread) :
    (w.modThr k f).m.tb = w.m.tb := rfl
@[simp] theorem Work.modThr_m_pace (w : Work) (k : Nat) (f : Thread → Thread) :
    (w.modThr k f).m.pace = w.m.pace := rfl
@[simp] theorem Work.modThr_m_cyc (w : Work) (k : Nat) (f : Thread → Thread) :
    (w.modThr k f).m.cyc = w.m.cyc := rfl
@[simp] theorem Work.modThr_m_cycPace (w : Work) (k : Nat) (f : Thread → Thread) :
    (w.modThr k f).m.cycPace = w.m.cycPace := rfl
@[simp] theorem Work.modThr_m_free (w : Work) (k : Nat) (f : Thread → Thread) :
    (w.modThr k f).m.free = w.m.free := rfl
@[simp] theorem Work.modThr_m_agenda (w : Work) (k : Nat) (f : Thread → Thread) :
    (w.modThr k f).m.agenda = w.m.agenda := rfl
@[simp] theorem Work.modThr_m_turn (w : Work) (k : Nat) (f : Thread → Thread) :
    (w.modThr k f).m.turn = w.m.turn := rfl
@[simp] theorem Work.modThr_m_cur (w : Work) (k : Nat) (f : Thread → Thread) :
    (w.modThr k f).m.cur = w.m.cur := rfl
@[simp] theorem Work.modThr_m_thr (w : Work) (k : Nat) (f : Thread → Thread) :
    (w.modThr k f).m.thr = amod w.m.thr k f := rfl
@[simp] theorem Work.modThr_m_parts (w : Work) (k : Nat) (f : Thread → Thread) :
    (w.modThr k f).m.parts = w.m.parts := rfl
@[simp] theorem Work.modThr_m_places (w : Work) (k : Nat) (f : Thread → Thread) :
    (w.modThr k f).m.places = w.m.places := rfl
@[simp] theorem Work.modThr_m_gens (w : Work) (k : Nat) (f : Thread → Thread) :
    (w.modThr k f).m.gens = w.m.gens := rfl
@[simp] theorem Work.modThr_m_trigs (w : Work) (k : Nat) (f : Thread → Thread) :
    (w.modThr k f).m.trigs = w.m.trigs := rfl
@[simp] theorem Work.modThr_m_jobs (w : Work) (k : Nat) (f : Thread → Thread) :
    (w.modThr k f).m.jobs = w.m.jobs := rfl
@[simp] theorem Work.modThr_m_nextJob (w : Work) (k : Nat) (f : Thread → Thread) :
    (w.modThr k f).m.nextJob = w.m.nextJob := rfl
@[simp] theorem Work.modThr_m_tlbs (w : Work) (k : Nat) (f : Thread → Thread) :
    (w.modThr k f).m.tlbs = w.m.tlbs := rfl
@[simp] theorem Work.modThr_m_tlbis (w : Work) (k : Nat) (f : Thread → Thread) :
    (w.modThr k f).m.tlbis = w.m.tlbis := rfl
@[simp] theorem Work.modThr_m_nextTlbi (w : Work) (k : Nat) (f : Thread → Thread) :
    (w.modThr k f).m.nextTlbi = w.m.nextTlbi := rfl
@[simp] theorem Work.modThr_m_launches (w : Work) (k : Nat) (f : Thread → Thread) :
    (w.modThr k f).m.launches = w.m.launches := rfl
@[simp] theorem Work.modThr_m_nextLaunch (w : Work) (k : Nat) (f : Thread → Thread) :
    (w.modThr k f).m.nextLaunch = w.m.nextLaunch := rfl
@[simp] theorem Work.modThr_m_loads (w : Work) (k : Nat) (f : Thread → Thread) :
    (w.modThr k f).m.loads = w.m.loads := rfl
@[simp] theorem Work.modThr_m_nextLoad (w : Work) (k : Nat) (f : Thread → Thread) :
    (w.modThr k f).m.nextLoad = w.m.nextLoad := rfl
@[simp] theorem Work.modThr_m_clusters (w : Work) (k : Nat) (f : Thread → Thread) :
    (w.modThr k f).m.clusters = w.m.clusters := rfl
@[simp] theorem Work.modThr_m_scans (w : Work) (k : Nat) (f : Thread → Thread) :
    (w.modThr k f).m.scans = w.m.scans := rfl
@[simp] theorem Work.modThr_m_hptBase (w : Work) (k : Nat) (f : Thread → Thread) :
    (w.modThr k f).m.hptBase = w.m.hptBase := rfl
@[simp] theorem Work.modThr_m_hptStat (w : Work) (k : Nat) (f : Thread → Thread) :
    (w.modThr k f).m.hptStat = w.m.hptStat := rfl
@[simp] theorem Work.modThr_m_coreSel (w : Work) (k : Nat) (f : Thread → Thread) :
    (w.modThr k f).m.coreSel = w.m.coreSel := rfl
@[simp] theorem Work.modThr_m_coreRun (w : Work) (k : Nat) (f : Thread → Thread) :
    (w.modThr k f).m.coreRun = w.m.coreRun := rfl
@[simp] theorem Work.modThr_m_hostBase (w : Work) (k : Nat) (f : Thread → Thread) :
    (w.modThr k f).m.hostBase = w.m.hostBase := rfl
@[simp] theorem Work.modThr_m_hostLen (w : Work) (k : Nat) (f : Thread → Thread) :
    (w.modThr k f).m.hostLen = w.m.hostLen := rfl
@[simp] theorem Work.modThr_m_hostPart (w : Work) (k : Nat) (f : Thread → Thread) :
    (w.modThr k f).m.hostPart = w.m.hostPart := rfl
@[simp] theorem Work.modThr_m_meas (w : Work) (k : Nat) (f : Thread → Thread) :
    (w.modThr k f).m.meas = w.m.meas := rfl
@[simp] theorem Work.modThr_m_preWait (w : Work) (k : Nat) (f : Thread → Thread) :
    (w.modThr k f).m.preWait = w.m.preWait := rfl
@[simp] theorem Work.modThr_m_brgFailed (w : Work) (k : Nat) (f : Thread → Thread) :
    (w.modThr k f).m.brgFailed = w.m.brgFailed := rfl
@[simp] theorem Work.modThr_m_brgEvents (w : Work) (k : Nat) (f : Thread → Thread) :
    (w.modThr k f).m.brgEvents = w.m.brgEvents := rfl
@[simp] theorem Work.modThr_m_brgTb (w : Work) (k : Nat) (f : Thread → Thread) :
    (w.modThr k f).m.brgTb = w.m.brgTb := rfl
@[simp] theorem Work.modThr_m_brgWait (w : Work) (k : Nat) (f : Thread → Thread) :
    (w.modThr k f).m.brgWait = w.m.brgWait := rfl
@[simp] theorem Work.modThr_m_clmap (w : Work) (k : Nat) (f : Thread → Thread) :
    (w.modThr k f).m.clmap = w.m.clmap := rfl
@[simp] theorem Work.modThr_m_injArm (w : Work) (k : Nat) (f : Thread → Thread) :
    (w.modThr k f).m.injArm = w.m.injArm := rfl
@[simp] theorem Work.modThr_m_injG (w : Work) (k : Nat) (f : Thread → Thread) :
    (w.modThr k f).m.injG = w.m.injG := rfl
@[simp] theorem Work.modThr_m_hold (w : Work) (k : Nat) (f : Thread → Thread) :
    (w.modThr k f).m.hold = w.m.hold := rfl
@[simp] theorem Work.modThr_m_heat (w : Work) (k : Nat) (f : Thread → Thread) :
    (w.modThr k f).m.heat = w.m.heat := rfl
@[simp] theorem Work.modThr_m_power (w : Work) (k : Nat) (f : Thread → Thread) :
    (w.modThr k f).m.power = w.m.power := rfl
@[simp] theorem Work.modThr_m_wear (w : Work) (k : Nat) (f : Thread → Thread) :
    (w.modThr k f).m.wear = w.m.wear := rfl
@[simp] theorem Work.modThr_m_record (w : Work) (k : Nat) (f : Thread → Thread) :
    (w.modThr k f).m.record = w.m.record := rfl
@[simp] theorem Work.modThr_m_boot (w : Work) (k : Nat) (f : Thread → Thread) :
    (w.modThr k f).m.boot = w.m.boot := rfl
@[simp] theorem Work.modThr_m_spdm (w : Work) (k : Nat) (f : Thread → Thread) :
    (w.modThr k f).m.spdm = w.m.spdm := rfl
@[simp] theorem Work.modThr_m_farPorts (w : Work) (k : Nat) (f : Thread → Thread) :
    (w.modThr k f).m.farPorts = w.m.farPorts := rfl
@[simp] theorem Work.modThr_m_packages (w : Work) (k : Nat) (f : Thread → Thread) :
    (w.modThr k f).m.packages = w.m.packages := rfl
@[simp] theorem Work.modThr_m_own (w : Work) (k : Nat) (f : Thread → Thread) :
    (w.modThr k f).m.own = w.m.own := rfl
@[simp] theorem Work.modThr_m_joinTb (w : Work) (k : Nat) (f : Thread → Thread) :
    (w.modThr k f).m.joinTb = w.m.joinTb := rfl
@[simp] theorem Work.modThr_m_lastTurn (w : Work) (k : Nat) (f : Thread → Thread) :
    (w.modThr k f).m.lastTurn = w.m.lastTurn := rfl
@[simp] theorem Work.modThr_m_exited (w : Work) (k : Nat) (f : Thread → Thread) :
    (w.modThr k f).m.exited = w.m.exited := rfl
@[simp] theorem Work.modThr_m_keptStat (w : Work) (k : Nat) (f : Thread → Thread) :
    (w.modThr k f).m.keptStat = w.m.keptStat := rfl
@[simp] theorem Work.modThr_m_slew (w : Work) (k : Nat) (f : Thread → Thread) :
    (w.modThr k f).m.slew = w.m.slew := rfl
@[simp] theorem Work.modThr_m_crossings (w : Work) (k : Nat) (f : Thread → Thread) :
    (w.modThr k f).m.crossings = w.m.crossings := rfl
@[simp] theorem Work.modThr_m_hostOut (w : Work) (k : Nat) (f : Thread → Thread) :
    (w.modThr k f).m.hostOut = w.m.hostOut := rfl
@[simp] theorem Work.modThr_m_domainOut (w : Work) (k : Nat) (f : Thread → Thread) :
    (w.modThr k f).m.domainOut = w.m.domainOut := rfl

@[simp] theorem Work.write_m (w : Work) (a n v : Nat) : (w.write a n v).m = w.m := by
  induction n generalizing w a v with
  | zero => rfl
  | succ n ih => simp [Work.write, ih]
@[simp] theorem Work.write_base (w : Work) (a n v : Nat) : (w.write a n v).base = w.base := by
  induction n generalizing w a v with
  | zero => rfl
  | succ n ih => simp [Work.write, ih]
@[simp] theorem Work.write_wiped (w : Work) (a n v : Nat) : (w.write a n v).wiped = w.wiped := by
  induction n generalizing w a v with
  | zero => rfl
  | succ n ih => simp [Work.write, ih]

/-- A workspace that has written nothing leaves memory as it was. -/
theorem State.commit_still {s : State} {w : Work} (hl : w.log = []) (hw : w.wiped = false) : (s.commit w).mem = s.mem := by
  simp [State.commit, hl, hw, Memory.applyLog, Memory.merge]

end Sys2Proof.Machine
end

