-- ==== Sys2Proof/Laws/Shapes.lean ====
section
/-!
SUPPORT. What each shape of a meaning can do: a register word, a control word, an illegal word, an
event. Later proofs cite these and unfold no shape.
-/

namespace Sys2Proof.Machine

/-- Everything a register word can answer (R37, R105). -/
theorem State.regWord_cases {s s' : State} {rs ws : List Reg} {f : Thread → Thread}
    (h : s.regWord rs ws f = .next s') :
    ∃ t, s.me = some t ∧
      ((t.issue rs ws = .hold ∧ s' = s) ∨
        (∃ va, t.issue rs ws = .poison va ∧ s' = s.putThr s.m.cur (t.trap 0x11 t.pc va s.m.tb)) ∨
        (t.issue rs ws = .go ∧ s' = s.putThr s.m.cur (f t))) := by
  unfold State.regWord at h
  split at h
  · cases h
  · rename_i t ht
    refine ⟨t, ht, ?_⟩
    split at h <;> cases h
    · exact .inl ⟨‹_›, rfl⟩
    · exact .inr (.inl ⟨_, ‹_›, rfl⟩)
    · exact .inr (.inr ⟨‹_›, rfl⟩)

/-- A register word that issues changes its thread alone. -/
theorem State.regWord_go {s : State} {t : Thread} {rs ws : List Reg} (f : Thread → Thread)
    (hm : s.me = some t) (hi : t.issue rs ws = .go) :
    s.regWord rs ws f = .next (s.putThr s.m.cur (f t)) := by
  simp [State.regWord, hm, hi]

/-- An illegal word traps with cause 0x01 (R81). -/
theorem State.illegal_me {s : State} {t : Thread} (w : IWord) (hm : s.me = some t) :
    s.illegal w = .next (s.putThr s.m.cur (t.trap 0x01 t.pc (w.setWidth 64) s.m.tb)) := by
  simp [State.illegal, hm]

/-- A well-formed word passes its check. -/
theorem State.checked_wf {s : State} {i : Instr} (k : Host.Outcome State Fault Refusal) (h : i.wf = true) :
    s.checked i k = k := by
  simp [State.checked, h]

/-- A control word that issues and whose body completes leaves the body's workspace. -/
theorem State.ctl_ok {s : State} {t : Thread} {i : Instr} {rs ws : List Reg} {set wait : BitVec 3}
    {body : Thread → Ctl Unit} {w : Work} (h : s.Issues t i rs ws set wait)
    (hb : body t s.work = .ok ((), w)) : s.ctl i rs ws set wait body = .next (s.commit w) := by
  simp [State.ctl, h.agent, h.wellFormed, h.allowed, h.setFree, h.waitFree, h.slotSound, h.goes, hb]

/-- What is kept of an attempt through which no port has brought anything is nothing. -/
theorem State.kept_self {s : State} {w : Work} (h : w.m.record = s.m.record) : s.kept w = s := by
  simp [State.kept, h]

@[simp] theorem State.kept_work (s : State) : s.kept s.work = s := State.kept_self rfl

/-- What is kept of an attempt leaves the machine as it was but for the log's position and the caches. -/
theorem State.kept_m (s : State) (w : Work) :
    (s.kept w).m = { s.m with record := (s.kept w).m.record, tlbs := (s.kept w).m.tlbs } := by
  unfold State.kept
  split
  · rfl
  · unfold Work.keeping
    split
    · contradiction
    · rfl

@[simp] theorem State.kept_cur (s : State) (w : Work) : (s.kept w).m.cur = s.m.cur := by rw [State.kept_m]
@[simp] theorem State.kept_tb (s : State) (w : Work) : (s.kept w).m.tb = s.m.tb := by rw [State.kept_m]
@[simp] theorem State.kept_thr (s : State) (w : Work) : (s.kept w).m.thr = s.m.thr := by rw [State.kept_m]

/-- A control word that issues and whose body stops: it is held or traps, and what passed a port stays (R81, R394). -/
theorem State.ctl_stop {s : State} {t : Thread} {i : Instr} {rs ws : List Reg} {set wait : BitVec 3}
    {body : Thread → Ctl Unit} {e : Stop} {w : Work} (h : s.Issues t i rs ws set wait)
    (hb : body t s.work = .error (e, w)) :
    s.ctl i rs ws set wait body = .next ((s.kept w).stopped s.m.cur t e) := by
  simp [State.ctl, h.agent, h.wellFormed, h.allowed, h.setFree, h.waitFree, h.slotSound, h.goes, hb]

/-- A control word that issues and whose body traps has no effect but the trap and what passed a port (R81). -/
theorem State.ctl_trap {s : State} {t : Thread} {i : Instr} {rs ws : List Reg} {set wait : BitVec 3}
    {body : Thread → Ctl Unit} {c : Nat} {v : Word} {w : Work} (h : s.Issues t i rs ws set wait)
    (hb : body t s.work = .error (.trap c v, w)) :
    s.ctl i rs ws set wait body = .next ((s.kept w).traps t c v) := by
  simp [State.ctl_stop h hb, State.stopped, State.traps, State.withMe]

/-- A control word that its agent may not execute traps, whatever its operands hold (R82). -/
theorem State.ctl_refused {s : State} {t : Thread} {i : Instr} {rs ws : List Reg} {set wait : BitVec 3}
    {body : Thread → Ctl Unit} {cause : Nat} (hm : s.me = some t) (hw : i.wf = true) (hr : t.refuses i = some cause) :
    s.ctl i rs ws set wait body =
      .next (s.putThr s.m.cur (t.trap cause t.pc ((wordOfInstr i).setWidth 64) s.m.tb)) := by
  simp [State.ctl, hm, hw, hr]

/-- Everything a control word can answer: held before its body, a trap before it, the body stopped, the body done. -/
theorem State.ctl_cases {s s' : State} {i : Instr} {rs ws : List Reg} {set wait : BitVec 3}
    {body : Thread → Ctl Unit} (h : s.ctl i rs ws set wait body = .next s') :
    s' = s ∨ (∃ u, s' = s.putThr s.m.cur u) ∨
      ∃ t, s.Issues t i rs ws set wait ∧
        ((∃ e w, body t s.work = .error (e, w) ∧ s' = (s.kept w).stopped s.m.cur t e) ∨
          ∃ w, body t s.work = .ok ((), w) ∧ s' = s.commit w) := by
  unfold State.ctl at h
  split at h
  · cases h
  · rename_i t ht
    split at h
    · unfold State.illegal at h
      rw [ht] at h
      cases h
      exact .inr (.inl ⟨_, rfl⟩)
    · rename_i hwf
      split at h
      · cases h; exact .inr (.inl ⟨_, rfl⟩)
      · rename_i hmay
        split at h
        · cases h; exact .inl rfl
        · rename_i hbusy
          simp only [Bool.or_eq_true, not_or, Bool.not_eq_true] at hbusy
          split at h
          · cases h; exact .inr (.inl ⟨_, rfl⟩)
          · rename_i hslot
            split at h
            · cases h; exact .inl rfl
            · cases h; exact .inr (.inl ⟨_, rfl⟩)
            · rename_i hgo
              split at h
              · rename_i w hb
                cases h
                exact .inr (.inr ⟨t, ⟨ht, by simpa using hwf, hmay, hbusy.1, hbusy.2, hslot, hgo⟩, .inr ⟨w, hb, rfl⟩⟩)
              · rename_i e w hb
                cases h
                exact .inr (.inr ⟨t, ⟨ht, by simpa using hwf, hmay, hbusy.1, hbusy.2, hslot, hgo⟩, .inl ⟨e, w, hb, rfl⟩⟩)

/-- An event answers the state that its workspace leaves. -/
theorem State.event_eq (s : State) (f : Work → Work) : s.event f = .next (s.commit (f s.work)) := rfl

/-! ## The bodies of control words -/

theorem Ctl.bind_ok {α β : Type} {x : Ctl α} {f : α → Ctl β} {w v : Work} {a : α} (h : x w = .ok (a, v)) :
    (x >>= f) w = f a v := by
  show (StateT.bind x f) w = _
  unfold StateT.bind
  simp only [h, bind, Except.bind]

theorem Ctl.bind_error {α β : Type} {x : Ctl α} {f : α → Ctl β} {w : Work} {e : Stop × Work} (h : x w = .error e) :
    (x >>= f) w = .error e := by
  show (StateT.bind x f) w = _
  unfold StateT.bind
  simp only [h, bind, Except.bind]

@[simp] theorem Ctl.trap_eq {α : Type} (c : Nat) (v : Word) (w : Work) :
    (Ctl.trap c v : Ctl α) w = .error (.trap c v, w) := rfl
@[simp] theorem Ctl.hold_eq {α : Type} (w : Work) : (Ctl.hold : Ctl α) w = .error (.hold, w) := rfl
@[simp] theorem Ctl.upd_eq (f : Work → Work) (w : Work) : Ctl.upd f w = .ok ((), f w) := rfl
@[simp] theorem Ctl.me_eq (f : Thread → Thread) (w : Work) : Ctl.me f w = .ok ((), w.modThr w.m.cur f) := rfl
@[simp] theorem Ctl.pure_eq {α : Type} (a : α) (w : Work) : (pure a : Ctl α) w = .ok (a, w) := rfl
@[simp] theorem Ctl.get_eq (w : Work) : (get : Ctl Work) w = .ok (w, w) := rfl
@[simp] theorem Ctl.set_eq (w v : Work) : (set v : Ctl PUnit) w = .ok (⟨⟩, v) := rfl

end Sys2Proof.Machine
end

