-- ==== Sys2Proof/Laws/Operands.lean ====
section
/-!
SUPPORT. Translating, reading operands and checking cards change nothing but the translation caches and what
ports bring in record mode and replay.
-/

namespace Sys2Proof.Machine

/-- A workspace that differs from another in its translation caches and in what passed a port: the record's
registers and the bytes that ports take. -/
structure Work.Quiet (w v : Work) : Prop where
  base : v.base = w.base
  wiped : v.wiped = w.wiped
  mach : ∃ c r, v.m = { w.m with tlbs := c, record := r } ∧ r.mode = w.m.record.mode ∧
    r.base = w.m.record.base ∧ r.len = w.m.record.len
  byte : ∀ a, ¬ w.m.portTakes a → v.byte a = w.byte a ∧ (a ∈ v.bad ↔ a ∈ w.bad)
  off : w.m.record.mode ≠ 1 → w.m.record.mode ≠ 2 → v.log = w.log ∧ v.bad = w.bad ∧ v.m.record = w.m.record

theorem Work.Quiet.refl (w : Work) : w.Quiet w :=
  ⟨rfl, rfl, ⟨w.m.tlbs, w.m.record, rfl, rfl, rfl, rfl⟩, fun _ _ => ⟨rfl, Iff.rfl⟩, fun _ _ => ⟨rfl, rfl, rfl⟩⟩

/-- The record's mode and buffer stand. -/
theorem Work.Quiet.record {w v : Work} (h : w.Quiet v) : v.m.record.mode = w.m.record.mode ∧
    v.m.record.base = w.m.record.base ∧ v.m.record.len = w.m.record.len := by
  obtain ⟨c, r, hm, h1, h2, h3⟩ := h.mach
  rw [hm]
  exact ⟨h1, h2, h3⟩

/-- Ports take the same bytes. -/
theorem Work.Quiet.takes {w v : Work} (h : w.Quiet v) (a : Nat) : v.m.portTakes a ↔ w.m.portTakes a := by
  obtain ⟨h1, h2, h3⟩ := h.record
  unfold Mach.portTakes
  rw [h1, h2, h3]

theorem Work.Quiet.trans {w v u : Work} (h : w.Quiet v) (k : v.Quiet u) : w.Quiet u := by
  refine ⟨k.base.trans h.base, k.wiped.trans h.wiped, ?_, fun a ha => ?_, fun h1 h2 => ?_⟩
  · obtain ⟨c, r, hm, _⟩ := h.mach
    obtain ⟨e, q, km, k1, k2, k3⟩ := k.mach
    obtain ⟨r1, r2, r3⟩ := h.record
    exact ⟨e, q, by rw [km, hm], k1.trans r1, k2.trans r2, k3.trans r3⟩
  · have hb := h.byte a ha
    have kb := k.byte a (fun e => ha ((h.takes a).1 e))
    exact ⟨kb.1.trans hb.1, kb.2.trans hb.2⟩
  · have ho := h.off h1 h2
    have ko := k.off (by rw [h.record.1]; exact h1) (by rw [h.record.1]; exact h2)
    exact ⟨ko.1.trans ho.1, ko.2.1.trans ho.2.1, ko.2.2.trans ho.2.2⟩

/-- A state's bytes are kept where its workspace is quiet (R394, R395). -/
theorem Work.Quiet.keeps {s : State} {w : Work} (h : s.work.Quiet w) (lo n : Nat) : s.Keeps (s.commit w) lo n := by
  intro hwf a _ ha
  have hb := h.byte a ha
  rw [State.read_commit hwf h.base, hb.1]
  exact ⟨rfl, hb.2⟩

/-- A filled cache is all that a fill changes. -/
theorem Mach.fill_eq (m : Mach) (c : Nat) (e : TlbEntry) : ∃ x, m.fill c e = { m with tlbs := x } := by
  unfold Mach.fill; split
  · exact ⟨m.tlbs, rfl⟩
  · exact ⟨_, rfl⟩

/-- A filled cache leaves a workspace quiet. -/
theorem Work.fill_quiet (w : Work) (c : Nat) (e : TlbEntry) : w.Quiet (w.mach (fun m => m.fill c e)) := by
  obtain ⟨x, hx⟩ := Mach.fill_eq w.m c e
  have hm : (w.mach (fun m => m.fill c e)).m = { w.m with tlbs := x } := hx
  refine ⟨rfl, rfl, ⟨x, w.m.record, hm, rfl, rfl, rfl⟩, fun _ _ => ⟨rfl, Iff.rfl⟩, fun _ _ => ⟨rfl, rfl, ?_⟩⟩
  rw [hm]

/-! ## What passes a port -/

theorem ofBytes_lt (l : List Byte) : ofBytes l < 256 ^ l.length := by
  induction l with
  | nil => exact Nat.one_pos
  | cons v r ih =>
    have := v.isLt
    rw [List.length_cons, Nat.pow_succ']
    simp only [ofBytes]
    omega

/-- A field of a block fits its bytes. -/
theorem fieldAt_lt (d : List Byte) (o n : Nat) : fieldAt d o n < 256 ^ n :=
  Nat.lt_of_lt_of_le (ofBytes_lt _) (Nat.pow_le_pow_right (by decide) (List.length_take_le n _))

theorem Memory.run_length : ∀ (n a : Nat) (m : Memory), (Memory.run n a m).length = n
  | 0, _, _ => rfl
  | n + 1, a, m => by simp [Memory.run, Memory.run_length n]

theorem Work.bytes_length (w : Work) (a n : Nat) : (w.bytes a n).length = n := by
  unfold Work.bytes
  split
  · exact Memory.run_length n a w.base
  · simp

/-- The payload of an entry is shorter than 2^16 bytes (R394). -/
theorem Work.logEntry_short {w : Work} {e : LogEntry} (h : w.logEntry = some e) : e.payload.length < 2 ^ 16 := by
  unfold Work.logEntry at h
  dsimp only at h
  split at h
  · cases h
  · cases h
    rw [Work.bytes_length]
    exact fieldAt_lt _ 10 2

@[simp] theorem Work.putBytes_m (w : Work) (d : List Byte) : ∀ a, (w.putBytes a d).m = w.m := by
  induction d generalizing w with
  | nil => intro a; rfl
  | cons v r ih => intro a; exact ih (w.putByte a v) (a + 1)

@[simp] theorem Work.putBytes_base (w : Work) (d : List Byte) : ∀ a, (w.putBytes a d).base = w.base := by
  induction d generalizing w with
  | nil => intro a; rfl
  | cons v r ih => intro a; exact ih (w.putByte a v) (a + 1)

@[simp] theorem Work.putBytes_wiped (w : Work) (d : List Byte) : ∀ a, (w.putBytes a d).wiped = w.wiped := by
  induction d generalizing w with
  | nil => intro a; rfl
  | cons v r ih => intro a; exact ih (w.putByte a v) (a + 1)

/-- Bytes written leave the soundness of the others. -/
theorem Work.bad_putBytes (w : Work) (d : List Byte) : ∀ (a x : Nat), (x < a ∨ a + d.length ≤ x) →
    (x ∈ (w.putBytes a d).bad ↔ x ∈ w.bad) := by
  induction d generalizing w with
  | nil => intros; exact Iff.rfl
  | cons v r ih =>
    intro a x hx
    rw [List.length_cons] at hx
    rw [Work.putBytes, ih _ _ x (by omega)]
    have : x ≠ a := by omega
    simp [Work.putByte, this]

/-- The record's registers changed, its mode and buffer kept. -/
theorem Work.record_quiet (w : Work) (f : Rec → Rec) (h1 : (f w.m.record).mode = w.m.record.mode)
    (h2 : (f w.m.record).base = w.m.record.base) (h3 : (f w.m.record).len = w.m.record.len)
    (h4 : w.m.record.mode = 1 ∨ w.m.record.mode = 2) :
    w.Quiet (w.mach (fun m => { m with record := f m.record })) :=
  ⟨rfl, rfl, ⟨w.m.tlbs, f w.m.record, rfl, h1, h2, h3⟩, fun _ _ => ⟨rfl, Iff.rfl⟩,
    fun n1 n2 => absurd h4 (fun o => o.elim n1 n2)⟩

/-- Bytes written where ports take them. -/
theorem Work.putBytes_quiet (w : Work) (a : Nat) (d : List Byte) (h : w.m.record.mode = 1 ∨ w.m.record.mode = 2)
    (ht : ∀ x, a ≤ x → x < a + d.length → w.m.portTakes x) : w.Quiet (w.putBytes a d) := by
  refine ⟨by simp, by simp, ⟨w.m.tlbs, w.m.record, by simp, rfl, rfl, rfl⟩, fun x hx => ?_,
    fun n1 n2 => absurd h (fun o => o.elim n1 n2)⟩
  have : x < a ∨ a + d.length ≤ x := by
    by_cases hl : a ≤ x ∧ x < a + d.length
    · exact absurd (ht x hl.1 hl.2) hx
    · omega
  exact ⟨Work.byte_putBytes w d a x this, Work.bad_putBytes w d a x this⟩

/-- An arrival appended to the log (R394). -/
theorem Work.append_quiet (w : Work) (src port : Nat) (payload : List Byte) : w.Quiet (w.record src port payload) := by
  unfold Work.record
  dsimp only
  split
  · exact Work.Quiet.refl w
  · rename_i hm
    have h1 : w.m.record.mode = 1 := by
      simp only [Bool.or_eq_true, not_or, decide_eq_true_eq, ne_eq, not_not] at hm
      exact hm.1.1
    split
    · exact Work.record_quiet w (fun r => { r with ovf := true }) rfl rfl rfl (.inl h1)
    · refine (Work.putBytes_quiet w _ _ (.inl h1) (fun x ha hb => .inl ⟨h1, ?_, ?_⟩)).trans
        (Work.record_quiet _ (fun r => { r with written := r.written + _ }) rfl rfl rfl (by simp [h1]))
      · omega
      · omega

/-- A port has its memory above near memory and below the scratchpads. -/
theorem portOf_range {key : Nat} {p : Nat × Nat} (h : portOf key = some p) :
    0x100000000000 ≤ key ∧ key < 0xC000000000000 := by
  unfold portOf at h
  split at h
  · rename_i g; simp only [Bool.and_eq_true, decide_eq_true_eq] at g; omega
  · split at h
    · rename_i g; simp only [Bool.and_eq_true, decide_eq_true_eq] at g; omega
    · split at h
      · rename_i g; simp only [isDomain, Bool.and_eq_true, decide_eq_true_eq] at g; omega
      · cases h

/-- What passes a port changes nothing else (R394, R395). -/
theorem Work.fromPort_quiet (w : Work) (key n : Nat) (reads : Bool) : w.Quiet (w.fromPort key n reads).2 := by
  unfold Work.fromPort
  split
  · exact Work.Quiet.refl w
  · rename_i src port hp
    have hr := portOf_range hp
    dsimp only
    generalize (if reads = true then n else 0) = len
    split
    · exact Work.append_quiet w src port _
    · rename_i hm
      split
      · exact Work.Quiet.refl w
      · split
        · exact Work.Quiet.refl w
        · rename_i e he
          split
          · exact Work.Quiet.refl w
          · split
            · have hq : w.Quiet (w.passEntry e) :=
                Work.record_quiet w (fun r => { r with written := r.written + e.size }) rfl rfl rfl (.inr hm)
              have hmode : (w.passEntry e).m.record.mode = 2 := by rw [hq.record.1, hm]
              refine hq.trans (Work.putBytes_quiet _ key _ (.inr hmode) (fun x ha hb => .inr ⟨hmode, ?_, ?_⟩))
              · omega
              · have := Work.logEntry_short he
                rw [List.length_drop] at hb
                omega
            · exact Work.record_quiet w (fun r => { r with div := true }) rfl rfl rfl (.inr hm)
    · exact Work.Quiet.refl w

theorem Work.fromPort_mode {w v : Work} {key n : Nat} {reads : Bool} (h : w.fromPort key n reads = (false, v)) :
    w.m.record.mode = 2 := by
  unfold Work.fromPort at h
  split at h
  · cases h
  · dsimp only at h
    split at h
    · cases h
    · assumption
    · cases h

theorem Work.portNow_quiet (w : Work) (key n : Nat) (reads : Bool) : w.Quiet (w.portNow key n reads) := by
  unfold Work.portNow
  have h := Work.fromPort_quiet w key n reads
  split
  · rename_i v hv; rw [hv] at h; exact h
  · rename_i v hv
    have hm := Work.fromPort_mode hv
    rw [hv] at h
    exact h.trans (Work.record_quiet v (fun r => { r with div := true }) rfl rfl rfl (.inr (by rw [h.record.1, hm])))

theorem Work.portsNow_quiet (reads : Bool) : ∀ (rs : List (Nat × Nat × Kind)) (w : Work),
    w.Quiet (Work.portsNow reads rs w)
  | [], w => Work.Quiet.refl w
  | r :: rs, w => (Work.portNow_quiet w r.1 r.2.1 reads).trans (Work.portsNow_quiet reads rs _)

/-- Where no port stands, an access made at once passes none. -/
theorem Work.portNow_free {w : Work} {key : Nat} (n : Nat) (reads : Bool)
    (h : w.m.record.mode = 0 ∨ portOf key = none) : w.portNow key n reads = w := by
  unfold Work.portNow Work.fromPort
  rcases h with h | h
  · cases hp : portOf key <;> simp [h]
  · simp [h]

/-! ## Translation -/

theorem Work.entryAt_quiet (w : Work) (die : Option Nat) (vmid pa : Nat) : w.Quiet (w.entryAt die vmid pa).2 := by
  unfold Work.entryAt
  dsimp only
  split
  · exact Work.Quiet.refl w
  · split
    · exact Work.Quiet.refl w
    · exact Work.Quiet.refl w
    · exact Work.portNow_quiet w _ 8 true

theorem walkFrom_quiet (die : Option Nat) (tr : Trans) (va : Nat) : ∀ (level table : Nat) (w : Work),
    w.Quiet (walkFrom die tr va level table w).2 := by
  intro level
  induction level with
  | zero =>
    intro table w
    unfold walkFrom
    split
    · exact Work.Quiet.refl w
    · have h := Work.entryAt_quiet w die tr.vmid (table + 8 * bits va (12 + 9 * 0) 9)
      split
      · rename_i v hv; rw [hv] at h; exact h
      · rename_i v hv; rw [hv] at h
        repeat' first | exact h | split | dsimp only
  | succ l ih =>
    intro table w
    unfold walkFrom
    split
    · exact Work.Quiet.refl w
    · have h := Work.entryAt_quiet w die tr.vmid (table + 8 * bits va (12 + 9 * (l + 1)) 9)
      split
      · rename_i v hv; rw [hv] at h; exact h
      · rename_i e v hv; rw [hv] at h
        have hn := h.trans (ih (bits e 12 40 * 4096) v)
        repeat' first | exact h | exact hn | split | dsimp only

/-- A walk reads tables and changes nothing else (R343). -/
theorem walk_quiet (w : Work) (die : Option Nat) (tr : Trans) (va : Nat) : w.Quiet (walk w die tr va).2 :=
  walkFrom_quiet die tr va 3 tr.ttb w

theorem Work.leaf_quiet (w : Work) (c : Nat) (tr : Trans) (va : Nat) : w.Quiet (w.leaf c tr va).2 := by
  unfold Work.leaf
  split
  · exact Work.Quiet.refl w
  · split
    · exact Work.fill_quiet w c _
    · have h := walk_quiet w (cacheDie c) tr va
      split
      · rename_i e v hv
        rw [hv] at h
        exact h.trans ((Work.fill_quiet v (behind c) e).trans (Work.fill_quiet (v.mach (fun m => m.fill (behind c) e)) c e))
      · rename_i v hv; rw [hv] at h; exact h

/-- A translation fills caches at most (R345, R347). -/
theorem Work.translate_quiet (w : Work) (c : Nat) (tr : Trans) (va : Nat) (n : Need) :
    w.Quiet (w.translate c tr va n).2 := by
  unfold Work.translate
  split
  · exact Work.Quiet.refl w
  · have h := Work.leaf_quiet w c tr va
    split
    · rename_i v hv; rw [hv] at h; exact h
    · rename_i e v hv
      rw [hv] at h
      split <;> exact h

theorem Work.span_quiet (c : Nat) (tr : Trans) (need : Need) :
    ∀ (fuel : Nat) (w : Work) (va n : Nat), w.Quiet (Work.span c tr need fuel w va n).2
  | 0, w, _, _ => Work.Quiet.refl w
  | fuel + 1, w, va, n => by
    unfold Work.span
    split
    · exact Work.Quiet.refl w
    · dsimp only
      have h := Work.translate_quiet w c tr (va % 2 ^ 64) need
      split
      · rename_i v hv; rw [hv] at h; exact h
      · rename_i k kind v hv
        rw [hv] at h
        have h2 := Work.span_quiet c tr need fuel v (va + Nat.min n (4096 - va % 4096)) (n - Nat.min n (4096 - va % 4096))
        split
        · rename_i u hu; rw [hu] at h2; exact h.trans h2
        · rename_i u hu; rw [hu] at h2; exact h.trans h2

/-- A span of bytes translated fills caches at most (R104). -/
theorem Work.spanOf_quiet (w : Work) (c : Nat) (tr : Trans) (va n : Nat) (need : Need) :
    w.Quiet (w.spanOf c tr va n need).2 := Work.span_quiet c tr need _ w va n

theorem Work.load_quiet (w : Work) (c : Nat) (tr : Trans) (va n : Nat) : w.Quiet (w.load c tr va n).2 := by
  unfold Work.load
  have h := Work.spanOf_quiet w c tr va n .read
  split
  · rename_i rs v hv; rw [hv] at h; exact h.trans (Work.portsNow_quiet true rs v)
  · rename_i v hv; rw [hv] at h; exact h

/-! ## Bodies that only read -/

/-- A body that leaves its workspace quiet. -/
def Ctl.Quiet {α : Type} (x : Ctl α) : Prop := ∀ w a v, x w = .ok (a, v) → w.Quiet v

theorem Ctl.Quiet.bind {α β : Type} {x : Ctl α} {f : α → Ctl β} (hx : x.Quiet) (hf : ∀ a, (f a).Quiet) :
    Ctl.Quiet (x >>= f) := by
  intro w b u h
  cases hw : x w with
  | error e => rw [Ctl.bind_error hw] at h; cases h
  | ok p =>
    obtain ⟨a, v⟩ := p
    rw [Ctl.bind_ok hw] at h
    exact (hx w a v hw).trans (hf a v b u h)

theorem Ctl.Quiet.pure {α : Type} (a : α) : Ctl.Quiet (Pure.pure a : Ctl α) := by
  intro w b v h; cases h; exact Work.Quiet.refl w

theorem Ctl.Quiet.get : Ctl.Quiet (MonadState.get : Ctl Work) := by
  intro w b v h; cases h; exact Work.Quiet.refl w

theorem Ctl.Quiet.trap {α : Type} (c : Nat) (v : Word) : Ctl.Quiet (Ctl.trap c v : Ctl α) := by
  intro w b v h; cases h

theorem Ctl.Quiet.hold {α : Type} : Ctl.Quiet (Ctl.hold : Ctl α) := by
  intro w b v h; cases h

theorem Ctl.Quiet.upd {f : Work → Work} (hf : ∀ w : Work, w.Quiet (f w)) : Ctl.Quiet (Ctl.upd f) := by
  intro w b v h; cases h; exact hf w

theorem Ctl.Quiet.trans : Ctl.Quiet Ctl.trans := by
  intro w b v h
  unfold Ctl.trans at h
  split at h <;> cases h <;> exact Work.Quiet.refl w

theorem Ctl.Quiet.span (va n : Nat) (need : Need) : Ctl.Quiet (Ctl.span va n need) := by
  unfold Ctl.span
  refine Ctl.Quiet.bind Ctl.Quiet.trans (fun p => ?_)
  obtain ⟨c, tr⟩ := p
  intro w rs v h
  have hg : (MonadState.get : Ctl Work) w = .ok (w, w) := rfl
  have hc := Work.spanOf_quiet w c tr va n need
  dsimp only at h
  rw [Ctl.bind_ok hg] at h
  generalize w.spanOf c tr va n need = r at h hc
  obtain ⟨e, v'⟩ := r
  cases e with
  | ok rs' =>
    dsimp only at h
    rw [Ctl.bind_ok (Ctl.set_eq w v')] at h
    cases h
    exact hc
  | error e => obtain ⟨f, at_⟩ := e; cases f <;> cases h

theorem Ctl.Quiet.clear (rs : List (Nat × Nat × Kind)) : Ctl.Quiet (Ctl.clear rs) := by
  intro w b v h
  unfold Ctl.clear at h
  split at h
  · split at h
    · cases h; exact Work.Quiet.refl w
    · cases h
  · cases h; exact Work.Quiet.refl w

theorem Ctl.Quiet.onWay (va : Nat) (rs : List (Nat × Nat × Kind)) : Ctl.Quiet (Ctl.onWay va rs) := by
  intro w b v h
  unfold Ctl.onWay at h
  dsimp only at h
  split at h
  · cases h
  · split at h
    · cases h
    · cases h; exact Work.Quiet.refl w

/-- Runs of keys read at once change what their ports bring alone. -/
theorem Ctl.Quiet.bytes (va : Nat) (rs : List (Nat × Nat × Kind)) : Ctl.Quiet (Ctl.bytes va rs) := by
  unfold Ctl.bytes
  exact Ctl.Quiet.bind (Ctl.Quiet.onWay va rs) (fun _ =>
    Ctl.Quiet.bind (Ctl.Quiet.upd (Work.portsNow_quiet true rs)) (fun _ =>
      Ctl.Quiet.bind Ctl.Quiet.get (fun w => Ctl.Quiet.pure (w.bytesOf rs))))

theorem Ctl.Quiet.ite {α : Type} {p : Prop} [Decidable p] {x y : Ctl α} (hx : x.Quiet) (hy : y.Quiet) :
    Ctl.Quiet (if p then x else y) := by
  by_cases h : p
  · rw [if_pos h]; exact hx
  · rw [if_neg h]; exact hy

/-- A parameter block captured leaves the rest quiet (R131). -/
theorem Ctl.Quiet.block (va : Word) (n align : Nat) : Ctl.Quiet (Ctl.block va n align) := by
  unfold Ctl.block
  have h := Ctl.Quiet.bind (Ctl.Quiet.span va.toNat n .read) (fun rs =>
    Ctl.Quiet.bind (Ctl.Quiet.clear rs) (fun _ => Ctl.Quiet.bytes va.toNat rs))
  exact Ctl.Quiet.ite (Ctl.Quiet.bind (Ctl.Quiet.trap 0x02 va) (fun _ => h)) h

end Sys2Proof.Machine
end

