-- ==== Sys2Proof/Laws/Engines.lean ====
section
/-!
SUPPORT. What the shared operations of the matrix engines compute: operands, adds, pairs, groups, conversion and the
comparisons of checksums, in the terms of Values.
-/

namespace Sys2Proof.Machine

/-! ## Operands (R171, R178) -/

theorem Stands.ok {f : NumFmt} {flush : Bool} {code : Nat} {v : FV} (h : Stands f flush code v) : v.Ok := by
  unfold Stands at h
  dsimp only at h
  intro s n d e
  repeat' split at h
  all_goals first
    | (rw [h] at e; cases e)
    | exact h.ok s n d e

theorem decodeBin_ok (f : NumFmt) (hf : f ≠ .d8) (flush : Bool) (code : Nat) : (decodeBin f flush code).Ok :=
  (decodeBin_stands f hf flush code).ok

theorem FV.scale_ok' (v : FV) (h : v.Ok) (k : ℤ) : Scaled v k (v.scale k) ∧ (v.scale k).Ok := by
  cases v with
  | num s n d =>
    have hs := FV.scale_is s n d (h s n d rfl) k
    exact ⟨hs, hs.ok⟩
  | nan => exact ⟨rfl, h⟩
  | inf s => exact ⟨rfl, h⟩

/-- The model's binary image (R171). -/
theorem d8Image_is (code : Nat) : D8Image code (d8Image (decodeD8 code)) ∧ (d8Image (decodeD8 code)).Ok := by
  have hs := decodeD8_stands false code
  have ho := hs.ok
  generalize decodeD8 code = u at *
  cases u with
  | nan => exact ⟨⟨_, hs, rfl⟩, ho⟩
  | inf s => exact ⟨⟨_, hs, rfl⟩, ho⟩
  | num s n d =>
    have hd := ho s n d rfl
    have d0 : (d : ℚ) ≠ 0 := by exact_mod_cast hd
    unfold d8Image
    dsimp only
    by_cases hn : n = 0
    · rw [if_pos hn]
      have hz : (FV.num s 0 1).Is s 0 := ⟨0, 1, rfl, by decide, by simp⟩
      refine ⟨⟨_, hs, ?_⟩, hz.ok⟩
      dsimp only
      rw [if_pos (by rw [hn]; simp)]
      exact hz
    · rw [if_neg hn]
      have hq : (n / d : ℚ) ≠ 0 := by
        rw [Ne, div_eq_zero_iff]; push Not; exact ⟨by exact_mod_cast hn, d0⟩
      obtain ⟨l1, l2⟩ := ilog2_spec n d hn hd
      generalize ilog2 n d = e at *
      obtain ⟨s1, s2⟩ := scaled_spec n d hd (e - 11)
      generalize scaled n d (e - 11) = p at *
      obtain ⟨a, b⟩ := p
      dsimp only at s1 s2 ⊢
      have two : (2 : ℚ) ≠ 0 := by norm_num
      have pe : (0 : ℚ) < 2 ^ (e - 11) := zpow_pos (by norm_num) _
      have hr := (roundInt_rounds 0 (by decide) false a b s1).1 rfl
      unfold roundInt at hr
      dsimp only at hr
      have ru : roundUp 0 s (a / b) (a % b) b = roundUp 0 false (a / b) (a % b) b := rfl
      rw [ru]
      simp only [Bool.false_eq_true, if_false] at hr
      generalize (if roundUp 0 false (a / b) (a % b) b = true then a / b + 1 else a / b) = m at *
      have hsc := FV.scale_is s m 1 (by decide) (e - 11)
      rw [Nat.cast_one, div_one] at hsc
      have rat : (FV.num false a b).rat = (a / b : ℚ) := by simp [FV.rat]
      rw [rat] at hr
      have hdiff : (m : ℚ) * 2 ^ (e - 11) - n / d = (m - a / b) * 2 ^ (e - 11) := by rw [← s2]; ring
      refine ⟨⟨_, hs, ?_⟩, hsc.ok⟩
      dsimp only
      rw [if_neg hq]
      refine ⟨m, e - 11, ?_, ?_, hsc, ?_, ?_⟩
      · have : (2 : ℚ) ^ 11 * 2 ^ (e - 11) = 2 ^ e := by
          rw [← zpow_natCast, ← zpow_add₀ two]; congr 1; push_cast; ring
        rw [this]; exact l1
      · have : (2 : ℚ) ^ 12 * 2 ^ (e - 11) = 2 ^ (e + 1) := by
          rw [← zpow_natCast, ← zpow_add₀ two]; congr 1; push_cast; ring
        rw [this]; exact l2
      · rw [hdiff, abs_mul, abs_of_pos pe]
        have := hr.1
        push_cast at this
        nlinarith
      · intro heq
        rw [hdiff, abs_mul, abs_of_pos pe] at heq
        have : |(m : ℚ) - a / b| = 1 / 2 := by
          have h2 : |(m : ℚ) - a / b| * 2 ^ (e - 11) = 1 / 2 * 2 ^ (e - 11) := by rw [heq]; ring
          exact mul_right_cancel₀ pe.ne' h2
        have h3 := hr.2 (by push_cast; exact this)
        omega

/-- The model's floating operand of an engine. -/
theorem mxVal_is (f : Nat) (flush : Bool) (k : ℤ) (code : Nat) (h : code < 2 ^ (mxFmt f).width) :
    Operand f flush k code (mxVal f flush k code) ∧ (mxVal f flush k code).Ok := by
  unfold mxVal Operand
  by_cases hf : f = 1
  · simp only [if_pos hf]
    obtain ⟨h1, h2⟩ := d8Image_is code
    obtain ⟨s1, s2⟩ := FV.scale_ok' _ h2 k
    exact ⟨⟨_, h1, s1⟩, s2⟩
  · simp only [if_neg hf]
    obtain ⟨s1, s2⟩ := FV.scale_ok' _ (decodeF_ok (mxFmt f) flush code h) k
    exact ⟨⟨_, decodeF_stands _ _ _ h, s1⟩, s2⟩

/-! ## Adds (R189, R181) -/

theorem FV.unsign_ok {v : FV} (h : v.Ok) : v.unsign.Ok := h.unsign

/-- The exact sum of an accumulator and a value, their zeros unsigned. -/
theorem sum_two (a x : FV) (ha : a.Ok) (hx : x.Ok) :
    IsTotal false [a, x] ((a.unsign.add false x.unsign).unsign) ∧ ((a.unsign.add false x.unsign).unsign).Ok := by
  have st := (SumState.one false a.unsign ha.unsign).step (v := x.unsign) (by simp) hx.unsign
  refine ⟨?_, st.1.unsign⟩
  have ht := st.total.unsign
  have e : [a.unsign] ++ [x.unsign] = [a, x].map FV.unsign := rfl
  rw [e] at ht
  obtain ⟨m1, m2, m3⟩ := FV.unsign_mem [a, x]
  unfold IsTotal at ht ⊢
  simp only [m1, m2, m3] at ht
  exact ht

theorem add40_adds (acc : Nat) (x : FV) (hx : x.Ok) : Fp40Add acc x (add40 false acc x) := by
  have ha := decodeBin_ok .fp40 (by decide) false acc
  obtain ⟨h1, h2⟩ := sum_two _ x ha hx
  exact ⟨_, _, decodeBin_stands .fp40 (by decide) false acc, h1, roundBin_rounds .fp40 (by decide) 0 (by decide) false false _ h2⟩

theorem rne32_is (flush : Bool) (v : FV) (hv : v.Ok) : Rne32 flush v (rne32 flush v) ∧ (rne32 flush v).Ok :=
  ⟨⟨_, roundBin_rounds .fp32 (by decide) 0 (by decide) false flush v hv, decodeBin_stands .fp32 (by decide) flush _⟩,
    decodeBin_ok .fp32 (by decide) flush _⟩

theorem add32_is (flush : Bool) (a b : FV) (ha : a.Ok) (hb : b.Ok) : Add32 flush a b (add32 flush a b) ∧ (add32 flush a b).Ok := by
  obtain ⟨h1, h2⟩ := FV.add_isSum false a b ha hb
  exact ⟨⟨_, h1, (rne32_is flush _ h2).1⟩, (rne32_is flush _ h2).2⟩

theorem mul32_is (flush : Bool) (a b : FV) (ha : a.Ok) (hb : b.Ok) :
    Mul32 flush a b (rne32 flush (a.mul b)) ∧ (rne32 flush (a.mul b)).Ok := by
  obtain ⟨h1, h2⟩ := FV.mul_isProd a b ha hb
  exact ⟨⟨_, h1, (rne32_is flush _ h2).1⟩, (rne32_is flush _ h2).2⟩

/-- A fold of FP32 adds. -/
theorem chain32 (flush : Bool) : ∀ (l : List FV) (a : FV), a.Ok → (∀ v ∈ l, v.Ok) →
    Chain (Add32 flush) a l (l.foldl (add32 flush) a) ∧ (l.foldl (add32 flush) a).Ok
  | [], a, ha, _ => ⟨rfl, ha⟩
  | x :: l, a, ha, h => by
    obtain ⟨h1, h2⟩ := add32_is flush a x ha (h x (List.mem_cons_self ..))
    obtain ⟨h3, h4⟩ := chain32 flush l _ h2 (fun v hv => h v (List.mem_cons_of_mem _ hv))
    exact ⟨⟨_, h1, h3⟩, h4⟩

theorem f32To40_rounds (v : FV) (hv : v.Ok) : RoundsTo .fp40 0 false false v (f32To40 v) :=
  roundBin_rounds .fp40 (by decide) 0 (by decide) false false v hv

theorem run8_is (p : List FV) (h : ∀ v ∈ p, v.Ok) : Run8 (fun k => nth p k FV.zero) (run8 p) ∧ (run8 p).Ok := by
  have ok : ∀ k, (nth p k FV.zero).Ok := by
    intro k
    unfold nth
    cases hk : p[k]? with
    | none => simpa [List.getD_eq_getElem?_getD, hk] using FV.zero_ok
    | some v => simpa [List.getD_eq_getElem?_getD, hk] using h v (List.mem_of_getElem? hk)
  obtain ⟨a1, a2⟩ := add32_is true _ _ (ok 0) (ok 1)
  obtain ⟨b1, b2⟩ := add32_is true _ _ (ok 2) (ok 3)
  obtain ⟨c1, c2⟩ := add32_is true _ _ (ok 4) (ok 5)
  obtain ⟨d1, d2⟩ := add32_is true _ _ (ok 6) (ok 7)
  obtain ⟨e1, e2⟩ := add32_is true _ _ a2 b2
  obtain ⟨f1, f2⟩ := add32_is true _ _ c2 d2
  obtain ⟨g1, g2⟩ := add32_is true _ _ e2 f2
  exact ⟨⟨_, _, _, _, _, _, a1, b1, c1, d1, e1, f1, g1⟩, g2⟩

/-- What a pair's products make of an accumulator element. -/
theorem accumulate_adds (nbv acc : Nat) (p : Nat → FV) (h : ∀ k, (p k).Ok) : PairAdds nbv acc p (accumulate nbv acc (ks32.map p)) := by
  have ha := decodeBin_ok .fp40 (by decide) false acc
  have hst := decodeBin_stands .fp40 (by decide) false acc
  match nbv with
  | 0 =>
    obtain ⟨t1, t2⟩ := sumFV_total ((List.range 32).map p) (by
      intro v hv
      obtain ⟨k, _, rfl⟩ := List.mem_map.1 hv
      exact h k)
    exact ⟨_, _, _, t1, roundBin_rounds .fp40 (by decide) 0 (by decide) false false _ t2.unsign,
      decodeBin_stands .fp40 (by decide) false _, add40_adds acc _ (decodeBin_ok .fp40 (by decide) false _)⟩
  | 1 =>
    have hc := chain32 false ((ks32.map p).map (rne32 false)) _ ha (by
      intro v hv
      obtain ⟨u, hu, rfl⟩ := List.mem_map.1 hv
      obtain ⟨k, _, rfl⟩ := List.mem_map.1 hu
      exact (rne32_is false _ (h k)).2)
    refine ⟨fun k => rne32 false (p k), _, _, fun k _ => (rne32_is false _ (h k)).1, hst, ?_, f32To40_rounds _ hc.2⟩
    rw [List.map_map] at hc ⊢
    exact hc.1
  | n + 2 =>
    let q := fun k => rne32 true (p k)
    let u := fun n => run8 (((ks32.map p).map (rne32 true)).drop (8 * n))
    have hq : ∀ k, k < 32 → Rne32 true (p k) (q k) := fun k _ => (rne32_is true _ (h k)).1
    have hok : ∀ n, ∀ v ∈ ((ks32.map p).map (rne32 true)).drop (8 * n), v.Ok := by
      intro n v hv
      have hv := List.mem_of_mem_drop hv
      obtain ⟨u, hu, rfl⟩ := List.mem_map.1 hv
      obtain ⟨k, _, rfl⟩ := List.mem_map.1 hu
      exact (rne32_is true _ (h k)).2
    have hu : ∀ n, n < 4 → Run8 (fun k => q (8 * n + k)) (u n) := by
      intro n hn
      have hr := (run8_is _ (hok n)).1
      have e : ∀ k, k < 8 → nth (((ks32.map p).map (rne32 true)).drop (8 * n)) k FV.zero = q (8 * n + k) := by
        intro k hk
        unfold nth ks32
        rw [List.getD_eq_getElem?_getD, List.getElem?_drop, List.getElem?_map, List.getElem?_map, List.getElem?_range (by omega)]
        rfl
      unfold Run8 at hr ⊢
      dsimp only at hr ⊢
      rw [e 0 (by decide), e 1 (by decide), e 2 (by decide), e 3 (by decide), e 4 (by decide), e 5 (by decide), e 6 (by decide), e 7 (by decide)] at hr
      exact hr
    have hc := chain32 true ((List.range 4).map u) _ ha (by
      intro v hv
      obtain ⟨n, _, rfl⟩ := List.mem_map.1 hv
      exact (run8_is _ (hok n)).2)
    exact ⟨q, u, _, _, hq, hu, hst, hc.1, f32To40_rounds _ hc.2⟩

/-! ## Groups, conversion, comparisons (R195, R185, R194) -/

theorem gather_chain (act : Nat → FV) (h : ∀ p, (act p).Ok) : ∀ (l : List Nat) (q : Nat),
    Chain (fun q i q' => Fp40Add q (act i) q') q l (l.foldl (fun q p => add40 false q (act p)) q)
  | [], _ => rfl
  | p :: l, q => ⟨_, add40_adds q (act p) (h p), gather_chain act h l _⟩

/-- The model's group. -/
def groupStep (bf16 : Bool) (act : Nat → FV) (acc : Nat) (g : Group) : Nat :=
  add40 false acc (decodeBin .fp40 false (rne40 false ((decodeBin .fp40 false (g.pos.foldl (fun q p => add40 false q (act p)) 0)).mul
    (if bf16 then decodeBin .bf16 false g.value else d8Image (decodeD8 g.value)))))

theorem groupStep_adds (bf16 : Bool) (act : Nat → FV) (h : ∀ p, (act p).Ok) (acc : Nat) (g : Group) :
    GroupAdds bf16 act acc g (groupStep bf16 act acc g) := by
  have hv : (if bf16 then Stands .bf16 false g.value (if bf16 then decodeBin .bf16 false g.value else d8Image (decodeD8 g.value))
      else D8Image g.value (if bf16 then decodeBin .bf16 false g.value else d8Image (decodeD8 g.value))) ∧
      (if bf16 then decodeBin .bf16 false g.value else d8Image (decodeD8 g.value)).Ok := by
    cases bf16
    · exact d8Image_is g.value
    · exact ⟨decodeBin_stands .bf16 (by decide) false _, decodeBin_ok .bf16 (by decide) false _⟩
  obtain ⟨p1, p2⟩ := FV.mul_isProd _ _ (decodeBin_ok .fp40 (by decide) false (g.pos.foldl (fun q p => add40 false q (act p)) 0)) hv.2
  exact ⟨_, _, _, _, _, _, gather_chain act h g.pos 0, decodeBin_stands .fp40 (by decide) false _, hv.1, p1,
    roundBin_rounds .fp40 (by decide) 0 (by decide) false false _ p2.unsign, decodeBin_stands .fp40 (by decide) false _,
    add40_adds acc _ (decodeBin_ok .fp40 (by decide) false _)⟩

theorem group_chain (bf16 : Bool) (act : Nat → FV) (h : ∀ p, (act p).Ok) : ∀ (gs : List Group) (acc : Nat),
    Chain (GroupAdds bf16 act) acc gs (gs.foldl (groupStep bf16 act) acc)
  | [], _ => rfl
  | g :: gs, acc => ⟨_, groupStep_adds bf16 act h acc g, group_chain bf16 act h gs _⟩

/-- An element of a grouped item. -/
theorem groupElem_chain (c : MxCfg) (bf16 : Bool) (k : Nat) (gs : List Group) (d : List Byte) (v j : Nat)
    (h : ∀ p, elemAt d (mxBytes c.bfmt) (j * k + p) < 2 ^ (mxFmt c.bfmt).width) :
    ∃ act : Nat → FV, (∀ p, Operand c.bfmt false (scaleAt d c.bsc (v * k * mxBytes c.bfmt + j * ((k + 31) / 32) + p / 32))
        (elemAt d (mxBytes c.bfmt) (j * k + p)) (act p)) ∧
      Chain (GroupAdds bf16 act) 0 gs (groupElem c bf16 k gs d v j) := by
  refine ⟨fun p => mxVal c.bfmt false (scaleAt d c.bsc (v * k * mxBytes c.bfmt + j * ((k + 31) / 32) + p / 32)) (elemAt d (mxBytes c.bfmt) (j * k + p)),
    fun p => (mxVal_is _ _ _ _ (h p)).1, ?_⟩
  exact group_chain bf16 _ (fun p => (mxVal_is _ _ _ _ (h p)).2) gs 0

theorem toSigned_mod (x : Nat) : toSigned 40 x = intVal true 40 (x % 2 ^ 40) := by
  rw [← intVal_toSigned 40 _ (Nat.mod_lt _ (by decide))]
  unfold toSigned
  rw [Nat.mod_mod]

/-- The model's conversion of an element. -/
theorem convert_is (c : MxCfg) (nbv acc : Nat) (hr : c.rnd < 4) : Converts c nbv acc (c.convert nbv acc).1 ∧
    ((c.convert nbv acc).2 = true ↔ 4 ≤ c.ofmt ∧ Outside true (8 * mxOut c.ofmt) (intVal true 40 (acc % 2 ^ 40))) := by
  have hw : 0 < 8 * mxOut c.ofmt := by unfold mxOut; split <;> [decide; (split <;> decide)]
  unfold MxCfg.convert Converts
  by_cases h : 4 ≤ c.ofmt
  · simp only [if_pos h, toSigned_mod]
    obtain ⟨f1, f2, _⟩ := fitInt_fits true (8 * mxOut c.ofmt) hw true (intVal true 40 (acc % 2 ^ 40))
    exact ⟨f1, by rw [f2]; simp [h]⟩
  · simp only [if_neg h]
    have ha := decodeBin_ok .fp40 (by decide) false acc
    refine ⟨⟨_, decodeBin_stands .fp40 (by decide) false acc, encodeF_rounds _ _ hr _ _ _ ?_⟩, by simp [h]⟩
    split
    · exact ha.unsign
    · exact ha

/-- The model's saturating add of integer work (R191). -/
theorem addInt40_fits (acc : Nat) (x : Int) : Fits true 40 true (intVal true 40 (acc % 2 ^ 40) + x) (addInt40 acc x).1 ∧
    ((addInt40 acc x).2 = true ↔ Outside true 40 (intVal true 40 (acc % 2 ^ 40) + x)) := by
  unfold addInt40
  rw [toSigned_mod]
  obtain ⟨f1, f2, _⟩ := fitInt_fits true 40 (by decide) true (intVal true 40 (acc % 2 ^ 40) + x)
  exact ⟨f1, by rw [f2]; simp⟩

/-- Less or equal, on numbers. -/
theorem FV.le_rat {a b : FV} (ha : ∃ s q, a.Is s q) (hb : ∃ s q, b.Is s q) : (a.lt b || a.eq b) = true ↔ a.rat ≤ b.rat := by
  obtain ⟨s, q, h1⟩ := ha
  obtain ⟨u, r, h2⟩ := hb
  have oa := h1.ok
  have ob := h2.ok
  obtain ⟨n, d, rfl, _, _⟩ := h1
  obtain ⟨m, e, rfl, _, _⟩ := h2
  rw [Bool.or_eq_true, FV.lt_less _ _ oa ob, FV.eq_less _ _ oa ob (by simp) (by simp)]
  show ((FV.num s n d).rat < (FV.num u m e).rat ∨ (¬ (FV.num s n d).rat < (FV.num u m e).rat ∧ ¬ (FV.num u m e).rat < (FV.num s n d).rat)) ↔ _
  constructor
  · rintro (h | ⟨_, h⟩)
    · exact h.le
    · exact not_lt.1 h
  · intro h
    by_cases hlt : (FV.num s n d).rat < (FV.num u m e).rat
    · exact .inl hlt
    · exact .inr ⟨hlt, not_lt.2 h⟩

theorem FV.abs_rat (s : Bool) (n d : Nat) (hd : d ≠ 0) : (FV.num s n d).abs.Is false |(FV.num s n d).rat| := by
  have : (0 : ℚ) ≤ n / d := by positivity
  refine ⟨n, d, rfl, hd, ?_⟩
  cases s <;> simp [FV.rat, abs_of_nonneg this]

/-- The model's comparison (R194). -/
theorem csPass_iff (tol x y : FV) (ht : tol.Ok) (hx : x.Ok) (hy : y.Ok) : csPass tol x y = true ↔ Passes tol x y := by
  have nan : ∀ v : FV, v.isNan = true ↔ v = .nan := fun v => by cases v <;> simp [FV.isNan]
  unfold csPass Passes
  rw [Bool.or_eq_true, Bool.or_eq_true, or_assoc]
  refine or_congr (by rw [Bool.and_eq_true, nan, nan]) ?_
  by_cases hx' : x = .nan
  · subst hx'
    refine ⟨fun h => ?_, fun h => ?_⟩
    · rcases h with h | h
      · cases y <;> cases h
      · simp [FV.isNan] at h
    · rcases h with h | ⟨⟨s, q, _, _, e, _⟩, _⟩
      · exact absurd rfl h.1
      · cases e
  by_cases hy' : y = .nan
  · subst hy'
    refine ⟨fun h => ?_, fun h => ?_⟩
    · rcases h with h | h
      · cases x <;> cases h
      · simp [FV.isNan] at h
    · rcases h with h | ⟨_, ⟨s, q, _, _, e, _⟩, _⟩
      · exact absurd rfl h.2.1
      · cases e
  have he := FV.eq_less x y hx hy hx' hy'
  have he' : x.eq y = true ↔ (x ≠ .nan ∧ y ≠ .nan ∧ ¬ x.Less y ∧ ¬ y.Less x) := by rw [he]; simp [hx', hy']
  rw [he']
  by_cases heq : x.eq y = true
  · exact ⟨fun _ => .inl (he'.1 heq), fun _ => .inl (he'.1 heq)⟩
  refine or_congr Iff.rfl ?_
  cases x with
  | nan => exact absurd rfl hx'
  | inf s => simp [FV.isInf, FV.Is]
  | num s n d =>
    cases y with
    | nan => exact absurd rfl hy'
    | inf u => simp [FV.isInf, FV.Is]
    | num u m e =>
      have hd := hx s n d rfl
      have hee := hy u m e rfl
      have ix : ∃ s' q, (FV.num s n d).Is s' q := ⟨s, _, n, d, rfl, hd, rfl⟩
      have iy : ∃ s' q, (FV.num u m e).Is s' q := ⟨u, _, m, e, rfl, hee, rfl⟩
      have ne : (FV.num s n d).rat ≠ (FV.num u m e).rat := by
        intro h
        refine heq (he.2 ?_)
        show ¬ (FV.num s n d).rat < (FV.num u m e).rat ∧ ¬ (FV.num u m e).rat < (FV.num s n d).rat
        rw [h]; simp
      have ax := FV.abs_rat s n d hd
      have ay := FV.abs_rat u m e hee
      have hneg : (FV.num u m e).neg.rat = -(FV.num u m e).rat := by
        have : (FV.num u m e).neg = FV.num (!u) m e := rfl
        rw [this]; cases u <;> simp [FV.rat]
      -- the difference
      have hdiff : ((FV.num s n d).add false (FV.num u m e).neg).abs.Is false |(FV.num s n d).rat - (FV.num u m e).rat| := by
        obtain ⟨h1, h2⟩ := FV.add_isSum false (FV.num s n d) (FV.num u m e).neg hx hy.neg
        have hnn : (FV.num u m e).neg = FV.num (!u) m e := rfl
        rw [hnn] at h1 h2 ⊢
        unfold IsSum at h1
        rw [if_neg (by simp)] at h1
        dsimp only at h1
        obtain ⟨p, r, e1, e2, e3⟩ := h1
        rw [e1]
        refine ⟨p, r, rfl, e2, ?_⟩
        rw [e3, ← hnn, hneg, sub_eq_add_neg]
      -- the larger magnitude
      have hmax : (if (FV.num s n d).abs.lt (FV.num u m e).abs then (FV.num u m e).abs else (FV.num s n d).abs).Is false
          (max |(FV.num s n d).rat| |(FV.num u m e).rat|) := by
        have hl : (FV.num s n d).abs.lt (FV.num u m e).abs = true ↔ |(FV.num s n d).rat| < |(FV.num u m e).rat| := by
          rw [FV.lt_less _ _ ax.ok ay.ok]
          have r1 := FV.rat_is ax
          have r2 := FV.rat_is ay
          simp only [Bool.false_eq_true, if_false] at r1 r2
          rw [← r1, ← r2]
          exact Iff.rfl
        by_cases h : (FV.num s n d).abs.lt (FV.num u m e).abs = true
        · rw [if_pos h, max_eq_right (hl.1 h).le]; exact ay
        · rw [if_neg h, max_eq_left (not_lt.1 (fun hh => h (hl.2 hh)))]; exact ax
      have mpos : 0 < max |(FV.num s n d).rat| |(FV.num u m e).rat| := by
        rcases lt_or_eq_of_le (le_trans (abs_nonneg (FV.num s n d).rat) (le_max_left _ |(FV.num u m e).rat|)) with h | h
        · exact h
        · exfalso
          have h1 : |(FV.num s n d).rat| ≤ 0 := h ▸ le_max_left _ _
          have h2 : |(FV.num u m e).rat| ≤ 0 := h ▸ le_max_right _ _
          rw [abs_nonpos_iff] at h1 h2
          exact ne (h1.trans h2.symm)
      generalize hD : ((FV.num s n d).add false (FV.num u m e).neg).abs = D at *
      generalize hM : (if (FV.num s n d).abs.lt (FV.num u m e).abs then (FV.num u m e).abs else (FV.num s n d).abs) = M at *
      have fin : (!(FV.num s n d).isNan && !(FV.num u m e).isNan && !(FV.num s n d).isInf && !(FV.num u m e).isInf) = true := rfl
      rw [fin]
      simp only [Bool.true_and, ix, iy, true_and]
      cases tol with
      | nan => simp [FV.isNan, FV.Is]
      | inf v =>
        obtain ⟨p, r, rfl, hr, hpr⟩ := hmax
        have hp : p ≠ 0 := by
          rintro rfl
          simp at hpr
          linarith
        cases v
        · have : (FV.inf false).mul (FV.num false p r) = .inf false := by simp [FV.mul, hp]
          rw [this]
          obtain ⟨p', r', rfl, _, _⟩ := hdiff
          simp [FV.isNan, FV.lt, FV.zero]
        · have : ((FV.inf true).lt FV.zero) = true := rfl
          rw [this]
          simp [FV.Is]
      | num v a b =>
        have hb := ht v a b rfl
        have it : (FV.num v a b).Is v (a / b) := ⟨a, b, rfl, hb, rfl⟩
        obtain ⟨p1, p2⟩ := FV.mul_isProd (FV.num v a b) M ht hmax.ok
        have hMr := FV.rat_is hmax
        simp only [Bool.false_eq_true, if_false] at hMr
        have hDr := FV.rat_is hdiff
        simp only [Bool.false_eq_true, if_false] at hDr
        have hprod : ∃ s' q, ((FV.num v a b).mul M).Is s' q ∧ ((FV.num v a b).mul M).rat = (FV.num v a b).rat * M.rat := by
          obtain ⟨p, r, rfl, hr, hpr⟩ := hmax
          unfold IsProd at p1
          rw [if_neg (by simp)] at p1
          dsimp only at p1
          refine ⟨_, _, p1, ?_⟩
          rw [FV.rat_is p1]
          by_cases h0 : (FV.num v a b).rat * (FV.num false p r).rat = 0
          · rw [h0]; simp
          · rw [if_neg h0]
            by_cases hlt : (FV.num v a b).rat * (FV.num false p r).rat < 0
            · rw [decide_eq_true hlt, if_pos rfl, abs_of_neg hlt, neg_neg]
            · rw [decide_eq_false hlt, if_neg (by simp), abs_of_nonneg (not_lt.1 hlt)]
        obtain ⟨s', q', hq', hrat⟩ := hprod
        have hle := FV.le_rat ⟨_, _, hdiff⟩ ⟨_, _, hq'⟩
        have hz : (FV.num v a b).lt FV.zero = true ↔ (FV.num v a b).rat < 0 := by
          rw [FV.lt_less _ _ ht (by intro _ _ _ e; cases e; decide)]
          show (FV.num v a b).rat < FV.zero.rat ↔ _
          have : FV.zero.rat = 0 := by simp [FV.zero, FV.rat]
          rw [this]
        have hnn : (!(FV.num v a b).isNan) = true := rfl
        rw [hnn, Bool.true_and, Bool.and_eq_true, hle, hrat, hDr, hMr, Bool.not_eq_true', ← Bool.not_eq_true, hz, not_lt]
        have : ∃ s q, (FV.num v a b).Is s q := ⟨_, _, it⟩
        simp [this]

/-! ## Areas -/

theorem elemAt_lt (d : List Byte) (w n : Nat) : elemAt d w n < 2 ^ (8 * w) := by
  unfold elemAt
  rw [Nat.pow_mul]
  exact lt_of_lt_of_le (ofBytes_lt _) (Nat.pow_le_pow_right (by decide) (List.length_take_le _ _))

theorem elemAt_fmt (d : List Byte) (f n : Nat) (hf : mxIsInt f = false) : elemAt d (mxBytes f) n < 2 ^ (mxFmt f).width := by
  refine lt_of_lt_of_le (elemAt_lt ..) (Nat.pow_le_pow_right (by decide) ?_)
  match f, hf with
  | 1, _ | 2, _ | 3, _ | 4, _ => decide
  | n + 6, _ => show 8 * mxBytes (n + 6) ≤ 32; simp [mxBytes]

theorem mem_tilePos (i j : Nat) : (i, j) ∈ tilePos ↔ i < 64 ∧ j < 128 := by
  unfold tilePos
  simp [List.mem_flatMap]

theorem agetD_cons {α : Type} (a k : Nat) (b d : α) (t : AMap α) : agetD ((a, b) :: t) k d = if a = k then b else agetD t k d := by
  show (aget ((a, b) :: t) k).getD d = _
  unfold aget
  split <;> rfl

theorem aget_filter_map (f : Nat × Nat → Nat) (key : Nat × Nat → Nat) (l : List (Nat × Nat)) (hinj : ∀ p ∈ l, ∀ q ∈ l, key p = key q → p = q)
    (p : Nat × Nat) (hp : p ∈ l) : agetD ((l.map (fun p => (key p, f p))).filter (fun e => e.2 != 0)) (key p) 0 = f p := by
  induction l with
  | nil => cases hp
  | cons q r ih =>
    rw [List.map_cons, List.filter_cons]
    have hr : ∀ p ∈ r, ∀ q ∈ r, key p = key q → p = q := fun p hp q hq => hinj p (List.mem_cons_of_mem _ hp) q (List.mem_cons_of_mem _ hq)
    have absent : p = q → f p = 0 → agetD ((r.map (fun p => (key p, f p))).filter (fun e => e.2 != 0)) (key p) 0 = 0 := by
      intro hpq h0
      by_cases hm : p ∈ r
      · rw [ih hr hm, h0]
      · have : ∀ l' : List (Nat × Nat), (∀ e ∈ l', e.1 ≠ key p) → agetD l' (key p) 0 = 0 := by
          intro l' hl
          induction l' with
          | nil => rfl
          | cons e t iht =>
            obtain ⟨a, b⟩ := e
            have ha : a ≠ key p := hl (a, b) (List.mem_cons_self ..)
            have := iht (fun e he => hl e (List.mem_cons_of_mem _ he))
            rw [agetD_cons, if_neg ha]; exact this
        refine this _ (fun e he => ?_)
        obtain ⟨he1, _⟩ := List.mem_filter.1 he
        obtain ⟨z, hz, rfl⟩ := List.mem_map.1 he1
        intro hk
        have := hinj z (List.mem_cons_of_mem _ hz) p hp hk
        exact hm (this ▸ hz)
    by_cases hq : p = q
    · subst hq
      by_cases h0 : f p = 0
      · rw [if_neg (by simp [h0])]
        rw [absent rfl h0, h0]
      · rw [if_pos (by simpa using h0)]
        simp [agetD, aget]
    · have hm : p ∈ r := by
        rcases List.mem_cons.1 hp with h | h
        · exact absurd h hq
        · exact h
      by_cases h0 : f q = 0
      · rw [if_neg (by simp [h0])]; exact ih hr hm
      · rw [if_pos (by simpa using h0)]
        have hk : ¬ key q = key p := fun h => hq (hinj q (List.mem_cons_self ..) p hp h).symm
        rw [agetD_cons, if_neg hk]; exact ih hr hm

/-- A tile made from a function reads as the function. -/
theorem tileOf_at (f : Nat → Nat → Nat) (i j : Nat) (hi : i < 64) (hj : j < 128) : agetD (tileOf f) (128 * i + j) 0 = f i j := by
  unfold tileOf
  refine aget_filter_map (fun p => f p.1 p.2) (fun p => 128 * p.1 + p.2) tilePos ?_ (i, j) ((mem_tilePos i j).2 ⟨hi, hj⟩)
  rintro ⟨a, b⟩ hp ⟨c, d⟩ hq h
  have h1 := (mem_tilePos a b).1 hp
  have h2 := (mem_tilePos c d).1 hq
  dsimp only at h
  have : a = c ∧ b = d := by omega
  rw [this.1, this.2]

/-- Entries set one after another, each from what it held. -/
theorem foldl_put (g : Nat → Nat → Nat) (m : AMap Nat) : ∀ (N n : Nat),
    agetD ((List.range N).foldl (fun m n => aset m n (g n (agetD m n 0))) m) n 0 = if n < N then g n (agetD m n 0) else agetD m n 0 := by
  intro N
  induction N with
  | zero => intro n; simp
  | succ N ih =>
    intro n
    rw [List.range_succ, List.foldl_append]
    show agetD (aset _ N _) n 0 = _
    have hN := ih N
    rw [if_neg (Nat.lt_irrefl N)] at hN
    rw [hN]
    show (aget (aset _ N _) n).getD 0 = _
    rw [aget_aset]
    by_cases hn : n = N
    · rw [if_pos hn, if_pos (by omega), hn]; rfl
    · rw [if_neg hn]
      have := ih n
      by_cases hlt : n < N
      · rw [if_pos (by omega)]; rw [if_pos hlt] at this; exact this
      · rw [if_neg (by omega)]; rw [if_neg hlt] at this; exact this

theorem foldl_sum (f : Nat → Int) : ∀ (l : List Nat) (z : Int), l.foldl (fun s k => s + f k) z = z + (l.map f).sum
  | [], z => by simp
  | x :: r, z => by rw [List.foldl_cons, foldl_sum f r, List.map_cons, List.sum_cons]; ring

/-- An integer checksum entry after a sum is added to it. -/
theorem csGrows_put (g : Nat → Int) (m : AMap Nat) (N n : Nat) (hn : n < N) :
    CsGrows m ((List.range N).foldl (fun m j => aset m j (((BitVec.ofNat 128 (agetD m j 0)).toInt + g j) % 2 ^ 128).toNat) m) n (g n) := by
  unfold CsGrows csInt
  have put := foldl_put (fun j v => (((BitVec.ofNat 128 v).toInt + g j) % 2 ^ 128).toNat) m N n
  rw [if_pos hn] at put
  rw [put]
  generalize (BitVec.ofNat 128 (agetD m n 0)).toInt = o
  have p : (0 : Int) < 2 ^ 128 := by positivity
  have e : (((o + g n) % 2 ^ 128).toNat : Int) = (o + g n) % 2 ^ 128 := Int.toNat_of_nonneg (Int.emod_nonneg _ p.ne')
  have e2 : (BitVec.ofNat 128 ((o + g n) % 2 ^ 128).toNat).toInt % 2 ^ 128 = (o + g n) % 2 ^ 128 := by
    rw [BitVec.toInt_eq_toNat_bmod, BitVec.toNat_ofNat, Int.natCast_mod, e]
    have := Int.bmod_emod (x := (o + g n) % 2 ^ 128 % ((2 ^ 128 : Nat) : Int)) (m := 2 ^ 128)
    push_cast at this ⊢
    rw [this]
    simp only [Int.emod_emod_of_dvd _ (dvd_refl _)]
  rw [sub_sub, Int.sub_emod, e2]
  simp

/-- The floating checksums after the sums of terms are added to them. -/
theorem csAdds_put (flush : Bool) (l : Nat → List FV) (h : ∀ n, ∀ v ∈ l n, v.Ok) (m : AMap Nat) (N n : Nat) (hn : n < N) :
    CsAdds flush m ((List.range N).foldl (fun m j => aset m j (f32To40 (add32 flush (decodeBin .fp40 false (agetD m j 0))
      ((l j).foldl (add32 flush) FV.zero)))) m) n (l n) := by
  unfold CsAdds
  rw [foldl_put (fun j v => f32To40 (add32 flush (decodeBin .fp40 false v) ((l j).foldl (add32 flush) FV.zero))) m N n, if_pos hn]
  obtain ⟨c1, c2⟩ := chain32 flush (l n) .zero FV.zero_ok (h n)
  obtain ⟨a1, a2⟩ := add32_is flush _ _ (decodeBin_ok .fp40 (by decide) false (agetD m n 0)) c2
  exact ⟨_, _, _, c1, decodeBin_stands .fp40 (by decide) false _, a1, f32To40_rounds _ a2⟩

/-- An area after an unfaulted pair (R189 to R193). -/
theorem Area.pair_adds (a : Area) (c : MxCfg) (nbv : Nat) (chk : Bool) (da db : List Byte) (hk : mxIsInt c.bfmt = mxIsInt c.afmt) :
    a.Adds c nbv chk da db (a.pair c nbv chk da db) := by
  unfold Area.Adds Area.pair
  by_cases hi : mxIsInt c.afmt = true
  · simp only [hi, if_true]
    have hA : ∀ i k, c.aInt da i k = intVal true (8 * mxBytes c.afmt) (elemAt da (mxBytes c.afmt) (32 * i + k)) :=
      fun i k => intVal_toSigned _ _ (elemAt_lt da (mxBytes c.afmt) (32 * i + k))
    have hB : ∀ k j, c.bInt db k j = intVal true (8 * mxBytes c.bfmt) (elemAt db (mxBytes c.bfmt) (128 * k + j)) :=
      fun k j => intVal_toSigned _ _ (elemAt_lt db (mxBytes c.bfmt) (128 * k + j))
    have hs : ∀ (f : Nat → Int) (l : List Nat), l.foldl (fun s k => s + f k) 0 = (l.map f).sum := fun f l => by rw [foldl_sum]; simp
    simp only [hA, hB, hs]
    refine ⟨⟨fun i j h1 h2 => ?_, ?_, fun h => ?_⟩, fun h => by simp [h]⟩
    · simp only [Area.at]
      rw [tileOf_at _ i j h1 h2]
      exact (addInt40_fits _ _).1
    · rw [Bool.or_eq_true, List.any_eq_true]
      refine or_congr Iff.rfl ⟨?_, ?_⟩
      · rintro ⟨⟨i, j⟩, hm, h⟩
        exact ⟨i, j, ((mem_tilePos i j).1 hm).1, ((mem_tilePos i j).1 hm).2, (addInt40_fits _ _).2.1 h⟩
      · rintro ⟨i, j, h1, h2, h⟩
        exact ⟨(i, j), (mem_tilePos i j).2 ⟨h1, h2⟩, (addInt40_fits _ _).2.2 h⟩
    · simp only [h, if_true]
      exact ⟨fun j hj => csGrows_put (fun j => ((List.range 32).map (fun k => _)).sum) a.csRow 128 j hj,
        fun i hi => csGrows_put (fun i => ((List.range 32).map (fun k => _)).sum) a.csCol 64 i hi⟩
  · have hb : ¬ mxIsInt c.bfmt = true := by rw [hk]; exact hi
    have fa := Bool.eq_false_iff.2 hi
    have fb := Bool.eq_false_iff.2 hb
    simp only [fa, Bool.false_eq_true, if_false]
    have okA : ∀ i k, (c.aVal (nbv == 2) da i k).Ok := fun i k => (mxVal_is _ _ _ _ (elemAt_fmt _ _ _ fa)).2
    have okB : ∀ k j, (c.bVal (nbv == 2) db k j).Ok := fun k j => (mxVal_is _ _ _ _ (elemAt_fmt _ _ _ fb)).2
    refine ⟨⟨fun i k => c.aVal (nbv == 2) da i k, fun k j => c.bVal (nbv == 2) db k j,
      fun i k => (mxVal_is _ _ _ _ (elemAt_fmt _ _ _ fa)).1, fun k j => (mxVal_is _ _ _ _ (elemAt_fmt _ _ _ fb)).1,
      fun i j h1 h2 => ?_, trivial, fun h => ?_⟩, fun h => by simp [h]⟩
    · refine ⟨fun k => (c.aVal (nbv == 2) da i k).mul (c.bVal (nbv == 2) db k j), fun k _ => (FV.mul_isProd _ _ (okA i k) (okB k j)).1, ?_⟩
      simp only [Area.at]
      rw [tileOf_at _ i j h1 h2]
      exact accumulate_adds nbv _ _ (fun k => (FV.mul_isProd _ _ (okA i k) (okB k j)).2)
    · simp only [h, if_true]
      have cc : ∀ k, _ := fun k => chain32 (nbv == 2) ((List.range 64).map (fun i => c.aVal (nbv == 2) da i k)) .zero FV.zero_ok
        (by intro v hv; obtain ⟨i, _, rfl⟩ := List.mem_map.1 hv; exact okA i k)
      have cr : ∀ k, _ := fun k => chain32 (nbv == 2) ((List.range 128).map (fun j => c.bVal (nbv == 2) db k j)) .zero FV.zero_ok
        (by intro v hv; obtain ⟨i, _, rfl⟩ := List.mem_map.1 hv; exact okB k i)
      refine ⟨fun k => ((List.range 64).map (fun i => c.aVal (nbv == 2) da i k)).foldl (add32 (nbv == 2)) .zero,
        fun k => ((List.range 128).map (fun j => c.bVal (nbv == 2) db k j)).foldl (add32 (nbv == 2)) .zero,
        fun k _ => ⟨(cc k).1, (cr k).1⟩, fun j hj => ?_, fun i hi => ?_⟩
      · refine ⟨fun k => rne32 (nbv == 2) ((((List.range 64).map (fun i => c.aVal (nbv == 2) da i k)).foldl (add32 (nbv == 2)) .zero).mul
          (c.bVal (nbv == 2) db k j)), fun k _ => (mul32_is _ _ _ (cc k).2 (okB k j)).1, ?_⟩
        exact csAdds_put (nbv == 2) (fun j => (List.range 32).map (fun k => rne32 (nbv == 2) ((((List.range 64).map (fun i => c.aVal (nbv == 2) da i k)).foldl (add32 (nbv == 2)) .zero).mul
          (c.bVal (nbv == 2) db k j)))) (by
          intro n v hv
          obtain ⟨k, _, rfl⟩ := List.mem_map.1 hv
          exact (mul32_is _ _ _ (cc k).2 (okB k n)).2) a.csRow 128 j hj
      · refine ⟨fun k => rne32 (nbv == 2) ((c.aVal (nbv == 2) da i k).mul (((List.range 128).map (fun j => c.bVal (nbv == 2) db k j)).foldl (add32 (nbv == 2)) .zero)),
          fun k _ => (mul32_is _ _ _ (okA i k) (cr k).2).1, ?_⟩
        exact csAdds_put (nbv == 2) (fun i => (List.range 32).map (fun k => rne32 (nbv == 2) ((c.aVal (nbv == 2) da i k).mul (((List.range 128).map (fun j => c.bVal (nbv == 2) db k j)).foldl (add32 (nbv == 2)) .zero)))) (by
          intro n v hv
          obtain ⟨k, _, rfl⟩ := List.mem_map.1 hv
          exact (mul32_is _ _ _ (okA n k) (cr k).2).2) a.csCol 64 i hi

/-- An area after a faulted pair (R189, R198). -/
theorem Area.zeroPair_adds (a : Area) (c : MxCfg) : a.AddsZero c (a.zeroPair c) := by
  unfold Area.AddsZero Area.zeroPair
  by_cases hi : mxIsInt c.afmt = true
  · simp [hi]
  · simp only [Bool.eq_false_iff.2 hi, Bool.false_eq_true, if_false]
    refine ⟨fun i j h1 h2 => ?_, trivial, trivial, trivial⟩
    simp only [Area.at]
    rw [tileOf_at _ i j h1 h2]
    exact add40_adds _ _ FV.zero_ok

/-- The comparisons of a tile (R194). -/
theorem Area.checked_is (a : Area) (c : MxCfg) (nbv v : Nat) : a.Compared c nbv (bits v 0 16) (a.checked c nbv (bits v 0 16) = true) := by
  unfold Area.Compared Area.checked
  by_cases hi : mxIsInt c.afmt = true
  · simp only [hi, if_true]
    simp only [toSigned_mod, Bool.or_eq_true, Bool.and_eq_true, List.all_eq_true, List.mem_range, beq_iff_eq, foldl_sum, zero_add]
    exact Iff.rfl
  · simp only [Bool.eq_false_iff.2 hi, Bool.false_eq_true, if_false]
    have okd : ∀ m n, (decodeBin .fp40 false (agetD m n 0)).Ok := fun m n => decodeBin_ok .fp40 (by decide) false _
    have okc : ∀ i j, _ := fun i j => rne32_is (nbv == 2) _ (decodeBin_ok .fp40 (by decide) false (a.at i j))
    have hcol : ∀ j, _ := fun j => chain32 (nbv == 2) ((List.range 64).map (fun i => rne32 (nbv == 2) (decodeBin .fp40 false (a.at i j)))) .zero FV.zero_ok
      (by intro v hv; obtain ⟨i, _, rfl⟩ := List.mem_map.1 hv; exact (okc i j).2)
    have hrow : ∀ i, _ := fun i => chain32 (nbv == 2) ((List.range 128).map (fun j => rne32 (nbv == 2) (decodeBin .fp40 false (a.at i j)))) .zero FV.zero_ok
      (by intro v hv; obtain ⟨j, _, rfl⟩ := List.mem_map.1 hv; exact (okc i j).2)
    refine ⟨fun i j => rne32 (nbv == 2) (decodeBin .fp40 false (a.at i j)), fun j => _, fun i => _, fun j => _, fun i => _, _,
      decodeBin_stands .fp32 (by decide) false _, fun i j => ⟨_, decodeBin_stands .fp40 (by decide) false _, (okc i j).1⟩,
      fun j => ⟨(hcol j).1, decodeBin_stands .fp40 (by decide) false _⟩, fun i => ⟨(hrow i).1, decodeBin_stands .fp40 (by decide) false _⟩, ?_⟩
    rw [Bool.and_eq_true, List.all_eq_true, List.all_eq_true]
    have ht := decodeBin_ok .fp32 (by decide) false (bits v 0 16 * 2 ^ 16)
    refine and_congr (forall_congr' fun j => ?_) (forall_congr' fun i => ?_)
    · rw [List.mem_range]
      exact imp_congr Iff.rfl (csPass_iff _ _ _ ht (hcol j).2 (okd _ _))
    · rw [List.mem_range]
      exact imp_congr Iff.rfl (csPass_iff _ _ _ ht (hrow i).2 (okd _ _))

end Sys2Proof.Machine
end

