-- ==== Sys2Proof/Laws/Jobs.lean ====
section
/-!
SUPPORT. The checks of a job card change nothing but the translation caches.
-/

namespace Sys2Proof.Machine

/-- A check that changes caches alone. -/
def Chk.Quiet {α : Type} (x : Chk α) : Prop := ∀ w a v, x w = .ok (a, v) → w.Quiet v

theorem Chk.bind_ok {α β : Type} {x : Chk α} {f : α → Chk β} {w v : Work} {a : α} (h : x w = .ok (a, v)) :
    (x >>= f) w = f a v := by
  show (StateT.bind x f) w = _
  unfold StateT.bind
  simp only [h, bind, Except.bind]

theorem Chk.bind_error {α β : Type} {x : Chk α} {f : α → Chk β} {w : Work} {e : Option Nat × Work}
    (h : x w = .error e) :
    (x >>= f) w = .error e := by
  show (StateT.bind x f) w = _
  unfold StateT.bind
  simp only [h, bind, Except.bind]

theorem Chk.Quiet.bind {α β : Type} {x : Chk α} {f : α → Chk β} (hx : x.Quiet) (hf : ∀ a, (f a).Quiet) :
    Chk.Quiet (x >>= f) := by
  intro w b u h
  cases hw : x w with
  | error e => rw [Chk.bind_error hw] at h; cases h
  | ok p =>
    obtain ⟨a, v⟩ := p
    rw [Chk.bind_ok hw] at h
    exact (hx w a v hw).trans (hf a v b u h)

theorem Chk.Quiet.pure {α : Type} (a : α) : Chk.Quiet (Pure.pure a : Chk α) := by
  intro w b v h; cases h; exact Work.Quiet.refl w

theorem Chk.Quiet.get : Chk.Quiet (MonadState.get : Chk Work) := by
  intro w b v h; cases h; exact Work.Quiet.refl w

theorem Chk.Quiet.fail {α : Type} (o : Nat) : Chk.Quiet (Chk.fail o : Chk α) := by
  intro w b v h; cases h

theorem Chk.Quiet.need (o : Nat) (ok : Bool) : Chk.Quiet (Chk.need o ok) := by
  unfold Chk.need; split
  · exact Chk.Quiet.pure _
  · exact Chk.Quiet.fail _

theorem Work.descIn_quiet (w : Work) (p : Option Nat) (id : Nat) : w.Quiet (w.descIn p id) := by
  unfold Work.descIn; split
  · split
    · exact Work.Quiet.refl w
    · exact Work.portNow_quiet w _ 128 true
  · exact Work.Quiet.refl w

theorem Chk.Quiet.desc (o : Nat) (p : Option Nat) (id : Nat) : Chk.Quiet (Chk.desc o p id) := by
  intro w b v h
  unfold Chk.desc at h
  dsimp only at h
  split at h
  · cases h; exact Work.descIn_quiet w p id
  · cases h

theorem Chk.Quiet.translate (o die : Nat) (tr : Trans) (va : Nat) (n : Need) :
    Chk.Quiet (Chk.translate o die tr va n) := by
  intro w b v h
  unfold Chk.translate at h
  have hc := Work.translate_quiet w (fiCache die) tr va n
  generalize w.translate (fiCache die) tr va n = r at h hc
  obtain ⟨e, v'⟩ := r
  cases e with
  | ok p =>
    obtain ⟨k, kind⟩ := p
    dsimp only at h
    split at h <;> cases h
    exact hc
  | error e => cases e <;> cases h

theorem Chk.Quiet.ite {α : Type} {p : Prop} [Decidable p] {x y : Chk α} (hx : x.Quiet) (hy : y.Quiet) :
    Chk.Quiet (if p then x else y) := by
  split <;> assumption

theorem Chk.Quiet.indices (o die : Nat) (tr : Trans) (x : Desc) :
    ∀ n k, Chk.Quiet (Chk.indices o die tr x k n)
  | 0, _ => Chk.Quiet.pure _
  | n + 1, k => by
    intro w a u h
    unfold Chk.indices at h
    dsimp only at h
    rw [Chk.bind_ok (show (MonadState.get : Chk Work) w = .ok (w, w) from rfl)] at h
    have hc := Work.spanOf_quiet w (fiCache die) tr (x.elem k) (fmtSize x.fmt) .read
    generalize w.spanOf (fiCache die) tr (x.elem k) (fmtSize x.fmt) .read = r at h hc
    obtain ⟨e, v⟩ := r
    cases e with
    | error e => obtain ⟨f, at_⟩ := e; cases f <;> cases h
    | ok rs =>
      dsimp only at h
      split at h
      · cases h
      · rw [Chk.bind_ok (show (MonadStateOf.set (Work.portsNow true rs v) : Chk PUnit) w = .ok (⟨⟩, _) from rfl)] at h
        exact (hc.trans (Work.portsNow_quiet true rs v)).trans (Chk.Quiet.bind (Chk.Quiet.indices o die tr x n (k + 1)) (fun _ => Chk.Quiet.pure _) _ _ _ h)

theorem Chk.Quiet.forIn {α β : Type} {f : α → β → Chk (ForInStep β)} (hf : ∀ a b, (f a b).Quiet) :
    ∀ (l : List α) (b : β), Chk.Quiet (forIn l b f)
  | [], b => by rw [List.forIn_nil]; exact Chk.Quiet.pure b
  | a :: l, b => by
    rw [List.forIn_cons]
    refine Chk.Quiet.bind (hf a b) (fun r => ?_)
    cases r with
    | done c => exact Chk.Quiet.pure c
    | yield c => exact Chk.Quiet.forIn hf l c

theorem Chk.Quiet.rule (o : Option Nat) : Chk.Quiet (Chk.rule o) := by
  cases o
  · exact Chk.Quiet.pure _
  · exact Chk.Quiet.fail _

theorem Chk.Quiet.firstBytes (die : Nat) (tr : Trans) (rs : List JobRange) : Chk.Quiet (Chk.firstBytes die tr rs) := by
  unfold Chk.firstBytes
  refine Chk.Quiet.bind (Chk.Quiet.forIn (fun r _ => ?_) _ _) (fun _ => Chk.Quiet.pure _)
  exact Chk.Quiet.ite (Chk.Quiet.bind (Chk.Quiet.translate _ _ _ _ _) (fun _ => Chk.Quiet.pure _)) (Chk.Quiet.pure _)

theorem Chk.Quiet.covers (c : Card) (rs : List JobRange) : Chk.Quiet (Chk.covers c rs) :=
  Chk.Quiet.bind (Chk.Quiet.forIn (fun _ _ => Chk.Quiet.bind (Chk.Quiet.need _ _) (fun _ => Chk.Quiet.pure _)) _ _)
    (fun _ => Chk.Quiet.pure _)

theorem Chk.Quiet.group (die : Nat) (tr : Trans) (c : Card) (src dst : Desc) :
    Chk.Quiet (Chk.group die tr c src dst) :=
  Chk.Quiet.bind (Chk.Quiet.need _ _) (fun _ => Chk.Quiet.bind (Chk.Quiet.translate _ _ _ _ _) (fun _ =>
    Chk.Quiet.bind (Chk.Quiet.need _ _) (fun _ => Chk.Quiet.bind Chk.Quiet.get (fun _ =>
      Chk.Quiet.bind (Chk.Quiet.rule _) (fun _ => Chk.Quiet.pure _)))))

/-- Every check of a card changes caches alone (R125). -/
theorem Chk.Quiet.checkCard (k : Nat) (t : Thread) (pend : Nat) (va : Word) (d : List Byte) (kind : Nat) (foot : Bool) :
    Chk.Quiet (checkCard k t pend va d kind foot) := by
  unfold Machine.checkCard
  repeat' first
    | with_reducible exact Chk.Quiet.pure _
    | with_reducible exact Chk.Quiet.get
    | with_reducible exact Chk.Quiet.fail _
    | with_reducible exact Chk.Quiet.need _ _
    | with_reducible exact Chk.Quiet.desc _ _ _
    | with_reducible exact Chk.Quiet.translate _ _ _ _ _
    | with_reducible exact Chk.Quiet.indices _ _ _ _ _ _
    | with_reducible exact Chk.Quiet.rule _
    | with_reducible exact Chk.Quiet.firstBytes _ _ _
    | with_reducible exact Chk.Quiet.group _ _ _ _ _
    | with_reducible exact Chk.Quiet.covers _ _
    | with_reducible refine Chk.Quiet.bind ?_ (fun _ => ?_)
    | with_reducible refine Chk.Quiet.ite ?_ ?_

/-- What every answer of a check satisfies. -/
def Chk.Yields {α : Type} (P : α → Prop) (x : Chk α) : Prop := ∀ w a v, x w = .ok (a, v) → P a

theorem Chk.Yields.bind {α β : Type} {P : β → Prop} {x : Chk α} {f : α → Chk β} (hf : ∀ a, Chk.Yields P (f a)) :
    Chk.Yields P (x >>= f) := by
  intro w b u h
  cases hw : x w with
  | error e => rw [Chk.bind_error hw] at h; cases h
  | ok p =>
    obtain ⟨a, v⟩ := p
    rw [Chk.bind_ok hw] at h
    exact hf a v b u h

theorem Chk.Yields.pure {α : Type} {P : α → Prop} {a : α} (h : P a) : Chk.Yields P (Pure.pure a : Chk α) := by
  intro w b v hb; cases hb; exact h

theorem Chk.Yields.ite {α : Type} {P : α → Prop} {p : Prop} [Decidable p] {x y : Chk α} 
    (hx : p → Chk.Yields P x) (hy : ¬ p → Chk.Yields P y) : Chk.Yields P (if p then x else y) := by
  by_cases h : p
  · rw [if_pos h]; exact hx h
  · rw [if_neg h]; exact hy h

/-- The job a card asks for carries what the card and its thread say (R125); one whose kind reads no index tensor
has met no failure. -/
theorem checkCard_job {k : Nat} {t : Thread} {pend : Nat} {va : Word} {d : List Byte} {kind : Nat} {foot : Bool} :
    Chk.Yields (fun j => j.agent = k ∧ j.card = parseCard d ∧ j.cardVa = va ∧ j.tag = t.jobTag + 1 ∧ j.pos = 0 ∧
      j.data = none ∧ (¬ (kind = 2 ∨ kind = 3) → j.fail = none) ∧ j.nbv = t.nbv ∧ j.die = agentDie k ∧ j.gathered = (kind != 4))
      (checkCard k t pend va d kind foot) := by
  unfold Machine.checkCard
  repeat' first
    | with_reducible refine Chk.Yields.pure ?_
    | with_reducible refine Chk.Yields.bind (fun _ => ?_)
    | with_reducible refine Chk.Yields.ite (fun _ => ?_) (fun _ => ?_)
    | exact ⟨rfl, rfl, rfl, rfl, rfl, rfl, fun _ => rfl, rfl, rfl, rfl⟩
    | exact ⟨rfl, rfl, rfl, rfl, rfl, rfl, fun n => absurd (And.left ‹(kind = 2 ∨ kind = 3) ∧ (!foot) = true›) n, rfl, rfl, rfl⟩

/-- A check made in a control word changes caches alone. -/
theorem Ctl.Quiet.check {α : Type} {x : Chk α} (va : Word) (hx : x.Quiet) : Ctl.Quiet (Ctl.check va x) := by
  intro w a v h
  unfold Ctl.check at h
  split at h
  · rename_i r hr
    cases h
    exact hx _ _ _ hr
  · cases h
  · cases h

/-- The card of an engine word is read: caches change alone. -/
theorem Ctl.Quiet.card (t : Thread) (va : Word) : Ctl.Quiet (Ctl.card t va) := by
  unfold Ctl.card
  repeat' first
    | exact Ctl.Quiet.pure _
    | exact Ctl.Quiet.get
    | exact Ctl.Quiet.trap _ _
    | exact Ctl.Quiet.block _ _ _
    | refine Ctl.Quiet.bind ?_ (fun _ => ?_)
    | refine Ctl.Quiet.ite ?_ ?_

end Sys2Proof.Machine
end

