-- ==== Sys2Proof/Laws/Stages.lean ====
section
/-!
SUPPORT. What the element words of R205 to R221 compute: compute_gives, which a prover of a firing's result cites.
-/

namespace Sys2Proof.Machine

/-! ## The transcendental words (R213) -/

theorem two_zpow_inj {a b : ℤ} (h : (2 : ℚ) ^ a = 2 ^ b) : a = b := zpow_right_injective₀ (by norm_num) (by norm_num) h

theorem zpow_toNat {k : ℤ} (h : 0 ≤ k) : (2 : ℚ) ^ k = ((2 ^ k.toNat : Nat) : ℚ) := by
  push_cast
  rw [← zpow_natCast]; congr 1; omega

/-- The model's base-2 logarithm of a power of two. -/
theorem log2FV_pow (n d : Nat) (hn : n ≠ 0) (hd : d ≠ 0) (j : ℤ) (h : (n / d : ℚ) = 2 ^ j) : log2FV n d = FV.ofInt j := by
  obtain ⟨l1, l2⟩ := ilog2_spec n d hn hd
  rw [h] at l1 l2
  have e : ilog2 n d = j := by
    have a1 := (zpow_le_zpow_iff_right₀ (by norm_num : (1 : ℚ) < 2)).1 l1
    have a2 := (zpow_lt_zpow_iff_right₀ (by norm_num : (1 : ℚ) < 2)).1 l2
    omega
  unfold log2FV
  dsimp only
  rw [e]
  obtain ⟨s1, s2⟩ := scaled_spec n d hd (j - (fx : ℤ))
  generalize scaled n d (j - (fx : ℤ)) = p at *
  obtain ⟨a, b⟩ := p
  dsimp only at *
  have b0 : (b : ℚ) ≠ 0 := by exact_mod_cast s1
  rw [h, zpow_sub₀ (by norm_num : (2 : ℚ) ≠ 0)] at s2
  have hj : (2 : ℚ) ^ j ≠ 0 := (zpow_pos (by norm_num) j).ne'
  have key : (a : ℚ) = 2 ^ fx * b := by
    rw [zpow_natCast] at s2
    field_simp at s2
    linear_combination s2
  have key' : a = 2 ^ fx * b := by exact_mod_cast key
  have h1 : a / b = 2 ^ fx := by rw [key']; exact Nat.mul_div_cancel _ (Nat.pos_of_ne_zero s1)
  have h2 : a % b = 0 := by rw [key']; exact Nat.mul_mod_left _ _
  rw [if_pos ⟨h1, h2⟩]

/-- The model's inverse square root of an even power of two. -/
theorem rsqrtFV_pow (n d : Nat) (hn : n ≠ 0) (hd : d ≠ 0) (j : ℤ) (hj : |j| ≤ 150) (h : (n / d : ℚ) = 2 ^ (2 * j)) :
    (rsqrtFV n d).Is false (2 ^ (-j)) := by
  have hj := abs_le.1 hj
  have two : (2 : ℚ) ≠ 0 := by norm_num
  have n0 : (n : ℚ) ≠ 0 := by exact_mod_cast hn
  have d0 : (d : ℚ) ≠ 0 := by exact_mod_cast hd
  have key : d * 2 ^ 600 = (2 ^ (300 - j).toNat * 2 ^ (300 - j).toNat) * n := by
    have : (d : ℚ) * 2 ^ 600 = ((2 ^ (300 - j).toNat : Nat) : ℚ) * ((2 ^ (300 - j).toNat : Nat) : ℚ) * n := by
      rw [← zpow_toNat (by omega : 0 ≤ 300 - j), ← zpow_add₀ two]
      have hn' : (n : ℚ) = 2 ^ (2 * j) * d := by rw [← h]; field_simp
      rw [hn', ← mul_assoc, ← zpow_add₀ two]
      have : (300 - j + (300 - j) + 2 * j : ℤ) = (600 : Nat) := by push_cast; ring
      rw [this, zpow_natCast]; ring
    exact_mod_cast this
  unfold rsqrtFV
  dsimp only
  rw [key, Nat.mul_div_cancel _ (Nat.pos_of_ne_zero hn), Nat.sqrt_eq, Nat.mul_mod_left, if_pos ⟨rfl, rfl⟩]
  have hs := FV.scale_is false (2 ^ (300 - j).toNat) 1 (by decide) (-300)
  rw [← zpow_toNat (by omega : 0 ≤ 300 - j), Nat.cast_one, div_one, ← zpow_add₀ two] at hs
  have : (300 - j + -300 : ℤ) = -j := by ring
  rwa [this] at hs

/-- The model's power of two of an integer. -/
theorem exp2FV_int (s : Bool) (n d : Nat) (hd : d ≠ 0) (j : ℤ) (h1 : -149 ≤ j) (h2 : j ≤ 127)
    (h : (FV.num s n d).rat = j) : (exp2FV s n d).Is false (2 ^ j) := by
  have d0 : (d : ℚ) ≠ 0 := by exact_mod_cast hd
  have hmul : (n : ℚ) = |j| * d := by
    have : (n / d : ℚ) = |(j : ℚ)| := by
      have p : (0 : ℚ) ≤ n / d := by positivity
      rw [← h, FV.rat_num]
      cases s <;> simp [abs_of_nonneg p]
    rw [div_eq_iff d0] at this
    rw [this, Int.cast_abs]
  have hn : n = j.natAbs * d := by
    have : (n : ℚ) = ((j.natAbs * d : Nat) : ℚ) := by
      rw [hmul]; push_cast; rw [Nat.cast_natAbs, Int.cast_abs]
    exact_mod_cast this
  have hdiv : n * 2 ^ 150 / d = j.natAbs * 2 ^ 150 := by
    rw [hn, Nat.mul_right_comm]; exact Nat.mul_div_cancel _ (Nat.pos_of_ne_zero hd)
  have ht : ((if s then -1 else 1) * ((n * 2 ^ 150 / d : Nat) : ℤ)) = j * 2 ^ 150 := by
    rw [hdiv]
    have hs : (if s then -1 else 1) * (j.natAbs : ℤ) = j := by
      rw [FV.rat_num] at h
      have p : (0 : ℚ) ≤ n / d := by positivity
      cases s
      · simp only [Bool.false_eq_true, if_false] at h ⊢
        have : (0 : ℚ) ≤ j := by rw [← h]; exact p
        have : 0 ≤ j := by exact_mod_cast this
        omega
      · simp only [if_true] at h ⊢
        have : (j : ℚ) ≤ 0 := by rw [← h]; linarith
        have : j ≤ 0 := by exact_mod_cast this
        omega
    push_cast
    rw [← mul_assoc, ← Int.natCast_natAbs, hs]
  unfold exp2FV
  dsimp only
  rw [ht]
  have hw : j * 2 ^ 150 / 2 ^ 150 = j := Int.mul_ediv_cancel _ (by norm_num)
  have hf : j * 2 ^ 150 % 2 ^ 150 = 0 := Int.mul_emod_left _ _
  rw [hw, hf, if_neg (by omega), if_neg (by omega)]
  have hs := FV.scale_is false 1 1 (by decide) j
  simpa using hs

theorem FV.ofInt_ok (z : Int) : (FV.ofInt z).Ok := (FV.ofInt_exactly z).ok

theorem FV.scale_ok (v : FV) (h : v.Ok) (k : ℤ) : (v.scale k).Ok := by
  cases v with
  | num s n d => exact (FV.scale_is s n d (h s n d rfl) k).ok
  | nan => intro _ _ _ e; cases e
  | inf s => intro _ _ _ e; cases e

/-- The model's transcendental words (R213). -/
theorem transFV_transcends (op : Nat) (hop : op = 0x12 ∨ op = 0x13 ∨ op = 0x14 ∨ op = 0x15) (v : FV) (hv : v.Ok) :
    Transcends op v (transFV op v) ∧ (transFV op v).Ok := by
  have nn : FV.nan.Ok := by intro _ _ _ e; cases e
  have ni : ∀ s, (FV.inf s).Ok := by intro _ _ _ _ e; cases e
  have noI : ∀ s u q, ¬ (FV.inf s).Is u q := by rintro s u q ⟨_, _, e, _⟩; cases e
  have noN : ∀ u q, ¬ FV.nan.Is u q := by rintro u q ⟨_, _, e, _⟩; cases e
  have uniq : ∀ {s n d u q}, (FV.num s n d).Is u q → d ≠ 0 → s = u ∧ q = n / d := by
    rintro s n d u q ⟨n', d', e, _, h⟩ _
    cases e; exact ⟨rfl, h.symm⟩
  have zz : ∀ {n d : Nat}, d ≠ 0 → ((n / d : ℚ) = 0 ↔ n = 0) := by
    intro n d hd
    have : (d : ℚ) ≠ 0 := by exact_mod_cast hd
    rw [div_eq_zero_iff]; simp [this]
  rcases hop with h | h | h | h <;> subst h
  · cases v with
    | nan => exact ⟨⟨fun _ => rfl, by simp, fun s h => (noN _ _ h).elim, fun s q h => (noN _ _ h).elim⟩, nn⟩
    | inf s =>
      refine ⟨⟨by simp, fun u e => ?_, fun s h => (noI _ _ _ h).elim, fun s q h => (noI _ _ _ h).elim⟩, ?_⟩
      · cases e; exact ⟨0, 1, rfl, by decide, by simp⟩
      · intro _ _ _ e; cases e; decide
    | num s n d =>
      have hd := hv s n d rfl
      have d0 : (d : ℚ) ≠ 0 := by exact_mod_cast hd
      rw [show transFV 0x12 (.num s n d) = if n = 0 then .inf s else .num s d n from rfl]
      by_cases hn : n = 0
      · rw [if_pos hn]
        refine ⟨⟨by simp, by simp, fun u h => ?_, fun u q h hq => ?_⟩, ni s⟩
        · rw [(uniq h hd).1]
        · exact absurd ((uniq h hd).2.trans ((zz hd).2 hn)) hq
      · rw [if_neg hn]
        refine ⟨⟨by simp, by simp, fun u h => ?_, fun u q h hq => ?_⟩, ?_⟩
        · exact absurd ((zz hd).1 (uniq h hd).2.symm) hn
        · obtain ⟨rfl, rfl⟩ := uniq h hd
          exact ⟨d, n, rfl, hn, by rw [one_div_div]⟩
        · intro _ _ _ e; cases e; exact hn
  · cases v with
    | nan =>
      exact ⟨⟨fun _ => rfl, by simp, by simp, fun s h => (noN _ _ h).elim, fun q h => (noN _ _ h).elim,
        fun j _ h => (noN _ _ h).elim⟩, nn⟩
    | inf s =>
      refine ⟨⟨by simp, fun e => ?_, fun e => ?_, fun s h => (noI _ _ _ h).elim, fun q h => (noI _ _ _ h).elim,
        fun j _ h => (noI _ _ _ h).elim⟩, ?_⟩
      · cases e; exact ⟨0, 1, rfl, by decide, by simp⟩
      · cases e; rfl
      · cases s
        · exact FV.zero_ok
        · exact nn
    | num s n d =>
      have hd := hv s n d rfl
      have d0 : (d : ℚ) ≠ 0 := by exact_mod_cast hd
      rw [show transFV 0x13 (.num s n d) = if n = 0 then .inf s else if s then .nan else rsqrtFV n d from rfl]
      by_cases hn : n = 0
      · rw [if_pos hn]
        refine ⟨⟨by simp, by simp, by simp, fun u h => ?_, fun q h hq => ?_, fun j _ h => ?_⟩, ni s⟩
        · rw [(uniq h hd).1]
        · exact absurd ((uniq h hd).2.trans ((zz hd).2 hn)) hq
        · have := (uniq h hd).2
          rw [(zz hd).2 hn] at this
          exact absurd this (zpow_pos (by norm_num) _).ne'
      · rw [if_neg hn]
        cases s
        · simp only [Bool.false_eq_true, if_false]
          refine ⟨⟨by simp, by simp, by simp, fun u h => ?_, fun q h hq => ?_, fun j hj h => ?_⟩, ?_⟩
          · exact absurd ((zz hd).1 (uniq h hd).2.symm) hn
          · exact absurd (uniq h hd).1 (by simp)
          · exact rsqrtFV_pow n d hn hd j hj (uniq h hd).2.symm
          · unfold rsqrtFV
            dsimp only
            split
            · exact FV.scale_ok _ (by intro _ _ _ e; cases e; decide) _
            · exact FV.scale_ok _ (by intro _ _ _ e; cases e; decide) _
        · simp only [if_true]
          refine ⟨⟨by simp, by simp, by simp, fun u h => ?_, fun q h hq => rfl, fun j hj h => ?_⟩, nn⟩
          · exact absurd ((zz hd).1 (uniq h hd).2.symm) hn
          · exact absurd (uniq h hd).1 (by simp)
  · cases v with
    | nan =>
      exact ⟨⟨fun _ => rfl, by simp, by simp, fun s h => (noN _ _ h).elim, fun q h => (noN _ _ h).elim,
        fun j h => (noN _ _ h).elim⟩, nn⟩
    | inf s =>
      refine ⟨⟨by simp, fun e => ?_, fun e => ?_, fun s h => (noI _ _ _ h).elim, fun q h => (noI _ _ _ h).elim,
        fun j h => (noI _ _ _ h).elim⟩, ?_⟩
      · cases e; rfl
      · cases e; rfl
      · cases s
        · exact ni false
        · exact nn
    | num s n d =>
      have hd := hv s n d rfl
      have d0 : (d : ℚ) ≠ 0 := by exact_mod_cast hd
      rw [show transFV 0x14 (.num s n d) = if n = 0 then .inf true else if s then .nan else log2FV n d from rfl]
      by_cases hn : n = 0
      · rw [if_pos hn]
        refine ⟨⟨by simp, by simp, by simp, fun u h => rfl, fun q h hq => ?_, fun j h => ?_⟩, ni true⟩
        · exact absurd ((uniq h hd).2.trans ((zz hd).2 hn)) hq
        · have := (uniq h hd).2
          rw [(zz hd).2 hn] at this
          exact absurd this (zpow_pos (by norm_num) _).ne'
      · rw [if_neg hn]
        cases s
        · simp only [Bool.false_eq_true, if_false]
          refine ⟨⟨by simp, by simp, by simp, fun u h => ?_, fun q h hq => ?_, fun j h => ?_⟩, ?_⟩
          · exact absurd ((zz hd).1 (uniq h hd).2.symm) hn
          · exact absurd (uniq h hd).1 (by simp)
          · rw [log2FV_pow n d hn hd j (uniq h hd).2.symm]; exact FV.ofInt_exactly j
          · unfold log2FV
            dsimp only
            split
            · exact FV.ofInt_ok _
            · exact FV.scale_ok _ (FV.ofInt_ok _) _
        · simp only [if_true]
          refine ⟨⟨by simp, by simp, by simp, fun u h => ?_, fun q h hq => rfl, fun j h => ?_⟩, nn⟩
          · exact absurd ((zz hd).1 (uniq h hd).2.symm) hn
          · exact absurd (uniq h hd).1 (by simp)
  · cases v with
    | nan => exact ⟨⟨fun _ => rfl, by simp, by simp, fun j z h => (noN _ _ h).elim⟩, nn⟩
    | inf s =>
      refine ⟨⟨by simp, fun e => ?_, fun e => ?_, fun j z h => (noI _ _ _ h).elim⟩, ?_⟩
      · cases e; rfl
      · cases e; exact ⟨0, 1, rfl, by decide, by simp⟩
      · cases s
        · exact ni false
        · exact FV.zero_ok
    | num s n d =>
      have hd := hv s n d rfl
      have d0 : (d : ℚ) ≠ 0 := by exact_mod_cast hd
      have hrat : ∀ {j : ℤ} {z : Bool}, (FV.num s n d).Exactly j z → (FV.num s n d).rat = j := by
        intro j z h
        rw [FV.rat_is h]
        by_cases h0 : (j : ℚ) = 0
        · rw [h0]; simp
        · rw [if_neg h0]
          by_cases hlt : (j : ℚ) < 0
          · rw [decide_eq_true hlt, if_pos rfl, abs_of_neg hlt, neg_neg]
          · rw [decide_eq_false hlt, if_neg (by simp), abs_of_nonneg (not_lt.1 hlt)]
      rw [show transFV 0x15 (.num s n d) = if n = 0 then .ofInt 1 else exp2FV s n d from rfl]
      by_cases hn : n = 0
      · rw [if_pos hn]
        refine ⟨⟨by simp, by simp, by simp, fun j z h h1 h2 => ?_⟩, FV.ofInt_ok _⟩
        have := hrat h
        rw [FV.rat_num, hn] at this
        have hj : (j : ℚ) = 0 := by rw [← this]; simp
        have hj' : j = 0 := by exact_mod_cast hj
        rw [hj']
        exact ⟨1, 1, rfl, by decide, by simp⟩
      · rw [if_neg hn]
        refine ⟨⟨by simp, by simp, by simp, fun j z h h1 h2 => exp2FV_int s n d hd j h1 h2 (hrat h)⟩, ?_⟩
        unfold exp2FV
        dsimp only
        repeat' split
        all_goals first
          | exact ni _
          | exact FV.zero_ok
          | exact FV.scale_ok _ (by intro _ _ _ e; cases e; decide) _

/-! ## Results element by element -/

theorem Res.plain_flags (v : Wide) : ∀ k, k < 16 → ¬ bitAt (Res.plain v).flags k = true := by
  intro k _ h
  simp [Res.plain, bitAt] at h

/-- Elements that raise no flag. -/
theorem resOf_pure (ty : Nat) (g : Nat → Nat) (hg : ∀ n, g n < 2 ^ tyWidth ty) :
    let r := resOf ty ((List.range (16 * tyCount ty)).map (fun n => (g n, false)))
    (∀ n, n < 16 * tyCount ty → el (tyWidth ty) n r.val = g n) ∧ ∀ k, k < 16 → ¬ bitAt r.flags k = true := by
  obtain ⟨h1, h2⟩ := resOf_map ty (fun n => (g n, false))
  refine ⟨fun n hn => (h1 n hn).trans (Nat.mod_eq_of_lt (hg n)), fun k hk hf => ?_⟩
  obtain ⟨n, _, h⟩ := (h2 k hk).1 hf
  cases h

theorem el_half (n : Nat) (v : Wide) (j : Nat) (hj : j < 2) : el 32 n v / 2 ^ (16 * j) % 2 ^ 16 = el 16 (2 * n + j) v := by
  unfold el
  have : j = 0 ∨ j = 1 := by omega
  rcases this with rfl | rfl
  · rw [show 16 * (2 * n + 0) = 32 * n by ring]; norm_num
  · rw [show 16 * (2 * n + 1) = 32 * n + 16 by ring, pow_add, ← Nat.div_div_eq_div_mul]; norm_num; omega

theorem el_quarter (n : Nat) (v : Wide) (j : Nat) (hj : j < 2) : el 16 n v / 2 ^ (8 * j) % 2 ^ 8 = el 8 (2 * n + j) v := by
  unfold el
  have : j = 0 ∨ j = 1 := by omega
  rcases this with rfl | rfl
  · rw [show 8 * (2 * n + 0) = 16 * n by ring]; norm_num
  · rw [show 8 * (2 * n + 1) = 16 * n + 8 by ring, pow_add, ← Nat.div_div_eq_div_mul]; norm_num; omega

/-- The operands and exact result of a binary word on floating elements. -/
theorem rounds_two (ty rnd : Nat) (hr : rnd < 4) (sat flush : Bool) (ht : tyFloat ty = true) (A B : Wide) (f : FV → FV → FV)
    (Q : FV → FV → FV → Prop) (hf : ∀ a b, a.Ok → b.Ok → (f a b).Ok ∧ Q a b (f a b)) :
    let r := resOf ty ((List.range (16 * tyCount ty)).map (fun n => fltRes ty rnd sat flush
      (f (fltOf ty flush (el (tyWidth ty) n A)) (fltOf ty flush (el (tyWidth ty) n B)))))
    Rounds ty rnd sat flush (fun n r => ∃ x y, Val ty flush n A x ∧ Val ty flush n B y ∧ Q x y r) r.val ∧
      ∀ k, k < 16 → ¬ bitAt r.flags k = true :=
  resOf_rounds ty rnd hr sat flush ht _ _ (fun n =>
    ⟨(hf _ _ (fltOf_ok ty flush n A) (fltOf_ok ty flush n B)).1, _, _, fltOf_val .., fltOf_val ..,
      (hf _ _ (fltOf_ok ty flush n A) (fltOf_ok ty flush n B)).2⟩)

theorem rounds_one (ty rnd : Nat) (hr : rnd < 4) (sat flush : Bool) (ht : tyFloat ty = true) (A : Wide) (f : FV → FV)
    (Q : FV → FV → Prop) (hf : ∀ a, a.Ok → (f a).Ok ∧ Q a (f a)) :
    let r := resOf ty ((List.range (16 * tyCount ty)).map (fun n => fltRes ty rnd sat flush (f (fltOf ty flush (el (tyWidth ty) n A)))))
    Rounds ty rnd sat flush (fun n r => ∃ x, Val ty flush n A x ∧ Q x r) r.val ∧ ∀ k, k < 16 → ¬ bitAt r.flags k = true :=
  resOf_rounds ty rnd hr sat flush ht _ _ (fun n => ⟨(hf _ (fltOf_ok ty flush n A)).1, _, fltOf_val .., (hf _ (fltOf_ok ty flush n A)).2⟩)

/-- What a word gives, as compute computes it. -/
def StageW.Done (s : StageW) (flush scalarA : Bool) (A B C : Wide) : Prop :=
  let x := compute s flush scalarA (s.b == 15) A B C
  x.err = false ∧ s.Gives flush scalarA A B C x.val (fun k => bitAt x.flags k = true)

variable {s : StageW} {flush scalarA : Bool} {A B C : Wide}

theorem gives_arith (hr : s.rnd < 4) (h : s.op = 1 ∨ s.op = 2 ∨ s.op = 3) : s.Done flush scalarA A B C := by
  have e : compute s flush scalarA (s.b == 15) A B C = map2 s.ty (arithEl s.op s flush) A B := by
    unfold compute; rcases h with h | h | h <;> rw [h] <;> rfl
  unfold StageW.Done
  rw [e, map2_eq]
  refine ⟨rfl, ?_⟩
  unfold arithEl
  by_cases ht : tyFloat s.ty = true
  · simp only [ht, if_true]
    rcases h with h | h | h <;> simp only [StageW.Gives, h, ht, if_true]
    · exact rounds_two s.ty s.rnd hr s.sat flush ht A B (fun a b => a.add (s.rnd == 2) b) (fun x y r => IsSum (s.rnd == 2) x y r)
        (fun a b ha hb => ⟨(FV.add_isSum _ a b ha hb).2, (FV.add_isSum _ a b ha hb).1⟩)
    · exact rounds_two s.ty s.rnd hr s.sat flush ht A B (fun a b => a.add (s.rnd == 2) b.neg) (fun x y r => IsSum (s.rnd == 2) x y.neg r)
        (fun a b ha hb => ⟨(FV.add_isSum _ a _ ha hb.neg).2, (FV.add_isSum _ a _ ha hb.neg).1⟩)
    · exact rounds_two s.ty s.rnd hr s.sat flush ht A B FV.mul IsProd
        (fun a b ha hb => ⟨(FV.mul_isProd a b ha hb).2, (FV.mul_isProd a b ha hb).1⟩)
  · simp only [ht, Bool.false_eq_true, if_false, intOf_el]
    rcases h with h | h | h <;> simp only [StageW.Gives, h, ht, Bool.false_eq_true, if_false]
    · exact resOf_brings s.ty s.sat (fun n => intEl s.ty n A + intEl s.ty n B)
    · exact resOf_brings s.ty s.sat (fun n => intEl s.ty n A - intEl s.ty n B)
    · exact resOf_brings s.ty s.sat (fun n => intEl s.ty n A * intEl s.ty n B)

theorem gives_fma (hr : s.rnd < 4) (h : s.op = 4) (ht : tyFloat s.ty = true) : s.Done flush scalarA A B C := by
  unfold StageW.Done
  simp only [compute, StageW.Gives, h, map3_eq, fmaEl]
  refine ⟨rfl, resOf_rounds s.ty s.rnd hr s.sat flush ht _ _ (fun n => ?_)⟩
  have hp := FV.mul_isProd _ _ (fltOf_ok s.ty flush n A) (fltOf_ok s.ty flush n B)
  have hs := FV.add_isSum (s.rnd == 2) _ _ hp.2 (fltOf_ok s.ty flush n C)
  exact ⟨hs.2, _, _, _, _, fltOf_val .., fltOf_val .., fltOf_val .., hp.1, hs.1⟩

theorem nan_res (ty rnd : Nat) (sat flush : Bool) : (nanCode (tyFmt ty), false) = fltRes ty rnd sat flush .nan := by
  unfold fltRes encodeF
  cases tyFmt ty <;> rfl

theorem FV.isNan_iff (v : FV) : v.isNan = true ↔ v = .nan := by cases v <;> simp [FV.isNan]

theorem gives_max (h : s.op = 5 ∨ s.op = 6) : s.Done flush scalarA A B C := by
  have split : ∀ isMax : Bool, (compute s flush scalarA (s.b == 15) A B C = map2 s.ty (maxEl isMax s flush) A B) →
      (isMax = true ↔ s.op = 5) → s.Done flush scalarA A B C := by
    intro isMax e hm
    unfold StageW.Done
    rw [e, map2_eq]
    refine ⟨rfl, ?_⟩
    have g : s.Gives flush scalarA A B C = fun R F => (if tyFloat s.ty then Rounds s.ty 0 false flush (fun n r => ∃ x y, Val s.ty flush n A x ∧ Val s.ty flush n B y ∧
        ((x = .nan ∨ y = .nan → r = .nan) ∧ (x ≠ .nan → y ≠ .nan →
          (x.Under y → r = if s.op = 5 then y else x) ∧ (¬ x.Under y → r = if s.op = 5 then x else y)))) R
      else Each s.ty (fun n => (el (tyWidth s.ty) n R = el (tyWidth s.ty) n A ∨ el (tyWidth s.ty) n R = el (tyWidth s.ty) n B) ∧
        intEl s.ty n R = if s.op = 5 then max (intEl s.ty n A) (intEl s.ty n B) else min (intEl s.ty n A) (intEl s.ty n B))) ∧ ∀ k, k < 16 → ¬ F k := by
      funext R F
      unfold StageW.Gives
      rcases h with h | h <;> rw [h] <;> rfl
    rw [g]
    dsimp only
    unfold maxEl
    by_cases ht : tyFloat s.ty = true
    · simp only [ht, if_true]
      have e2 : (fun n => if (fltOf s.ty flush (el (tyWidth s.ty) n A)).isNan || (fltOf s.ty flush (el (tyWidth s.ty) n B)).isNan then (nanCode (tyFmt s.ty), false)
          else fltRes s.ty 0 false flush (if (fltOf s.ty flush (el (tyWidth s.ty) n A)).below (fltOf s.ty flush (el (tyWidth s.ty) n B)) == isMax then fltOf s.ty flush (el (tyWidth s.ty) n B) else fltOf s.ty flush (el (tyWidth s.ty) n A)))
          = fun n => fltRes s.ty 0 false flush ((fun a b => if a.isNan || b.isNan then .nan else if FV.below a b == isMax then b else a)
            (fltOf s.ty flush (el (tyWidth s.ty) n A)) (fltOf s.ty flush (el (tyWidth s.ty) n B))) := by
        funext n
        by_cases hh : ((fltOf s.ty flush (el (tyWidth s.ty) n A)).isNan || (fltOf s.ty flush (el (tyWidth s.ty) n B)).isNan) = true
        · simp only [hh, if_true]; exact nan_res ..
        · simp only [hh, if_false, Bool.false_eq_true]
      rw [e2]
      refine rounds_two s.ty 0 (by decide) false flush ht A B (fun a b => if a.isNan || b.isNan then .nan else if FV.below a b == isMax then b else a)
        (fun x y r => (x = .nan ∨ y = .nan → r = .nan) ∧ (x ≠ .nan → y ≠ .nan →
          (x.Under y → r = if s.op = 5 then y else x) ∧ (¬ x.Under y → r = if s.op = 5 then x else y))) (fun a b ha hb => ?_)
      have hu := FV.below_under a b ha hb
      have na := a.isNan_iff
      have nb := b.isNan_iff
      refine ⟨by
        split
        · intro _ _ _ e; cases e
        · split <;> assumption, fun hn => ?_, fun n1 n2 => ⟨fun u => ?_, fun u => ?_⟩⟩
      · rw [if_pos (by simpa [na, nb] using hn)]
      · rw [if_neg (by simp [na, nb, n1, n2]), hu.2 u]
        cases isMax <;> simp_all
      · have : a.below b = false := by simpa using fun hh => u (hu.1 hh)
        rw [if_neg (by simp [na, nb, n1, n2]), this]
        cases isMax <;> simp_all
    · simp only [ht, if_false, Bool.false_eq_true]
      have e2 : (fun n => (if decide (intOf s.ty (el (tyWidth s.ty) n A) < intOf s.ty (el (tyWidth s.ty) n B)) == isMax then el (tyWidth s.ty) n B else el (tyWidth s.ty) n A, false))
        = fun n => ((if decide (intEl s.ty n A < intEl s.ty n B) == isMax then el (tyWidth s.ty) n B else el (tyWidth s.ty) n A), false) := by
        funext n; rw [intOf_el, intOf_el]
      rw [e2]
      obtain ⟨p1, p2⟩ := resOf_pure s.ty (fun n => if decide (intEl s.ty n A < intEl s.ty n B) == isMax then el (tyWidth s.ty) n B else el (tyWidth s.ty) n A)
        (fun n => by split <;> exact el_lt ..)
      refine ⟨fun n hn => ?_, p2⟩
      have p := p1 n hn
      have iv : ∀ v : Wide, el (tyWidth s.ty) n v = el (tyWidth s.ty) n A → intEl s.ty n v = intEl s.ty n A := fun v e => by unfold intEl; rw [e]
      have iw : ∀ v : Wide, el (tyWidth s.ty) n v = el (tyWidth s.ty) n B → intEl s.ty n v = intEl s.ty n B := fun v e => by unfold intEl; rw [e]
      by_cases c : decide (intEl s.ty n A < intEl s.ty n B) == isMax
      · rw [if_pos c] at p
        refine ⟨.inr p, ?_⟩
        rw [iw _ p]
        cases isMax <;> simp_all; omega
      · rw [if_neg c] at p
        refine ⟨.inl p, ?_⟩
        rw [iv _ p]
        cases isMax <;> simp_all; omega
  rcases h with h | h
  · exact split true (by unfold compute; rw [h]; rfl) (by simp [h])
  · exact split false (by unfold compute; rw [h]; rfl) (by simp [h])

theorem gives_abs (h : s.op = 7 ∨ s.op = 8) : s.Done flush scalarA A B C := by
  unfold StageW.Done
  by_cases ht : tyFloat s.ty = true
  · rcases h with h | h <;> simp only [compute, StageW.Gives, h, map1_eq, absEl, ht, if_true, Bool.false_eq_true, if_false]
    · exact ⟨rfl, rounds_one s.ty 0 (by decide) s.sat flush ht A FV.abs (fun x r => r = x.abs) (fun a ha => ⟨ha.abs, rfl⟩)⟩
    · exact ⟨rfl, rounds_one s.ty 0 (by decide) s.sat flush ht A FV.neg (fun x r => r = x.neg) (fun a ha => ⟨ha.neg, rfl⟩)⟩
  · rcases h with h | h <;> simp only [compute, StageW.Gives, h, map1_eq, absEl, ht, if_true, Bool.false_eq_true, if_false, intOf_el, Int.natCast_natAbs]
    · exact ⟨rfl, resOf_brings s.ty s.sat (fun n => |intEl s.ty n A|)⟩
    · exact ⟨rfl, resOf_brings s.ty s.sat (fun n => -intEl s.ty n A)⟩

theorem gives_bits (h : s.op = 9 ∨ s.op = 10 ∨ s.op = 11) : s.Done flush scalarA A B C := by
  rcases h with h | h | h <;>
  · unfold StageW.Done
    simp only [compute, StageW.Gives, h]
    exact ⟨rfl, rfl, Res.plain_flags _⟩

theorem gives_shift (h : s.op = 12 ∨ s.op = 13 ∨ s.op = 14) : s.Done flush scalarA A B C := by
  have pw : (0 : Int) < 2 ^ tyWidth s.ty := by positivity
  have pn : 0 < 2 ^ tyWidth s.ty := Nat.pow_pos (by decide)
  have h1 : ∀ z : Int, (((z % 2 ^ tyWidth s.ty).toNat : Nat) : Int) = z % 2 ^ tyWidth s.ty :=
    fun z => Int.toNat_of_nonneg (Int.emod_nonneg _ pw.ne')
  have h2 : ∀ z : Int, (z % 2 ^ tyWidth s.ty).toNat < 2 ^ tyWidth s.ty := by
    intro z
    have h3 := Int.emod_lt_of_pos z pw
    rw [← h1] at h3
    exact_mod_cast h3
  rcases h with h | h | h
  · unfold StageW.Done
    simp only [compute, StageW.Gives, h, map2_eq, shiftEl]
    exact ⟨rfl, resOf_pure s.ty _ (fun n => Nat.mod_lt _ pn)⟩
  · unfold StageW.Done
    simp only [compute, StageW.Gives, h, map2_eq, shiftEl]
    exact ⟨rfl, resOf_pure s.ty _ (fun n => lt_of_le_of_lt (Nat.div_le_self _ _) (el_lt ..))⟩
  · unfold StageW.Done
    simp only [compute, StageW.Gives, h, map2_eq, shiftEl]
    obtain ⟨p1, p2⟩ := resOf_pure s.ty (fun n => ((toSigned (tyWidth s.ty) (el (tyWidth s.ty) n A) / 2 ^ (el (tyWidth s.ty) n B % tyWidth s.ty)) % 2 ^ tyWidth s.ty).toNat) (fun n => h2 _)
    refine ⟨rfl, fun n hn => ?_, p2⟩
    beta_reduce
    rw [p1 n hn, h1, intVal_toSigned _ _ (el_lt ..)]

theorem ones_lt (q : Bool) (w : Nat) : (if q then 2 ^ w - 1 else 0) < 2 ^ w := by
  have := Nat.pow_pos (n := w) (show 0 < 2 by decide)
  split <;> omega

theorem relates_iff (r : Nat) (un lt eq : Bool) : Relates r (un = true) (lt = true) (eq = true) ↔ (match r with
    | 0 => !un && eq
    | 1 => un || !eq
    | 2 => !un && lt
    | 3 => !un && (lt || eq)
    | 4 => !un && !lt && !eq
    | 5 => !un && !lt
    | _ => un) = true := by
  match r with
  | 0 | 1 | 2 | 3 | 4 | 5 => simp [Relates, and_assoc]
  | _ + 6 => simp [Relates]

theorem gives_cmp (h : s.op = 15) : s.Done flush scalarA A B C := by
  have pn : 0 < 2 ^ tyWidth s.ty := Nat.pow_pos (by decide)
  unfold StageW.Done
  simp only [compute, StageW.Gives, h, map2_eq]
  have key : ∀ n, cmpEl s flush (el (tyWidth s.ty) n A) (el (tyWidth s.ty) n B)
      = ((cmpEl s flush (el (tyWidth s.ty) n A) (el (tyWidth s.ty) n B)).1, false) := fun n => by unfold cmpEl; rfl
  rw [show (fun n => cmpEl s flush (el (tyWidth s.ty) n A) (el (tyWidth s.ty) n B)) = _ from funext key]
  obtain ⟨p1, p2⟩ := resOf_pure s.ty (fun n => (cmpEl s flush (el (tyWidth s.ty) n A) (el (tyWidth s.ty) n B)).1) (fun n => by
    unfold cmpEl; exact ones_lt _ _)
  refine ⟨rfl, fun n hn => ?_, p2⟩
  beta_reduce
  rw [p1 n hn]
  have rel : ∀ (un lt eq : Bool) (U L E : Prop), (un = true ↔ U) → (lt = true ↔ L) → (eq = true ↔ E) →
      let pick := (match s.aux % 8 with
        | 0 => !un && eq
        | 1 => un || !eq
        | 2 => !un && lt
        | 3 => !un && (lt || eq)
        | 4 => !un && !lt && !eq
        | 5 => !un && !lt
        | _ => un)
      (Relates (s.aux % 8) U L E → (if pick then 2 ^ tyWidth s.ty - 1 else 0) = 2 ^ tyWidth s.ty - 1) ∧
      (¬ Relates (s.aux % 8) U L E → (if pick then 2 ^ tyWidth s.ty - 1 else 0) = 0) := by
    intro un lt eq U L E hu hl he
    obtain rfl : U = (un = true) := propext hu.symm
    obtain rfl : L = (lt = true) := propext hl.symm
    obtain rfl : E = (eq = true) := propext he.symm
    dsimp only
    rw [relates_iff]
    exact ⟨fun hh => by rw [if_pos hh], fun hh => by rw [if_neg hh]⟩
  by_cases ht : tyFloat s.ty = true
  · rw [if_pos ht]
    have ho := fltOf_ok s.ty flush n A
    have hob := fltOf_ok s.ty flush n B
    refine ⟨_, _, fltOf_val s.ty flush n A, fltOf_val s.ty flush n B, ?_⟩
    unfold cmpEl
    dsimp only
    rw [if_pos ht]
    generalize fltOf s.ty flush (el (tyWidth s.ty) n A) = a at *
    generalize fltOf s.ty flush (el (tyWidth s.ty) n B) = b at *
    by_cases hn : a = .nan ∨ b = .nan
    · have hnn : (a.isNan || b.isNan) = true := by rw [Bool.or_eq_true, a.isNan_iff, b.isNan_iff]; exact hn
      have l : ¬ a.Less b := by rcases hn with e | e <;> subst e <;> cases ‹FV› <;> simp [FV.Less]
      have l' : ¬ b.Less a := by rcases hn with e | e <;> subst e <;> cases ‹FV› <;> simp [FV.Less]
      have hlt : a.lt b = false := by simpa using fun hh => l ((FV.lt_less a b ho hob).1 hh)
      have hu : (a = .nan ∨ b = .nan) ↔ True := by simp [hn]
      rw [hnn]
      have r1 := rel true false false (a = .nan ∨ b = .nan) (a.Less b) False (by simp [hn]) (by simp [l]) (by simp)
      have pr : ∀ E, Relates (s.aux % 8) (a = .nan ∨ b = .nan) (a.Less b) E ↔ Relates (s.aux % 8) (a = .nan ∨ b = .nan) (a.Less b) False := by
        intro E; unfold Relates; split <;> simp [hn]
      rw [pr, hlt]
      have r2 := rel true false (a.eq b) (a = .nan ∨ b = .nan) (a.Less b) (a.eq b = true) (by simp [hn]) (by simp [l]) Iff.rfl
      rw [pr] at r2
      exact r2
    · have h1 : a ≠ .nan := fun e => hn (.inl e)
      have h2 : b ≠ .nan := fun e => hn (.inr e)
      exact rel _ _ _ _ _ _ (by rw [Bool.or_eq_true, a.isNan_iff, b.isNan_iff]) (FV.lt_less a b ho hob) (FV.eq_less a b ho hob h1 h2)
  · rw [if_neg ht]
    unfold cmpEl
    dsimp only
    rw [if_neg ht, intOf_el, intOf_el]
    exact rel _ _ _ _ _ _ (by simp) (by simp) (by simp)

theorem gives_sel (h : s.op = 16) : s.Done flush scalarA A B C := by
  unfold StageW.Done
  simp only [compute, StageW.Gives, h, map3_eq, selEl]
  obtain ⟨p1, p2⟩ := resOf_pure s.ty (fun n => if el (tyWidth s.ty) n C != 0 then el (tyWidth s.ty) n A else el (tyWidth s.ty) n B)
    (fun n => by split <;> exact el_lt ..)
  refine ⟨rfl, fun n hn => ?_, p2⟩
  beta_reduce
  rw [p1 n hn]
  by_cases hc : el (tyWidth s.ty) n C = 0 <;> simp [hc]

theorem gives_trans (h : s.op = 0x12 ∨ s.op = 0x13 ∨ s.op = 0x14 ∨ s.op = 0x15) : s.Done flush scalarA A B C := by
  have key : compute s flush scalarA (s.b == 15) A B C = map1 3 (transEl s flush) A := by
    unfold compute; rcases h with h | h | h | h <;> rw [h] <;> rfl
  have g : s.Gives flush scalarA A B C = fun R F => Rounds 3 0 s.sat flush (fun n r => ∃ x, Val 3 flush n A x ∧ Transcends s.op x r) R ∧ ∀ k, k < 16 → ¬ F k := by
    funext R F; unfold StageW.Gives; rcases h with h | h | h | h <;> rw [h] <;> rfl
  unfold StageW.Done
  rw [key, g, map1_eq]
  exact ⟨rfl, rounds_one 3 0 (by decide) s.sat flush rfl A (transFV s.op) (Transcends s.op)
    (fun a ha => ⟨(transFV_transcends s.op h a ha).2, (transFV_transcends s.op h a ha).1⟩)⟩

theorem gives_clz (h : s.op = 0x16) : s.Done flush scalarA A B C := by
  unfold StageW.Done
  simp only [compute, StageW.Gives, h, map1_eq]
  have hw := tyWidth_pos s.ty
  have bound : ∀ n, el (tyWidth s.ty) n A ≠ 0 → (el (tyWidth s.ty) n A).log2 < tyWidth s.ty := fun n h0 =>
    (Nat.log2_lt h0).2 (el_lt ..)
  have w32 : tyWidth s.ty < 2 ^ tyWidth s.ty := Nat.lt_two_pow_self
  obtain ⟨p1, p2⟩ := resOf_pure s.ty (fun n => leadZeros (tyWidth s.ty) (el (tyWidth s.ty) n A)) (fun n => by
    unfold leadZeros; split <;> omega)
  refine ⟨rfl, fun n hn => ?_, p2⟩
  beta_reduce
  rw [p1 n hn]
  unfold leadZeros
  refine ⟨fun h0 => if_pos h0, fun h0 => ?_⟩
  rw [if_neg h0]
  have hb := bound n h0
  have l1 := Nat.log2_self_le h0
  have l2 := Nat.lt_log2_self (n := el (tyWidth s.ty) n A)
  generalize el (tyWidth s.ty) n A = x at *
  refine ⟨by omega, ?_, ?_⟩
  · calc 2 ^ (tyWidth s.ty - 1) = 2 ^ x.log2 * 2 ^ (tyWidth s.ty - (x.log2 + 1)) := by rw [← pow_add]; congr 1; omega
      _ ≤ _ := Nat.mul_le_mul_right _ l1
  · calc _ < 2 ^ (x.log2 + 1) * 2 ^ (tyWidth s.ty - (x.log2 + 1)) := Nat.mul_lt_mul_of_pos_right l2 (Nat.pow_pos (by decide))
      _ = _ := by rw [← pow_add]; congr 1; omega

theorem popcount_eq (n x : Nat) : popcount n x = ((List.range n).filter (fun k => bitAt x k)).length := by
  unfold popcount
  have : ∀ (l : List Nat) (a : Nat), l.foldl (fun a k => if bitAt x k then a + 1 else a) a = a + (l.filter (fun k => bitAt x k)).length := by
    intro l
    induction l with
    | nil => simp
    | cons k r ih =>
      intro a
      rw [List.foldl_cons, ih, List.filter_cons]
      by_cases hb : bitAt x k = true <;> simp [hb]; omega
  rw [this, Nat.zero_add]

theorem gives_popc (h : s.op = 0x17) : s.Done flush scalarA A B C := by
  unfold StageW.Done
  simp only [compute, StageW.Gives, h, map1_eq]
  have w32 : tyWidth s.ty ≤ 32 := Nat.div_le_self 32 _
  have key : ∀ n, popcount 32 (el (tyWidth s.ty) n A) = ((List.range (tyWidth s.ty)).filter (fun k => bitAt (el (tyWidth s.ty) n A) k)).length := by
    intro n
    rw [popcount_eq, ← Nat.add_sub_of_le w32, List.range_add, List.filter_append, List.length_append]
    rw [show ((List.range (32 - tyWidth s.ty)).map (fun x => tyWidth s.ty + x)).filter (fun k => bitAt (el (tyWidth s.ty) n A) k) = [] from ?_]
    · rfl
    · rw [List.filter_eq_nil_iff]
      intro k hk
      obtain ⟨j, _, rfl⟩ := List.mem_map.1 hk
      unfold bitAt
      rw [Nat.div_eq_of_lt (lt_of_lt_of_le (el_lt ..) (Nat.pow_le_pow_right (by decide) (by omega)))]
      simp
  simp only [key]
  obtain ⟨p1, p2⟩ := resOf_pure s.ty (fun n => ((List.range (tyWidth s.ty)).filter (fun k => bitAt (el (tyWidth s.ty) n A) k)).length) (fun n =>
    lt_of_le_of_lt ((List.length_filter_le _ _).trans (by rw [List.length_range])) Nat.lt_two_pow_self)
  exact ⟨rfl, p1, p2⟩

theorem gives_shuf (h : s.op = 0x19) : s.Done flush scalarA A B C := by
  unfold StageW.Done
  simp only [compute, StageW.Gives, h]
  refine ⟨rfl, fun k hk => ?_, Res.plain_flags _⟩
  show el 32 k (vshuf A B) = _
  unfold vshuf
  rw [lanes_eq, List.map_map, el_ofLanes_map _ k hk]
  exact Nat.mod_eq_of_lt (el_lt ..)

theorem gives_bcast (h : s.op = 0x1A) : s.Done flush scalarA A B C := by
  unfold StageW.Done
  simp only [compute, StageW.Gives, h]
  refine ⟨rfl, fun k hk => ?_, Res.plain_flags _⟩
  show el 32 k (splat _) = _
  unfold splat
  rw [el_ofLanes _ _ (by simp)]
  have : ∀ x : Nat, (List.replicate 16 x).getD k 0 = x := by
    intro x; rw [List.getD_eq_getElem?_getD, List.getElem?_replicate, if_pos hk]; rfl
  rw [this]
  cases scalarA
  · exact Nat.mod_eq_of_lt (el_lt ..)
  · exact Nat.mod_eq_of_lt (el_lt ..)

theorem gives_pack (h : s.op = 0x1B) (ht : s.ty = 1 ∨ s.ty = 2) : s.Done flush scalarA A B C := by
  unfold StageW.Done
  simp only [compute, StageW.Gives, h, vpack]
  rcases ht with ht | ht
  · simp only [ht, if_true]
    refine ⟨rfl, ?_⟩
    have e : (List.zipWith (fun x y => [fitInt true 16 s.sat (toSigned 32 x), fitInt true 16 s.sat (toSigned 32 y)]) (lanes A) (lanes B)).flatten
        = (List.range (16 * tyCount 1)).map (fun n => fitInt (tySigned 1) (tyWidth 1) s.sat
          (if n % 2 = 0 then intVal true 32 (el 32 (n / 2) A) else intVal true 32 (el 32 (n / 2) B))) := by
      rw [lanes_eq, lanes_eq, List.zipWith_map, List.zipWith_self]
      simp only [intVal_toSigned _ _ (el_lt ..)]
      rfl
    rw [e]
    exact resOf_brings 1 s.sat _
  · simp only [ht, Nat.reduceEqDiff, if_false]
    refine ⟨rfl, ?_⟩
    have e : (List.zipWith (fun x y => [fitInt true 8 s.sat (toSigned 16 (x % 2 ^ 16)), fitInt true 8 s.sat (toSigned 16 (x / 2 ^ 16)),
          fitInt true 8 s.sat (toSigned 16 (y % 2 ^ 16)), fitInt true 8 s.sat (toSigned 16 (y / 2 ^ 16))]) (lanes A) (lanes B)).flatten
        = (List.range (16 * tyCount 2)).map (fun n => fitInt (tySigned 2) (tyWidth 2) s.sat
          (intVal true 16 (el 16 (2 * (n / 4) + n % 2) (if n % 4 < 2 then A else B)))) := by
      rw [lanes_eq, lanes_eq, List.zipWith_map, List.zipWith_self]
      have lo : ∀ n v, el 32 n v % 2 ^ 16 = el 16 (2 * n + 0) v := fun n v => by
        have := el_half n v 0 (by decide)
        rwa [Nat.mul_zero, pow_zero, Nat.div_one] at this
      have hi : ∀ n v, el 32 n v / 2 ^ 16 = el 16 (2 * n + 1) v := fun n v => by
        have := el_half n v 1 (by decide)
        rw [Nat.mul_one] at this
        rw [← this]
        have := el_lt 32 n v
        omega
      simp only [lo, hi, intVal_toSigned _ _ (el_lt ..)]
      rfl
    rw [e]
    exact resOf_brings 2 s.sat _

theorem ext_eq (b : Bool) (w to' x : Nat) (hx : x < 2 ^ w) : (((if b then x else (toSigned w x % 2 ^ to').toNat) : Nat) : Int)
    = if b then (x : Int) else intVal true w x % 2 ^ to' := by
  cases b
  · simp only [Bool.false_eq_true, if_false]
    rw [intVal_toSigned _ _ hx]
    exact Int.toNat_of_nonneg (Int.emod_nonneg _ (by positivity))
  · rfl

theorem ext_lt (b : Bool) (w to' x : Nat) (hx : x < 2 ^ w) (hw : w ≤ to') : (if b then x else (toSigned w x % 2 ^ to').toNat) < 2 ^ to' := by
  cases b
  · simp only [Bool.false_eq_true, if_false]
    have p : (0 : Int) < 2 ^ to' := by positivity
    have h1 := Int.emod_lt_of_pos (toSigned w x) p
    have h2 : ((toSigned w x % 2 ^ to').toNat : Int) = toSigned w x % 2 ^ to' := Int.toNat_of_nonneg (Int.emod_nonneg _ p.ne')
    rw [← h2] at h1
    exact_mod_cast h1
  · exact lt_of_lt_of_le hx (Nat.pow_le_pow_right (by decide) hw)

theorem gives_unpk (h : s.op = 0x1C) (ht : s.ty = 1 ∨ s.ty = 2) : s.Done flush scalarA A B C := by
  unfold StageW.Done
  simp only [compute, StageW.Gives, h]
  have hj : s.aux % 2 < 2 := Nat.mod_lt _ (by decide)
  rcases ht with ht | ht
  · simp only [ht, if_true]
    refine ⟨rfl, fun k hk => ?_, Res.plain_flags _⟩
    have e : el 32 k (vunpk s A) = if bitAt s.aux 1 then el 16 (2 * k + s.aux % 2) A else (toSigned 16 (el 16 (2 * k + s.aux % 2) A) % 2 ^ 32).toNat := by
      unfold vunpk
      simp only [ht, if_true]
      rw [lanes_eq, List.map_map, el_ofLanes_map _ k hk]
      dsimp only [Function.comp]
      rw [show bits (el 32 k A) (16 * (s.aux % 2)) 16 = el 16 (2 * k + s.aux % 2) A from el_half k A _ hj]
      exact Nat.mod_eq_of_lt (ext_lt _ _ _ _ (el_lt ..) (by decide))
    show ((el 32 k (vunpk s A) : Nat) : Int) = _
    rw [e]
    exact ext_eq _ _ _ _ (el_lt ..)
  · simp only [ht, Nat.reduceEqDiff, if_false]
    refine ⟨rfl, fun k i hk hi => ?_, Res.plain_flags _⟩
    have b8 : ∀ i, i < 2 → bits (el 32 k A) (16 * (s.aux % 2) + 8 * i) 8 = el 8 (4 * k + 2 * (s.aux % 2) + i) A := by
      intro i hi
      have h1 := el_half k A _ hj
      have h2 := el_quarter (2 * k + s.aux % 2) A i hi
      rw [← h1] at h2
      rw [show 4 * k + 2 * (s.aux % 2) + i = 2 * (2 * k + s.aux % 2) + i by ring, ← h2]
      unfold bits
      rw [pow_add, ← Nat.div_div_eq_div_mul]
      generalize el 32 k A / 2 ^ (16 * (s.aux % 2)) = x
      have : i = 0 ∨ i = 1 := by omega
      rcases this with rfl | rfl <;> (norm_num; try omega)
    have e : el 32 k (vunpk s A) = (if bitAt s.aux 1 then el 8 (4 * k + 2 * (s.aux % 2) + 0) A else (toSigned 8 (el 8 (4 * k + 2 * (s.aux % 2) + 0) A) % 2 ^ 16).toNat)
        + 2 ^ 16 * (if bitAt s.aux 1 then el 8 (4 * k + 2 * (s.aux % 2) + 1) A else (toSigned 8 (el 8 (4 * k + 2 * (s.aux % 2) + 1) A) % 2 ^ 16).toNat) := by
      have g0 := ext_lt (bitAt s.aux 1) 8 16 _ (el_lt 8 (4 * k + 2 * (s.aux % 2) + 0) A) (by decide)
      have g1 := ext_lt (bitAt s.aux 1) 8 16 _ (el_lt 8 (4 * k + 2 * (s.aux % 2) + 1) A) (by decide)
      unfold vunpk
      simp only [ht, Nat.reduceEqDiff, if_false]
      rw [lanes_eq, List.map_map, el_ofLanes_map _ k hk]
      dsimp only [Function.comp, show tyWidth 2 = 8 from rfl]
      rw [show bits (el 32 k A) (16 * (s.aux % 2)) 8 = _ from b8 0 (by decide), show bits (el 32 k A) (16 * (s.aux % 2) + 8) 8 = _ from b8 1 (by decide)]
      simp only [show tyWidth 2 = 8 from rfl]
      exact Nat.mod_eq_of_lt (by omega)
    show ((el 16 (2 * k + i) (vunpk s A) : Nat) : Int) = _
    rw [← el_half k _ i hi, e]
    have g0 := ext_lt (bitAt s.aux 1) 8 16 _ (el_lt 8 (4 * k + 2 * (s.aux % 2) + 0) A) (by decide)
    have g1 := ext_lt (bitAt s.aux 1) 8 16 _ (el_lt 8 (4 * k + 2 * (s.aux % 2) + 1) A) (by decide)
    have : i = 0 ∨ i = 1 := by omega
    rcases this with rfl | rfl
    · rw [Nat.mul_zero, pow_zero, Nat.div_one, Nat.add_mul_mod_self_left, Nat.mod_eq_of_lt g0]
      exact ext_eq _ _ _ _ (el_lt ..)
    · rw [Nat.mul_one, Nat.add_mul_div_left _ _ (by decide), Nat.div_eq_of_lt g0, Nat.zero_add, Nat.mod_eq_of_lt g1]
      exact ext_eq _ _ _ _ (el_lt ..)

theorem gives_idx (h : s.op = 0x1E) : s.Done flush scalarA A B C := by
  unfold StageW.Done
  simp only [compute, StageW.Gives, h]
  refine ⟨rfl, fun k hk => ?_, Res.plain_flags _⟩
  show el 32 k (vidx _ A) = _
  unfold vidx
  rw [el_ofLanes_map _ k hk, lanes_eq, ← List.map_take, List.take_range, List.countP_map, List.countP_eq_length_filter]
  have hm : min (if bitAt s.aux 0 = true then k + 1 else k) 16 = if bitAt s.aux 0 = true then k + 1 else k := by split <;> omega
  rw [hm]
  refine Nat.mod_eq_of_lt (lt_of_le_of_lt (List.length_filter_le _ _) ?_)
  rw [List.length_range]
  split <;> omega

theorem gives_copy (h : s.op = 0 ∨ s.op = 0x18 ∨ s.op = 0x1F) : s.Done flush scalarA A B C := by
  unfold StageW.Done
  rcases h with h | h | h <;> simp only [compute, StageW.Gives, h] <;> exact ⟨rfl, rfl, Res.plain_flags _⟩

/-- VCVT reads the source element that R212 names. -/
theorem vcvt_el (s : StageW) (flush : Bool) (A B : Wide) (n : Nat) :
    (let dst := s.aux % 8
     let part := s.aux / 8
     let cs := tyCount s.ty
     let cd := tyCount dst
     let k := n / cd
     let e := n % cd
     if cd ≤ cs then cvEl s.ty dst s.rnd s.sat flush (nth (elems s.ty A) (k * cs + (if cd < cs then part * cd else 0) + e) 0)
     else if part * cs ≤ e && e < part * cs + cs then
       cvEl s.ty dst s.rnd s.sat flush (nth (elems s.ty A) (k * cs + (e - part * cs)) 0)
     else some (nth (elems dst B) n 0, false))
    = match cvSource s n with
      | some i => cvEl s.ty (s.aux % 8) s.rnd s.sat flush (el (tyWidth s.ty) i A)
      | none => some (el (tyWidth (s.aux % 8)) n B, false) := by
  unfold cvSource
  dsimp only
  simp only [nth_elems]
  have hc := tyCount_pos (s.aux % 8)
  by_cases h1 : tyCount (s.aux % 8) < tyCount s.ty
  · rw [if_pos (by omega), if_pos h1, if_pos h1]
    dsimp only
    rw [Nat.add_assoc]
  · rw [if_neg h1, if_neg h1]
    by_cases h2 : tyCount (s.aux % 8) = tyCount s.ty
    · rw [if_pos (by omega), if_pos h2]
      dsimp only
      rw [← h2, Nat.add_zero, Nat.mul_comm, Nat.div_add_mod]
    · rw [if_neg (by omega), if_neg h2]
      by_cases h3 : s.aux / 8 * tyCount s.ty ≤ n % tyCount (s.aux % 8) ∧ n % tyCount (s.aux % 8) < s.aux / 8 * tyCount s.ty + tyCount s.ty
      · rw [if_pos h3, if_pos (by simpa using h3)]
      · rw [if_neg h3, if_neg (by simpa using h3)]

theorem gives_cvt (hr : s.rnd < 4) (h : s.op = 0x11) :
    ((compute s flush scalarA (s.b == 15) A B C).err = true ↔ s.Fails flush A) ∧
      ((compute s flush scalarA (s.b == 15) A B C).err = false → s.Done flush scalarA A B C) := by
  have cv := fun i => cvEl_cv s.ty (s.aux % 8) s.rnd hr s.sat flush (el (tyWidth s.ty) i A) (el_lt ..)
  let out := fun n => match cvSource s n with
      | some i => cvEl s.ty (s.aux % 8) s.rnd s.sat flush (el (tyWidth s.ty) i A)
      | none => some (el (tyWidth (s.aux % 8)) n B, false)
  have ho : ∀ n, out n = match cvSource s n with
      | some i => cvEl s.ty (s.aux % 8) s.rnd s.sat flush (el (tyWidth s.ty) i A)
      | none => some (el (tyWidth (s.aux % 8)) n B, false) := fun _ => rfl
  have e : vcvt s flush A B = if ((List.range (16 * tyCount (s.aux % 8))).map out).any (·.isNone) then { val := 0, flags := 0, err := true }
      else resOf (s.aux % 8) ((List.range (16 * tyCount (s.aux % 8))).map (fun n => (out n).getD (0, false))) := by
    unfold vcvt
    dsimp only
    rw [List.map_congr_left (g := out) (fun n _ => vcvt_el s flush A B n), List.map_map]
    rfl
  have none_iff : ((List.range (16 * tyCount (s.aux % 8))).map out).any (·.isNone) = true ↔ s.Fails flush A := by
    unfold StageW.Fails
    rw [List.any_eq_true]
    constructor
    · rintro ⟨o, ho', hn⟩
      obtain ⟨n, hn', rfl⟩ := List.mem_map.1 ho'
      rw [ho] at hn
      cases hs : cvSource s n with
      | none => rw [hs] at hn; simp at hn
      | some i =>
        rw [hs] at hn
        dsimp only at hn
        exact ⟨h, n, i, List.mem_range.1 hn', hs, (cv i).1.1 (by simpa using hn)⟩
    · rintro ⟨_, n, i, hn, hs, hf⟩
      refine ⟨out n, List.mem_map.2 ⟨n, List.mem_range.2 hn, rfl⟩, ?_⟩
      rw [ho, hs]
      dsimp only
      rw [(cv i).1.2 hf]; rfl
  unfold StageW.Done
  simp only [compute, StageW.Gives, h, e]
  by_cases hf : ((List.range (16 * tyCount (s.aux % 8))).map out).any (·.isNone) = true
  · rw [if_pos hf]
    exact ⟨⟨fun _ => none_iff.1 hf, fun _ => rfl⟩, fun h => by cases h⟩
  · rw [if_neg hf]
    refine ⟨⟨fun h => (by cases h), fun h => absurd (none_iff.2 h) hf⟩, fun _ => ⟨rfl, fun n => ((out n).getD (0, false)).2 = true, fun n hn => ?_,
      (resOf_map (s.aux % 8) (fun n => (out n).getD (0, false))).2⟩⟩
    have r := (resOf_map (s.aux % 8) (fun n => (out n).getD (0, false))).1 n hn
    cases hs : cvSource s n with
    | none =>
      have ho' : out n = some (el (tyWidth (s.aux % 8)) n B, false) := by rw [ho, hs]
      dsimp only
      rw [ho'] at r ⊢
      rw [r]
      exact ⟨Nat.mod_eq_of_lt (el_lt ..), by simp⟩
    | some i =>
      have ho' : out n = cvEl s.ty (s.aux % 8) s.rnd s.sat flush (el (tyWidth s.ty) i A) := by rw [ho, hs]
      dsimp only
      cases hc : cvEl s.ty (s.aux % 8) s.rnd s.sat flush (el (tyWidth s.ty) i A) with
      | none =>
        refine absurd (List.any_eq_true.2 ⟨out n, List.mem_map.2 ⟨n, List.mem_range.2 hn, rfl⟩, ?_⟩) hf
        rw [ho', hc]; rfl
      | some p =>
        rw [ho', hc] at r ⊢
        obtain ⟨c1, c2⟩ := (cv i).2 p hc
        dsimp only [Option.getD] at r ⊢
        rw [r, Nat.mod_eq_of_lt c2]
        exact c1

theorem gives_dot (hr : s.rnd < 4) (h : s.op = 0x1D) (ht : s.ty = 2 ∨ tyFloat s.ty = true) : s.Done flush scalarA A B C := by
  unfold StageW.Done
  simp only [compute, StageW.Gives, h, vdot]
  by_cases h2 : s.ty = 2
  · simp only [h2, if_true]
    refine ⟨rfl, ?_⟩
    have e : (fun k => fitInt true 32 s.sat (((List.range (tyCount 2)).map (fun e => (nth (elems 2 A) (tyCount 2 * k + e) 0, nth (elems 2 B) (tyCount 2 * k + e) 0))).foldl
          (fun t p => t + toSigned 8 p.1 * toSigned 8 p.2) (toSigned 32 (lane C k))))
        = fun k => fitInt (tySigned 0) (tyWidth 0) s.sat (((List.range 4).map (fun e => intEl 2 (4 * k + e) A * intEl 2 (4 * k + e) B)).sum + intEl 0 k C) := by
      funext k
      simp only [nth_elems]
      rw [List.foldl_map]
      have g : ∀ (l : List Nat) (z : Int), l.foldl (fun t e => t + toSigned 8 (el (tyWidth 2) (tyCount 2 * k + e) A) * toSigned 8 (el (tyWidth 2) (tyCount 2 * k + e) B)) z
          = (l.map (fun e => intEl 2 (4 * k + e) A * intEl 2 (4 * k + e) B)).sum + z := by
        intro l
        induction l with
        | nil => simp
        | cons x r ih =>
          intro z
          rw [List.foldl_cons, ih, List.map_cons, List.sum_cons]
          have : ∀ v : Wide, toSigned 8 (el (tyWidth 2) (tyCount 2 * k + x) v) = intEl 2 (4 * k + x) v := fun v => intVal_toSigned 8 _ (el_lt ..)
          rw [this, this]; ring
      rw [g, lane_eq, intVal_toSigned 32 _ (el_lt ..)]
      rfl
    rw [e]
    exact resOf_brings 0 s.sat _
  · have hf : tyFloat s.ty = true := ht.resolve_left h2
    simp only [h2, if_false]
    let sum := fun k => ((List.range (tyCount s.ty)).map (fun e => (fltOf s.ty flush (el (tyWidth s.ty) (tyCount s.ty * k + e) A)).mul
      (fltOf s.ty flush (el (tyWidth s.ty) (tyCount s.ty * k + e) B)))).foldl (fun t v => t.add (s.rnd == 2) v) (fltOf 3 flush (el 32 k C))
    have e : (fun k => fltRes 3 s.rnd s.sat flush (((List.range (tyCount s.ty)).map (fun e => (nth (elems s.ty A) (tyCount s.ty * k + e) 0, nth (elems s.ty B) (tyCount s.ty * k + e) 0))).foldl
          (fun t p => t.add (s.rnd == 2) ((fltOf s.ty flush p.1).mul (fltOf s.ty flush p.2))) (fltOf 3 flush (lane C k))))
        = fun k => fltRes 3 s.rnd s.sat flush (sum k) := by
      funext k
      simp only [nth_elems, sum, lane_eq]
      rw [List.foldl_map, List.foldl_map]
    rw [e]
    have st : ∀ k, SumState (s.rnd == 2) (fltOf 3 flush (el 32 k C) :: (List.range (tyCount s.ty)).map (fun e => (fltOf s.ty flush (el (tyWidth s.ty) (tyCount s.ty * k + e) A)).mul
        (fltOf s.ty flush (el (tyWidth s.ty) (tyCount s.ty * k + e) B)))) (sum k) := fun k =>
      SumState.fold (s.rnd == 2) _ [fltOf 3 flush (el 32 k C)] _ (by simp) (SumState.one _ _ (fltOf_ok 3 flush k C)) (by
        intro v hv
        obtain ⟨e, _, rfl⟩ := List.mem_map.1 hv
        exact (FV.mul_isProd _ _ (fltOf_ok s.ty flush _ A) (fltOf_ok s.ty flush _ B)).2)
    obtain ⟨r1, r2⟩ := resOf_rounds 3 s.rnd hr s.sat flush rfl sum (fun k r => ∃ z ps, Stands .fp32 flush (el 32 k C) z ∧ ps.length = tyCount s.ty ∧
        (∀ e p, ps[e]? = some p → ∃ x y, Val s.ty flush (tyCount s.ty * k + e) A x ∧ Val s.ty flush (tyCount s.ty * k + e) B y ∧ IsProd x y p) ∧
        IsTotal (zeroSign (s.rnd == 2) (z :: ps)) (z :: ps) r) (fun k => ⟨(st k).1, _, _, fltOf_val 3 flush k C, by simp, fun e p hp => by
          rw [List.getElem?_map] at hp
          obtain ⟨e', he, rfl⟩ := Option.map_eq_some_iff.1 hp
          rw [List.getElem?_range (by by_contra hh; rw [List.getElem?_eq_none (by simpa using hh)] at he; cases he)] at he
          cases he
          exact ⟨_, _, fltOf_val .., fltOf_val .., (FV.mul_isProd _ _ (fltOf_ok s.ty flush _ A) (fltOf_ok s.ty flush _ B)).1⟩, (st k).total⟩)
    refine ⟨rfl, fun k hk => ?_, r2⟩
    obtain ⟨v, ⟨z, ps, a, b, c, d⟩, e⟩ := r1 k hk
    exact ⟨z, ps, v, a, b, c, d, e⟩

/-- The model's sum of the first N elements (R219, R221). -/
theorem rsumOf_sum (hr : s.rnd < 4) (out N : Nat) (hout : tyFloat s.ty = true → tyFloat out = true) (A : Wide) :
    let r := rsumOf s flush out ((List.range N).map (fun n => el (tyWidth s.ty) n A))
    SumOf s flush out A N r.1 (r.2 = true) ∧ r.1 < 2 ^ tyWidth out := by
  unfold rsumOf SumOf
  by_cases ht : tyFloat s.ty = true
  · simp only [ht, if_true]
    rw [List.map_map]
    obtain ⟨t1, t2⟩ := sumFV_total ((List.range N).map (fltOf s.ty flush ∘ fun n => el (tyWidth s.ty) n A)) (by
      intro v hv
      obtain ⟨n, _, rfl⟩ := List.mem_map.1 hv
      exact fltOf_ok s.ty flush n A)
    have hround := encodeF_rounds (tyFmt out) s.rnd hr s.sat flush _ t2.unsign
    have hlt := hround.lt
    rw [tyFmt_width out (hout ht)] at hlt
    refine ⟨⟨⟨_, _, by simp, fun n x hx => ?_, t1, hround⟩, by simp [fltRes]⟩, hlt⟩
    rw [List.getElem?_map] at hx
    obtain ⟨m, hm, rfl⟩ := Option.map_eq_some_iff.1 hx
    rw [List.getElem?_range (by by_contra hh; rw [List.getElem?_eq_none (by simpa using hh)] at hm; cases hm)] at hm
    cases hm
    exact fltOf_val ..
  · simp only [ht, Bool.false_eq_true, if_false]
    have g : ∀ (l : List Nat) (z : Int), (l.map (fun n => el (tyWidth s.ty) n A)).foldl (fun t x => t + intOf s.ty x) z
        = z + (l.map (fun n => intEl s.ty n A)).sum := by
      intro l
      induction l with
      | nil => simp
      | cons x r ih =>
        intro z
        rw [List.map_cons, List.foldl_cons, ih, intOf_el, List.map_cons, List.sum_cons]; ring
    rw [g, Int.zero_add]
    obtain ⟨f1, f2, f3⟩ := fitInt_fits (tySigned out) (tyWidth out) (tyWidth_pos out) s.sat ((List.range N).map (fun n => intEl s.ty n A)).sum
    exact ⟨⟨f1, f2⟩, f3⟩

theorem d8_round_trip : ∀ c : Fin 256, encodeF .d8 0 false false (decodeF .d8 false c) = c ∧ encodeF .d8 0 false true (decodeF .d8 true c) = c := by
  decide +kernel

/-- What the model's choice puts into lane 0 (R218, R220). -/
theorem bestLane_is (isMax : Bool) (ty : Nat) (flush : Bool) (A : Wide) (N : Nat) (hN : N ≤ 64) :
    ∃ best : Option Nat, IsBest isMax ty flush A N best ∧
      (bestOf isMax ty flush 0 ((List.range N).map (fun i => el (tyWidth ty) i A)) none).map (·.1) = best ∧
      (∀ n, best = some n → n < 64) ∧
      bestLane ty flush (bestOf isMax ty flush 0 ((List.range N).map (fun i => el (tyWidth ty) i A)) none) < 2 ^ 32 ∧
      match best with
        | none => bestLane ty flush (bestOf isMax ty flush 0 ((List.range N).map (fun i => el (tyWidth ty) i A)) none) = if ty = 6 then 0x80 else 0x7FC00000
        | some n => if ty = 6 then bestLane ty flush (bestOf isMax ty flush 0 ((List.range N).map (fun i => el (tyWidth ty) i A)) none) = el (tyWidth ty) n A
            else if tyFloat ty then ∃ x, Val ty flush n A x ∧ RoundsTo .fp32 0 false flush x.unsign
              (bestLane ty flush (bestOf isMax ty flush 0 ((List.range N).map (fun i => el (tyWidth ty) i A)) none))
            else (bestLane ty flush (bestOf isMax ty flush 0 ((List.range N).map (fun i => el (tyWidth ty) i A)) none) : Int) = intEl ty n A % 2 ^ 32 := by
  obtain ⟨h1, h2⟩ := bestOf_first isMax ty flush A N
  generalize bestOf isMax ty flush 0 ((List.range N).map (fun i => el (tyWidth ty) i A)) none = r at *
  refine ⟨_, h1, rfl, ?_⟩
  cases r with
  | none => exact ⟨by simp, by show (if ty = 6 then 0x80 else 0x7FC00000) < 2 ^ 32; split <;> omega, rfl⟩
  | some p =>
    obtain ⟨n, x⟩ := p
    have hx := h2 _ rfl
    dsimp only at hx
    subst hx
    have hn : n < N := h1.1
    refine ⟨fun m hm => by cases hm; exact lt_of_lt_of_le hn hN, ?_⟩
    dsimp only [Option.map, bestLane]
    by_cases h6 : ty = 6
    · subst h6
      simp only [if_true]
      have hr := d8_round_trip ⟨el (tyWidth 6) n A, el_lt ..⟩
      have : encodeF .d8 0 false flush (fltOf 6 flush (el (tyWidth 6) n A)) = el (tyWidth 6) n A := by
        cases flush
        · exact hr.1
        · exact hr.2
      rw [this]
      exact ⟨lt_of_lt_of_le (el_lt ..) (by decide), rfl⟩
    · simp only [if_neg h6]
      by_cases ht : tyFloat ty = true
      · simp only [ht, if_true]
        have hround := encodeF_rounds .fp32 0 (by decide) false flush _ (fltOf_ok ty flush n A).unsign
        exact ⟨hround.lt, _, fltOf_val .., hround⟩
      · simp only [ht, Bool.false_eq_true, if_false]
        have p : (0 : Int) < 2 ^ 32 := by positivity
        have e1 : ((intOf ty (el (tyWidth ty) n A) % 2 ^ 32).toNat : Int) = intOf ty (el (tyWidth ty) n A) % 2 ^ 32 :=
          Int.toNat_of_nonneg (Int.emod_nonneg _ p.ne')
        have e2 := Int.emod_lt_of_pos (intOf ty (el (tyWidth ty) n A)) p
        refine ⟨?_, by rw [e1, intOf_el]⟩
        rw [← e1] at e2
        exact_mod_cast e2

/-- What lane 1 of a choice holds (R220). -/
def bestIdx (b : Nat) (B : Wide) (best : Option Nat) : Nat :=
  match best with
  | none => 0xFFFFFFFF
  | some n => if b = 15 then n else el 32 n B

theorem tyCount_le (ty : Nat) : 16 * tyCount ty ≤ 64 := by unfold tyCount; split <;> decide

theorem gives_reduce (hr : s.rnd < 4) (h : 0x40 ≤ s.op ∧ s.op ≤ 0x44) : s.Done flush scalarA A B C := by
  have key : compute s flush scalarA (s.b == 15) A B C = reduce s flush (s.b == 15) A B := by
    have : s.op = 0x40 ∨ s.op = 0x41 ∨ s.op = 0x42 ∨ s.op = 0x43 ∨ s.op = 0x44 := by omega
    unfold compute
    rcases this with h | h | h | h | h <;> rw [h] <;> rfl
  have l0 : ∀ l : List Nat, l.length ≤ 16 → ∀ k, el 32 k (ofLanes l) = l.getD k 0 % 2 ^ 32 := fun l hl k => el_ofLanes l k hl
  unfold StageW.Done
  rw [key]
  by_cases h0 : s.op = 0x40
  · simp only [StageW.Gives, h0, reduce, if_true]
    have hs := rsumOf_sum hr (flush := flush) (s := s) (if tyFloat s.ty then 3 else if s.ty = 7 then 7 else 0) (16 * tyCount s.ty)
      (fun ht => by rw [if_pos ht]; rfl) A
    rw [← elems_eq] at hs
    obtain ⟨h1, h2⟩ := hs
    have hlt : (rsumOf s flush (if tyFloat s.ty then 3 else if s.ty = 7 then 7 else 0) (elems s.ty A)).1 < 2 ^ 32 := by
      refine lt_of_lt_of_le h2 (Nat.pow_le_pow_right (by decide) (Nat.div_le_self 32 _))
    refine ⟨trivial, ⟨(rsumOf s flush (if tyFloat s.ty then 3 else if s.ty = 7 then 7 else 0) (elems s.ty A)).2 = true, ?_, fun k hk => ?_⟩,
      fun k h1 h2 => ?_⟩
    · rw [l0 _ (by simp)]
      simp only [List.getD_cons_zero]
      rw [Nat.mod_eq_of_lt hlt]
      exact h1
    · cases hb : (rsumOf s flush (if tyFloat s.ty then 3 else if s.ty = 7 then 7 else 0) (elems s.ty A)).2
      · simp [bitAt]
      · simp only [if_true, and_true]
        unfold bitAt
        have : k = 0 ∨ 0 < k := by omega
        rcases this with rfl | hk
        · simp
        · rw [Nat.div_eq_of_lt (Nat.one_lt_two_pow (by omega))]; simp; omega
    · rw [l0 _ (by simp)]
      cases k with
      | zero => omega
      | succ k => simp
  · have hop : s.op = 0x41 ∨ s.op = 0x42 ∨ s.op = 0x43 ∨ s.op = 0x44 := by omega
    have g : s.Gives flush scalarA A B C = fun R F =>
        (∃ best, IsBest (s.op == 0x41 || s.op == 0x43) s.ty flush A (16 * tyCount s.ty) best ∧
          (match best with
            | none => el 32 0 R = if s.ty = 6 then 0x80 else 0x7FC00000
            | some n => if s.ty = 6 then el 32 0 R = el (tyWidth s.ty) n A
                else if tyFloat s.ty then ∃ x, Val s.ty flush n A x ∧ RoundsTo .fp32 0 false flush x.unsign (el 32 0 R)
                else (el 32 0 R : Int) = intEl s.ty n A % 2 ^ 32) ∧
          el 32 1 R = if s.op ≤ 0x42 then 0 else match best with
            | none => 0xFFFFFFFF
            | some n => if s.b = 15 then n else el 32 n B) ∧ (∀ k, 1 < k → k < 16 → el 32 k R = 0) ∧ ∀ k, k < 16 → ¬ F k := by
      funext R F
      unfold StageW.Gives
      rcases hop with h | h | h | h <;> rw [h] <;> rfl
    rw [g]
    have e0 : ∀ best, (bestOf (s.op == 0x41 || s.op == 0x43) s.ty flush 0 ((List.range (16 * tyCount s.ty)).map (fun i => el (tyWidth s.ty) i A)) none).map (·.1) = best →
        reduce s flush (s.b == 15) A B = Res.plain (ofLanes (if s.op ≤ 0x42 then
          [bestLane s.ty flush (bestOf (s.op == 0x41 || s.op == 0x43) s.ty flush 0 ((List.range (16 * tyCount s.ty)).map (fun i => el (tyWidth s.ty) i A)) none)]
        else [bestLane s.ty flush (bestOf (s.op == 0x41 || s.op == 0x43) s.ty flush 0 ((List.range (16 * tyCount s.ty)).map (fun i => el (tyWidth s.ty) i A)) none),
          bestIdx s.b B best])) := by
      intro best b2
      unfold reduce
      rw [if_neg h0, elems_eq]
      dsimp only
      generalize bestOf (s.op == 0x41 || s.op == 0x43) s.ty flush 0 ((List.range (16 * tyCount s.ty)).map (fun i => el (tyWidth s.ty) i A)) none = r at *
      subst b2
      cases r <;> simp [lane_eq, bestIdx]
    obtain ⟨best, b1, b2, b3, b4, b5⟩ := bestLane_is (s.op == 0x41 || s.op == 0x43) s.ty flush A (16 * tyCount s.ty) (tyCount_le _)
    rw [e0 best b2]
    clear e0
    generalize bestOf (s.op == 0x41 || s.op == 0x43) s.ty flush 0 ((List.range (16 * tyCount s.ty)).map (fun i => el (tyWidth s.ty) i A)) none = r at *
    have ilt : bestIdx s.b B best < 2 ^ 32 := by
      cases best with
      | none => show 0xFFFFFFFF < 2 ^ 32; decide
      | some n =>
        have := b3 n rfl
        unfold bestIdx
        dsimp only
        split
        · omega
        · exact el_lt ..
    have e : ∀ k, el 32 k (ofLanes (if s.op ≤ 0x42 then [bestLane s.ty flush r] else [bestLane s.ty flush r, bestIdx s.b B best])) = if k = 0 then bestLane s.ty flush r else if k = 1 then
              (if s.op ≤ 0x42 then 0 else bestIdx s.b B best) else 0 := by
      intro k
      rw [l0 _ (by split <;> simp)]
      by_cases hop : s.op ≤ 0x42
      · simp only [if_pos hop]
        match k with
        | 0 => exact Nat.mod_eq_of_lt b4
        | 1 => rfl
        | _ + 2 => rfl
      · simp only [if_neg hop]
        match k with
        | 0 => exact Nat.mod_eq_of_lt b4
        | 1 => exact Nat.mod_eq_of_lt ilt
        | _ + 2 => rfl
    refine ⟨rfl, ⟨best, b1, ?_, e 1⟩, fun k h1 h2 => ?_, Res.plain_flags _⟩
    · have e0 := e 0
      rw [if_pos rfl] at e0
      dsimp only [Res.plain]
      cases best with
      | none => exact e0.trans b5
      | some n =>
        dsimp only at b5 ⊢
        rw [e0]
        exact b5
    · have := e k
      rw [if_neg (by omega : ¬ k = 0), if_neg (by omega : ¬ k = 1)] at this
      exact this

theorem gives_scan (hr : s.rnd < 4) (h : s.op = 0x45) : s.Done flush scalarA A B C := by
  unfold StageW.Done
  simp only [compute, StageW.Gives, h, rscan]
  have e : (List.range (elems s.ty A).length).map (fun n => scanEl s flush ((elems s.ty A).take (n + 1)))
      = (List.range (16 * tyCount s.ty)).map (fun n => scanEl s flush ((List.range (n + 1)).map (fun i => el (tyWidth s.ty) i A))) := by
    rw [elems_eq, List.length_map, List.length_range]
    apply List.map_congr_left
    intro n hn
    rw [← List.map_take, List.take_range, Nat.min_eq_left (by have := List.mem_range.1 hn; omega)]
  rw [e]
  by_cases h0 : s.aux % 4 = 0
  · simp only [scanEl, h0, if_true]
    obtain ⟨m1, m2⟩ := resOf_map s.ty (fun n => rsumOf s flush s.ty ((List.range (n + 1)).map (fun i => el (tyWidth s.ty) i A)))
    refine ⟨rfl, fun n => (rsumOf s flush s.ty ((List.range (n + 1)).map (fun i => el (tyWidth s.ty) i A))).2 = true, fun n hn => ?_, m2⟩
    obtain ⟨r1, r2⟩ := rsumOf_sum hr (s := s) (flush := flush) s.ty (n + 1) id A
    rw [m1 n hn, Nat.mod_eq_of_lt r2]
    exact r1
  · have key : ∀ n, ∃ c, (match bestOf (s.aux % 4 == 1) s.ty flush 0 ((List.range (n + 1)).map (fun i => el (tyWidth s.ty) i A)) none with
          | none => (nanCode (tyFmt s.ty), false)
          | some (_, x) =>
            if tyFloat s.ty then (encodeF (tyFmt s.ty) 0 false flush (fltOf s.ty flush x).unsign, false)
            else (x, false)) = (c, false) ∧ ∃ best, IsBest (s.aux % 4 == 1) s.ty flush A (n + 1) best ∧ match best with
      | none => c = nanCode (tyFmt s.ty)
      | some m => if tyFloat s.ty then c < 2 ^ tyWidth s.ty ∧ ∃ x, Val s.ty flush m A x ∧ RoundsTo (tyFmt s.ty) 0 false flush x.unsign c
          else c = el (tyWidth s.ty) m A := by
      intro n
      obtain ⟨h1, h2⟩ := bestOf_first (s.aux % 4 == 1) s.ty flush A (n + 1)
      generalize bestOf (s.aux % 4 == 1) s.ty flush 0 ((List.range (n + 1)).map (fun i => el (tyWidth s.ty) i A)) none = r at *
      cases r with
      | none => exact ⟨_, rfl, _, h1, rfl⟩
      | some p =>
        obtain ⟨m, x⟩ := p
        have hx := h2 _ rfl
        dsimp only at hx
        subst hx
        by_cases ht : tyFloat s.ty = true
        · simp only [ht, if_true]
          have hround := encodeF_rounds (tyFmt s.ty) 0 (by decide) false flush _ (fltOf_ok s.ty flush m A).unsign
          have hlt := hround.lt
          rw [tyFmt_width _ ht] at hlt
          exact ⟨_, rfl, _, h1, hlt, _, fltOf_val .., hround⟩
        · simp only [ht, Bool.false_eq_true, if_false]
          exact ⟨_, rfl, _, h1, rfl⟩
    choose c hc best hb hm using key
    rw [show (fun n => scanEl s flush ((List.range (n + 1)).map (fun i => el (tyWidth s.ty) i A))) = fun n => (c n, false) from
      funext (fun n => by unfold scanEl; rw [if_neg h0]; exact hc n)]
    simp only [if_neg h0]
    -- where no element is sound, the type is floating
    have fl : ∀ n, best n = none → tyFloat s.ty = true := by
      intro n hn
      have := hb n
      rw [hn] at this
      by_contra hf
      exact this 0 (by omega) (fun ht => absurd ht hf)
    have lt : ∀ n, c n < 2 ^ tyWidth s.ty := by
      intro n
      have hmn := hm n
      cases hbn : best n with
      | none =>
        rw [hbn] at hmn
        have ht := fl n hbn
        rw [← tyFmt_width _ ht]
        rw [hmn]
        cases tyFmt s.ty <;> decide
      | some m =>
        rw [hbn] at hmn
        dsimp only at hmn
        by_cases ht : tyFloat s.ty = true
        · rw [if_pos ht] at hmn; exact hmn.1
        · rw [if_neg ht] at hmn; rw [hmn]; exact el_lt ..
    obtain ⟨p1, p2⟩ := resOf_pure s.ty c lt
    refine ⟨rfl, fun n hn => ⟨best n, hb n, ?_⟩, p2⟩
    have hmn := hm n
    rw [p1 n hn]
    cases hbn : best n with
    | none => rw [hbn] at hmn; exact hmn
    | some m =>
      rw [hbn] at hmn
      dsimp only at hmn ⊢
      by_cases ht : tyFloat s.ty = true
      · rw [if_pos ht] at hmn ⊢; exact hmn.2
      · rw [if_neg ht] at hmn ⊢; exact hmn

/-- What a vector or reducer word computes: it fails as VCVT says, and else gives what R205 to R221 say. -/
theorem compute_gives (hr : s.rnd < 4) (hop : s.op ≤ 0x1F ∨ (0x40 ≤ s.op ∧ s.op ≤ 0x45)) (ho : vectorOk s scalarA = true) :
    let x := compute s flush scalarA (s.b == 15) A B C
    (x.err = true ↔ s.Fails flush A) ∧ (x.err = false → s.Gives flush scalarA A B C x.val (fun k => bitAt x.flags k = true)) := by
  dsimp only
  by_cases hc : s.op = 0x11
  · obtain ⟨h1, h2⟩ := gives_cvt (scalarA := scalarA) (A := A) (B := B) (C := C) (flush := flush) hr hc
    exact ⟨h1, fun h => (h2 h).2⟩
  · have d : s.Done flush scalarA A B C := by
      by_cases h : s.op ≤ 3 ∧ 1 ≤ s.op
      · exact gives_arith hr (by omega)
      by_cases h : s.op = 4
      · refine gives_fma hr h ?_
        simp only [vectorOk, h, Bool.and_eq_true, Bool.or_eq_true, beq_iff_eq] at ho
        rcases ho.1 with (e | e) | e <;> rw [e] <;> rfl
      by_cases h : s.op = 5 ∨ s.op = 6
      · exact gives_max h
      by_cases h : s.op = 7 ∨ s.op = 8
      · exact gives_abs h
      by_cases h : 9 ≤ s.op ∧ s.op ≤ 11
      · exact gives_bits (by omega)
      by_cases h : 12 ≤ s.op ∧ s.op ≤ 14
      · exact gives_shift (by omega)
      by_cases h : s.op = 15
      · exact gives_cmp h
      by_cases h : s.op = 16
      · exact gives_sel h
      by_cases h : 0x12 ≤ s.op ∧ s.op ≤ 0x15
      · exact gives_trans (by omega)
      by_cases h : s.op = 0x16
      · exact gives_clz h
      by_cases h : s.op = 0x17
      · exact gives_popc h
      by_cases h : s.op = 0x19
      · exact gives_shuf h
      by_cases h : s.op = 0x1A
      · exact gives_bcast h
      by_cases h : s.op = 0x1B
      · refine gives_pack h ?_
        simp only [vectorOk, h, Bool.and_eq_true, Bool.or_eq_true, beq_iff_eq] at ho
        exact ho.1.1
      by_cases h : s.op = 0x1C
      · refine gives_unpk h ?_
        simp only [vectorOk, h, Bool.and_eq_true, Bool.or_eq_true, beq_iff_eq] at ho
        tauto
      by_cases h : s.op = 0x1D
      · refine gives_dot hr h ?_
        simp only [vectorOk, h, Bool.and_eq_true, Bool.or_eq_true, beq_iff_eq] at ho
        rcases ho.1.1.1 with (e | e) | e
        · exact .inl e
        all_goals exact .inr (by rw [e]; rfl)
      by_cases h : s.op = 0x1E
      · exact gives_idx h
      by_cases h : 0x40 ≤ s.op ∧ s.op ≤ 0x44
      · exact gives_reduce hr h
      by_cases h : s.op = 0x45
      · exact gives_scan hr h
      exact gives_copy (by omega)
    exact ⟨⟨fun h => (by rw [d.1] at h; cases h), fun h => absurd h.1 hc⟩, fun _ => d.2⟩

/-! ## Stages one after another -/

theorem bitAt_testBit (x k : Nat) : bitAt x k = x.testBit k := by
  unfold bitAt
  rw [Nat.testBit, Nat.shiftRight_eq_div_pow, Nat.and_comm, Nat.and_one_is_mod]
  rcases Nat.mod_two_eq_zero_or_one (x / 2 ^ k) with h | h <;> rw [h] <;> rfl

theorem bitAt_or (x y k : Nat) : bitAt (x ||| y) k = (bitAt x k || bitAt y k) := by
  rw [bitAt_testBit, bitAt_testBit, bitAt_testBit, Nat.testBit_or]

/-- What a source reads, as the table of R201 has it. -/
theorem Run.read_sees (r : Run) (f : Fire) (toks : Nat → Wide) (src aux : Nat)
    (h : ∀ i, i < 4 → src = i + 1 → ∃ t, nth f.toks i none = some t ∧ toks i = t.pay) :
    Sees toks r.p (fun n => agetD r.c.ev n 0) (fun n => agetD r.c.kreg n 0) src aux (r.read f src aux) := by
  unfold Sees Run.read
  split
  · rfl
  · split
    · obtain ⟨t, h1, h2⟩ := h (src - 1) (by omega) (by omega)
      rw [h1, h2]
    · split
      · rfl
      · split
        · intro n hn
          unfold splat
          rw [el_ofLanes _ _ (by simp), List.getD_eq_getElem?_getD, List.getElem?_replicate, if_pos hn]
          rfl
        · split
          · intro n hn
            have := el_ofLanes_map id n hn
            rw [List.map_id] at this
            rw [this]
            exact Nat.mod_eq_of_lt (show n < 2 ^ 32 by omega)
          · rfl

/-- Stages 1 to n of a run. -/
def Run.upTo (f : Fire) (r : Run) (n : Nat) : Run := (List.range n).foldl (fun r i => r.stage f false (i + 1)) r

theorem Run.upTo_succ (f : Fire) (r : Run) (n : Nat) : r.upTo f (n + 1) = (r.upTo f n).stage f false (n + 1) := by
  unfold Run.upTo; rw [List.range_succ, List.foldl_append]; rfl

/-- One stage of a vector context: it fails, or its word gives what it says. -/
theorem Run.stage_vector (f : Fire) (r : Run) (j : Nat) (hb : r.bad = none) (hd : r.c.damaged = [])
    (hv : (stageW (r.c.stage j)).IsVector) (ho : vectorOk (stageW (r.c.stage j)) (r.c.scalarIn (stageW (r.c.stage j))) = true) :
    let s := stageW (r.c.stage j)
    let a := r.read f s.a s.aux
    let b := r.read f s.b s.aux
    let flush := r.c.nbv == 2
    (s.Fails flush a ∧ r.stage f false j = r.fail f j 0x0B) ∨
    (¬ s.Fails flush a ∧ ∃ v l, s.Gives flush (r.c.scalarIn s) a b (r.third s) v (fun n => bitAt l n = true) ∧ (s.op = 0x1F → v = a) ∧
      r.stage f false j = { r with
        p := v
        kNew := r.kNew ++ (if s.op = 0x1F then [(s.aux % 4, el 32 0 v)] else [])
        c := { r.c with
          ev := if 1 ≤ s.dst ∧ s.dst ≤ 8 then aset r.c.ev (s.dst - 1) v else r.c.ev
          lflag := r.c.lflag ||| l } }) := by
  dsimp only
  unfold Run.stage
  have hr : (stageW (r.c.stage j)).rnd < 4 := by show bits _ _ _ < 4; unfold bits; exact Nat.mod_lt _ (by decide)
  have hg := compute_gives (A := r.read f (stageW (r.c.stage j)).a (stageW (r.c.stage j)).aux)
    (B := r.read f (stageW (r.c.stage j)).b (stageW (r.c.stage j)).aux) (C := r.third (stageW (r.c.stage j))) (flush := r.c.nbv == 2) hr hv ho
  have hbs : r.bad.isSome = false := by rw [hb]; rfl
  generalize stageW (r.c.stage j) = s at *
  have hany : r.c.damaged.any (s.reads.contains ·) = false := by rw [hd]; rfl
  have hput : ∀ v, r.put s.dst v
      = { r with p := v, c := { r.c with ev := if 1 ≤ s.dst ∧ s.dst ≤ 8 then aset r.c.ev (s.dst - 1) v else r.c.ev } } := by
    intro v
    unfold Run.put
    by_cases h : 1 ≤ s.dst ∧ s.dst ≤ 8
    · simp [h, hd]
    · simp [h]
  simp only [hbs, hany, Bool.false_eq_true, if_false, Bool.and_false]
  rw [if_neg (by rcases hv with h | h <;> simp <;> omega), if_neg (by rcases hv with h | h <;> simp <;> omega),
    if_neg (by rcases hv with h | h <;> simp <;> omega), if_neg (by rcases hv with h | h <;> omega)]
  by_cases h1 : s.op = 0x1F
  · right
    rw [if_pos h1]
    have hnf : ¬ s.Fails (r.c.nbv == 2) (r.read f s.a s.aux) := fun h => by have := h.1; omega
    refine ⟨hnf, r.read f s.a s.aux, 0, ?_, fun _ => rfl, ?_⟩
    · have := (gives_copy (s := s) (flush := r.c.nbv == 2) (scalarA := r.c.scalarIn s) (A := r.read f s.a s.aux) (B := r.read f s.b s.aux)
        (C := r.third s) (.inr (.inr h1))).2
      have e : compute s (r.c.nbv == 2) (r.c.scalarIn s) (s.b == 15) (r.read f s.a s.aux) (r.read f s.b s.aux) (r.third s) = Res.plain (r.read f s.a s.aux) := by
        unfold compute; rw [h1]; rfl
      rw [e] at this
      exact this
    · rw [hput, if_pos h1, Nat.or_zero]; rfl
  · rw [if_neg h1]
    obtain ⟨g1, g2⟩ := hg
    have hs : (decide (1 ≤ s.a) && decide (s.a ≤ 4) && r.c.netOf (s.a + 3) == 1) = r.c.scalarIn s := rfl
    rw [hs]
    by_cases he : (compute s (r.c.nbv == 2) (r.c.scalarIn s) (s.b == 15) (r.read f s.a s.aux) (r.read f s.b s.aux) (r.third s)).err = true
    · left
      rw [if_pos he]
      exact ⟨g1.1 he, rfl⟩
    · right
      rw [if_neg he]
      refine ⟨fun h => he (g1.2 h), _, _, g2 (by simpa using he), fun h => absurd h h1, ?_⟩
      rw [if_neg h1, hput, List.append_nil]

/-- The values a stage reads before the n-th are all that it depends on. -/
theorem Ctx.StageRuns.congr {k : Ctx} {toks P P' : Nat → Wide} {E E' : Nat → Nat → Wide} {F F' : Nat → Nat → Prop} {j : Nat}
    (h : k.StageRuns toks P E F j) (hp : ∀ i, i ≤ j → P' i = P i) (he : ∀ i, i ≤ j → E' i = E i) (hf : F' j = F j) :
    k.StageRuns toks P' E' F' j := by
  unfold Ctx.StageRuns at *
  rw [hp _ (by omega : j - 1 ≤ j), hp j le_rfl, he _ (by omega : j - 1 ≤ j), he j le_rfl, hf]
  exact h

/-- The constants that VCONST sets in the first m stages, in order. -/
def Ctx.constsOf (k : Ctx) (P : Nat → Wide) (m : Nat) : List (Nat × Nat) :=
  (List.range m).flatMap (fun i => let s := stageW (k.stage (i + 1))
    if s.op = 0x1F then [(s.aux % 4, el 32 0 (P (i + 1)))] else [])

theorem Ctx.constsOf_succ (k : Ctx) (P : Nat → Wide) (m : Nat) : k.constsOf P (m + 1) = k.constsOf P m ++
    (if (stageW (k.stage (m + 1))).op = 0x1F then [((stageW (k.stage (m + 1))).aux % 4, el 32 0 (P (m + 1)))] else []) := by
  unfold Ctx.constsOf
  rw [List.range_succ, List.flatMap_append]
  simp

theorem Ctx.constsOf_congr (k : Ctx) {P P' : Nat → Wide} (m : Nat) (h : ∀ i, i ≤ m → P' i = P i) : k.constsOf P' m = k.constsOf P m := by
  induction m with
  | zero => rfl
  | succ m ih => rw [k.constsOf_succ, k.constsOf_succ, ih (fun i hi => h i (by omega)), h (m + 1) le_rfl]

/-- A context with only its element registers and LFLAG changed. -/
def Ctx.withRegs (k : Ctx) (ev : AMap Wide) (lflag : Nat) : Ctx := { k with ev := ev, lflag := lflag }

theorem Ctx.withRegs_stage (k : Ctx) (ev : AMap Wide) (l j : Nat) : (k.withRegs ev l).stage j = k.stage j := rfl
theorem Ctx.withRegs_netOf (k : Ctx) (ev : AMap Wide) (l j : Nat) : (k.withRegs ev l).netOf j = k.netOf j := rfl
theorem Ctx.withRegs_scalarIn (k : Ctx) (ev : AMap Wide) (l : Nat) (s : StageW) : (k.withRegs ev l).scalarIn s = k.scalarIn s := rfl

/-- The first n stages of a vector context: all of them, or those before the one that fails. -/
theorem Run.upTo_vector (k : Ctx) (hv : k.Vector) (f : Fire) (toks : Nat → Wide)
    (ht : ∀ j, 1 ≤ j → j ≤ 6 → ∀ i, i < 4 → ((stageW (k.stage j)).a = i + 1 ∨ (stageW (k.stage j)).b = i + 1) →
      ∃ t, nth f.toks i none = some t ∧ toks i = t.pay)
    (tap : Wide) (part : Part) : ∀ n, n ≤ 6 →
    let r := Run.upTo f { c := k, p := 0, bad := none, tap := tap, tapBad := none, kNew := [], part := part } n
    ∃ m P E F ev l, m ≤ n ∧ P 0 = 0 ∧ (∀ i, E 0 i = agetD k.ev i 0) ∧ (∀ j, 1 ≤ j → j ≤ m → k.StageRuns toks P E F j) ∧
      r.c = k.withRegs ev l ∧ (∀ i, agetD ev i 0 = E m i) ∧
      (∀ i, bitAt l i = true ↔ bitAt k.lflag i = true ∨ ∃ j, 1 ≤ j ∧ j ≤ m ∧ F j i) ∧
      r.kNew = k.constsOf P m ∧
      (∀ i, i ≤ n → let q := Run.upTo f { c := k, p := 0, bad := none, tap := tap, tapBad := none, kNew := [], part := part } i
        if i ≤ m then q.p = P i ∧ q.bad = none else q.bad = r.bad) ∧ r.p = P m ∧ r.tap = tap ∧ r.tapBad = none ∧ r.part = part ∧
      ((m = n ∧ r.bad = none) ∨ (m < n ∧ k.StageFails toks P E (m + 1) ∧ ∃ b, r.bad = some b ∧ b.kind = 0 ∧ b.tag = true ∧ b.net = 0 ∧ b.item = f.item ∧
        b.pay = poisonPay 0x0B (k.nodeOf (m + 1)).1 f.tb f.item))
  | 0, _ => by
    refine ⟨0, fun _ => 0, fun _ i => agetD k.ev i 0, fun _ _ => False, k.ev, k.lflag, le_rfl, rfl, fun _ => rfl, fun j h1 h2 => by omega,
      rfl, fun _ => rfl, fun i => ?_, rfl, fun i hi => ?_, rfl, rfl, rfl, rfl, .inl ⟨rfl, rfl⟩⟩
    constructor
    · exact fun h => .inl h
    · rintro (h | ⟨j, _, _, h⟩)
      · exact h
      · exact h.elim
    · obtain rfl : i = 0 := by omega
      exact ⟨rfl, rfl⟩
  | n + 1, hn => by
    obtain ⟨m, P, E, F, ev, l, hm, p0, e0, hr, hc, hev, hl, hk, hw, hp, htap, htb, hpart, hend⟩ := Run.upTo_vector k hv f toks ht tap part n (by omega)
    dsimp only
    rw [Run.upTo_succ]
    have hu := Run.upTo_succ f { c := k, p := 0, bad := none, tap := tap, tapBad := none, kNew := [], part := part } n
    generalize hrr : Run.upTo f { c := k, p := 0, bad := none, tap := tap, tapBad := none, kNew := [], part := part } n = r at *
    rcases hend with ⟨rfl, hb⟩ | ⟨hlt, hf, bt, hb, hbt⟩
    · obtain ⟨v1, v2⟩ := hv.2 (m + 1) (by omega) hn
      have hs : r.c.stage (m + 1) = k.stage (m + 1) := by rw [hc]; rfl
      have hsc : ∀ s, r.c.scalarIn s = k.scalarIn s := fun s => by rw [hc]; rfl
      have hnb : r.c.nbv = k.nbv := by rw [hc]; rfl
      have hkr : r.c.kreg = k.kreg := by rw [hc]; rfl
      have hcev : ∀ i, agetD r.c.ev i 0 = E m i := fun i => by rw [hc]; exact hev i
      have st := Run.stage_vector f r (m + 1) hb (by rw [hc]; exact hv.1) (by rw [hs]; exact v1) (by rw [hs, hsc]; exact v2)
      dsimp only at st
      rw [hs, hnb, hsc] at st
      have sa := Run.read_sees r f toks (stageW (k.stage (m + 1))).a (stageW (k.stage (m + 1))).aux (fun i hi e => ht (m + 1) (by omega) hn i hi (.inl e))
      have sb := Run.read_sees r f toks (stageW (k.stage (m + 1))).b (stageW (k.stage (m + 1))).aux (fun i hi e => ht (m + 1) (by omega) hn i hi (.inr e))
      have third : r.third (stageW (k.stage (m + 1))) = if bitAt (stageW (k.stage (m + 1))).aux 4 then E m (bits (stageW (k.stage (m + 1))).aux 2 2) else P m := by
        unfold Run.third; rw [hcev, hp]
      rw [third] at st
      simp only [hcev, hkr, hp] at sa sb
      rcases st with ⟨s1, s2⟩ | ⟨s1, v, x, s2, s3, s4⟩
      · rw [s2]
        refine ⟨m, P, E, F, ev, l, by omega, p0, e0, hr, hc, hev, hl, hk, fun i hi => ?_, hp, htap, htb, hpart, .inr ⟨by omega, ⟨_, sa, s1⟩, _, rfl, rfl, rfl, rfl, rfl, ?_⟩⟩
        · by_cases hin : i ≤ m
          · have := hw i hin
            rw [if_pos hin] at this
            rw [if_pos hin]
            exact this
          · obtain rfl : i = m + 1 := by omega
            rw [if_neg hin, hu, s2]
        show poisonPay 0x0B (r.c.nodeOf (m + 1)).1 f.tb f.item = _
        rw [hc]; rfl
      · rw [s4]
        generalize hsv : stageW (k.stage (m + 1)) = s at *
        let E1 := fun i => if s.dst = i + 1 ∧ i < 8 then v else E m i
        have hE1 : ∀ i, agetD (if 1 ≤ s.dst ∧ s.dst ≤ 8 then aset ev (s.dst - 1) v else ev) i 0 = E1 i := by
          intro i
          by_cases hd : 1 ≤ s.dst ∧ s.dst ≤ 8
          · rw [if_pos hd]
            unfold agetD
            rw [aget_aset]
            by_cases hi : i = s.dst - 1
            · rw [if_pos hi]
              show _ = if s.dst = i + 1 ∧ i < 8 then v else E m i
              rw [if_pos (by omega)]; rfl
            · rw [if_neg hi]
              show _ = if s.dst = i + 1 ∧ i < 8 then v else E m i
              rw [if_neg (by omega)]; exact hev i
          · rw [if_neg hd]
            show _ = if s.dst = i + 1 ∧ i < 8 then v else E m i
            rw [if_neg (by omega)]; exact hev i
        have lo : ∀ i, i ≤ m → ¬ i = m + 1 := fun i hi => by omega
        refine ⟨m + 1, fun i => if i = m + 1 then v else P i, fun i => if i = m + 1 then E1 else E i,
          fun i => if i = m + 1 then fun n => bitAt x n = true else F i,
          if 1 ≤ s.dst ∧ s.dst ≤ 8 then aset ev (s.dst - 1) v else ev, l ||| x, le_rfl, by beta_reduce; rw [if_neg (by omega)]; exact p0,
          fun i => by beta_reduce; rw [if_neg (by omega)]; exact e0 i, fun j h1 h2 => ?_, ?_, ?_, ?_, ?_, fun i hi => ?_, ?_, htap, htb, hpart, .inl ⟨rfl, hb⟩⟩
        · by_cases hj : j = m + 1
          · subst hj
            unfold Ctx.StageRuns
            dsimp only
            rw [hsv]
            simp only [Nat.add_sub_cancel, if_true, if_neg (lo m le_rfl)]
            exact ⟨_, _, sa, sb, s1, s2, fun _ => rfl⟩
          · exact (hr j h1 (by omega)).congr (fun i hi => if_neg (by omega)) (fun i hi => if_neg (by omega)) (if_neg hj)
        · dsimp only; rw [hc]; rfl
        · intro i; beta_reduce; rw [if_pos rfl]; exact hE1 i
        · intro i
          rw [bitAt_or, Bool.or_eq_true, hl]
          constructor
          · rintro ((h | ⟨j, h1, h2, h3⟩) | h)
            · exact .inl h
            · exact .inr ⟨j, h1, by omega, by beta_reduce; rw [if_neg (by omega)]; exact h3⟩
            · exact .inr ⟨m + 1, by omega, le_rfl, by beta_reduce; rw [if_pos rfl]; exact h⟩
          · rintro (h | ⟨j, h1, h2, h3⟩)
            · exact .inl (.inl h)
            · by_cases hj : j = m + 1
              · rw [if_pos hj] at h3; exact .inr h3
              · rw [if_neg hj] at h3; exact .inl (.inr ⟨j, h1, by omega, h3⟩)
        · dsimp only
          rw [hk, Ctx.constsOf_succ, hsv]
          rw [if_pos rfl]
          congr 1
          exact (k.constsOf_congr m (fun i hi => if_neg (by omega))).symm
        · dsimp only
          rw [if_pos hi]
          by_cases hin : i ≤ m
          · have := hw i hin
            rw [if_pos hin] at this
            rw [if_neg (by omega)]
            exact this
          · obtain rfl : i = m + 1 := by omega
            rw [if_pos rfl, hu, s4]
            exact ⟨rfl, hb⟩
        · beta_reduce; rw [if_pos rfl]
    · have e : r.stage f false (n + 1) = r := by unfold Run.stage; rw [hb]; rfl
      rw [e]
      refine ⟨m, P, E, F, ev, l, by omega, p0, e0, hr, hc, hev, hl, hk, fun i hi => ?_, hp, htap, htb, hpart, .inr ⟨by omega, hf, bt, hb, hbt⟩⟩
      by_cases hin : i ≤ n
      · exact hw i hin
      · obtain rfl : i = n + 1 := by omega
        rw [if_neg (by omega), hu, e]

/-- A run with its S3 tap as given. -/
def Run.withTap (r : Run) (v : Wide) (b : Option Tok) : Run := { r with tap := v, tapBad := b }

theorem Run.withTap_stage (f : Fire) (r : Run) (j : Nat) (v : Wide) (b : Option Tok) (hd : r.c.damaged = [])
    (hv : (stageW (r.c.stage j)).IsVector) : (r.withTap v b).stage f false j = (r.stage f false j).withTap v b := by
  by_cases hb : r.bad.isSome = true
  · unfold Run.stage
    rw [if_pos hb, if_pos (show (r.withTap v b).bad.isSome = true from hb)]
  · unfold Run.stage
    rw [if_neg hb, if_neg (show ¬ (r.withTap v b).bad.isSome = true from hb)]
    simp only [Bool.and_false, Bool.false_eq_true, if_false]
    have hs : (r.withTap v b).c.stage j = r.c.stage j := rfl
    have hany : r.c.damaged.any ((stageW (r.c.stage j)).reads.contains ·) = false := by rw [hd]; rfl
    rw [hs]
    rw [if_neg (show ¬ (r.withTap v b).c.damaged.any ((stageW (r.c.stage j)).reads.contains ·) = true by
      rw [show (r.withTap v b).c.damaged = r.c.damaged from rfl, hany]; decide), if_neg (show ¬ r.c.damaged.any ((stageW (r.c.stage j)).reads.contains ·) = true by rw [hany]; decide)]
    generalize stageW (r.c.stage j) = s at *
    have c1 : ¬ (decide (0x90 ≤ s.op) && decide (s.op ≤ 0x93)) = true := by rcases hv with h | h <;> simp <;> omega
    have c2 : ¬ (decide (0x58 ≤ s.op) && decide (s.op ≤ 0x5B)) = true := by rcases hv with h | h <;> simp <;> omega
    have c3 : ¬ (decide (0x5C ≤ s.op) && decide (s.op ≤ 0x5E)) = true := by rcases hv with h | h <;> simp <;> omega
    have c4 : ¬ s.op = 0xB8 := by rcases hv with h | h <;> omega
    simp only [if_neg c1, if_neg c2, if_neg c3, if_neg c4]
    by_cases h1 : s.op = 0x1F
    · rw [if_pos h1, if_pos h1]; rfl
    · rw [if_neg h1, if_neg h1]
      by_cases he : (compute s (r.c.nbv == 2) (decide (1 ≤ s.a) && decide (s.a ≤ 4) && r.c.netOf (s.a + 3) == 1) (s.b == 15) (r.read f s.a s.aux) (r.read f s.b s.aux) (r.third s)).err = true
      · rw [if_pos he]
        exact if_pos he
      · rw [if_neg he]
        exact if_neg he

theorem Ctx.constsOf_after (k : Ctx) (P : Nat → Wide) (m n : Nat) :
    k.ConstAfter P m n (agetD ((k.constsOf P m).foldl (fun q e => aset q e.1 e.2) k.kreg) n 0) := by
  induction m with
  | zero => exact ⟨fun j h => by obtain ⟨h1, h2, _⟩ := h; omega, fun _ => rfl⟩
  | succ m ih =>
    obtain ⟨i1, i2⟩ := ih
    rw [Ctx.constsOf_succ, List.foldl_append]
    generalize (k.constsOf P m).foldl (fun q e => aset q e.1 e.2) k.kreg = q at *
    by_cases h : (stageW (k.stage (m + 1))).op = 0x1F
    · rw [if_pos h]
      show k.ConstAfter P (m + 1) n (agetD (aset q ((stageW (k.stage (m + 1))).aux % 4) (el 32 0 (P (m + 1)))) n 0)
      unfold agetD
      rw [aget_aset]
      by_cases hn : n = (stageW (k.stage (m + 1))).aux % 4
      · rw [if_pos hn]
        refine ⟨fun j hj hl => ?_, fun hno => absurd ⟨by omega, le_rfl, h, hn.symm⟩ (hno (m + 1))⟩
        have : m + 1 ≤ j := hl (m + 1) ⟨by omega, le_rfl, h, hn.symm⟩
        obtain rfl : j = m + 1 := by have := hj.2.1; omega
        rfl
      · rw [if_neg hn]
        have hm : ∀ j, (1 ≤ j ∧ j ≤ m + 1 ∧ (stageW (k.stage j)).op = 0x1F ∧ (stageW (k.stage j)).aux % 4 = n) →
            (1 ≤ j ∧ j ≤ m ∧ (stageW (k.stage j)).op = 0x1F ∧ (stageW (k.stage j)).aux % 4 = n) := by
          rintro j ⟨a, b, c, d⟩
          refine ⟨a, ?_, c, d⟩
          by_contra hh
          obtain rfl : j = m + 1 := by omega
          exact hn d.symm
        exact ⟨fun j hj hl => i1 j (hm j hj) (fun i hi => hl i ⟨hi.1, by omega, hi.2.2⟩), fun hno => i2 (fun j hj => hno j ⟨hj.1, by omega, hj.2.2⟩)⟩
    · rw [if_neg h]
      have hm : ∀ j, (1 ≤ j ∧ j ≤ m + 1 ∧ (stageW (k.stage j)).op = 0x1F ∧ (stageW (k.stage j)).aux % 4 = n) →
          (1 ≤ j ∧ j ≤ m ∧ (stageW (k.stage j)).op = 0x1F ∧ (stageW (k.stage j)).aux % 4 = n) := by
        rintro j ⟨a, b, c, d⟩
        refine ⟨a, ?_, c, d⟩
        by_contra hh
        obtain rfl : j = m + 1 := by omega
        exact h c
      exact ⟨fun j hj hl => i1 j (hm j hj) (fun i hi => hl i ⟨hi.1, by omega, hi.2.2⟩), fun hno => i2 (fun j hj => hno j ⟨hj.1, by omega, hj.2.2⟩)⟩

/-- What a firing of a vector context computes (R201, R202, R222): the result and the S3 tap it leaves, and what its
registers then hold. -/
theorem Run.all_vector (k : Ctx) (hv : k.Vector) (f : Fire) (toks : Nat → Wide)
    (ht : ∀ j, 1 ≤ j → j ≤ 6 → ∀ i, i < 4 → ((stageW (k.stage j)).a = i + 1 ∨ (stageW (k.stage j)).b = i + 1) →
      ∃ t, nth f.toks i none = some t ∧ toks i = t.pay) (tap : Wide) (part : Part) :
    let r := Run.all f false { c := k, p := 0, bad := none, tap := tap, tapBad := none, kNew := [], part := part }
    let poison := fun (m : Nat) (o : Option Tok) => ∃ b, o = some b ∧ b.kind = 0 ∧ b.tag = true ∧ b.net = 0 ∧ b.item = f.item ∧
      b.pay = poisonPay 0x0B (k.nodeOf (m + 1)).1 f.tb f.item
    ∃ m P E F ev l, k.Runs toks m P E F ∧
      r.c = { k.withRegs ev l with kreg := r.c.kreg } ∧ (∀ i, agetD ev i 0 = E m i) ∧
      (∀ i, bitAt l i = true ↔ bitAt k.lflag i = true ∨ ∃ j, 1 ≤ j ∧ j ≤ m ∧ F j i) ∧
      (∀ n, k.ConstAfter P m n (agetD r.c.kreg n 0)) ∧ r.part = part ∧
      (m = 6 → r.p = P 6 ∧ r.bad = none) ∧ (m < 6 → poison m r.bad) ∧
      (3 ≤ m → r.tap = P 3 ∧ r.tapBad = none) ∧ (m < 3 → poison m r.tapBad) := by
  obtain ⟨m, P, E, F, ev, l, hm, p0, e0, hr, hc, hev, hl, hk, hw, hp, -, -, hpart, hend⟩ := Run.upTo_vector k hv f toks ht tap part 6 le_rfl
  dsimp only
  generalize hs : ({ c := k, p := 0, bad := none, tap := tap, tapBad := none, kNew := [], part := part } : Run) = s0 at *
  -- the tap does not matter to the stages after it
  have dmg : ∀ n, n ≤ 6 → (Run.upTo f s0 n).c.damaged = [] ∧ ∀ j, (Run.upTo f s0 n).c.stage j = k.stage j := by
    intro n hn
    have := Run.upTo_vector k hv f toks ht tap part n hn
    rw [hs] at this
    obtain ⟨_, _, _, _, ev', l', _, _, _, _, hc', _⟩ := this
    rw [hc']
    exact ⟨hv.1, fun _ => rfl⟩
  have taps : ∀ n, n ≤ 3 → ∀ v b, (List.range' 4 n).foldl (Run.stage f false) ((Run.upTo f s0 3).withTap v b) = (Run.upTo f s0 (3 + n)).withTap v b := by
    intro n
    induction n with
    | zero => intro _ v b; rfl
    | succ n ih =>
      intro hn v b
      rw [List.range'_concat, List.foldl_append, ih (by omega)]
      obtain ⟨d1, d2⟩ := dmg (3 + n) (by omega)
      show Run.stage f false _ (4 + 1 * n) = _
      rw [Run.withTap_stage f _ _ v b d1 (by rw [d2]; exact (hv.2 _ (by omega) (by omega)).1), show 3 + (n + 1) = (3 + n) + 1 by omega,
        Run.upTo_succ, show 4 + 1 * n = 3 + n + 1 by omega]
  have hall : Run.all f false s0 = { (Run.upTo f s0 6).withTap (Run.upTo f s0 3).p (Run.upTo f s0 3).bad with
      c := { (Run.upTo f s0 6).c with
        kreg := (Run.upTo f s0 6).kNew.foldl (fun m e => aset m e.1 e.2) (Run.upTo f s0 6).c.kreg
        damaged := (Run.upTo f s0 6).c.damaged.filter (fun d => !(Run.upTo f s0 6).kNew.any (fun e => 8 + e.1 == d)) } } := by
    have := taps 3 le_rfl (Run.upTo f s0 3).p (Run.upTo f s0 3).bad
    unfold Run.all
    dsimp only
    rw [show [1, 2, 3].foldl (Run.stage f false) s0 = Run.upTo f s0 3 from rfl]
    rw [show ([4, 5, 6].foldl (Run.stage f false) { Run.upTo f s0 3 with tap := (Run.upTo f s0 3).p, tapBad := (Run.upTo f s0 3).bad }) = (Run.upTo f s0 6).withTap (Run.upTo f s0 3).p (Run.upTo f s0 3).bad from this]
    rfl
  rw [hall]
  have h3 := hw 3 (by decide)
  dsimp only at h3
  refine ⟨m, P, E, F, ev, l, ⟨hm, p0, e0, hr, fun h => ?_⟩, ?_, hev, hl, fun n => ?_, hpart, fun h => ?_, fun h => ?_, fun h => ?_, fun h => ?_⟩
  · rcases hend with ⟨h', _⟩ | ⟨_, h', _⟩
    · omega
    · exact h'
  · dsimp only
    rw [hc]
    unfold Ctx.withRegs
    simp [hv.1]
  · dsimp only
    rw [hk, hc]
    exact k.constsOf_after P m n
  · subst h
    rcases hend with ⟨_, h'⟩ | ⟨h', _⟩
    · exact ⟨hp, h'⟩
    · omega
  · rcases hend with ⟨h', _⟩ | ⟨_, _, h'⟩
    · omega
    · exact h'
  · rw [if_pos h] at h3
    exact h3
  · rw [if_neg (by omega)] at h3
    rcases hend with ⟨h', _⟩ | ⟨_, _, h'⟩
    · omega
    · show ∃ b, (Run.upTo f s0 3).bad = some b ∧ _
      rw [h3]; exact h'

end Sys2Proof.Machine
end

