-- ==== Sys2Proof/Tests/Slice0.lean ====
section
/-!
SUPPORT. Tests of slice 0. First words written out from the encodings of the spec, and words that the checks
refuse; then, for each statement with hypotheses, a small state and operands that meet them; then a few steps
whose results the spec works out. Expected values come from the spec's encodings, examples and tables.
-/

namespace Sys2Proof.Tests

set_option Elab.async false

open Sys2Proof Sys2Proof.Machine

/-! ## Words decode as their encodings say (R46 to R49, R71 to R78)

Each word is a worked encoding of the spec, or is written out from its format: the major opcode first, then the
fields in the order of R46. -/

theorem test_decode_alu :
    decodeWord 0b000000_00001_00010_00011_000_00000000 = .ok (.add 1 2 3) ∧
    decodeWord 0b000000_00001_00010_00011_000_00000001 = .ok (.sub 1 2 3) ∧
    decodeWord 0b000000_00001_00010_00011_000_00000010 = .ok (.and 1 2 3) ∧
    decodeWord 0b000000_00001_00010_00011_000_00000011 = .ok (.or 1 2 3) ∧
    decodeWord 0b000000_00001_00010_00011_000_00000100 = .ok (.xor 1 2 3) ∧
    decodeWord 0b000000_00001_00010_00011_000_00000101 = .ok (.andn 1 2 3) ∧
    decodeWord 0b000000_00001_00010_00011_000_00000110 = .ok (.shl 1 2 3) ∧
    decodeWord 0b000000_00001_00010_00011_000_00000111 = .ok (.shr 1 2 3) ∧
    decodeWord 0b000000_00001_00010_00011_000_00001000 = .ok (.shra 1 2 3) ∧
    decodeWord 0b000000_00001_00010_00011_000_00001001 = .ok (.min 1 2 3) ∧
    decodeWord 0b000000_00001_00010_00011_000_00001010 = .ok (.max 1 2 3) ∧
    decodeWord 0b000000_00001_00010_00011_000_00001011 = .ok (.minu 1 2 3) ∧
    decodeWord 0b000000_00001_00010_00011_000_00001100 = .ok (.maxu 1 2 3) := by decide

/-- The spec's words of LEA g8, g9, g10, #3; SEXT.h g6, g7; CSEL g2, g3, g4, c5; and the other words of one source. -/
theorem test_decode_alu_other :
    decodeWord 0x0109530D = .ok (.lea 8 9 10 3) ∧ decodeWord 0x00C70111 = .ok (.sext 6 7 1) ∧
    decodeWord 0x00432513 = .ok (.csel 2 3 4 5) ∧
    decodeWord 0b000000_00001_00010_00000_000_00001110 = .ok (.clz 1 2) ∧
    decodeWord 0b000000_00001_00010_00000_000_00001111 = .ok (.popc 1 2) ∧
    decodeWord 0b000000_00001_00010_00000_000_00010000 = .ok (.brev 1 2) ∧
    decodeWord 0b000000_00001_00010_00000_010_00010010 = .ok (.zext 1 2 2) := by decide

/-- DIV g3, g4, g5 is the spec's word. -/
theorem test_decode_muldiv :
    decodeWord 0b000001_00001_00010_00011_000_00000000 = .ok (.mul 1 2 3) ∧
    decodeWord 0b000001_00001_00010_00011_000_00000001 = .ok (.mulh 1 2 3) ∧
    decodeWord 0b000001_00001_00010_00011_000_00000010 = .ok (.mulhu 1 2 3) ∧
    decodeWord 0x04642803 = .ok (.div 3 4 5) ∧
    decodeWord 0b000001_00001_00010_00011_000_00000100 = .ok (.divu 1 2 3) ∧
    decodeWord 0b000001_00001_00010_00011_000_00000101 = .ok (.rem 1 2 3) ∧
    decodeWord 0b000001_00001_00010_00011_000_00000110 = .ok (.remu 1 2 3) := by decide

/-- CMP.lt c2, g5, g6 and CMPI.ltu c3, g4, #100 are the spec's words. -/
theorem test_decode_conditions :
    decodeWord 0x08453200 = .ok (.cmp 2 5 6 2) ∧
    decodeWord 0b000010_00_111_00_110_00_101_100_00000001 = .ok (.clog 7 6 5 4) ∧
    decodeWord 0x29E40064 = .ok (.cmpi 3 3 4 100) := by decide

/-- SHRI g6, g5, #16 and MOVK g4, #0x7F00, #2 are the spec's words. -/
theorem test_decode_immediates :
    decodeWord 0b000011_00001_00010_1111111111111111 = .ok (.addi 1 2 (-1)) ∧
    decodeWord 0b000100_00001_00010_1000000000000001 = .ok (.andi 1 2 0x8001) ∧
    decodeWord 0b000101_00001_00010_1000000000000010 = .ok (.ori 1 2 0x8002) ∧
    decodeWord 0b000110_00001_00010_1000000000000011 = .ok (.xori 1 2 0x8003) ∧
    decodeWord 0b000111_00001_00010_0000000000111111 = .ok (.shli 1 2 63) ∧
    decodeWord 0x20C50010 = .ok (.shri 6 5 16) ∧
    decodeWord 0b001001_00001_00010_0000000000000001 = .ok (.shrai 1 2 1) ∧
    decodeWord 0b001011_00001_00000_1000000000000000 = .ok (.movi 1 0x8000) ∧
    decodeWord 0x30827F00 = .ok (.movk 4 2 0x7F00) := by decide

/-- BC c1, A+12; BC.f c1, A-8; B A+0x100; BL A-4; LOOP #3 over ten words: the spec's words. -/
theorem test_decode_branches :
    decodeWord 0x42400003 = .ok (.bc 1 1 3) ∧ decodeWord 0x407FFFFE = .ok (.bc 0 1 (-2)) ∧
    decodeWord 0x44000040 = .ok (.b 0x40) ∧ decodeWord 0x4BFFFFFF = .ok (.bl (-1)) ∧
    decodeWord 0b010011_00001_00010_00000_000_00000000 = .ok (.jr 1 2) ∧
    decodeWord 0x50002803 = .ok (.loopImm 10 3) ∧
    decodeWord 0b010100_00101_00000000111_0000000000 = .ok (.loopReg 5 7) ∧
    decodeWord 0b010101_00000_00000_00000_000_00000000 = .ok .lbrk := by decide

/-- LD.w g6, [g5, #8], set sb2, wait sb1; ST.d g20, [g21]; LDX.w g3, [g4, g5], set sb1: the spec's words. -/
theorem test_decode_memory :
    decodeWord 0x60C54602 = .ok (.ld 6 5 2 1 2 0 2) ∧ decodeWord 0x66950300 = .ok (.st 20 21 0 0 3 0 0) ∧
    decodeWord 0x68642910 = .ok (.ldx 3 4 5 1 0 2 0) ∧
    decodeWord 0b011011_00001_00010_00011_100_101_11_10_0 = .ok (.stx 1 2 3 4 5 3 2) := by decide

/-- AMO.add.d.die g3, [g4], g5; CAS.d.acq.pkg g3, [g4], g5; RED.add.w.pkg [g4], g5; CADD.die [g22], g23; CWAIT.die
[g22], g24; SWWAIT.cluster [g8], g9: the spec's words. -/
theorem test_decode_sync :
    decodeWord 0x70642C05 = .ok (.amo 3 4 5 1 0 0 5) ∧ decodeWord 0x74642D06 = .ok (.cas 3 4 5 1 1 6) ∧
    decodeWord 0x78042806 = .ok (.red 4 5 0 0 6) ∧ decodeWord 0x7C16B805 = .ok (.cadd 22 23 5) ∧
    decodeWord 0x7C16C015 = .ok (.cwait 22 24 5) ∧
    decodeWord 0b011111_00001_00010_00000_000_0010_0011 = .ok (.ctest 1 2 3) ∧
    decodeWord 0b100000_00000_00001_00010_000_0000_0011 = .ok (.swset 1 2 3) ∧
    decodeWord 0x80084814 = .ok (.swwait 8 9 4) ∧
    decodeWord 0b100001_00000_00000_00000_011_0000_0100 = .ok (.fence 3 4) ∧
    decodeWord 0b100010_00000_00000_00000_000_1000001_0 = .ok (.sbwait 0x41) := by decide

theorem test_decode_engines :
    decodeWord 0b100100_00001_00010_011_100_0000000000 = .ok (.copy 1 2 3 4) ∧
    decodeWord 0b100101_00001_00010_011_100_0000000000 = .ok (.gath 1 2 3 4) ∧
    decodeWord 0b100110_00001_00010_011_100_0000000000 = .ok (.scat 1 2 3 4) ∧
    decodeWord 0b100111_00001_00010_011_100_0000000000 = .ok (.coll 1 2 3 4) ∧
    decodeWord 0b101000_00001_00010_011_100_0000000000 = .ok (.foot 1 2 3 4) ∧
    decodeWord 0b101001_00001_00010_011_100_00101_00000 = .ok (.tdset 1 2 3 4 5) ∧
    decodeWord 0b101010_00001_00010_011_100_0000000000 = .ok (.tdinv 1 2 3 4) := by decide

/-- CFGL g11, [g10], set sb3; STRM.idem g12, [g13], set sb1; DRAIN g2, [g3]: the spec's words. -/
theorem test_decode_fabric :
    decodeWord 0xC16A6000 = .ok (.cfgl 11 10 3 0) ∧ decodeWord 0xC98D2001 = .ok (.strm 12 13 1 0 1) ∧
    decodeWord 0xD4430000 = .ok (.drain 2 3 0 0) ∧
    decodeWord 0b110001_00001_00010_011_100_0000000000 = .ok (.cfgr 1 2 3 4) ∧
    decodeWord 0b110011_00001_00010_011_100_0000000000 = .ok (.strs 1 2 3 4) ∧
    decodeWord 0b110100_00001_00010_011_100_0000000000 = .ok (.take 1 2 3 4) ∧
    decodeWord 0b110110_00001_00010_011_100_0000000000 = .ok (.blkm 1 2 3 4) := by decide

/-- SPAWN g5, [g6]; EXIT; TRIG g2, [g3], g4: the spec's words. -/
theorem test_decode_threads :
    decodeWord 0xDCA60000 = .ok (.spawn 5 6 0 0) ∧ decodeWord 0xDC000001 = .ok .exit ∧
    decodeWord 0b110111_00000_00000_000_000_00000_00010 = .ok .yield ∧
    decodeWord 0b110111_00001_00010_011_100_00000_00011 = .ok (.gjoin 1 2 3 4) ∧
    decodeWord 0b110111_00000_00010_011_100_00000_00100 = .ok (.gleave 2 3 4) ∧
    decodeWord 0xE0430080 = .ok (.trig 2 3 0 0 4) ∧
    decodeWord 0b111000_00001_00010_011_100_00000_00001 = .ok (.untrig 1 2 3 4) := by decide

/-- PQREQ g14, [g15], c1 and PQTRY g14, c2 are the spec's words. -/
theorem test_decode_places :
    decodeWord 0xE5CF0020 = .ok (.pqreq 14 15 0 0 1) ∧ decodeWord 0xE40E0042 = .ok (.pqtry 14 0 0 2) ∧
    decodeWord 0b111001_00000_00010_011_100_00000_00001 = .ok (.pqwait 2 3 4) ∧
    decodeWord 0b111001_00000_00010_011_100_00101_00011 = .ok (.pqgive 2 3 4 5) ∧
    decodeWord 0b111001_00000_00010_011_100_00101_00100 = .ok (.pqswap 2 3 4 5) ∧
    decodeWord 0b111001_00000_00010_011_100_00000_00101 = .ok (.pqdrop 2 3 4) ∧
    decodeWord 0b111001_00000_00010_011_100_00000_00110 = .ok (.pqdone 2 3 4) := by decide

/-- MSAV g31, g17, g18 and DUMP g2, g3, g4 are the spec's words. -/
theorem test_decode_recovery :
    decodeWord 0b111100_00001_00010_011_100_00101_00000 = .ok (.rinj 1 2 3 4 5) ∧
    decodeWord 0b111100_00001_00010_011_100_00000_00001 = .ok (.errd 1 2 3 4) ∧
    decodeWord 0b111100_00000_00010_011_100_00000_00010 = .ok (.errc 2 3 4) ∧
    decodeWord 0xF3F10243 = .ok (.msav 31 17 0 0 18) ∧
    decodeWord 0b111100_00001_00010_011_100_00000_00100 = .ok (.mscl 1 2 3 4) ∧
    decodeWord 0b111100_00001_00010_011_100_00000_00101 = .ok (.scan 1 2 3 4) ∧
    decodeWord 0b111101_00001_00010_011_100_00000_00000 = .ok (.trce 1 2 3 4) ∧
    decodeWord 0b111101_00000_00010_011_100_00000_00001 = .ok (.mark 2 3 4) ∧
    decodeWord 0xF4430082 = .ok (.dump 2 3 0 0 4) ∧
    decodeWord 0b111101_00001_00010_011_100_00000_00011 = .ok (.brk 1 2 3 4) := by decide

/-- SRR g5, #0x020; TLBI g3, g4, #512; RETT; SRW #0x0B4, g5; a bare UDF: the spec's words. -/
theorem test_decode_system :
    decodeWord 0xFCA03020 = .ok (.srr 5 0x020) ∧ decodeWord 0xFC647200 = .ok (.tlbi 3 4 512) ∧
    decodeWord 0xFC002000 = .ok .rett ∧ decodeWord 0xFC0540B4 = .ok (.srw 5 0x0B4) ∧
    decodeWord 0xFFFFFFFF = .ok (.udf 31 31 0xFFF) ∧
    decodeWord 0b111111_00000_00000_0000_100000000001 = .ok (.trap 0x801) ∧
    decodeWord 0b111111_00000_00000_0001_100000000001 = .ok (.hent 0x801) ∧
    decodeWord 0b111111_00000_00010_0101_000000010000 = .ok (.srs 2 0x010) ∧
    decodeWord 0b111111_00000_00010_0110_000000010000 = .ok (.src 2 0x010) ∧
    decodeWord 0b111111_00000_00000_1000_000000000000 = .ok .tlbw ∧
    decodeWord 0b111111_00000_00000_1001_000000000000 = .ok .wfi := by decide

/-- 0x14 is no ALU operation, 0xDC002001 is EXIT with a set field (R75), and SYS has no subop 0xA. -/
theorem test_decode_unallocated : (decodeWord 0x00000014).toOption = none ∧
    (decodeWord 0xDC002001).toOption = none ∧ (decodeWord 0xFC00A000).toOption = none := by decide

/-- A row's word from its bits; a row of 24 bits has 0 above them: 0xC50010 is BREV g6, g5. -/
theorem test_table_word : decodeTableWord 32 0x20C50010 = some (.shri 6 5 16) ∧
    decodeTableWord 24 0xFFC50010 = some (.brev 6 5) := by decide

/-! ## Ill-formed terms are refused -/

theorem test_wf_width : (Instr.sext 1 2 3).wf = false := by decide
theorem test_wf_relation : (Instr.cmp 0 1 2 6).wf = false := by decide
theorem test_wf_logic : (Instr.clog 0 1 2 6).wf = false ∧ (Instr.clog 0 1 0 6).wf = true := by decide
theorem test_wf_loop_offset : (Instr.loopImm 0 1).wf = false := by decide
theorem test_wf_loop_reg : (Instr.loopReg 0 1).wf = false ∧ (Instr.loopReg 1 0).wf = false := by decide
theorem test_wf_order : (Instr.ld 1 2 0 0 0 3 0).wf = false ∧ (Instr.stx 1 2 3 0 0 0 3).wf = false := by decide
theorem test_wf_amo : (Instr.amo 1 2 3 0 0 9 0).wf = false ∧ (Instr.amo 1 2 3 0 0 0 10).wf = false := by decide
theorem test_wf_cas : (Instr.cas 1 2 3 0 3 0).wf = false := by decide
theorem test_wf_red : (Instr.red 1 2 0 8 0).wf = false := by decide
theorem test_wf_scope : (Instr.cadd 1 2 10).wf = false ∧ (Instr.swset 1 2 15).wf = false := by decide
theorem test_wf_fence : (Instr.fence 0 0).wf = false ∧ (Instr.fence 4 0).wf = false := by decide
theorem test_wf_sbwait : (Instr.sbwait 0).wf = false := by decide
theorem test_wf_agent : (Instr.loadReply 1552 0 0).wf = false ∧ (Instr.threadPark 1536).wf = false := by decide
theorem test_wf_partition : (Instr.jobRecordWrite 16).wf = false := by decide
theorem test_wf_cluster : (Instr.scanAbort 192).wf = false := by decide
theorem test_wf_tile : (Instr.tileFiring 0 8 0 0).wf = false ∧ (Instr.tokenHop 0 0 0 0 8).wf = false := by decide
theorem test_wf_slot : (Instr.brd 0 1 0 0 0).wf = false ∧ (Instr.swar 0 1 0 0 8).wf = false := by decide
theorem test_wf_die : (Instr.loadAccept 8).wf = false := by decide
theorem test_wf_weights : (Instr.contextReweight 0 0 0 [1]).wf = false := by decide
theorem test_wf_engine : (Instr.mxPairStart 0 4).wf = false := by decide
theorem test_wf_core : (Instr.freeze 16).wf = false ∧ (Instr.hptApply 16 0).wf = false := by decide
theorem test_wf_register : (Instr.clmapWrite 0 0x0E3 0).wf = false ∧ (Instr.registerWrite 0 4096 0).wf = false := by decide
theorem test_wf_bridge : (Instr.bridgeDetour 14).wf = false := by decide

/-! ## A small machine -/

/-- Tables that map the first GiB to itself, read-write shareable, for every right: level 3 at 0x1000. -/
def tables : Memory := [(0x1000, 0x01), (0x1001, 0x20), (0x2000, 0x7B), (0x2001, 0x04)]

/-- A cached leaf that maps the pages of the first GiB to themselves, of a kind. -/
def whole (vmid asid : Nat) (kind : Kind) : TlbEntry :=
  { vmid := vmid, asid := asid, page := 0, pages := 2 ^ 18, frame := 0, kind := kind, r := true, w := true, x := true,
    u := true }

/-- The local window of cluster 0 in a cache. -/
def window : TlbEntry := { whole 0 1 .so with page := winBase / 4096, pages := 4096, frame := apBase }

def userTrans : Trans := { ttb := 0x1000, asid := 1, vmid := 0, priv := .u, cluster := none, part := some 0, scratch := none }
def osTrans : Trans := { userTrans with priv := .s }

def region : Region :=
  { cluster := 0, x0 := 0, y0 := 0, rows := 2, cols := 2, image := 0x40000, state := 1, cause := 0, slot := 0,
    quiet := false, tbFrz := 0, floorFrz := false, errq := [], lost := 0, brks := [], trace := none, timer := 0, tbAct := 0,
    ports := [], block := none, waves := [] }

def launch : Launch :=
  { part := 0, prio := 1, pword := 0x12000000, trans := userTrans, status := 0x300000, save := 0, spawns := [],
    regions := [region], state := 1, placing := false, paused := false, floor := false, final := 2, ending := false,
    saved := false, kept := [], saveTrans := userTrans, since := 0, asked := [] }

/-- A thread of the launch, with registers. -/
def user (gs : List (Reg × Word)) : Thread := gs.foldl (fun t p => t.setG p.1 p.2) (Thread.start 0x8000 none)

/-- A core at H, and one at S. -/
def coreH (gs : List (Reg × Word)) : Thread :=
  gs.foldl (fun t p => t.setG p.1 p.2) (Thread.start 0x9000 (some (CoreRegs.start 0x1000)))
def regsS : CoreRegs :=
  { CoreRegs.start 0x1000 with h := false, ttb := 0x1000, asid := 1, sSet := { TrapSet.zero with vec := 0xA000 } }
def coreS (gs : List (Reg × Word)) : Thread := { coreH gs with sys := some regsS }

/-- Partition 0: core 1 and cluster 0, the first GiB, a trap queue and a descriptor table. -/
def part0 : Part :=
  { Part.init with
    entry := { valid := true, vmid := 0, holdPri := 0, share := 0, cores := 2, clusters := 1, tdt := 0x100000,
               ranges := [{ base := 0, len := 0x40000000, exported := true }] }
    trqBase := 0x200000, trqTrans := osTrans, hangTrans := osTrans }

/-- Thread 0 and thread 1 of the launch, core 0 at H and core 1 at S. -/
def mach : Mach :=
  { State.reset.m with
    cur := 0, thr := [(0, user []), (1, user []), (1536, coreH []), (1537, coreS [])], parts := [(0, part0)],
    launches := [(0, launch)], nextLaunch := 1, clusters := [(0, { ctxs := [], engines := [], pword := 0x12000000 })],
    coreRun := 3, tlbs := [(20000, [window, whole 0 1 .rc]), (21000, [whole 0xFF 0 .rc]), (21001, [whole 0 1 .rc])] }

def base : State := { mem := tables, bad := [], m := mach }

/-- Agent k acts, and is t. -/
def as (s : State) (k : Nat) (t : Thread) : State :=
  { s with m := { s.m with cur := k, thr := aset s.m.thr k t } }

/-- The low n bytes of v at a. -/
def poke (s : State) (a n v : Nat) : State := s.commit (s.work.write a n v)

/-! ## How hypotheses are met -/

theorem ready_of {s : State} {t : Thread} {rs ws : List Reg}
    (h : s.me = some t ∧ t.issue rs ws = .go) : s.Ready t rs ws := ⟨h.1, h.2⟩

theorem issues_of {s : State} {t : Thread} {i : Instr} {rs ws : List Reg} {set wait : BitVec 3}
    (h : s.me = some t ∧ i.wf = true ∧ t.refuses i = none ∧ t.busy set = false ∧ t.busy wait = false ∧
      t.slotPoisoned wait.toNat = none ∧ t.issue rs ws = .go) : s.Issues t i rs ws set wait :=
  ⟨h.1, h.2.1, h.2.2.1, h.2.2.2.1, h.2.2.2.2.1, h.2.2.2.2.2.1, h.2.2.2.2.2.2⟩

theorem bound_of {s : State} {t : Thread} {l : Launch} {r : Region}
    (h : t.sys = none ∧ s.m.launch? t.launch = some l ∧ l.regions[t.region]? = some r) : s.Bound t l r :=
  ⟨h.1, h.2.1, h.2.2⟩

/-- What a translation or a search gives, and that it meets a test. -/
def gives {ε α : Type} (x : Except ε α) (p : α → Prop) [DecidablePred p] : Bool :=
  match x with
  | .ok a => decide (p a)
  | .error _ => false

theorem fst_ok {ε α β : Type} {x : Except ε α × β} {p : α → Prop} [DecidablePred p] (h : gives x.1 p = true) :
    ∃ a b, x = (.ok a, b) ∧ p a := by
  obtain ⟨y, b⟩ := x
  cases y with
  | ok a => exact ⟨a, b, rfl, by simpa [gives] using h⟩
  | error e => simp [gives] at h

theorem ctl_ok {ε α β : Type} {x : Except ε (α × β)} {p : α → Prop} [DecidablePred p]
    (h : gives x (fun y => p y.1) = true) : ∃ a w, x = .ok (a, w) ∧ p a := by
  cases x with
  | ok a => exact ⟨a.1, a.2, rfl, by simpa [gives] using h⟩
  | error e => simp [gives] at h

/-- The fault that a translation gives. -/
def faults {ε α : Type} (x : Except ε α) (p : ε → Prop) [DecidablePred p] : Bool :=
  match x with
  | .error a => decide (p a)
  | .ok _ => false

theorem fst_error {ε α β : Type} {x : Except ε α × β} {p : ε → Prop} [DecidablePred p] (h : faults x.1 p = true) :
    ∃ a b, x = (.error a, b) ∧ p a := by
  obtain ⟨y, b⟩ := x
  cases y with
  | error a => exact ⟨a, b, rfl, by simpa [faults] using h⟩
  | ok e => simp [faults] at h

theorem some_of {α : Type} {x : Option α} {p : α → Prop} [DecidablePred p] (h : x.any (fun a => decide (p a)) = true) :
    ∃ a, x = some a ∧ p a := by
  cases x with
  | some a => exact ⟨a, rfl, by simpa using h⟩
  | none => simp at h

/-! ## Register words meet their statements' hypotheses -/

/-- Thread 0 acting, g1 = 7, g2 = -3, g3 = 0, g4 = -2^63, g5 = -1, g6 = 6 (no multiple of 4), c1 set. -/
def tR : Thread := (user [(1, 7), (2, -3), (4, 0x8000000000000000), (5, -1), (6, 6), (7, 0x8100)]).setC 1 true
def sR : State := as base 0 tR

theorem meets_AluTwoSourceResults : sR.Ready tR [1, 2] [3] ∧ sR.Ready tR [0, 0] [0] :=
  ⟨ready_of (by decide +kernel), ready_of (by decide +kernel)⟩

theorem meets_OneSourceAndImmediateResults : sR.Ready tR [1] [3] ∧ (∃ w : BitVec 3, w.toNat < 3 ∧ w = 2) ∧
    (∃ w : BitVec 3, 3 ≤ w.toNat ∧ w = 3) ∧ sR.Ready tR [] [31] ∧ sR.Ready tR [2] [2] :=
  ⟨ready_of (by decide +kernel), ⟨2, by decide⟩, ⟨3, by decide⟩, ready_of (by decide +kernel), ready_of (by decide +kernel)⟩

/-- A division by 0, one of -2^63 by -1, and a plain one. -/
theorem meets_MulDivResults : sR.Ready tR [1, 3] [6] ∧ tR.g 3 = 0 ∧ sR.Ready tR [4, 5] [6] ∧
    (tR.g 4).toInt = -2 ^ 63 ∧ (tR.g 5).toInt = -1 ∧ sR.Ready tR [1, 2] [6] ∧ tR.g 2 ≠ 0 := by
  and_intros <;> first | decide +kernel | rfl | exact ready_of (by decide +kernel)

theorem meets_ConditionResults : sR.Ready tR [1, 2] [] ∧ (∃ r : BitVec 3, 6 ≤ r.toNat ∧ r = 6) ∧ sR.Ready tR [] [] ∧
    sR.Ready tR [1] [] :=
  ⟨ready_of (by decide +kernel), ⟨6, by decide⟩, ready_of (by decide +kernel), ready_of (by decide +kernel)⟩

/-- A branch taken and one not; a jump to an aligned address and to another; a stack whose top body holds the target. -/
theorem meets_BranchResults : sR.Ready tR [] [] ∧ tR.c 1 = decide ((1 : BitVec 1) = 1) ∧
    tR.c 1 ≠ decide ((0 : BitVec 1) = 1) ∧ sR.Ready tR [] [31] ∧ sR.Ready tR [7] [31] ∧ (tR.g 7).toNat % 4 = 0 ∧
    sR.Ready tR [6] [31] ∧ (tR.g 6).toNat % 4 ≠ 0 ∧
    (∃ t : Thread, ∃ l, (t.branch 0x8100).loops.head? = some l ∧ l = { start := 0x8100, fin := 0x8100, left := 2 }) :=
  ⟨ready_of (by decide +kernel), by decide, by decide, ready_of (by decide +kernel), ready_of (by decide +kernel), by decide,
    ready_of (by decide +kernel), by decide,
    { tR with loops := [{ start := 0, fin := 4, left := 1 }, { start := 0x8100, fin := 0x8100, left := 2 }] }, _, rfl, rfl⟩

/-- Stacks of three entries and of four. -/
def loopEnt : LoopEnt := { start := 0x7000, fin := 0x9000, left := 2 }
def t3 : Thread := { tR with loops := [loopEnt, loopEnt, loopEnt] }
def t4 : Thread := { tR with loops := [loopEnt, loopEnt, loopEnt, loopEnt] }

theorem meets_LoopResults :
    (as base 0 t3).Ready t3 [] [] ∧ t3.loops.length < 4 ∧ (as base 0 t4).Ready t4 [] [] ∧ 4 ≤ t4.loops.length ∧
    (as base 0 t3).Ready t3 [1] [] ∧ t3.g 1 ≠ 0 ∧ (as base 0 t4).Ready t4 [1] [] ∧ t4.g 1 ≠ 0 ∧
    sR.Ready tR [3] [] ∧ tR.g 3 = 0 ∧ tR.loops = [] ∧ sR.Ready tR [] [] ∧ (as base 0 t3).Ready t3 [3] [] ∧
    (∀ m ∈ [loopEnt, loopEnt].head?, m.fin ≠ t3.pc) := by
  and_intros <;> first | decide +kernel | rfl | exact ready_of (by decide +kernel)

/-- An LBRK that is the last word of the bodies beneath, of the last pass of each and of one before it. -/
def ending (left : Word) : LoopEnt := { start := 0x7000, fin := 0x8000, left := left }
def tEnd (left : Word) : Thread := { tR with loops := [loopEnt, ending left, ending 1] }
theorem meets_LoopResults_beneath : (as base 0 (tEnd 2)).Ready (tEnd 2) [] [] ∧ (tEnd 2).loops = loopEnt :: ending 2 :: [ending 1] ∧
    (ending 2).fin = (tEnd 2).pc ∧ (as base 0 (tEnd 1)).Ready (tEnd 1) [] [] ∧
    (∀ e ∈ [ending 1, ending 1], e.fin = (tEnd 1).pc ∧ e.left.toNat ≤ 1) := by
  and_intros <;> first | decide +kernel | rfl | exact ready_of (by decide +kernel)

/-- No entry; an entry of another body; a pass before the last; the last pass, at 1 and at 0. -/
theorem meets_EndProcessingCountsPasses : tR.loops = [] ∧ t3.loops = loopEnt :: [loopEnt, loopEnt] ∧ loopEnt.fin ≠ 0x8FFC ∧
    loopEnt.fin = 0x9000 ∧ 1 < loopEnt.left.toNat ∧ ({ loopEnt with left := 1 } : LoopEnt).left.toNat ≤ 1 ∧
    ({ loopEnt with left := 0 } : LoopEnt).left.toNat ≤ 1 := by decide +kernel

theorem meets_RegisterWordFrame : Safety.registerWord (.add 3 1 2) = some (some 3, none) ∧
    Safety.registerWord (.cmp 7 1 2 0) = some (none, some 7) ∧ ∃ s', exec (.add 3 1 2) sR = .next s' :=
  ⟨rfl, rfl, _, rfl⟩

/-! ## Memory words meet their statements' hypotheses -/

/-- Thread 0 with g1 = 0x6000, g2 = 0x2000000000000 (past the address space), g3 = 8, g4 = 0x6FFE (over a page). -/
def tM : Thread := user [(1, 0x6000), (2, 0x2000000000000), (3, 8), (4, 0x6FFE), (5, 0x7F0000001000), (6, 0x6001)]
def sM : State := as base 0 tM
def cM : Nat := agentCache 0
def trM : Trans := sM.m.transOf 0 tM

/-- The same with every page device memory, and with none writable. -/
def sD : State := { sM with m := { sM.m with tlbs := [(20000, [whole 0 1 .dv])] } }
def sW : State := { sM with m := { sM.m with tlbs := [(20000, [{ whole 0 1 .rc with w := false }])] } }

theorem meets_LoadsAndStoresIssue :
    sM.Issues tM (.ld 8 1 1 2 2 1 31) [1] [8] 1 2 ∧ sM.Issues tM (.ldx 8 1 3 7 0 3 0) [1, 3] [8] 7 0 ∧
    sM.Issues tM (.st 8 4 0 0 2 0 0) [4, 8] [] 0 0 ∧ sM.Issues tM (.stx 8 1 3 0 0 3 2) [1, 3, 8] [] 0 0 ∧
    (∃ rs v, sM.work.spanOf cM trM (tM.g 1 + 124).toNat 4 .read = (.ok rs, v) ∧
      sM.work.misaligned cM trM (tM.g 1 + 124).toNat 4 false .read = none) ∧
    (∃ rs v, sM.work.spanOf cM trM (tM.g 1 + tM.g 3).toNat 8 .write = (.ok rs, v) ∧
      sM.work.misaligned cM trM (tM.g 1 + tM.g 3).toNat 8 false .write = none) ∧
    (∃ rs v, sM.work.spanOf cM trM (tM.g 4).toNat 4 .write = (.ok rs, v) ∧ rs.length = 2 ∧
      sM.work.misaligned cM trM (tM.g 4).toNat 4 true .write = none) := by
  and_intros <;> first | decide +kernel | rfl | exact issues_of (by decide +kernel) | exact fst_ok (by decide +kernel)

/-- A VA past the address space, pages without the right, and an order code at an odd address. -/
theorem meets_LoadsAndStoresTrapPrecisely :
    sM.Issues tM (.ld 8 2 0 0 3 0 0) [2] [8] 0 0 ∧ sM.Issues tM (.ldx 8 2 0 0 0 3 1) [2, 0] [8] 0 0 ∧
    sW.Issues tM (.st 8 1 0 0 3 0 0) [1, 8] [] 0 0 ∧ sM.Issues tM (.stx 8 6 0 0 0 1 2) [6, 0, 8] [] 0 0 ∧
    sM.work.misaligned cM trM (tM.g 2).toNat 8 true .read = none ∧ sW.work.misaligned cM (sW.m.transOf 0 tM) 0x6000 8 true .write = none ∧
    (∃ e v, sM.work.spanOf cM trM (tM.g 2).toNat 8 .read = (.error e, v) ∧ e = (.trans, 0x2000000000000)) ∧
    (∃ e v, sW.work.spanOf cM (sW.m.transOf 0 tM) (tM.g 1).toNat 8 .write = (.error e, v) ∧ e = (.perm, 0x6000)) ∧
    (tM.g 6 + tM.g 0).toNat % 2 ≠ 0 := by
  and_intros <;> first | decide +kernel | rfl | exact issues_of (by decide +kernel) | exact fst_error (by decide +kernel)

/-- A plain store over two pages of which only the second, and one of which the first too, is device memory. -/
def sD2 : State := { sM with m := { sM.m with tlbs := [(20000, [{ whole 0 1 .dv with page := 7, pages := 1, frame := 0x7000 }, whole 0 1 .rc])] } }
theorem meets_LoadsAndStoresTrapPrecisely_device : sD2.Issues tM (.st 8 4 0 0 2 0 0) [4, 8] [] 0 0 ∧
    sD2.work.misaligned cM trM (tM.g 4).toNat 4 true .write = some 0x7000 ∧ sD.Issues tM (.st 8 4 0 0 2 0 0) [4, 8] [] 0 0 ∧
    sD.work.misaligned cM (sD.m.transOf 0 tM) (tM.g 4).toNat 4 true .write = some 0x6FFE := by
  and_intros <;> first | decide +kernel | rfl | exact issues_of (by decide +kernel)

/-- A walk from die 0 over a bridge that has failed: its detour is not in place, or no way is left. -/
def sWalk (wait failed : Nat) : State := { sM with m := { sM.m with
  tlbs := [], launches := [(0, { launch with trans := { userTrans with ttb := 0x200000 } })], brgFailed := failed,
  brgWait := (List.range 14).filter (fun b => bitAt wait b) } }
theorem meets_LoadsAndStoresTrapPrecisely_bridges :
    (sWalk 1 1).Issues tM (.ld 8 1 0 0 3 0 0) [1] [8] 0 0 ∧ (sWalk 0 0x3FFF).Issues tM (.ld 8 1 0 0 3 0 0) [1] [8] 0 0 ∧
    (sWalk 1 1).work.misaligned cM ((sWalk 1 1).m.transOf 0 tM) 0x6000 8 true .read = none ∧
    (∃ e v, (sWalk 1 1).work.spanOf cM ((sWalk 1 1).m.transOf 0 tM) 0x6000 8 .read = (.error e, v) ∧ e = (.wait, 0x6000)) ∧
    (∃ e v, (sWalk 0 0x3FFF).work.spanOf cM ((sWalk 0 0x3FFF).m.transOf 0 tM) 0x6000 8 .read = (.error e, v) ∧ e = (.lost, 0x6000)) := by
  and_intros <;> first | decide +kernel | rfl | exact issues_of (by decide +kernel) | exact fst_error (by decide +kernel)

/-- A piece of 4 bytes at 0x6000. -/
def piece : Piece := { va := 0x6000, key := 0x6000, len := 4, kind := .rc, done := false, data := 0x11223344, bad := false }

/-- An outstanding word. -/
def pend (op : PendOp) (dest : Option Reg) (ps : List Piece) : Pend :=
  { id := 0, set := 1, dest := dest, holds := false, op := op, pieces := ps, acq := false, rel := false, scope := 2,
    vmid := 0, asid := 1, va := 0x6000 }

/-- Thread 0 with one outstanding word. -/
def tP (p : Pend) : Thread := { tM with pend := [p], nextPend := 1 }
def sP (p : Pend) : State := as base 0 (tP p)
abbrev waiting (s : State) (p : Pend) (j : Nat) (x : Piece) : Prop :=
  aget s.m.thr 0 = some (tP p) ∧ (tP p).pendAt p.id = some p ∧ p.pieces[j]? = some x ∧ (tP p).mayPerform p j = true ∧
    s.m.way (agentDie 0) x.key = .go ∧ s.m.record.mode = 0

/-- Near memory holds no sync word. -/
theorem plain_near {s : State} {key n : Nat} (h : key + n ≤ 2 ^ 60) : s.Plain key n := by
  intro a _ h2
  have h3 : ¬(2 ^ 60 ≤ a) := by omega
  simp only [Mach.syncReserves, h3, decide_false, Bool.false_and]

/-- Cluster 0's scratchpad has none where no word there has been one. -/
theorem plain_first {s : State} {key n : Nat} (h : s.m.syncsOf 0 = []) (hk : key + n ≤ 2 ^ 60 + 2 ^ 32) : s.Plain key n := by
  intro a _ h2
  have h3 : (a - 2 ^ 60) / 2 ^ 32 = 0 := Nat.div_eq_of_lt (by omega)
  have h4 : s.m.syncsOf ((a - 2 ^ 60) / 2 ^ 32) = [] := by rw [h3]; exact h
  simp only [Mach.syncReserves, h4, List.contains_nil, Bool.and_false]

def pLoad : Pend := pend (.load 4) (some 8) [piece]
def pStore : Pend := pend .store none [piece, { piece with va := 0x7000, key := 0x7000 }]

/-- A load of sound bytes, and one whose last byte carries an error. -/
theorem meets_LoadReplyWritesRegister : waiting (sP pLoad) pLoad 0 piece ∧
    (sP pLoad).work.poisoned 0x6000 4 = false ∧ waiting { sP pLoad with bad := [0x6003] } pLoad 0 piece ∧
    ({ sP pLoad with bad := [0x6003] } : State).work.poisoned 0x6000 4 = true := by decide +kernel

theorem meets_StorePerformedWritesItsBytes : (sP pStore).mem.wf ∧ waiting (sP pStore) pStore 0 piece ∧
    ∃ x, waiting (sP pStore) pStore 1 x :=
  ⟨by decide +kernel, by decide +kernel, { piece with va := 0x7000, key := 0x7000 }, by decide +kernel⟩

theorem meets_StorePerformedWritesItsBytes_plain : (sP pStore).Plain 0x6000 8 := plain_near (by decide)

/-- An aligned location, an unaligned one, and one on a page of device memory. -/
theorem meets_AtomicsIssue :
    sM.Issues tM (.amo 8 1 3 1 2 8 9) [1, 3] [8] 0 0 ∧ sM.Issues tM (.cas 8 1 3 0 1 0) [1, 3, 8] [8] 0 0 ∧
    sM.Issues tM (.red 1 3 0 7 5) [1, 3] [] 0 0 ∧ sM.Issues tM (.red 6 3 0 0 5) [6, 3] [] 0 0 ∧
    sD.Issues tM (.red 1 3 0 0 5) [1, 3] [] 0 0 ∧ (tM.g 1).toNat % 8 = 0 ∧ (tM.g 6).toNat % 4 ≠ 0 ∧
    (∃ rs v, sM.work.spanOf cM trM (tM.g 1).toNat 8 .both = (.ok rs, v) ∧ rs = [(0x6000, 8, .rc)]) ∧
    (∃ rs v, sD.work.spanOf cM (sD.m.transOf 0 tM) (tM.g 1).toNat 4 .both = (.ok rs, v) ∧ rs = [(0x6000, 4, .dv)]) := by
  and_intros <;> first | decide +kernel | rfl | exact issues_of (by decide +kernel) | exact fst_ok (by decide +kernel)

def pAmo : Pend := pend (.amo 8 4 5) (some 8) [piece]
def pRed : Pend := pend (.red 7 4 5) none [piece]
def pCas : Pend := pend (.cas 8 0 5) (some 8) [{ piece with len := 8 }]

/-- An exchange, a RED, and a CAS whose expected value stands there; and of the operations' values, the least and
most. -/
theorem meets_AtomicsAreIndivisible : (sP pAmo).mem.wf ∧ waiting (sP pAmo) pAmo 0 piece ∧ piece.len = 4 ∧
    waiting (sP pRed) pRed 0 piece ∧ waiting (sP pCas) pCas 0 { piece with len := 8 } ∧
    (sP pCas).work.read 0x6000 8 = 0 ∧ 2 ^ 32 - 1 < 2 ^ (8 * 4) ∧ 0 < 2 ^ (8 * 8) := by decide +kernel

/-- A counter of 8 at 0x6000. -/
def sC : State := poke sM 0x6000 8 8
def pAdd (v : Word) : Pend := { pend (.cadd v) none [{ piece with len := 8 }] with holds := true, rel := true }
def sCp (v : Word) : State := poke (sP (pAdd v)) 0x6000 8 (2 ^ 64 - 2)

/-- A counter below, at and above a target; an add that reaches 2^64 - 1, and one that would pass it. -/
theorem meets_CounterWordsAndAdds :
    sC.Issues tM (.cadd 1 3 9) [1, 3] [] 0 0 ∧ sC.Issues tM (.ctest 8 1 0) [1] [8] 0 0 ∧
    sC.Issues tM (.cwait 1 3 0) [1, 3] [] 0 0 ∧ sC.Issues tM (.cwait 1 4 0) [1, 4] [] 0 0 ∧ (tM.g 1).toNat % 8 = 0 ∧
    (tM.g 3).toNat ≤ sC.work.read 0x6000 8 ∧ sC.work.read 0x6000 8 < (tM.g 4).toNat ∧ tM.clear .rc = true ∧
    (∃ rs v, sC.work.spanOf cM trM (tM.g 1).toNat 8 .both = (.ok rs, v) ∧ rs = [(0x6000, 8, .rc)]) ∧
    (∃ rs v, sC.work.spanOf cM trM (tM.g 1).toNat 8 .read = (.ok rs, v) ∧ rs = [(0x6000, 8, .rc)]) ∧
    waiting (sCp 1) (pAdd 1) 0 { piece with len := 8 } ∧ (sCp 1).mem.wf ∧
    (sCp 1).work.read 0x6000 8 + (1 : Word).toNat < 2 ^ 64 ∧ waiting (sCp 2) (pAdd 2) 0 { piece with len := 8 } ∧
    2 ^ 64 ≤ (sCp 2).work.read 0x6000 8 + (2 : Word).toNat ∧ sC.m.way (agentDie sC.m.cur) 0x6000 = .go := by
  and_intros <;> first | decide +kernel | rfl | exact issues_of (by decide +kernel) | exact fst_ok (by decide +kernel)

/-- A CWAIT that waits for 9 at 0x6000, satisfied since or not; and its thread as another's add reaches the target. -/
def tWait (met : Bool) : Thread := { tM with waits := some { pc := 0x8000, key := 0x6000, target := (tM.g 4).toNat, met := met } }
theorem meets_CounterWordsAndAdds_waits (met : Bool) : (as sC 0 (tWait met)).Issues (tWait met) (.cwait 1 4 0) [1, 4] [] 0 0 ∧
    (tWait true).satisfied 0x6000 (tM.g 4).toNat = true ∧ (tWait false).satisfied 0x6000 (tM.g 4).toNat = false ∧
    (tWait false).unsatisfied 0x6000 (tM.g 4).toNat = true ∧ tM.unsatisfied 0x6000 (tM.g 4).toNat = false ∧
    tM.satisfied 0x6000 (tM.g 4).toNat = false ∧ (as (sCp 1) 1 (tWait false)).Plain 0x6000 8 ∧
    aget (as (sCp 1) 1 (tWait false)).m.thr 1 = some (tWait false) ∧ (tWait false).waits.any (fun z => z.target ≤ 2 ^ 64 - 2 + 1) = true := by
  refine ⟨issues_of (by cases met <;> decide +kernel), ?_⟩
  and_intros <;> first | decide +kernel | rfl | exact plain_near (by decide)

/-- A wait that some value has satisfied, and one that none has. -/
theorem meets_CounterWordsAndAdds_met (met : Bool) : (tWait met).waits.any (fun x => x.met && x.pc == (tWait met).pc) = met := by
  cases met <;> decide

/-- Offset 0x1000 of cluster 0's scratchpad, GEN 0, against targets 0 (reached) and 2^31 (not reached). -/
theorem meets_SyncWordWords : sM.mem.wf ∧ sM.Issues tM (.swset 5 3 4) [5, 3] [] 0 0 ∧ (tM.g 3).toNat < 2 ^ 32 ∧
    sM.Issues tM (.swwait 5 0 4) [5, 0] [] 0 0 ∧ (tM.g 5).toNat % 16 = 0 ∧ trM.cluster = some 0 ∧
    winBase ≤ (tM.g 5).toNat ∧ (tM.g 5).toNat + 16 ≤ winBase + sM.m.scratchLen 0 ∧ tM.clear .so = true ∧
    (∃ rs v, sM.work.spanOf cM trM (tM.g 5).toNat 16 .both = (.ok rs, v) ∧ rs = [(scratchKey 0 0x1000, 16, .so)]) ∧
    (∃ rs v, sM.work.spanOf cM trM (tM.g 5).toNat 16 .read = (.ok rs, v) ∧ rs = [(scratchKey 0 0x1000, 16, .so)]) ∧
    (sM.work.read (scratchKey 0 0x1000 + 8) 4 + 2 ^ 32 - (tM.g 0).toNat % 2 ^ 32) % 2 ^ 32 < 2 ^ 31 ∧
    2 ^ 31 ≤ (sM.work.read (scratchKey 0 0x1000 + 8) 4 + 2 ^ 32 - 2 ^ 31 % 2 ^ 32) % 2 ^ 32 := by
  and_intros <;> first | decide +kernel | rfl | exact issues_of (by decide +kernel) | exact fst_ok (by decide +kernel)

/-- An unarmed word, and an armed one at the most it counts. -/
theorem meets_SyncWordCountsArrivals : ∃ x y : SyncWord, x.armed = false ∧ x.count < 2 ^ 32 ∧ y.armed = true ∧
    0 < y.target ∧ y.count < 2 ^ 32 ∧ 2 ^ 32 ≤ y.count + 1 :=
  ⟨{ target := 1, count := 0, gen := 0, armed := false, ovf := false },
    { target := 1, count := 2 ^ 32 - 1, gen := 0, armed := true, ovf := false }, by decide⟩

/-- A fence with nothing, and with a store, outstanding; a wait on a free slot and on a busy one. -/
theorem meets_FencesAndSlotWaits : sM.Issues tM (.fence 3 9) [] [] 0 0 ∧ tM.pend = [] ∧
    (sP pStore).Issues (tP pStore) (.fence 2 0) [] [] 0 0 ∧ (sP pStore).me = some (tP pStore) ∧
    (∃ p ∈ (tP pStore).pend, (decide (1 ≤ p.set) && (1 : BitVec 7).getLsbD (p.set - 1)) = true) ∧
    (∀ k, (tP pStore).slotPoisoned k = none) :=
  ⟨issues_of (by decide +kernel), rfl, issues_of (by decide +kernel), by decide +kernel, ⟨pStore, by decide, by decide⟩,
    fun k => by simp [Thread.slotPoisoned, tP, tM, user, Thread.start, Thread.setG, pStore]⟩

/-! ## Engine words, places, groups and triggers meet their statements' hypotheses -/

/-- A tensor descriptor of four elements in a row at a base, in partition 0's table. -/
def desc (s : State) (id base fmt : Nat) : State :=
  let a := 0x100000 + 128 * id
  poke (poke (poke (poke s a 4 (0x80100000 + fmt * 2 ^ 24)) (a + 8) 8 base) (a + 0x18) 4 4) (a + 0x38) 8 4

/-- A card at offset o of cluster 0's scratchpad, its first four words. -/
def card (s : State) (o w0 w1 w2 w3 : Nat) : State :=
  poke s (scratchKey 0 o) 16 (w0 + w1 * 2 ^ 32 + w2 * 2 ^ 64 + w3 * 2 ^ 96)

/-- Cards of the four kinds, tensors 1 to 2 with indices 3, no footprints declared; g5 points at 128 bytes of 0. -/
def tJ : Thread := user [(1, 0x7F0000002000), (2, 0x7F0000002080), (3, 0x7F0000002100), (4, 0x7F0000002180),
  (5, 0x7F0000002200), (6, 0x14000), (7, 4095), (8, 4096), (9, 1)]
def sJ0 : State := desc (desc (desc (as base 0 tJ) 1 0x10000 2) 2 0x11000 2) 3 0x12000 6
def sJ1 : State := card (card sJ0 0x2000 0x14000000 0x2001 0 0) 0x2080 0x24000000 0x2001 3 0
def sJ2 : State := card (card sJ1 0x2100 0x34000000 0x2001 3 0) 0x2180 0x44000000 0x2001 0 0x20000
def sJ : State := poke (poke (poke sJ2 0x14000 4 0x82100000) 0x14018 4 4) 0x14038 8 4

/-- The bytes of a card, its check, and a test of what the check gives. -/
def checked (kind : Nat) (va : Word) (foot : Bool) (p : Except (Option Nat × Work) (Job × Work) → Bool) : Bool :=
  match Ctl.card tJ va sJ.work with
  | .ok (b, v) => p (checkCard 0 tJ tJ.nextPend va b kind foot v)
  | .error _ => false

abbrev accepts (kind : Nat) (va : Word) (foot : Bool) : Prop :=
  ∃ b v, Ctl.card tJ va sJ.work = .ok (b, v) ∧ ∃ j w, checkCard 0 tJ tJ.nextPend va b kind foot v = .ok (j, w)

theorem accepted_of {kind : Nat} {va : Word} {foot : Bool} (h : checked kind va foot (fun x => x.isOk) = true) :
    accepts kind va foot := by
  unfold checked at h
  split at h
  · rename_i b v e
    refine ⟨b, v, e, ?_⟩
    cases c : checkCard 0 tJ tJ.nextPend va b kind foot v with
    | ok y => exact ⟨y.1, y.2, rfl⟩
    | error o => simp [c, Except.isOk, Except.toBool] at h
  · simp at h

theorem refused_of {kind : Nat} {va : Word} {foot : Bool}
    (h : checked kind va foot (fun x => faults x (fun o => o.1 = some 0)) = true) :
    ∃ b v, Ctl.card tJ va sJ.work = .ok (b, v) ∧
      ∃ u, checkCard 0 tJ tJ.nextPend va b kind foot v = .error (some 0, u) := by
  unfold checked at h
  split at h
  · rename_i b v e
    refine ⟨b, v, e, ?_⟩
    cases c : checkCard 0 tJ tJ.nextPend va b kind foot v with
    | ok y => simp [c, faults] at h
    | error o =>
      obtain ⟨o, u⟩ := o
      simp only [c, faults, decide_eq_true_eq] at h
      exact ⟨u, by rw [h]⟩
  · simp at h

theorem meets_EngineWordsAreAcceptedOrTrap :
    (tJ.jobsOut < 16 ∧ sJ.m.hold.phase = 0) ∧
    (sJ.Issues tJ (.copy 20 1 1 2) [1] [20] 1 2 ∧ sJ.Issues tJ (.gath 20 2 7 0) [2] [20] 7 0 ∧
      sJ.Issues tJ (.scat 0 3 0 0) [3] [0] 0 0 ∧ sJ.Issues tJ (.coll 20 4 0 0) [4] [20] 0 0) ∧
    (sJ.Issues tJ (.copy 20 5 0 0) [5] [20] 0 0 ∧ sJ.Issues tJ (.gath 20 5 0 0) [5] [20] 0 0 ∧
      sJ.Issues tJ (.scat 20 5 0 0) [5] [20] 0 0 ∧ sJ.Issues tJ (.coll 20 5 0 0) [5] [20] 0 0) := by
  and_intros <;> first | decide +kernel | rfl | exact issues_of (by decide +kernel)

theorem meets_EngineWordsAreAcceptedOrTrap_cards : accepts 1 (tJ.g 1) false ∧ accepts 2 (tJ.g 2) false ∧
    accepts 3 (tJ.g 3) false ∧ accepts 4 (tJ.g 4) false :=
  ⟨accepted_of (by decide +kernel), accepted_of (by decide +kernel), accepted_of (by decide +kernel),
    accepted_of (by decide +kernel)⟩

theorem meets_EngineWordsAreAcceptedOrTrap_bad (kind : Nat) (foot : Bool) (h : kind = 1 ∨ kind = 2 ∨ kind = 3 ∨ kind = 4) :
    ∃ b v, Ctl.card tJ (tJ.g 5) sJ.work = .ok (b, v) ∧
      ∃ u, checkCard 0 tJ tJ.nextPend (tJ.g 5) b kind foot v = .error (some 0, u) := by
  rcases h with h | h | h | h <;> subst h <;> cases foot <;> exact refused_of (by decide +kernel)

/-- A GATH's checks: it waits for earlier work on its index tensor, or passes. -/
def gathers (s : State) (t : Thread) (va : Word) (w : Bool) : Bool :=
  match Ctl.card t va s.work with
  | .ok (b, v) => match checkCard 0 t t.nextPend va b 2 true v with
    | .ok (early, v') => (v.indexWaits t 0 early == w) && (w || (checkCard 0 t t.nextPend va b 2 false v').isOk)
    | .error _ => false
  | .error _ => false

theorem gathers_of {s : State} {t : Thread} {va : Word} {w : Bool} (h : gathers s t va w = true) :
    ∃ b v early v', Ctl.card t va s.work = .ok (b, v) ∧ checkCard 0 t t.nextPend va b 2 true v = .ok (early, v') ∧
      v.indexWaits t 0 early = w ∧ (w = false → ∃ y, checkCard 0 t t.nextPend va b 2 false v' = .ok y) := by
  unfold gathers at h
  split at h
  · rename_i b v e
    split at h
    · rename_i early v' c
      simp only [Bool.and_eq_true, beq_iff_eq] at h
      refine ⟨b, v, early, v', e, c, h.1, fun hw => ?_⟩
      cases c' : checkCard 0 t t.nextPend va b 2 false v' with
      | ok y => exact ⟨y, rfl⟩
      | error o => simp [c', hw, Except.isOk, Except.toBool] at h
    · cases h
  · cases h

/-- A card that declares its tensors, the last word of the index tensor still to be stored; and a failed bridge. -/
def sJd0 : State := card sJ 0x2280 0x20003000 0x2001 3 0
def sJd1 : State := poke (poke sJd0 (scratchKey 0 0x22B0) 16 (0x10000 + 2 ^ 64 * (16 + 2 ^ 32 * 1))) (scratchKey 0 0x22C0) 16 (0x11000 + 2 ^ 64 * (16 + 2 ^ 32 * 2))
def sJd : State := poke sJd1 (scratchKey 0 0x22D0) 16 (0x12000 + 2 ^ 64 * (16 + 2 ^ 32 * 1))
def tJd : Thread := { tJ.setG 10 0x7F0000002280 with
  pend := [{ pend .store none [{ piece with va := 0x1200C, key := 0x1200C }] with va := 0x1200C }], nextPend := 1 }
def sJw : State := { sJ with m := { sJ.m with
  launches := [(0, { launch with trans := { userTrans with ttb := 0x200000 } })], brgFailed := 1, brgWait := [0] } }

theorem meets_EngineWordsAreAcceptedOrTrap_index : gathers sJ tJ (tJ.g 2) false = true ∧
    gathers (as sJd 0 tJd) tJd (tJd.g 10) true = true ∧ (as sJd 0 tJd).Issues tJd (.gath 20 10 2 0) [10] [20] 2 0 := by
  and_intros <;> first | decide +kernel | exact issues_of (by decide +kernel)

theorem meets_EngineWordsAreAcceptedOrTrap_detour : sJw.Issues tJ (.copy 20 1 1 2) [1] [20] 1 2 ∧
    (match Ctl.card tJ (tJ.g 1) sJw.work with
      | .ok (b, v) => faults (checkCard 0 tJ tJ.nextPend (tJ.g 1) b 1 false v) (fun o => o.1 = none)
      | .error _ => false) = true :=
  ⟨issues_of (by decide +kernel), by decide +kernel⟩

def tensor (b : Nat) : Desc :=
  { valid := true, fmt := 2, rank := 1, scaled := false, base := b, scale := 0, dims := [4, 0, 0, 0, 0, 0, 0],
    strides := [4, 0, 0, 0, 0, 0, 0] }
def cardOf (kind : Nat) : Card :=
  { kind := kind, idem := false, undecl := true, sync := true, scope := 2, nfoot := 0, collop := 0, dst := 2, src := 1, idx := 3,
    members := 0, rank := 0, ctr := 0, inc := 0, syncw := 0x7F0000003000, groupw := 0, foots := [] }
def job (kind pos : Nat) (fail : Option (Nat × Word)) : Job :=
  { agent := 0, pend := 0, card := cardOf kind, cardVa := 0x7F0000002000, tag := 1, srcD := tensor 0x10000,
    dstD := tensor 0x11000, idxD := tensor 0x12000, indices := [3, 0], trans := { userTrans with cluster := some 0 }, nbv := 0, die := 0,
    after := [], afterPend := [], gathered := true, group := 0, coll := 0, pos := pos, data := none, fail := fail }
def pJob : Pend := pend (.job 0) none []
def sWith (j : Job) : State := { sP pJob with m := { (sP pJob).m with jobs := [(0, j)], nextJob := 1 } }

/-- A job with every write made; one before its last; one that failed, its thread alive. -/
theorem meets_JobsMoveCompleteAndFail :
    aget (sWith (job 1 4 none)).m.jobs 0 = some (job 1 4 none) ∧ (sWith (job 1 4 none)).m.jobReady (job 1 4 none) = true ∧
    (job 1 4 none).pos = (job 1 4 none).moves ∧ (job 1 4 none).card.ctr = 0 ∧
    (sWith (job 1 3 none)).m.jobReady (job 1 3 none) = true ∧ 3 < (job 1 3 none).moves ∧
    (job 1 3 none).move 3 = some (0x1100C, 0x1000C, 4) ∧ (sWith (job 1 3 none)).m.brgFailed = 0 ∧
    (sWith (job 1 3 none)).work.poisoned 0x1000C 4 = false ∧ (0x1100C : Nat) < 2 ^ 60 ∧
    (sWith (job 1 0 (some (3, 0)))).m.jobs = [(0, job 1 0 (some (3, 0)))] ∧ (job 1 0 (some (3, 0))).trans.part = some 0 ∧
    aget (sWith (job 1 0 (some (3, 0)))).m.thr 0 = some (tP pJob) ∧ (tP pJob).pend.any (fun e => e.op == .job 0) = true := by
  decide +kernel

theorem meets_JobsMoveCompleteAndFail_pages : ∃ rs v, (sWith (job 1 3 none)).work.spanOf (fiCache 0)
      { userTrans with cluster := some 0 } 0x1000C 4 .read = (.ok rs, v) ∧ rs = [(0x1000C, 4, .rc)] ∧ v.poisoned 0x1000C 4 = false ∧
    ∃ qs u, v.spanOf (fiCache 0) { userTrans with cluster := some 0 } 0x1100C 4 .write = (.ok qs, u) ∧
      qs = [(0x1100C, 4, .rc)] := by
  refine ⟨_, _, rfl, by decide +kernel, by decide +kernel, ?_⟩
  exact fst_ok (by decide +kernel)

theorem meets_JobsMoveCompleteAndFail_sync : (sWith (job 1 3 none)).Plain 0x1100C 4 ∧ (job 1 3 none).card.sync = true ∧
    (sWith (job 1 3 none)).m.record.mode = 0 ∧ (job 1 3 none).card.syncw.toNat % 16 = 0 :=
  ⟨plain_near (by decide), by decide, by decide, by decide⟩

/-- The same into the job's own cluster's scratchpad, past its sync word. -/
def jIn : Job := { job 1 3 none with dstD := tensor 0x7F0000003010 }
theorem meets_JobsMoveCompleteAndFail_counts : (sWith jIn).m.jobReady jIn = true ∧ jIn.move 3 = some (0x7F000000301C, 0x1000C, 4) ∧
    scratchKey (jIn.agent / 8) 0 ≤ scratchKey 0 0x301C ∧ scratchKey 0 0x301C < scratchKey (jIn.agent / 8 + 1) 0 ∧
    scratchKey (jIn.agent / 8) (jIn.card.syncw.toNat - winBase) + 16 ≤ scratchKey 0 0x301C ∧ (sWith jIn).m.syncsOf 0 = [] := by
  and_intros <;> decide +kernel

/-- A collective with its data at its last element. -/
def jColl : Job := { job 4 3 none with data := some (List.replicate 16 1) }
theorem meets_JobsMoveCompleteAndFail_coll : (sWith jColl).m.jobReady jColl = true ∧ jColl.card.kind = 4 ∧ 3 < jColl.moves ∧
    3 < jColl.dstD.count ∧ jColl.dstD.elem 3 = 0x1100C ∧
    ((List.replicate 16 (1 : Byte)).drop (3 * fmtSize jColl.dstD.fmt)).take (fmtSize jColl.dstD.fmt) = [1, 1, 1, 1] ∧
    ∃ rs v, (sWith jColl).work.spanOf (fiCache 0) jColl.trans 0x1100C 4 .write = (.ok rs, v) ∧ rs = [(0x1100C, 4, .rc)] := by
  and_intros <;> first | decide +kernel | exact fst_ok (by decide +kernel)

/-- The last element of each: a COPY's, and a GATH's and a SCAT's last row. -/
theorem meets_JobsMoveCompleteAndFail_moves : 3 < (job 1 0 none).srcD.count ∧
    1 < (job 2 0 none).indices.length * (job 2 0 none).srcD.rowLen ∧
    1 < (job 3 0 none).indices.length * (job 3 0 none).srcD.rowLen := by decide +kernel

/-- No earlier job bars the last write of any of them. -/
theorem meets_JobsMoveCompleteAndFail_free : (sWith (job 1 3 none)).m.moveFree (job 1 3 none) 3 = true ∧
    (sWith jColl).m.moveFree jColl 3 = true ∧ (sWith jIn).m.moveFree jIn 3 = true := by decide +kernel

/-- Ids at 4095 and at 4096; an entry that is valid and one that is not; a card whose footprints may be written. -/
theorem meets_DescriptorWordsAndFoot : sJ.mem.wf ∧
    sJ.Issues tJ (.tdset 20 6 1 2 7) [6, 7] [20] 1 2 ∧ sJ.Issues tJ (.tdset 20 6 1 2 8) [6, 8] [20] 1 2 ∧
    (tJ.g 6).toNat % 128 = 0 ∧ (tJ.g 7).toNat ≤ 4095 ∧ 4095 < (tJ.g 8).toNat ∧ tJ.clear .rc = true ∧
    sJ.m.descPa (sJ.m.partOf 0 tJ) (tJ.g 7).toNat = some (0x100000 + 128 * 4095) ∧
    (parseDesc (sJ.work.bytes 0x14000 128)).valid = true ∧ descFault (sJ.work.bytes 0x14000 128) = none ∧
    sJ.Issues tJ (.tdinv 20 9 0 0) [9] [20] 0 0 ∧ sJ.m.descPa (sJ.m.partOf 0 tJ) (tJ.g 9).toNat = some 0x100080 ∧
    2 ^ 31 ≤ sJ.work.read 0x100080 4 ∧ sJ.Issues tJ (.tdinv 20 7 0 0) [7] [20] 0 0 ∧
    sJ.work.read (0x100000 + 128 * 4095) 4 < 2 ^ 31 ∧ sJ.Issues tJ (.foot 20 1 0 0) [1] [20] 0 0 ∧
    sJ.m.way (agentDie sJ.m.cur) 0x14000 = .go ∧ sJ.m.record.mode = 0 ∧
    (∃ rs v, sJ.work.spanOf cM (sJ.m.transOf 0 tJ) (tJ.g 6).toNat 128 .read = (.ok rs, v) ∧ rs = [(0x14000, 128, .rc)]) := by
  and_intros <;> first | decide +kernel | rfl | exact issues_of (by decide +kernel) | exact fst_ok (by decide +kernel)

theorem meets_DescriptorWordsAndFoot_card : accepts 1 (tJ.g 1) true ∧
    ∃ b v, Ctl.card tJ (tJ.g 1) sJ.work = .ok (b, v) ∧ bits (fieldAt b 0 4) 28 4 = 1 ∧
    ∃ j w, checkCard 0 tJ tJ.nextPend (tJ.g 1) b 1 true v = .ok (j, w) ∧
    ∃ rs u, w.spanOf cM (sJ.m.transOf 0 tJ) (tJ.g 1).toNat 128 .write = (.ok rs, u) ∧
      rs = [(scratchKey 0 0x2000, 128, .so)] := by
  refine ⟨accepted_of (by decide +kernel), ?_⟩
  refine ⟨_, _, rfl, by decide +kernel, _, _, rfl, ?_⟩
  exact fst_ok (by decide +kernel)

/-- Descriptors at 0x14000 as g6 names it: one whose VALID is 0, one with a reserved bit set. -/
def sDesc (w0 : Nat) : State := poke sJ 0x14000 4 w0
/-- A table in a domain range of this package, which no partition exports. -/
def sTable : State := { sJ with m := { sJ.m with parts := [(0, { part0 with entry := { part0.entry with tdt := 2 ^ 51 + 2 ^ 40 * sJ.m.own + 0x7F00000000 } })] } }

theorem meets_DescriptorWordsAndFoot_far : sJ.Issues tJ (.tdinv 20 8 0 0) [8] [20] 0 0 ∧ 4095 < (tJ.g 8).toNat :=
  ⟨issues_of (by decide +kernel), by decide +kernel⟩

theorem meets_DescriptorWordsAndFoot_faults : (parseDesc ((sDesc 0).work.bytes 0x14000 128)).valid = false ∧
    (parseDesc ((sDesc 0x82100001).work.bytes 0x14000 128)).valid = true ∧
    descFault ((sDesc 0x82100001).work.bytes 0x14000 128) = some 0 ∧ sJ.m.descRefused (sJ.m.partOf 0 tJ) 1 = false ∧
    (sJ.work.bytes 0x14000 128).length = 128 ∧
    sTable.m.descRefused (sTable.m.partOf 0 tJ) 1 = true ∧ (sTable.m.descPa (sTable.m.partOf 0 tJ) 1).isSome = true := by
  and_intros <;> decide +kernel

theorem meets_DescriptorWordsAndFoot_place : sJ.FreePort (scratchKey 0 0x2000) ∧ sJ.Plain (scratchKey 0 0x2000) 128 ∧
    (∀ p, sJ.FreePort p) ∧ (footEntries 1 (job 1 0 none)).length = 2 ∧ ((footEntries 1 (job 1 0 none)).all (fun r => r.len < 2 ^ 32)) = true :=
  ⟨.inl (by decide), plain_first (by decide +kernel) (by decide), fun _ => .inl (by decide), by decide +kernel, by decide +kernel⟩

def placeAt (link : Nat) (acquired : Bool) : Place :=
  { link := link, gen := 1, holder := 0, part := 0, acquired := acquired, abandoned := false }

/-- Thread 0 with a queue's object word at 0x6000, the handles of its two places, and a handle of no place. -/
def tQ : Thread := user [(1, 0x6000), (2, 2 ^ 48 + 6 * 2 ^ 40), (3, 2 ^ 48 + 6 * 2 ^ 40 + 2 ^ 27), (4, 5), (5, 1)]
def sQ (acquired : Bool) : State :=
  { as base 0 tQ with m := { (as base 0 tQ).m with places := [(0x6000, [placeAt 0 acquired, placeAt 1 false])] } }
/-- No places left to partition 0. -/
def sQ0 : State := { as base 0 tQ with m := { (as base 0 tQ).m with parts := [(0, { part0 with pqLimit := 0 })] } }

theorem meets_PlaceRequestsAndWaits :
    (as base 0 tQ).Issues tQ (.pqreq 20 1 1 2 7) [1] [20] 1 2 ∧ (tQ.g 1).toNat % 16 = 0 ∧
    (as base 0 tQ).m.linksIn (sliceOf 0x6000) (fun _ => true) = [] ∧ (as base 0 tQ).m.partOf 0 tQ = some 0 ∧
    sQ0.Issues tQ (.pqreq 20 1 1 2 7) [1] [20] 1 2 ∧ (sQ0.m.part 0).pqLimit ≤ 0 ∧
    (∃ r v, (as base 0 tQ).work.translate cM ((as base 0 tQ).m.transOf 0 tQ) 0x6000 .both = (.ok r, v) ∧ r = (0x6000, .rc)) ∧
    (sQ false).m.findPlace 0 (tQ.g 2) = some (0x6000, 0, placeAt 0 false) ∧
    (sQ false).m.findPlace 0 (tQ.g 3) = some (0x6000, 1, placeAt 1 false) ∧ (sQ false).m.findPlace 0 (tQ.g 4) = none ∧
    (sQ false).Issues tQ (.pqwait 2 1 2) [2] [] 1 2 ∧ (sQ false).Issues tQ (.pqtry 3 0 0 1) [3] [] 0 0 ∧
    (sQ false).Issues tQ (.pqwait 3 0 0) [3] [] 0 0 ∧ (sQ false).Issues tQ (.pqtry 2 0 0 1) [2] [] 0 0 ∧
    (sQ false).Issues tQ (.pqwait 4 0 0) [4] [] 0 0 ∧ (sQ false).Issues tQ (.pqtry 4 0 0 1) [4] [] 0 0 ∧ tQ.clear .rc = true ∧
    (as base 0 tQ).m.way (agentDie 0) 0x6000 = .go ∧ sQ0.m.way (agentDie 0) 0x6000 = .go ∧ (sQ false).m.way (agentDie 0) 0x6000 = .go := by
  and_intros <;> first | decide +kernel | rfl | exact issues_of (by decide +kernel) | exact fst_ok (by decide +kernel)

/-- Thread 1 is live in the partition; two places of one queue; one that is not at the head; an acquired head. -/
theorem meets_PlacesChangeHands :
    (sQ false).Issues tQ (.pqgive 2 1 2 5) [2, 5] [] 1 2 ∧ aget (sQ false).m.thr 1 = some (user []) ∧
    (sQ false).m.partOf 1 (user []) = some 0 ∧ (sQ false).Issues tQ (.pqswap 2 0 0 3) [2, 3] [] 0 0 ∧
    (sQ false).Issues tQ (.pqdrop 3 0 0) [3] [] 0 0 ∧ (sQ true).Issues tQ (.pqdone 2 0 0) [2] [] 0 0 ∧
    (sQ true).m.findPlace 0 (tQ.g 2) = some (0x6000, 0, placeAt 0 true) ∧ tQ.pend = [] ∧
    (sQ true).m.way (agentDie 0) 0x6000 = .go := by
  and_intros <;> first | decide +kernel | rfl | exact issues_of (by decide +kernel)

def tG (gs : List Nat) : Thread := { tM with groups := gs }
def sG (gs : List Nat) : State := as base 0 (tG gs)
def eight : List Nat := [0x10, 0x20, 0x30, 0x40, 0x50, 0x60, 0x70, 0x80]

/-- A thread of no group, one that belongs, and one of eight groups. -/
theorem meets_GroupWords : (sG []).mem.wf ∧ (sG []).Issues (tG []) (.gjoin 20 1 1 2) [1] [20] 1 2 ∧
    (sG eight).Issues (tG eight) (.gjoin 20 1 1 2) [1] [20] 1 2 ∧ (0x6000 ∉ eight) ∧ eight.length = 8 ∧
    (sG [0x6000]).Issues (tG [0x6000]) (.gjoin 20 1 0 0) [1] [20] 0 0 ∧
    (sG [0x6000]).Issues (tG [0x6000]) (.gleave 1 0 0) [1] [] 0 0 ∧ (tM.g 1).toNat % 16 = 0 ∧
    (∀ e ∈ ({ (sG [0x6000]).m with jobs := [(0, { job 1 0 none with agent := 1 })] } : Mach).jobs, e.2.agent ≠ 0) ∧
    (sG [0x6000]).m.way (agentDie 0) 0x6000 = .go ∧
    (∃ rs v, (sG [0x6000]).work.spanOf cM ((sG [0x6000]).m.transOf 0 (tG [0x6000])) 0x6000 16 .both = (.ok rs, v) ∧
      rs = [(0x6000, 16, .rc)]) := by
  and_intros <;> first | decide +kernel | rfl | exact issues_of (by decide +kernel) | exact fst_ok (by decide +kernel)

/-- A block at 0x6100: threshold 9, an image, a status dword, region 0. -/
def tT : Thread := user [(1, 0x6000), (2, 0x6100)]
def sT : State := poke (poke (poke (as base 0 tT) 0x6100 8 9) 0x6108 8 0x40000) 0x6110 8 0x6200

theorem meets_TriggerWords : sT.Issues tT (.trig 20 1 1 2 2) [1, 2] [20] 1 2 ∧ sT.Issues tT (.untrig 20 1 0 0) [1] [20] 0 0 ∧
    (tT.g 1).toNat % 8 = 0 ∧ tT.sys = none ∧ sT.m.launch? tT.launch = some launch ∧ sT.m.trigs = [] ∧
    sT.m.way (agentDie sT.m.cur) 0x6000 = .go ∧
    ∃ rs v, sT.work.spanOf cM (sT.m.transOf 0 tT) 0x6000 8 .read = (.ok rs, v) ∧ rs = [(0x6000, 8, .rc)] ∧
      ∃ b w, Ctl.block (tT.g 2) 32 32 v = .ok (b, w) ∧ b.length = 32 ∧ fieldAt b 8 8 % 4 = 0 ∧ fieldAt b 0x10 8 % 8 = 0 ∧
        fieldAt b 0x19 3 = 0 ∧ fieldAt b 0x1C 4 = 0 ∧ fieldAt b 0x18 1 < launch.regions.length ∧
        sT.work.read 0x6000 8 < fieldAt b 0 8 :=
  ⟨issues_of (by decide +kernel), issues_of (by decide +kernel), by decide, rfl, by decide +kernel, rfl, by decide +kernel, _, _, rfl,
    by decide +kernel, ctl_ok (by decide +kernel)⟩

/-! ## Ports, loads and threads meet their statements' hypotheses -/

/-- A pipeline tile of the given stage and switch words, FIRE its first input. -/
def ctx (stages sw : List Nat) : Ctx :=
  { bank := false, hdr := 0x40410000, stages := stages, order := none, sw := sw, nmap := [], ringWords := [], nbv := 0, weight := 1,
    lflag := 0, fired := [], last := [], looping := false, index := 0, mergeTurn := 0, ev := [], kreg := [], fib := [], gq := [],
    gacc := [], dirty := false, damaged := [], held := [], votes := [], forks := [], creq := none, entry := [], exc := [],
    lastBegin := none, skid := [], hops := [], reqs := [], rings := [] }

/-- The switch word of a route: destination, source, network. -/
def route (dst src net : Nat) : Nat := dst * 2 ^ 13 + src * 2 ^ 10 + net * 2 ^ 8

/-- Tile (0, 0): input A from the west (port 3), output E to the north (port 0), on the scalar network. -/
def cPort : Ctx := ctx [0] [route 4 3 1, route 0 4 1]

/-- A state with context 0 of tile (0, 0), a region and a thread 0. -/
def sF (k : Ctx) (r : Region) (t : Thread) : State :=
  { as base 0 t with m := { (as base 0 t).m with
      launches := [(0, { launch with regions := [r] })]
      clusters := [(0, { ctxs := [(0, k)], engines := [], pword := 0x12000000 })] } }

/-- Blocks: STRM and STRM.idem of port 3 and tensor 1, STRS of port 3, TAKE of four tokens of port 0 into tensor 1,
DRAIN of port 3. Tensor 1 has four elements of 8 bytes. -/
def tS : Thread := user [(1, 0x6000), (2, 0x6020), (3, 0x6080), (4, 0x6100), (5, 0x6120)]
def sS0 : State := desc (sF cPort region tS) 1 0x10000 3
def sS1 : State := poke (poke (poke sS0 0x10000 8 7) 0x100080 4 0x83100000) 0x1000B8 8 8
def sS2 : State := poke (poke (poke sS1 0x6000 4 0x30001) 0x6020 4 0xF030001) 0x6080 4 0x30000
def sS : State := poke (poke (poke sS2 0x6100 4 1) 0x6104 4 4) 0x6120 4 0x30000

/-- A source port with its destination, as plain data. -/
def sourceOf (m : Mach) (r : Region) (p : Nat) : Option (Nat × Nat × Nat × List Nat × Nat) :=
  (m.source r p).map (fun q => (q.x, q.y, q.c, q.dests, q.net))

/-- The bytes a block gives. -/
abbrev block (s : State) (va : Word) (n : Nat) (p : List Byte → Prop) : Prop :=
  ∃ b v, Ctl.block va n n s.work = .ok (b, v) ∧ p b

theorem meets_StreamWords : sS.Bound tS { launch with regions := [region] } region ∧
    sS.Issues tS (.strm 20 1 1 2 0) [1] [20] 1 2 ∧ sS.Issues tS (.strm 20 2 1 2 1) [2] [20] 1 2 ∧
    sS.Issues tS (.strs 20 3 0 0) [3] [20] 0 0 ∧ sS.Issues tS (.take 0 4 7 0) [4] [0] 7 0 ∧
    sS.Issues tS (.drain 20 5 0 0) [5] [20] 0 0 ∧ sourceOf sS.m region 3 = some (0, 0, 0, [4], 1) ∧
    sS.m.sinkAt region 0 = some (0, 0, 0, 0, 1) ∧ sS.m.isSource region 3 = true ∧ (region.port 3).stream = none ∧
    (region.port 3).idle = true ∧ (sS.work.desc (sS.m.partOf 0 tS) 1).map (fun x => x.bytes) = some 32 ∧
    sS.m.record.mode = 0 := by
  and_intros <;> first | decide +kernel | rfl | exact bound_of (by decide +kernel) | exact issues_of (by decide +kernel)

theorem meets_StreamWords_blocks :
    block sS (tS.g 1) 32 (fun b => firstNonzero b 0x10 4 = none ∧ bits (fieldAt b 0 4) 28 4 = 0 ∧ bits (fieldAt b 0 4) 12 3 = 0 ∧
      bits (fieldAt b 0 4) 16 8 = 3 ∧ bits (fieldAt b 0 4) 0 12 = 1 ∧ bits (fieldAt b 0 4) 24 4 = 0 ∧ fieldAt b 4 12 = 0) ∧
    block sS (tS.g 2) 32 (fun b => bits (fieldAt b 0 4) 24 4 = 15 ∧ bits (fieldAt b 0 4) 28 4 = 0 ∧ fieldAt b 4 12 = 0) ∧
    block sS (tS.g 3) 128 (fun b => bits (fieldAt b 0 4) 24 8 = 0 ∧ bits (fieldAt b 0 4) 0 16 = 0 ∧ firstNonzero b 4 15 = none) ∧
    block sS (tS.g 4) 32 (fun b => firstNonzero b 0x10 4 = none ∧ bits (fieldAt b 0 4) 12 4 = 0 ∧ fieldAt b 4 4 = 4 ∧
      fieldAt b 4 4 * netBytes 1 ≤ 32) ∧
    block sS (tS.g 5) 32 (fun b => firstNonzero b 0x10 4 = none ∧ bits (fieldAt b 0 4) 24 8 = 0 ∧ bits (fieldAt b 0 4) 0 16 = 0) := by
  and_intros <;> first | decide +kernel | rfl | exact ctl_ok (by decide +kernel)

def stream (strs : Bool) (waiting : List (Tok × Nat × Nat)) : Stream :=
  { idem := true, retry := 0, strs := strs, desc := { tensor 0x10000 with fmt := 3, strides := [8, 0, 0, 0, 0, 0, 0] }, rows := 4,
    nextRow := 4, eos := false, eosDone := false, waiting := waiting, after := [] }
def portFailed : Port := { Port.empty with stream := some (stream false []), failed := [(5, some 0, 1)], next := 6 }
def errRec : ErrRec :=
  { cause := 2, port := 3, item := 5, node := 4, loopIdx := 0xFFFFFFFF, tbLow := 0, skip := false, final := true, attempt := 0, lost := 0 }
def rFailed : Region := { region with ports := [(3, portFailed)], errq := [errRec] }
def rStrs : Region := { region with ports := [(3, { portFailed with stream := some (stream true []) })] }
def tE : Thread := user [(1, 3), (2, 5), (3, 6), (4, 0x6000)]
def sE (r : Region) : State := sF cPort r tE

/-- A failed item of STRS. -/
theorem meets_FailedItemWords_strs : (sE rStrs).mem.wf ∧ (sE rStrs).Bound tE { launch with regions := [rStrs] } rStrs ∧
    (sE rStrs).Issues tE (.rinj 20 1 1 2 2) [1, 2] [20] 1 2 ∧ (sE rStrs).m.isSource rStrs 3 = true ∧
    (rStrs.port 3).stream = some (stream true []) ∧ (stream true []).strs = true ∧
    (rStrs.port 3).failed.find? (fun f => f.1 == 5) = some (5, some 0, 1) := by
  and_intros <;> first | decide +kernel | rfl | exact bound_of (by decide +kernel) | exact issues_of (by decide +kernel)

/-- A port with no stream, a failed item, one that is not; a queue with a record, and an empty one. -/
theorem meets_FailedItemWords : (sE rFailed).mem.wf ∧
    (sE rFailed).Bound tE { launch with regions := [rFailed] } rFailed ∧ (sE region).Bound tE { launch with regions := [region] } region ∧
    (sE rFailed).Issues tE (.rinj 20 1 1 2 2) [1, 2] [20] 1 2 ∧ (sE rFailed).Issues tE (.rinj 20 1 1 2 3) [1, 3] [20] 1 2 ∧
    (sE region).Issues tE (.rinj 20 1 1 2 2) [1, 2] [20] 1 2 ∧ (sE rFailed).m.isSource rFailed 3 = true ∧
    (region.port 3).stream = none ∧ (rFailed.port 3).stream = some (stream false []) ∧
    (rFailed.port 3).failed.find? (fun f => f.1 == 5) = some (5, some 0, 1) ∧
    (rFailed.port 3).failed.find? (fun f => f.1 == 6) = none ∧
    (sE region).Issues tE (.errd 20 4 0 0) [4] [20] 0 0 ∧ (sE rFailed).Issues tE (.errd 20 4 0 0) [4] [20] 0 0 ∧
    (tE.g 4).toNat % 32 = 0 ∧ rFailed.errq = errRec :: [] ∧ (sE rFailed).Issues tE (.errc 1 0 0) [1] [] 0 0 ∧
    (sE rFailed).m.way (agentDie 0) 0x6000 = .go ∧ tE.clear .rc = true ∧ (sE rFailed).Plain 0x6000 32 ∧
    (∃ rs v, (sE rFailed).work.spanOf cM ((sE rFailed).m.transOf 0 tE) 0x6000 32 .write = (.ok rs, v) ∧ rs = [(0x6000, 32, .rc)]) := by
  and_intros <;> first | decide +kernel | rfl | exact plain_near (by decide) | exact bound_of (by decide +kernel) | exact issues_of (by decide +kernel) | exact fst_ok (by decide +kernel)

/-- An image's VA, a good context image's header, and a bad one. -/
def tL : Thread := user [(1, 0x40000), (2, 0x50000), (3, 0x60000)]
def sL : State := poke (poke (sF cPort region tL) 0x50000 4 0xD1C50004) 0x50008 4 0x940

theorem meets_LoadWordsQueueALoad : sL.Bound tL { launch with regions := [region] } region ∧
    sL.Issues tL (.cfgl 20 1 1 2) [1] [20] 1 2 ∧ sL.Issues tL (.cfgr 20 2 1 2) [2] [20] 1 2 ∧
    sL.Issues tL (.cfgr 20 3 1 2) [3] [20] 1 2 ∧ (tL.g 1).toNat % 4 = 0 ∧
    (∃ rs v, sL.work.spanOf cM (sL.m.transOf 0 tL) 0x40000 8 .read = (.ok rs, v) ∧ rs.length = 1) ∧
    (∃ b v, Ctl.block (tL.g 2) headLen 64 sL.work = .ok (b, v) ∧ imageHeaderFault b = none) ∧
    (∃ b v, Ctl.block (tL.g 3) headLen 64 sL.work = .ok (b, v) ∧ imageHeaderFault b = some 0) := by
  and_intros <;> first | decide +kernel | rfl | exact bound_of (by decide +kernel) | exact issues_of (by decide +kernel) | exact fst_ok (by decide +kernel) | exact ctl_ok (by decide +kernel)

/-- The same headers, sound and with their fifth word struck. -/
def headOk (s : State) (va : Word) (want : List Nat) : Bool :=
  gives (Ctl.block va headLen 64 s.work) (fun y =>
    gives (Ctl.span va.toNat headLen .read y.2) (fun z => z.2.struckWords 0 z.1 = want) = true)

theorem meets_LoadWordsQueueALoad_struck : headOk sL (tL.g 2) [] = true ∧ headOk sL (tL.g 3) [] = true ∧
    headOk { sL with bad := [0x60010] } (tL.g 3) [4] = true ∧
    ({ sL with bad := [0x60010] } : State).Issues tL (.cfgr 20 3 1 2) [3] [20] 1 2 := by
  and_intros <;> first | decide +kernel | exact issues_of (by decide +kernel)

/-- The words of an image for a region of one tile: a CP tile of one ENOP. -/
def image : List Nat := [0xD1C00004, 6, 0x40400200, 0, 0xD1CE0006]
def imageWords : List Nat := image ++ [crc32c (image.flatMap (toBytes 4))]
def one : Region := { region with rows := 1, cols := 1, state := 0 }
def load (accepted : Bool) (words : List Nat) (staged : List Nat) (report : LoadFor) : Load :=
  { launch := 0, region := 0, report := report, image := 0x40000, restore := false, nbv := 0,
    trans := { userTrans with cluster := some 0 }, prio := 1, accepted := accepted, words := words, reads := [], fault := none, staged := staged }
def sLd (d : Load) (k : Ctx) (r : Region) : State := { sF k r tL with m := { (sF k r tL).m with loads := [(0, d)], nextLoad := 1 } }
def dNew : Load := load false [] [] (.word 0 0)
def dGood : Load := load true imageWords [0] (.word 0 0)
def dBad : Load := load true [0, 6] [0] (.word 0 0)
def dCreq : Load := { load true imageWords [0] (.creq 0 0 0 0) with fault := some (0x10, 0xFFFF) }
def dAsk : Load := load true imageWords [0] (.creq 0 0 0 0)
def cCreq : Ctx := { cPort with creq := some { item := 1, srcs := [], load := 0, status := none, drop := false } }

/-- A load to accept; a staged image that commits and one that is refused, and a tile to stage; a CREQ's load
decided. -/
theorem meets_LoadsAcceptStageCommit :
    (sLd dNew cPort one).m.nextLoadOf 0 = some (0, dNew) ∧
    (sLd dGood cPort one).m.openLoad 0 = some (dGood, { l := 0, r := 0 }, one) ∧ one.has 0 0 0 = true ∧
    (sLd dGood cPort one).m.tailPassed { l := 0, r := 0 } one dGood 0 0 = true ∧
    (∀ c ∈ one.extent.cells, 8 * (c.2 + one.y0) + c.1 + one.x0 ∈ dGood.staged) ∧
    dGood.imageStatus ((sLd dGood cPort one).m.imageOf dGood one)
      ((sLd dGood cPort one).m.crossFaults { l := 0, r := 0 } one ((sLd dGood cPort one).m.imageOf dGood one)) = 0 ∧
    (sLd dBad cPort one).m.openLoad 0 = some (dBad, { l := 0, r := 0 }, one) ∧
    dBad.imageStatus ((sLd dBad cPort one).m.imageOf dBad one)
      ((sLd dBad cPort one).m.crossFaults { l := 0, r := 0 } one ((sLd dBad cPort one).m.imageOf dBad one)) ≠ 0 ∧
    aget (sLd dCreq cCreq one).m.loads 0 = some dCreq ∧ (sLd dCreq cCreq one).m.ctx? 0 0 0 0 = some cCreq ∧
    (sLd dNew cPort one).m.brgWait = [] ∧ someWait dNew.reads = false ∧ (sLd dAsk cCreq one).m.openLoad 0 = some (dAsk, { l := 0, r := 0 }, one) ∧
    dAsk.fault = none ∧ dAsk.imageStatus ((sLd dAsk cCreq one).m.imageOf dAsk one)
      ((sLd dAsk cCreq one).m.crossFaults { l := 0, r := 0 } one ((sLd dAsk cCreq one).m.imageOf dAsk one)) = 0 := by
  decide +kernel

/-- A context image of a region of one tile from sections of 64 bytes (R330, R331), and a load of such an image,
staged. -/
def sImg : State := { sLd dNew cPort one with m := { (sLd dNew cPort one).m with
  parts := [(0, part0), (1, { part0 with entry := { part0.entry with clusters := 2 } })] } }
def section48 (kind : Nat) (d : List Byte) : List Byte :=
  toBytes 4 kind ++ toBytes 4 64 ++ zeroBytes 8 ++ d ++ zeroBytes (48 - d.length)
def ctxImage (body : List Byte) : List Byte :=
  toBytes 4 0xD1C50004 ++ zeroBytes 4 ++ toBytes 4 (0x940 + body.length) ++ toBytes 4 2 ++ zeroBytes (0x900 - 16) ++ body ++
    section48 255 (toBytes 4 (crc32c (body ++ (section48 255 []).take 16)))
def dImg (b : List Byte) : Load := { load true (wordsOf (b.length / 4) b) [0] (.word 0 0) with restore := true }
def restoring (b : List Byte) : List Byte := (dImg b).words.flatMap (toBytes 4)

/-- The state that restores an image, and whether its header fits, its CRC is right, its words and its values good. -/
def sRe (b : List Byte) : State := sLd (dImg b) cPort one
def fitsOne (b : List Byte) : Bool := decide (bits (fieldAt b 4 4) 0 3 + 1 = 1 ∧ bits (fieldAt b 4 4) 3 3 + 1 = 1 ∧ bits (fieldAt b 4 4) 6 1 = 0)
def crcOk (b : List Byte) : Bool := crc32c ((b.take (b.length - 48)).drop 0x900) == fieldAt b (b.length - 48) 4
theorem crc_of {b l : List Byte} {v : Bool} (h : (b.take (b.length - 48)).drop 0x900 = l)
    (h2 : (crc32c l == fieldAt b (b.length - 48) 4) = v) : crcOk b = v := by rw [crcOk, h, h2]
def wordsOk (b : List Byte) : Bool := (imageWordFault one.extent 0x12000000 b).isNone
def moves (s : State) (tr : Trans) (b : List Byte) (p : Except XFault (List Byte) → Bool) : Bool :=
  p (Work.relocate (fiCache 0) tr (relocOf b) b s.work).1

/-- A struck word; another shape; a wrong CRC; a RELOC word with its upper half set; a relocated value that does not
translate, and one whose walk waits for a detour; a good image. -/
def plainImage : List Byte := ctxImage (section48 10 [])
def moving (va : Nat) : List Byte := patch (patch (patch plainImage 0x10 (toBytes 4 1)) 0x100 (toBytes 4 0x18)) 0x18 (toBytes 8 va)
/-- The bytes that the CRC of the plain image covers, with byte 0x910 as given. -/
def covered (x : Byte) : List Byte :=
  [10, 0, 0, 0, 64, 0, 0, 0, 0, 0, 0, 0, 0, 0, 0, 0, x] ++ List.replicate 47 0 ++ [255, 0, 0, 0, 64, 0, 0, 0] ++ List.replicate 8 0

theorem meets_LoadsAcceptStageCommit_crc : crcOk plainImage = true ∧ crcOk (patch plainImage 0x910 [1]) = false ∧
    crcOk (patch plainImage 0x104 (toBytes 4 1)) = true ∧ crcOk (moving 0x6000) = true :=
  ⟨crc_of (l := covered 0) (by decide +kernel) (by decide +kernel), crc_of (l := covered 1) (by decide +kernel) (by decide +kernel),
    crc_of (l := covered 0) (by decide +kernel) (by decide +kernel), crc_of (l := covered 0) (by decide +kernel) (by decide +kernel)⟩

theorem meets_LoadsAcceptStageCommit_restore :
    (sRe plainImage).m.openLoad 0 = some (dImg plainImage, { l := 0, r := 0 }, one) ∧ (dImg plainImage).restore = true ∧
    (∀ c ∈ one.extent.cells, 8 * (c.2 + one.y0) + c.1 + one.x0 ∈ (dImg plainImage).staged) ∧
    restoring plainImage = plainImage ∧ lowestFault (dImg plainImage).reads = none ∧ lowestFault [(3, 0x0A)] = some (3, 0x0A) ∧
    fitsOne plainImage = true ∧ wordsOk plainImage = true ∧
    fitsOne (patch plainImage 4 (toBytes 4 1)) = false ∧
    fitsOne (patch plainImage 0x910 [1]) = true ∧ wordsOk (patch plainImage 0x104 (toBytes 4 1)) = false := by
  and_intros <;> decide +kernel

theorem meets_LoadsAcceptStageCommit_relocated : wordsOk (moving 0x6000) = true ∧
    fitsOne (moving 0x6000) = true ∧
    moves (sRe plainImage) (dImg plainImage).trans (moving 0x6000) (fun x => x.isOk) = true ∧
    moves (sRe plainImage) (dImg plainImage).trans (moving (2 ^ 49)) (fun x => faults x (fun f => f = .trans)) = true ∧
    moves (sWalk 1 1) { userTrans with ttb := 0x200000 } (moving 0x6000) (fun x => faults x (fun f => f = .wait)) = true := by
  and_intros <;> decide +kernel

/-- A context of a good image that sends its result west, where a neighbour of another partition may stand (log 16). -/
def outImage : List Byte :=
  ctxImage (section48 10 [] ++ section48 1 ([0x40410220, 0, route 4 1 1 + 2 ^ 16 * route 3 4 1].flatMap (toBytes 4)))
theorem meets_LoadsAcceptStageCommit_routes : wordsOk outImage = true ∧
    (sImg.work.restore { l := 0, r := 0 } one outImage).m.partOfCluster 1 = some 1 ∧
    (((sImg.work.restore { l := 0, r := 0 } one outImage).m.ctxsOf one).flatMap
      (fun e => e.2.routes.map (fun q => (q.dst, keyX e.1, keyY e.1)))) = [(4, 0, 0), (3, 0, 0)] := by
  and_intros <;> decide +kernel

def tok (item : Nat) : Tok := { item := item, kind := 0, tag := false, net := 1, pay := 7, srcs := [3] }
def hop (l : List Tok) : Hop := { q := l, marks := [], anti := [], moved := 0 }
/-- A region with one port's state. -/
def rPort (n : Nat) (q : Port) : Region := { region with ports := [(n, q)] }
def qStrs : Port := { Port.empty with stream := some (stream true [(tok 0, 0, 0)]), next := 1, numbered := [0] }
def again : Attempt := { item := 5, row := some 0, no := 1, rinj := false, failed := false, waiting := true }
def qAgain : Port := { Port.empty with stream := some (stream false []), attempts := [again], next := 6, numbered := [5] }
def takeSt : TakeSt := TakeSt.mk 0 0 { tensor 0x10000 with fmt := 3, strides := [8, 0, 0, 0, 0, 0, 0] } 1 0 0 []
def qTake : Port := { Port.empty with takes := [takeSt] }
def qDrain : Port := { Port.empty with drains := [{ agent := some 0, pend := 0, cap := 0, list := 0 }] }
def cOut : Ctx := { cPort with hops := [(0, hop [tok 1])] }
def sP' (q : Port) (n : Nat) (k : Ctx) : State := sF k (rPort n q) tL

/-- The parts of an inlet, as plain data. -/
def inletOf (s : State) (p : Nat) : Option (Nat × Nat × Nat × List Nat × Nat) :=
  (s.work.inlet 0 0 p).map (fun q => (q.2.2.x, q.2.2.y, q.2.2.c, q.2.2.dests, q.2.2.net))

theorem meets_PortEventsTakeEffect : (sP' qStrs 3 cPort).mem.wf ∧
    inletOf (sP' qStrs 3 cPort) 3 = some (0, 0, 0, [4], 1) ∧ (cPort.hop 4).marks = [] ∧ (cPort.hop 4).anti = [] ∧
    cPort.stale 4 = false ∧ cPort.netOf 4 = (tok 0).net ∧ (sP' qStrs 3 cPort).m.ctx? 0 0 0 0 = some cPort ∧
    ((rPort 3 qStrs).port 3).attempts = [] ∧ inletOf (sP' qAgain 3 cPort) 3 = some (0, 0, 0, [4], 1) ∧
    qAgain.attempts.find? (fun a => a.item == 5 && a.waiting) = some again := by
  and_intros <;> decide +kernel

/-- A TAKE of one token with a token at its port, and a DRAIN of a drained port. -/
theorem meets_PortEventsTakeEffect_ends :
    ((sP' qAgain 3 cPort).work.rowTok { launch with regions := [rPort 3 qAgain] } 0 3 1 5 0 (stream false []).desc).1.any
      (fun y => y.net == 1) = true ∧
    (sP' qTake 0 cOut).m.sinkAt (rPort 0 qTake) 0 = some (0, 0, 0, 0, 1) ∧ ((rPort 0 qTake).port 0).takes = takeSt :: [] ∧
    (cOut.hop 0).q.head? = some (tok 1) ∧ (rPort 0 qTake).state = 1 ∧ ((rPort 3 qDrain).port 3).drained = true ∧
    ((rPort 3 qDrain).port 3).drains = { agent := some 0, pend := 0, cap := 0, list := 0 } :: [] := by decide +kernel

/-- The last row of a stream; and a TAKE of two tokens that lists their numbers. -/
def lastRow : Stream := { stream false [] with nextRow := 3 }
def qRow : Port := { Port.empty with stream := some lastRow, next := 65535 }
def listed : TakeSt := { takeSt with count := 2, list := 0x20000 }
def sTake : State := sP' { qTake with takes := [listed] } 0 cOut

theorem meets_PortEventsTakeEffect_rows : inletOf (sP' qRow 3 cPort) 3 = some (0, 0, 0, [4], 1) ∧
    qRow.attempts.any (fun a => a.waiting) = false ∧ (sP' qRow 3 cPort).m.performed lastRow.after = true ∧
    lastRow.nextRow < lastRow.rows ∧ qRow.busy 65535 = false ∧
    ((sP' qRow 3 cPort).work.rowTok { launch with regions := [rPort 3 qRow] } 0 3 1 65535 3 lastRow.desc).1.any
      (fun y => y.net == cPort.netOf 4) = true := by
  and_intros <;> decide +kernel

/-- Its token's bytes go to 0x10000, and its item number to 0x20000. -/
def listedRuns : Bool :=
  match Work.elemRuns 0 (launch.fabricTrans 0) .write (listed.desc.packed 0 8)
      ((sTake.work.modCtx 0 0 0 0 (fun u => u.pop 0 sTake.m.tb)).active { l := 0, r := 0 }) with
  | (.ok rs, v) => rs == [(0x10000, 8, .rc)] && gives (Work.elemRuns 0 (launch.fabricTrans 0) .write
      [((listed.list.toNat + 2 * 0) % 2 ^ 64, 2)] (v.deviceWrite rs (toBytes 8 (tok 1).pay.toNat))).1 (fun ls => ls = [(0x20000, 2, .rc)])
  | (.error _, _) => false

theorem meets_PortEventsTakeEffect_list : listed.list ≠ 0 ∧ 1 < listed.count ∧ (tok 1).kind = 0 ∧ (tok 1).tag = false ∧
    sTake.Plain 0x10000 8 ∧ sTake.Plain 0x20000 2 ∧ sTake.m.record.mode = 0 ∧
    (∀ y ∈ aget sTake.m.thr 0, y.takeMay 0 [(0x10000, 8, .rc)] = true ∧ y.takeMay 0 [(0x20000, 2, .rc)] = true) ∧
    listedRuns = true := by
  and_intros <;> first | decide +kernel | exact plain_near (by decide)

theorem meets_PortEventsTakeEffect_tensor : ∃ rs v, Work.elemRuns 0 (launch.fabricTrans 0) .write
      (takeSt.desc.packed (takeSt.written * netBytes 1) (netBytes 1))
      (((sP' qTake 0 cOut).work.modCtx 0 0 0 0 (fun u => u.pop 0 (sP' qTake 0 cOut).m.tb)).active { l := 0, r := 0 }) = (.ok rs, v) ∧
    rs = [(0x10000, netBytes 1, .rc)] := fst_ok (by decide +kernel)

/-! ## Threads, saves, scans, debug words, traps and system words meet their statements' hypotheses -/

/-- A spawn block at 0x6000 whose entry is 0x8000, for region 0 of the thread's own cluster. -/
def tN : Thread := user [(1, 0x6000)]
def sN : State := poke (sF cPort region tN) 0x6000 8 0x8000
/-- Every thread of cluster 0 is live. -/
def sFull : State := { sN with m := { sN.m with thr := (List.range 8).map (fun k => (k, if k = 0 then tN else user [])) } }

theorem meets_ThreadsStartAndEnd : sN.Issues tN (.spawn 20 1 1 2) [1] [20] 1 2 ∧
    sN.Bound tN { launch with regions := [region] } region ∧ sFull.Issues tN (.spawn 20 1 1 2) [1] [20] 1 2 ∧
    sN.m.freeThread 0 = some 2 ∧ sFull.m.freeThread 0 = none ∧ sN.Issues tN .exit [] [] 0 0 ∧ tN.leaving = true ∧ tN.pend = [] ∧
    sN.Issues tN .yield [] [] 0 0 ∧ (as base 1536 (coreH [])).Issues (coreH []) .yield [] [] 0 0 ∧
    block sN (tN.g 1) 128 (fun b => (parseSpawn b 0).entry.toNat % 4 = 0 ∧ fieldAt b 9 1 = 0 ∧ fieldAt b 0x0B 1 = 0 ∧
      fieldAt b 0x0C 4 = 0 ∧ (parseSpawn b 0).region < 1 ∧ (parseSpawn b 0).cluster = 0) := by
  and_intros <;> first | decide +kernel | rfl | exact issues_of (by decide +kernel) | exact bound_of (by decide +kernel) | exact ctl_ok (by decide +kernel)

/-- g1 a base, g2 the most bytes that fit one unit of 64 KiB with their entry, g3 no length, g4 unaligned. -/
def save1 : SaveRange := { va := 0x6000, len := 64, pages := [(0x6000, 64)], order := 0, hyp := false, part := 0 }
def tV (l : List SaveRange) : Thread := { user [(1, 0x6000), (2, 65472), (4, 0x6001)] with saves := l }
def sV (l : List SaveRange) (phase : Nat) : State :=
  { as base 0 (tV l) with m := { (as base 0 (tV l)).m with
      parts := [(0, { part0 with entry := { part0.entry with share := 1 } })], hold := { mach.hold with phase := phase } } }

theorem meets_MustSaveWords : (sV [] 0).Issues (tV []) (.msav 20 1 1 2 2) [1, 2] [20] 1 2 ∧
    (sV [] 1).Issues (tV []) (.msav 20 1 1 2 2) [1, 2] [20] 1 2 ∧ (sV [] 0).Issues (tV []) (.msav 20 1 1 2 3) [1, 3] [20] 1 2 ∧
    (sV [] 0).Issues (tV []) (.msav 20 4 1 2 2) [4, 2] [20] 1 2 ∧ (sV [] 1).m.hold.phase ≠ 0 ∧ (sV [] 0).m.hold.phase = 0 ∧
    (sV [] 0).m.saves = [] ∧ (sV [] 0).m.charged false 0 + 65472 + 64 = (sV [] 0).m.limit false 0 ∧
    (sV [save1] 0).Issues (tV [save1]) (.mscl 20 1 0 0) [1] [20] 0 0 ∧ (tV [save1]).saves.any (fun r => r.va == 0x6000) = true ∧
    (sV [] 0).Issues (tV []) (.mscl 20 1 0 0) [1] [20] 0 0 ∧
    (∃ rs v, (sV [] 0).work.spanOf cM ((sV [] 0).m.transOf 0 (tV [])) 0x6000 65472 .write = (.ok rs, v) ∧
      ∀ r ∈ rs, r.1 < nearLen ∨ 2 ^ 60 ≤ r.1) := by
  and_intros <;> first | decide +kernel | rfl | exact issues_of (by decide +kernel) | exact fst_ok (by decide +kernel)

/-- Core 0 at H; g1 an idle cluster, g2 one that is not, g3 no cluster. -/
def tH : Thread := coreH [(1, 5), (3, 192), (4, 0x8000)]
def sH : State := as base 1536 tH
def scanning : Scan := { core := 1536, pend := 0, tb := 0 }
def sScan (l : Launch) : State :=
  { sH with m := { sH.m with scans := [(5, scanning)], tb := 200000, launches := [(0, l)] } }
def waiter : Launch := { launch with state := 0, regions := [{ region with cluster := 5 }] }

theorem meets_ScansOfClusters : sH.mem.wf ∧ sH.Issues tH (.scan 20 1 1 2) [1] [20] 1 2 ∧ sH.m.idle (tH.g 1).toNat = true ∧
    sH.Issues tH (.scan 20 2 1 2) [2] [20] 1 2 ∧ sH.m.idle (tH.g 2).toNat = false ∧
    sH.Issues tH (.scan 20 3 1 2) [3] [20] 1 2 ∧ 191 < (tH.g 3).toNat ∧ tH.sys = some (CoreRegs.start 0x1000) ∧
    aget (sScan launch).m.scans 5 = some scanning ∧ scanning.tb + 200000 ≤ (sScan launch).m.tb ∧
    (sScan launch).m.injArm = false ∧ (∀ e ∈ (sScan launch).m.launches, e.2.waits = false) ∧ (sScan launch).m.wanted 5 = false ∧ (sScan waiter).m.wanted 5 = true := by
  and_intros <;> first | decide +kernel | rfl | exact issues_of (by decide +kernel)

/-- Trace blocks with ENABLE (0x6000) and without (0x6040), breakpoint blocks that set (0x6080) and clear (0x60C0),
an area of one byte less than 64. -/
def tB : Thread := user [(1, 0x6000), (2, 0x6040), (3, 0x6080), (4, 0x60C0), (5, 63), (6, 511)]
def rQuiet : Region := { region with state := 0 }
def rMarked : Region := { region with brks := [(0, { node := 1, anyLoop := false, anyItem := false, loop := 0, item := 0 })] }
def sB0 (r : Region) : State := poke (poke (sF cPort r tB) 0x6008 8 64) 0x6010 4 3
def sB1 (r : Region) : State := poke (poke (sB0 r) 0x6048 8 64) 0x6080 4 0x01000005
def sB (r : Region) : State := poke (sB1 r) 0x60CC 4 3

theorem meets_DebugWords : (sB region).Bound tB { launch with regions := [region] } region ∧
    (sB region).Issues tB (.trce 20 1 1 2) [1] [20] 1 2 ∧ (sB region).Issues tB (.trce 20 2 1 2) [2] [20] 1 2 ∧
    (sB region).Issues tB (.mark 1 0 0) [1] [] 0 0 ∧ region.trace = none ∧ (sB rMarked).Issues tB (.brk 20 3 1 2) [3] [20] 1 2 ∧
    (sB rMarked).Bound tB { launch with regions := [rMarked] } rMarked ∧
    (List.range 4).find? (fun k => (aget rMarked.brks k).isNone) = some 1 ∧ (sB region).Issues tB (.brk 20 4 1 2) [4] [20] 1 2 ∧
    (sB rQuiet).Issues tB (.dump 20 1 0 0 5) [1, 5] [20] 0 0 ∧ (sB rQuiet).Bound tB { launch with regions := [rQuiet] } rQuiet ∧
    (tB.g 5).toNat < 64 ∧ rQuiet.state ≠ 1 ∧ rQuiet.quiet = false ∧ (sB region).Issues tB (.dump 20 1 0 0 5) [1, 5] [20] 0 0 ∧
    region.state = 1 ∧ (tB.g 1).toNat % 64 = 0 ∧ tB.clear .so = true := by
  and_intros <;> first | decide +kernel | rfl | exact bound_of (by decide +kernel) | exact issues_of (by decide +kernel)

theorem meets_DebugWords_blocks :
    block (sB region) (tB.g 1) 32 (fun b => fieldAt b 0 8 % 64 = 0 ∧ fieldAt b 8 8 = 64 ∧ fieldAt b 0x10 4 = 3 ∧
      firstNonzero b 0x14 3 = none) ∧
    block (sB region) (tB.g 2) 32 (fun b => fieldAt b 0 8 % 64 = 0 ∧ fieldAt b 8 8 = 64 ∧ bitAt (fieldAt b 0x10 4) 0 = false ∧
      firstNonzero b 0x14 3 = none) ∧
    block (sB rMarked) (tB.g 3) 16 (fun b => bits (fieldAt b 0 4) 27 5 = 0 ∧ bitAt (fieldAt b 0 4) 24 = true ∧
      fieldAt b 8 4 < 65536 ∧ fieldAt b 0x0C 4 < 4) ∧
    block (sB region) (tB.g 4) 16 (fun b => bitAt (fieldAt b 0 4) 24 = false ∧ fieldAt b 0x0C 4 = 3) :=
  ⟨ctl_ok (by decide +kernel), ctl_ok (by decide +kernel), ctl_ok (by decide +kernel), ctl_ok (by decide +kernel)⟩

/-- A trace buffer of four records at 0x7000, its last record still to be written. -/
def traced : Trace :=
  { buf := 0x7000, len := 64, firings := false, excess := false, wrap := false, written := 48, stopped := false, trans := userTrans }
def rTraced : Region := { region with trace := some traced }

theorem meets_DebugWords_mark : (sB rTraced).Bound tB { launch with regions := [rTraced] } rTraced ∧ (sB rTraced).mem.wf ∧
    (sB rTraced).Issues tB (.mark 1 0 0) [1] [] 0 0 ∧ traced.stopped = false ∧ traced.gap = 0 ∧ traced.written + 16 ≤ traced.len ∧
    (sB rTraced).Plain 0x7030 16 ∧
    ∃ rs v, (sB rTraced).work.fresh.2.spanOf noCache userTrans (0x7000 + 48) 16 .write = (.ok rs, v) ∧ rs = [(0x7030, 16, .rc)] := by
  and_intros <;> first | decide +kernel | rfl | exact plain_near (by decide) | exact bound_of (by decide +kernel) | exact issues_of (by decide +kernel) | exact fst_ok (by decide +kernel)

/-- A buffer that has room for a dump's head alone. -/
theorem meets_DebugWords_dump : (sB rQuiet).Issues tB (.dump 20 1 0 0 6) [1, 6] [20] 0 0 ∧ (sB rQuiet).mem.wf ∧
    (tB.g 6).toNat < 512 ∧ (sB rQuiet).NoDetour ∧ (cacheDie (agentCache 0)).all (fun die => (sB rQuiet).m.way die 0x6000 == .go) = true ∧
    (sB rQuiet).Plain 0x6000 64 ∧ ∃ rs v, (sB rQuiet).work.spanOf cM ((sB rQuiet).m.transOf 0 tB) 0x6000 8 .write = (.ok rs, v) ∧
      rs = [(0x6000, 8, .rc)] ∧
      ∃ qs u, (v.deviceWrite [(0x6000, 8, .rc)] (toBytes 8 (0xD0C00001 * 2 ^ 32))).spanOf cM ((sB rQuiet).m.transOf 0 tB) 0x6000 64
        .write = (.ok qs, u) ∧ qs = [(0x6000, 64, .rc)] :=
  ⟨issues_of (by decide +kernel), by decide +kernel, by decide, ⟨rfl, by decide⟩, by decide +kernel, plain_near (by decide), _, _, rfl,
    by decide +kernel, fst_ok (by decide +kernel)⟩

/-- A thread, a core at S and a core at H; and RETT with every PREV. -/
def cTrap (h : Bool) (prev : Nat) (pc : Word) : Thread :=
  { coreH [] with sys := some { regsS with h := h, sSet := { TrapSet.zero with prev := prev, pc := pc },
                                           hSet := { TrapSet.zero with prev := prev, pc := pc } } }
def sTrap (t : Thread) : State := as base 1537 t

theorem meets_TrapsAreTakenAndReturn :
    sR.Issues tR (.trap 0xFFF) [] [] 0 0 ∧ tR.sys = none ∧
    (∀ h, (sTrap (cTrap h 0 0)).Issues (cTrap h 0 0) (.trap 1) [] [] 0 0) ∧
    (∀ h, (sTrap (cTrap h 0 0)).Issues (cTrap h 0 0) (.hent 1) [] [] 0 0) ∧
    (∀ h, ∀ prev : Fin 4, (sTrap (cTrap h prev 0x9000)).Issues (cTrap h prev 0x9000) .rett [] [] 0 0) ∧
    (sTrap (cTrap false 1 2)).Issues (cTrap false 1 2) .rett [] [] 0 0 ∧ (0x9000 : Word).toNat % 4 = 0 ∧
    (2 : Word).toNat % 4 ≠ 0 :=
  ⟨issues_of (by decide +kernel), rfl, fun h => issues_of (by cases h <;> decide +kernel),
    fun h => issues_of (by cases h <;> decide +kernel),
    fun h prev => issues_of (by revert prev; cases h <;> decide +kernel), issues_of (by decide +kernel), by decide, by decide⟩

theorem meets_IllegalWordsTrap : sR.me = some tR ∧ 2 < (3 : BitVec 3).toNat ∧ 9 < (10 : BitVec 4).toNat := by decide +kernel

/-- A word of each format with an operand that it refuses. -/
theorem meets_IllegalWordsTrap_words : (∀ i ∈ ([.ld 1 2 0 0 0 3 0, .stx 1 2 3 0 0 0 3, .amo 1 2 3 0 0 9 0, .cas 1 2 3 0 0 10,
      .red 1 2 0 8 0, .fence 4 0, .clog 1 2 3 6, .loopReg 1 0, .cwait 1 2 10, .sext 1 2 3] : List Instr),
    i.wf = false ∧ (encode i).isSome = true) := by decide +kernel

/-- TB at U, TRAP.VEC at S, NBV from a thread; 0x002, which names no register; CORE.SEL, which S may not reach. -/
theorem meets_SystemRegisterWords : sR.Issues tR (.srr 20 0x020) [] [20] 0 0 ∧ regNamed 0x020 = true ∧ regAtU 0x020 = true ∧
    (as base 1537 (coreS [])).Issues (coreS []) (.srr 20 0x033) [] [20] 0 0 ∧ regAtH 0x033 = false ∧
    (as base 1537 (coreS [])).Issues (coreS []) (.srw 1 0x033) [1] [] 0 0 ∧ ownReg 0x033 = true ∧
    (as base 1537 (coreS [])).Issues (coreS []) (.srs 1 0x033) [1] [] 0 0 ∧
    (as base 1537 (coreS [])).Issues (coreS []) (.src 1 0x033) [1] [] 0 0 ∧
    sR.Issues tR (.srw 3 0x10) [3] [] 0 0 ∧ bits (tR.g 3).toNat 0 2 ≠ 3 ∧ regNamed 0x002 = false ∧
    sR.me = some tR ∧ tR.priv = .u ∧ (as base 1537 (coreS [])).me = some (coreS []) ∧ (coreS []).priv = .s ∧
    regAtH 0x0F0 = true := by
  and_intros <;> first | decide +kernel | rfl | exact issues_of (by decide +kernel)

/-- A core with an invalidation outstanding and one with none; an interrupt pending and none; a cache with nothing
noted. -/
def soft : Thread := { coreH [] with sys := some { CoreRegs.start 0x1000 with soft := true } }
def sTlbi (noted : AMap (List (Nat × Nat))) : State :=
  { as base 1536 tH with m := { (as base 1536 tH).m with tlbis := [(0, { core := 1536, noted := noted })] } }

theorem meets_TranslationAndWaitWords : sH.Issues tH (.tlbi 2 4 0xFFF) [4, 2] [] 0 0 ∧ (tH.g 4).toNat % 4096 = 0 ∧
    sH.Issues tH .tlbw [] [] 0 0 ∧ sH.m.tlbis = [] ∧ (sTlbi [(20000, [])]).Issues tH .tlbw [] [] 0 0 ∧
    (sTlbi [(20000, [])]).m.tlbis.any (fun x => x.2.core == 1536) = true ∧
    (as base 1536 soft).Issues soft .wfi [] [] 0 0 ∧
    (as base 1536 soft).m.intPend 1536 { CoreRegs.start 0x1000 with soft := true } &&& 0xF &&& intMask true ≠ 0 ∧
    sH.Issues tH .wfi [] [] 0 0 ∧ sH.m.intPend 1536 (CoreRegs.start 0x1000) = 0 ∧
    (agetD [(20000, ([] : List (Nat × Nat)))] 20000 []).all (sTlbi [(20000, [])]).m.drained = true ∧
    sR.me = some tR ∧ tR.sys = none ∧ tH.pend = [] := by
  and_intros <;> first | decide +kernel | rfl | exact issues_of (by decide +kernel)

/-- A thread asked to park; a queue with room for one record, a job record held back, and a parked thread. -/
def tPark : Thread := { user [] with parks := [{ cause := 0x10, val := 1 }] }
def tParked : Thread := { user [] with run := .parked 0x08 0x8004 1 0 none false }
def jobRec : JobRec := { agent := 0, failure := 3, cardVa := 0x7F0000002000, va := 0, tag := 1, tb := 0 }
def sK (q : Part) (t : Thread) : State := { as base 0 t with m := { (as base 0 t).m with parts := [(0, q)] } }
def qRoom : Part := { part0 with trqHead := 1, trqTail := 63 }

theorem meets_ParksAndRecords : (sK part0 tPark).mem.wf ∧ aget (sK part0 tPark).m.thr 0 = some tPark ∧ tPark.run = .ready ∧
    tPark.held = false ∧ tPark.sys = none ∧ (sK qRoom tParked).m.hold.phase = 0 ∧ ((sK qRoom tParked).m.part 0).trqBase ≠ 0 ∧ (63 + 1) % 64 ≠ qRoom.trqHead ∧
    aget (sK qRoom tParked).m.thr 0 = some tParked ∧ (sK qRoom tParked).m.partOf 0 tParked = some 0 ∧ qRoom.jobRecs = [] ∧
    ((sK { qRoom with jobRecs := [jobRec] } tParked).m.part 0).jobRecs = jobRec :: [] ∧
    (∃ rs v, (sK qRoom tParked).work.spanOf noCache osTrans (0x200000 + 512 * 63) 512 .write = (.ok rs, v) ∧
      rs = [(0x200000 + 512 * 63, 512, .rc)]) ∧ qRoom.trqStuck = false ∧ (sK qRoom tParked).Plain (0x200000 + 512 * 63) 512 ∧
    (tWait true).waits.any (fun x => x.met) = true ∧ tPark.waits.any (fun x => x.met) = false := by
  and_intros <;> first | decide +kernel | rfl | exact plain_near (by decide) | exact fst_ok (by decide +kernel)

/-- A thread asked to park at a DUMP that has frozen its region, and at no DUMP. -/
theorem meets_ParksAndRecords_dump : ({ tPark with dumping := some { pc := 0x8000, tb := 0, first := [], froze := true } } : Thread).dumping.isSome = true ∧
    tPark.dumping = none := by decide

/-! ## The fabric meets its statements' hypotheses -/

/-- A state with contexts 0 of tiles (0, 0) and (1, 0), and an engine 0. -/
def sX (k n : Ctx) (es : AMap Engine) : State :=
  { base with m := { base.m with clusters := [(0, { ctxs := [(0, k), (4, n)], engines := es, pword := 0x12000000 })] } }
/-- The contexts' tokens and skid entries. -/
def withHops (k : Ctx) (h : AMap Hop) : Ctx := { k with hops := h }
def cFire (t : Tok) : Ctx := withHops cPort [(4, hop [t])]
def bankCtx (stages sw : List Nat) : Ctx := { ctx stages sw with bank := true }
def cBank : Ctx := bankCtx [] [route 4 3 1]

/-- A data token, a tagged one, and an end of stream at the one input that fires. -/
theorem meets_TilesFire : (sX (cFire (tok 1)) cBank []).m.running 0 0 0 = some ({ l := 0, r := 0 }, region) ∧
    (sX (cFire (tok 1)) cBank []).m.ctx? 0 0 0 0 = some (cFire (tok 1)) ∧ cPort.bank = false ∧ cPort.skidFree = true ∧
    cPort.op1 < 0x70 ∧ cPort.isGroup = false ∧ cPort.isMem = false ∧ (∀ w ∈ cPort.stages, bits w 24 8 ≠ 0xB8) ∧
    (cFire (tok 1)).fireIns = [0] ∧ (cFire (tok 1)).set [0] = some [(0, tok 1)] ∧ firstTag [(0, tok 1)] = none ∧
    (cFire { tok 1 with tag := true }).set [0] = some [(0, { tok 1 with tag := true })] ∧
    (cFire { tok 1 with kind := 1 }).head 0 = some { tok 1 with kind := 1 } ∧
    (cFire (tok 1)).regOk (sX (cFire (tok 1)) cBank []).m.cyc = true ∧
    (sX (cFire (tok 1)) cBank []).m.hasTurn { l := 0, r := 0 } region 0 0 0 = true ∧ cPort.forks = [] ∧ region.trace = none ∧
    region.brks = [] := by
  and_intros <;> decide +kernel

/-- S1: VADD.i32 ev2, ia, ia; and VCVT.f32 to i32 without saturate, of a NaN. -/
def cAdd : Ctx := withHops (ctx [0x01112000] [route 4 3 1, route 0 4 1]) [(4, hop [tok 1])]
def cNan : Ctx := withHops (ctx [0x11100600] [route 4 3 1, route 0 4 1]) [(4, hop [{ tok 1 with pay := 0x7FC00000 }])]

theorem meets_TilesFire_vectors : cAdd.Vector ∧ cNan.Vector ∧ cAdd.op1 < 0x70 ∧ cAdd.set cAdd.fireIns = some [(0, tok 1)] ∧
    cAdd.fire = 1 ∧ (stageW (cAdd.stage 1)).a = 0 + 1 ∧ (stageW (cAdd.stage 1)).b = 0 + 1 ∧ cAdd.skidFree = true ∧
    cAdd.regOk base.m.cyc = true ∧ (sX cAdd cBank []).m.hasTurn { l := 0, r := 0 } region 0 0 0 = true := by
  refine ⟨⟨by decide +kernel, ?_⟩, ⟨by decide +kernel, ?_⟩, ?_⟩
  · intro j h1 h2; unfold StageW.IsVector; interval_cases j <;> decide +kernel
  · intro j h1 h2; unfold StageW.IsVector; interval_cases j <;> decide +kernel
  · and_intros <;> decide +kernel

/-- The spec's CARRY with ic its condition and ev2 its index, idle and looping, its condition true and false. -/
def cCarry (looping : Bool) (cond : Nat) : Ctx :=
  { withHops { ctx [0x7812000A] [route 4 3 1, route 5 2 1, route 6 1 1, route 0 4 1] with hdr := 0x40470000 }
      [(4, hop [tok 1]), (5, hop [{ tok 1 with pay := 9 }]), (6, hop [{ tok 1 with pay := BitVec.ofNat 512 cond }])] with
    looping := looping, index := 4 }

theorem meets_TilesFire_carry (l : Bool) (n : Nat) (h : n = 0 ∨ n = 1) : (cCarry l n).op1 = 0x78 ∧ (cCarry l n).damaged = [] ∧
    (∀ j, 2 ≤ j → j ≤ 6 → (cCarry l n).stage j = 0) ∧ (cCarry l n).skidFree = true ∧ (cCarry l n).head (cCarry l n).inA = some (tok 1) ∧
    (stageW ((cCarry l n).stage 1)).aux % 4 = 2 ∧ (cCarry l n).inB = 1 ∧ (cCarry l n).tied (4 + 1) = false ∧
    (cCarry l n).head 1 = some { tok 1 with pay := 9 } ∧ (cCarry l n).head 2 = some { tok 1 with pay := BitVec.ofNat 512 n } ∧
    ({ tok 1 with pay := BitVec.ofNat 512 n } : Tok).isTrue = (n == 1) := by
  rcases h with h | h <;> subst h <;> cases l <;>
    (refine ⟨by decide +kernel, by decide +kernel, ?_, by decide +kernel, by decide +kernel, by decide +kernel, by decide +kernel,
      by decide +kernel, by decide +kernel, by decide +kernel, by decide +kernel⟩
     intro j h1 h2; interval_cases j <;> decide +kernel)

/-- East of (0, 0) stands (1, 0), whose slot input A is fed from the west. -/
def cEast : Ctx := withHops (ctx [0] [route 1 4 1]) [(1, hop [tok 1])]
def cSkid : Ctx := { ctx [0] [route 1 4 1] with skid := [{ tok := tok 1, source := 4, dests := [1], drop := false }] }
def reqDone : Req :=
  { item := 1, srcs := [], loopIdx := 0, word := 0x90000001, order := 1, addr := 0x6000, data := 0, done := true, ended := true,
    replies := [tok 1], drop := false, tb := 0, bad := false }
def cReply : Ctx := { ctx [0, 0, 0, 0, 0, 0x90000001] [route 1 6 1] with reqs := [reqDone] }
def anti : Mark := { item := 1, srcs := [] }
/-- Input A fed from the east with anti-tokens passed on. -/
def cAnti : Ctx := withHops (ctx [0] [route 4 1 1 + 4]) [(4, { q := [], marks := [], anti := [anti], moved := 0 })]
def nWest (l : List Tok) : Ctx := withHops (bankCtx [] [route 3 4 1]) [(3, hop l)]

theorem meets_TokensHop : (sX cEast cBank []).m.regionAt 0 0 0 = some ({ l := 0, r := 0 }, region) ∧ region.state = 1 ∧
    (cEast.hop 1).q = [tok 1] ∧ region.beyond 0 0 1 = some (1, 0) ∧ (sX cEast cBank []).m.ctx? 0 1 0 0 = some cBank ∧
    cBank.dests (opposite 1) = [4] ∧ cBank.space 4 = true ∧ (cBank.hop 4).marks = [] ∧ (cBank.hop 4).anti = [] ∧
    cBank.stale 4 = false ∧ cBank.netOf 4 = (tok 1).net := by
  and_intros <;> decide +kernel

theorem meets_TokensHop_results : cSkid.skid.find? (fun e => e.source == 4) = some { tok := tok 1, source := 4, dests := [1], drop := false } ∧
    cSkid.space 1 = true ∧ cSkid.netOf 1 = (tok 1).net ∧ cSkid.stale 1 = false ∧ cReply.reqs = reqDone :: [] ∧ cReply.dests 6 = [1] ∧
    cReply.space 1 = true ∧ cReply.netOf 1 = 1 ∧ (cAnti.hop 4).anti = anti :: [] ∧ cAnti.route 4 = some (swW (route 4 1 1 + 4)) ∧
    (swW (route 4 1 1 + 4)).kill = true ∧ (swW (route 4 1 1 + 4)).src = 1 ∧ (cAnti.dests 1).length = 1 ∧
    ((nWest [tok 1]).hop (opposite 1)).q.any (fun t => t.is anti) = true ∧
    ((nWest []).hop (opposite 1)).q.any (fun t => t.is anti) = false := by
  and_intros <;> decide +kernel

/-- A load of 8 bytes, a store of 4 and an atomic exchange of 8 at 0x6000, each issued; and 2 ms later. -/
def req (word : Nat) : Req := { reqDone with word := word, done := false, ended := false, replies := [] }
def cReq (word : Nat) : Ctx := { ctx [0, 0, 0, 0, 0, word] [route 1 6 1] with reqs := [req word] }
def sReq (word tb : Nat) : State := { sX (cReq word) cBank [] with m := { (sX (cReq word) cBank []).m with tb := tb } }

theorem meets_FabricMemory : (sReq 0x90000001 0).mem.wf ∧ (sReq 0x90000001 0).m.ctx? 0 0 0 0 = some (cReq 0x90000001) ∧
    (cReq 0x90000001).issued region 0 (req 0x90000001) = true ∧ (cReq 0x91000002).issued region 0 (req 0x91000002) = true ∧
    (cReq 0x92000011).issued region 0 (req 0x92000011) = true ∧ bits 0x92000011 1 4 = 8 ∧ (sReq 0x90000001 0).m.brgFailed = 0 ∧
    (req 0x90000001).ended = false ∧ (req 0x90000001).done = false ∧ (req 0x90000001).replies = [] ∧
    (sReq 0x90000001 0).m.hold.phase ≠ 3 ∧ (sReq 0x90000001 0).m.record.mode = 0 ∧ (req 0x90000001).got = [] ∧
    (sReq 0x90000001 0).m.regionAt 0 0 0 = some ({ l := 0, r := 0 }, region) ∧ region.state = 1 ∧
    (agetD { base.m with tlbs := [] }.tlbs (agentCache 0) []).find? (fun e => e.hits (base.m.transOf 0 (user [])) 0x8000) = none ∧
    (sReq 0x90000001 0).work.poisoned 0x6000 8 = false ∧ 0 + Config.domainTimeout ≤ (sReq 0x90000001 2000000).m.tb ∧
    0 + Config.memoryTimeout ≤ (sReq 0x90000001 2000000).m.tb := by
  and_intros <;> decide +kernel

theorem meets_FabricMemory_pages :
    (∃ r v, (sReq 0x90000001 0).work.translate (tileCache 0 0 0) (launch.fabricTrans 0) 0x6000 .read = (.ok r, v) ∧ r = (0x6000, .rc)) ∧
    (∃ r v, (sReq 0x91000002 0).work.translate (tileCache 0 0 0) (launch.fabricTrans 0) 0x6000 .write = (.ok r, v) ∧ r = (0x6000, .rc)) ∧
    (∃ r v, (sReq 0x92000011 0).work.translate (tileCache 0 0 0) (launch.fabricTrans 0) 0x6000 .both = (.ok r, v) ∧ r = (0x6000, .rc)) ∧
    ∃ e v, walk { base with m := { base.m with tlbs := [] } }.work (cacheDie (agentCache 0)) (base.m.transOf 0 (user [])) 0x8000
      = (.ok e, v) ∧ e.frame = 0 :=
  ⟨fst_ok (by decide +kernel), fst_ok (by decide +kernel), fst_ok (by decide +kernel), fst_ok (by decide +kernel)⟩

/-- One that has performed no piece, translated, and one that has. -/
theorem meets_FabricMemory_home : (∃ r v, (sReq 0x90000001 0).work.reqHome 0 0 0 (launch.fabricTrans 0) (req 0x90000001) = (.ok r, v) ∧
      r = (0x6000, .rc)) ∧ (req 0x90000001).home = none ∧ ({ req 0x91000001 with home := some (0x6000, .rc) } : Req).home.isSome = true :=
  ⟨fst_ok (by decide +kernel), by decide, by decide⟩

/-! ### Bank tiles -/

def ring (size head tail : Nat) (cells : AMap Slot) : Ring :=
  { base := 4096, slots := 2, size := size, bmap := false, mfmt := 0, head := head, tail := tail, popped := 0, wpos := 0, cells := cells }
def full : Slot := { Slot.empty with tag := 2, item := 1, fill := 128 }
/-- The last slot and chunk of a ring of two slots of 128 bytes. -/
def address (net : Nat) : Tok := { tok 1 with net := net, pay := 1 + 1 * 64 }
def wide : Tok := { tok 1 with net := 0 }
/-- A slot word of an operation: inputs A and B, ring 0, sync word 0. -/
def slotWord (op : Nat) : Nat := op * 2 ^ 24 + 1 * 2 ^ 20 + 2 * 2 ^ 16
def cSlot (op : Nat) (r : Ring) : Ctx :=
  { withHops (bankCtx [slotWord op] [route 4 3 1, route 5 2 0, route 0 4 0, route 1 6 0]) [(4, hop [address 1]), (5, hop [wide])] with
    rings := [r] }
def sSlot (op : Nat) (r : Ring) : State := sX cPort (cSlot op r) []
def rEmpty : Ring := ring 128 0 0 []
def rFull : Ring := ring 128 1 0 [(1, full)]

/-- Whether slot 1 of tile (1, 0) holds an operation. -/
def holds (op : Nat) (r : Ring) : Bool := (sSlot op r).m.bankOp 0 1 0 0 1 op == some ({ l := 0, r := 0 }, cSlot op r, slotWord op, 0, r)

theorem meets_BankOperations : (sSlot 0xA0 rFull).mem.wf ∧ holds 0xA0 rFull = true ∧ holds 0xA1 rEmpty = true ∧ holds 0xA2 rEmpty = true ∧
    holds 0xA2 (ring 8 0 0 []) = true ∧ holds 0xA3 rFull = true ∧ holds 0xA3 (ring 64 1 0 [(1, full)]) = true ∧ holds 0xA4 rEmpty = true := by
  and_intros <;> decide +kernel

theorem meets_BankOperations_tokens : ((cSlot 0xA0 rFull).hop 4).q = address 1 :: [] ∧ (address 1).kind = 0 ∧ (address 1).tag = false ∧
    (cSlot 0xA0 rFull).dests 4 = [0] ∧ (cSlot 0xA0 rFull).space 0 = true ∧ (cSlot 0xA0 rFull).netOf 0 = 0 ∧ rFull.inside 1 1 = true ∧
    (rFull.slot 1).err = none ∧ (sSlot 0xA0 rFull).work.slotBad 0 1 0 rFull 1 = false ∧ ((cSlot 0xA1 rEmpty).hop 5).q = wide :: [] ∧
    wide.item = (address 1).item ∧ (rEmpty.slot 1).tag = 0 ∧ bitAt (address 1).pay.toNat 31 = false ∧
    (cSlot 0xA1 rEmpty).tied 4 = false ∧ (cSlot 0xA1 rEmpty).tied 5 = false := by
  and_intros <;> decide +kernel

theorem meets_BankOperations_rings : netBytes ((cSlot 0xA2 rEmpty).netOf 4) < rEmpty.size ∧
    (ring 8 0 0 []).size ≤ netBytes ((cSlot 0xA2 (ring 8 0 0 [])).netOf 4) ∧ (rFull.slot rFull.head).tag = 2 ∧
    (cSlot 0xA3 rFull).dests 6 = [1] ∧ (cSlot 0xA3 rFull).space 1 = true ∧ netBytes 0 * (rFull.popped + 1) < rFull.size ∧
    (ring 64 1 0 [(1, full)]).size ≤ netBytes 0 * (0 + 1) ∧
    shareKey 0 1 0 (16 * bits (slotWord 0xA4) 2 3) + 16 ≤ shareKey 0 1 0 (rEmpty.base + rEmpty.wpos) := by
  and_intros <;> decide +kernel

theorem meets_BankOperations_plain (o n : Nat) (h : o + n ≤ 2 ^ 20) : (sSlot 0xA1 rEmpty).Plain (shareKey 0 1 0 o) n ∧
    (sSlot 0xA2 rEmpty).Plain (shareKey 0 1 0 o) n ∧ (sSlot 0xA4 rEmpty).Plain (shareKey 0 1 0 o) n := by
  have h2 : shareKey 0 1 0 o + n ≤ 2 ^ 60 + 2 ^ 32 := by
    simp only [shareKey, scratchKey, shareOffset, bankNum]
    omega
  exact ⟨plain_first rfl h2, plain_first rfl h2, plain_first rfl h2⟩

/-! ### Engines -/

/-- An MXCFG word, and an MXRING word that binds rings 0, 1 and 2 of the first feeding tile. -/
def mxWords (kt : Nat) : List Nat := [0x60 * 2 ^ 24 + kt, 0x61 * 2 ^ 24 + 1 * 2 ^ 14 + 2 * 2 ^ 10]
def grpWords : List Nat := mxWords 1 ++ [0x63 * 2 ^ 24 + 2 ^ 13, 0x63 * 2 ^ 24 + 2 ^ 21]
def engineOf (ws : List Nat) : Engine :=
  { launch := 0, region := 0, ctx := 0, words := ws, nbv := 0, cur := .empty, drain := .empty, drainState := 0, kept := .empty,
    keptStat := 0, busy := false }
def ringWith (sl : Option Slot) : Ring := ring 128 0 0 (match sl with | some x => [(0, x)] | none => [])
def cRings (a b c : Option Slot) : Ctx :=
  { bankCtx [] [route 4 3 1] with rings := [ringWith a, ringWith b, ringWith c] }
/-- Engine 0 with its three rings on tile (1, 0). -/
def sMx (x : Engine) (a b c : Option Slot) : State := sX cPort (cRings a b c) [(0, x)]
def xBusy : Engine := { engineOf (mxWords 2) with busy := true }
def xLast : Engine := { engineOf (mxWords 1) with busy := true }
def xDrain (n : Nat) : Engine := { engineOf (mxWords 1) with drain := { Area.empty with pairs := 1, item := 1 }, drainState := n }
def eosSlot : Slot := { full with kind := 2 }

/-- Whether both heads of engine 0 are full. -/
def ringsOf (x : Engine) (a b c : Option Slot) : Bool :=
  (sMx x a b c).m.engine 0 0 == some ({ l := 0, r := 0 }, region, x) && (sMx x a b c).m.heads 0 0 x == some (ringWith a, ringWith b)

theorem meets_EnginesRun : ringsOf (engineOf (mxWords 2)) (some full) (some full) none = true ∧
    ringsOf xBusy (some full) (some full) none = true ∧ ringsOf xLast (some full) (some full) none = true ∧
    ringsOf (engineOf (mxWords 2)) (some eosSlot) (some eosSlot) none = true ∧ region.state = 1 ∧ xBusy.grouped = false ∧
    full.kind = 0 ∧ eosSlot.kind ≠ 0 ∧ (engineOf (mxWords 2)).cfg.kt = 2 ∧ xLast.cfg.kt = 1 ∧ xBusy.ringA 0 = ((1, 0), 0) ∧
    xBusy.ringB 0 = ((1, 0), 1) ∧ xBusy.ringC 0 = ((1, 0), 2) ∧ (ringWith none).slot 0 = Slot.empty ∧ Slot.empty.tag = 0 := by
  and_intros <;> decide +kernel

/-- Two sound heads of integers, and of BF16; and a head that carries an error. -/
def xFloat : Engine := { engineOf [0x60120002, 0x61004800] with busy := true }
def poisoned : Slot := { full with err := some (poisonPay 0x04 5 0 1) }
theorem meets_EnginesRun_pairs : (sMx xBusy (some full) (some full) none).work.slotFault 0 0 ((1, 0), 0) (ringWith (some full)) 0 = none ∧
    mxIsInt xBusy.cfg.bfmt = mxIsInt xBusy.cfg.afmt ∧ mxIsInt xBusy.cfg.afmt = true ∧ ringsOf xFloat (some full) (some full) none = true ∧
    mxIsInt xFloat.cfg.bfmt = mxIsInt xFloat.cfg.afmt ∧ mxIsInt xFloat.cfg.afmt = false ∧
    ringsOf xBusy (some poisoned) (some full) none = true ∧
    ((sMx xBusy (some poisoned) (some full) none).work.slotFault 0 0 ((1, 0), 0) (ringWith (some poisoned)) 0).isSome = true := by
  and_intros <;> decide +kernel

theorem meets_EnginesRun_drains :
    (sMx (xDrain 1) none none (some full)).m.engine 0 0 = some ({ l := 0, r := 0 }, region, xDrain 1) ∧
    (sMx (xDrain 1) none none (some full)).m.ringOf 0 0 ((xDrain 1).ringC 0) = some (ringWith (some full)) ∧
    ((ringWith (some full)).slot 0).tag = 2 ∧
    (sMx (xDrain 2) none none none).m.engine 0 0 = some ({ l := 0, r := 0 }, region, xDrain 2) ∧
    (sMx (xDrain 2) none none none).m.ringOf 0 0 ((xDrain 2).ringC 0) = some (ringWith none) ∧ (xDrain 2).drain.fault = none ∧
    (xDrain 2).cur.pairs < (xDrain 2).cfg.kt := by
  and_intros <;> decide +kernel

/-- An engine that checks its tiles, and one whose conversion to i8 clamps. -/
def xCheck : Engine := { xDrain 1 with words := [0x6000C001, 0x61004800, 0x62003A80], drain := { (xDrain 1).drain with vals := [(0, 300)] } }
theorem meets_EnginesRun_tiles : xCheck.words.find? (fun v => bits v 24 8 == 0x62) = some 0x62003A80 ∧
    (xDrain 1).words.find? (fun v => bits v 24 8 == 0x62) = none ∧ 4 ≤ xCheck.cfg.ofmt ∧ mxOut xCheck.cfg.ofmt = 1 ∧
    intVal true 40 (xCheck.drain.at 0 0 % 2 ^ 40) = 300 ∧ (300 : Int) > intMax true (8 * 1) ∧ (ringWith none).base % 64 = 0 ∧
    (ringWith none).size % 64 = 0 ∧ (xDrain 2).drain.popped = [] ∧ (sMx (xDrain 2) none none none).mem.wf := by
  and_intros <;> decide +kernel

theorem meets_EnginesRun_plain (n : Nat) (h : n < 128 * 4) :
    (sMx (xDrain 2) none none none).Plain (shareKey 0 1 0 ((ringWith none).at 0 (64 * n))) 64 := by
  refine plain_first (by decide +kernel) ?_
  simp only [shareKey, scratchKey, shareOffset, bankNum, ringWith, ring, Ring.at]
  omega

/-- Two vectors, and one row of one group at position 0: two boundaries. -/
def sGroups : State :=
  poke (poke (sMx (engineOf grpWords) (some full) (some full) none) (shareKey 0 1 0 4096) 4 2) (shareKey 0 1 0 4100) 4 1

theorem meets_EnginesRun_groups : (engineOf grpWords).grouped = true ∧
    sGroups.m.engine 0 0 = some ({ l := 0, r := 0 }, region, engineOf grpWords) ∧
    ∃ p, sGroups.work.groupItem 0 0 (engineOf grpWords) (ringWith (some full)) (ringWith (some full)) = some p ∧
      p.area.pairs = (engineOf grpWords).cfg.kt ∧ (engineOf grpWords).groups + 1 < p.total ∧ p.total ≤ (engineOf grpWords).groups + 2 ∧
      (p.area.over { Area.empty with fault := some (0x01, 4) }).fault = some (0x01, 4) :=
  ⟨by decide +kernel, by decide +kernel, some_of (by decide +kernel)⟩

theorem meets_EnginesRun_heads : (engineOf grpWords).cur.pairs = 0 ∧ full.tag = 2 ∧ full.kind = 0 ∧
    sGroups.m.ringOf 0 0 ((engineOf grpWords).ringA 0) = some (ringWith (some full)) ∧
    sGroups.m.ringOf 0 0 ((engineOf grpWords).ringB 0) = some (ringWith (some full)) := by
  and_intros <;> decide +kernel

/-- The same item, its activations D8. -/
def xSparse : Engine := engineOf ([0x60010001, 0x61004800] ++ grpWords.drop 2)
def sSparse : State :=
  poke (poke (sMx xSparse (some full) (some full) none) (shareKey 0 1 0 4096) 4 2) (shareKey 0 1 0 4100) 4 1
theorem meets_EnginesRun_sparse : mxIsInt xSparse.cfg.bfmt = false ∧ ∃ p, sSparse.work.groupItem 0 0 xSparse (ringWith (some full))
      (ringWith (some full)) = some p ∧ p.groups ≠ [] ∧ 0 < p.vecs ∧ xSparse.groups + 1 < p.total ∧ (p.groups.getD 0 []).length = 1 :=
  ⟨by decide +kernel, some_of (by decide +kernel)⟩

theorem gives_ok {ε α : Type} {x : Except ε α} {p : α → Prop} [DecidablePred p] (h : gives x p = true) :
    ∃ a, x = .ok a ∧ p a := by
  cases x with
  | ok a => exact ⟨a, rfl, by simpa [gives] using h⟩
  | error e => simp [gives] at h

/-! ## Launches and cores meet their statements' hypotheses -/

/-! ### Block mode -/

/-- A BLKM block at 0x6000: two blocks, entry 1, AGE 5, one thread token; images 0x7000, queues 0x8000, tokens
0x9000. -/
def sK0 : State := poke (poke (poke (as base 0 tM) 0x6000 4 2) 0x6004 4 1) 0x6008 4 5
def sK1 : State := poke (poke (poke (poke sK0 0x600C 4 1) 0x6010 8 0x7000) 0x6018 8 0x8000) 0x6020 8 0x9000

/-- A BLKM block that keeps its rules, read and checked in the order of the statement. -/
def blkmOk (t : Thread) (b : List Byte) (v1 : Work) : Bool :=
  decide (fieldAt b 0 4 = 2 ∧ fieldAt b 4 4 = 1 ∧ fieldAt b 8 4 = 5 ∧ fieldAt b 0x0C 4 = 1 ∧ firstNonzero b 0x28 6 = none) &&
  gives (Ctl.queueArea (fieldAt b 0x18 8) (queueBytes 2 1) v1) (fun v2 =>
    gives (Ctl.span (fieldAt b 0x10 8) 16 .read v2.2) (fun v3 =>
      gives (Ctl.span (fieldAt b 0x20 8) 32 .read v3.2) (fun v4 =>
        (v3.1 ++ v4.1).all (fun x => t.clear x.2.2 && sK1.m.way (agentDie 0) x.1 == .go) = true) = true) = true)

theorem meets_BlockModeRuns : sK1.Issues tM (.blkm 20 1 1 2) [1] [20] 1 2 ∧ tM.sys = none ∧ tM.launch = 0 ∧ tM.region = 0 ∧
    sK1.m.launch? 0 = some launch ∧ sK1.m.region? 0 0 = some region ∧ region.block = none ∧
    ∃ b v1, Ctl.block (tM.g 1) 64 64 sK1.work = .ok (b, v1) ∧ fieldAt b 0 4 = 2 ∧ fieldAt b 4 4 = 1 ∧ fieldAt b 8 4 = 5 ∧
      fieldAt b 0x0C 4 = 1 ∧ firstNonzero b 0x28 6 = none ∧
      ∃ u v2, Ctl.queueArea (fieldAt b 0x18 8) (queueBytes 2 1) v1 = .ok (u, v2) ∧
      ∃ rs v3, Ctl.span (fieldAt b 0x10 8) 16 .read v2 = .ok (rs, v3) ∧
      ∃ qs v4, Ctl.span (fieldAt b 0x20 8) 32 .read v3 = .ok (qs, v4) ∧
        (rs ++ qs).all (fun x => tM.clear x.2.2 && sK1.m.way (agentDie 0) x.1 == .go) = true := by
  refine ⟨issues_of (by decide +kernel), rfl, rfl, rfl, by decide +kernel, by decide +kernel, rfl, ?_⟩
  obtain ⟨⟨b, v1⟩, h, p⟩ := gives_ok (show gives (Ctl.block (tM.g 1) 64 64 sK1.work) (fun y => blkmOk tM y.1 y.2 = true) = true by
    decide +kernel)
  simp only [blkmOk, Bool.and_eq_true, decide_eq_true_eq] at p
  obtain ⟨⟨h0, h1, h2, h3, h4⟩, p⟩ := p
  obtain ⟨⟨u, v2⟩, q2, p⟩ := gives_ok p
  obtain ⟨⟨rs, v3⟩, q3, p⟩ := gives_ok p
  obtain ⟨⟨qs, v4⟩, q4, p⟩ := gives_ok p
  exact ⟨b, v1, h, h0, h1, h2, h3, h4, u, v2, q2, rs, v3, q3, qs, v4, q4, p⟩

def blockQ (toks : List (Wide × Nat)) : BlockQ := { toks := toks, head := 0 }
def blockMode (qs : List BlockQ) (choice : Option Nat) : BlockMode :=
  { agent := 0, pend := 0, nblk := 2, age := 5, cap := 1, imgtab := [0x7000, 0x7000], qbase := 0x8000, queues := qs, block := none,
    load := none, choice := choice, next := 0, nbv := 0, trans := userTrans, entries := [0] }
def rBlock (b : BlockMode) : Region := { region with block := some b }
def sBlock (b : BlockMode) : State := sF (ctx [0xB1 * 2 ^ 24] [route 4 3 1]) (rBlock b) tM

theorem meets_BlockModeRuns_schedule : (blockMode [blockQ [], blockQ []] none).load = none ∧ region.state ≠ 2 ∧ launch.paused = false ∧ launch.floor = false ∧ launch.holds = true ∧
    (∀ e ∈ (blockMode [blockQ [], blockQ []] none).queues, e.toks = []) ∧
    (sBlock (blockMode [blockQ [(7, 0)], blockQ []] (some 0))).m.region? 0 0 = some (rBlock (blockMode [blockQ [(7, 0)], blockQ []] (some 0))) ∧
    (blockMode [blockQ [(7, 0)], blockQ []] (some 0)).queues[0]? = some (blockQ [(7, 0)]) ∧
    (blockMode [blockQ [(7, 0)], blockQ []] (some 0)).entries = [0] ∧ (blockQ [(7, 0)]).toks.length ≤ 32768 ∧
    (sBlock (blockMode [blockQ [(7, 0)], blockQ []] (some 0))).m.threadsIn { l := 0, r := 0 }
      (rBlock (blockMode [blockQ [(7, 0)], blockQ []] (some 0))) = [] := by
  and_intros <;> decide +kernel

/-- A window of a tile has ended, in which one context had three slot-cycles; the other was committed since. -/
def sWindow : State :=
  { sF cPort region tM with m := { (sF cPort region tM).m with
      clusters := [(0, { ctxs := [(0, { cPort with due := some 3 }), (1, cPort)], engines := [], pword := 0x12000000 })] } }

theorem meets_BlockModeRuns_weights : sWindow.m.ctx? 0 0 0 0 = some { cPort with due := some 3 } ∧ sWindow.m.reweighs 0 0 0 = true ∧
    sWindow.m.occOf 0 0 0 = [3, 0, 0, 0] ∧ nth (sWindow.m.occOf 0 0 0) 0 0 = 3 ∧ sWindow.m.ctx? 0 0 0 1 = some cPort ∧
    cPort.due = none := by decide +kernel

/-! ### Hangs, freezes and RCTL -/

/-- A token waits for an input that stays empty, and the interval has passed. -/
def sHang : State := { sF cOut region tM with m := { (sF cOut region tM).m with tb := 2000000 } }
def rFreeze (cause : Nat) : Region := { region with state := 2, quiet := true, cause := cause }
def sFreeze (cause : Nat) : State := sF cOut (rFreeze cause) tM
def launchWith (r : Region) : Launch := { launch with regions := [r] }

theorem meets_HangsAndQuiescence : sHang.m.launch? 0 = some launch ∧ sHang.m.region? 0 0 = some region ∧ launch.ending = false ∧
    sHang.m.hung launch { l := 0, r := 0 } region = true ∧ (sHang.m.part launch.part).hangBase = 0 ∧
    (sFreeze 1).m.region? 0 0 = some (rFreeze 1) ∧ (sFreeze 1).m.quiescent { l := 0, r := 0 } (rFreeze 1) = true ∧
    (sFreeze 4).m.region? 0 0 = some (rFreeze 4) ∧ (sFreeze 4).m.quiescent { l := 0, r := 0 } (rFreeze 4) = true := by
  and_intros <;> decide +kernel

/-- Core 1 waits for RCTL command n. -/
def tCmd (froze : Bool) (area : Word) (n : Nat) : Thread :=
  { coreS [] with
    sys := some { regsS with rctlArg := 0x300000, rctlArea := area }
    pend := [{ pend (.rctl (BitVec.ofNat 64 n) froze 0) none [] with holds := true }], nextPend := 1 }
def one2 : Region := { one with state := 2 }
def sCmd (l : Launch) (froze : Bool) (area : Word) (n : Nat) : State :=
  let s := as (sF cPort one tM) 1537 (tCmd froze area n)
  { s with m := { s.m with launches := [(0, l)] } }

/-- Command n finds its core, its region in the state given, and nothing before it. -/
def regionCmd (r : Region) (froze : Bool) (n : Nat) : Bool :=
  let s := sCmd (launchWith r) froze 0x10000 n
  decide ((rcmd n).cmd = n ∧ (rcmd n).bad = false ∧ aget s.m.thr 1537 = some (tCmd froze 0x10000 n) ∧
    (tCmd froze 0x10000 n).rctl = some (0, BitVec.ofNat 64 n, froze, 0) ∧
    s.m.rctlBefore 1537 (s.m.rctlOn 1537 { regsS with rctlArg := 0x300000, rctlArea := 0x10000 } (rcmd n)) 0 = false ∧
    s.m.rctlRegion 1537 { regsS with rctlArg := 0x300000, rctlArea := 0x10000 } (rcmd n) = some ({ l := 0, r := 0 }, r) ∧
    s.m.launch? 0 = some (launchWith r) ∧ (launchWith r).ending = false)

theorem meets_CommandsOfRctl : regionCmd { one with state := 1 } false 1 = true ∧ regionCmd one2 true 1 = true ∧
    regionCmd one2 false 1 = true ∧ regionCmd one2 false 2 = true ∧ regionCmd one false 2 = true ∧ regionCmd one2 true 5 = true ∧
    regionCmd one2 true 3 = true ∧ regionCmd one2 true 4 = true ∧ one2.quiet = false ∧ one2.state = 2 ∧ one.state = 0 := by
  and_intros <;> decide +kernel

theorem meets_CommandsOfRctl_image :
    let s := sCmd (launchWith one2) true 0x10000 3
    let image := s.work.imageBytes { l := 0, r := 0 } one2
    (Work.putLines (agentCache 1537) (s.m.transOf 1537 (tCmd true 0x10000 3)) image.length 0x10000 image s.work).1 = true ∧
    s.m.brgWait = [] ∧ s.m.hold.phase = 0 := by
  decide +kernel

/-- Command n finds its launch, running and not ending, and nothing before it. -/
def launchCmd (l : Launch) (froze : Bool) (n : Nat) : Bool :=
  let s := sCmd l froze 0 n
  decide ((rcmd n).cmd = n ∧ (rcmd n).bad = false ∧ aget s.m.thr 1537 = some (tCmd froze 0 n) ∧
    s.m.rctlBefore 1537 (s.m.rctlOn 1537 { regsS with rctlArg := 0x300000 } (rcmd n)) 0 = false ∧
    s.m.rctlLaunch 1537 { regsS with rctlArg := 0x300000 } = some (0, l) ∧ s.m.launch? 0 = some l ∧ l.state = 1 ∧ l.ending = false)
def paused : Launch := { launchWith one2 with paused := true }

theorem meets_CommandsOfRctl_launches : launchCmd (launchWith { one with state := 1 }) false 6 = true ∧ launchCmd paused true 7 = true ∧
    paused.quiet = true ∧ launchCmd (launchWith one2) true 7 = true ∧ launchCmd paused true 8 = true ∧
    (sCmd paused true 0 8).m.evictReady 0 paused = true ∧ ((sCmd paused true 0 8).m.thr.map (fun e => e.1)).Nodup := by
  and_intros <;> decide +kernel

theorem meets_CommandsOfRctl_settled : paused.settled = true ∧ (launchWith { one with state := 1 }).settled = true := by decide +kernel

/-! ### Launches -/

/-- A launch block at 0x6000 of one region (cluster 0, all of it) and one thread, its status dword at 0x6200. -/
def sNew (reserved : Nat) : State :=
  let s0 := as base 1537 (coreS [])
  let s1 := poke (poke (poke s0 0x6000 4 (0x00010101 + reserved)) 0x6004 4 0x12000000) 0x6008 8 0x6040
  let s2 := poke (poke (poke s1 0x6010 8 0x6050) 0x6018 8 0x6200) 0x6040 4 0xFC000
  poke (poke s2 0x6050 8 0x6080) 0x6080 8 0x8000
def trNew : Trans := { ttb := 0x1000, asid := 1, vmid := 0, priv := .s, cluster := none, part := some 0, scratch := none }
def capOk (reserved : Nat) (want : Option (Nat × Nat)) : Bool :=
  let s := sNew reserved
  gives (Ctl.capture (agentCache 1537) trNew 0x6000 { s.work with m := { s.m with cur := 1537 } }) (fun y =>
    fieldAt y.1.block 0x18 8 = 0x6200 ∧ y.1.refusal s.m (some 0) = want ∧
      gives (y.2.spanOf noCache trNew 0x6200 8 .write).1 (fun r => r = [(0x6200, 8, .rc)]) = true)

theorem meets_LaunchesAreHandled : (sNew 0).mem.wf ∧ aget (sNew 0).m.thr 1537 = some (coreS []) ∧ (coreS []).sys = some regsS ∧
    (coreS []).run = .ready ∧ regsS.h = false ∧ (sNew 0).m.partOfCore 1 = some 0 ∧ ((sNew 0).m.part 0).entry.vmid = 0 ∧
    (sNew 0).Plain 0x6200 8 ∧ capOk 0 none = true ∧ capOk 8 (some (1, 0)) = true := by
  and_intros <;> first | decide +kernel | exact plain_near (by decide)

def spawn0 : Spawn := { entry := 0x8000, region := 0, cluster := 0, params := [] }
def queued : Launch := { launch with state := 0, spawns := [spawn0] }
def placing : Launch := { queued with placing := true }
def placed : Launch := { placing with placed := 1 }
def coming : Launch := { placing with saved := true }
def ballast (p : Bool) (r : Region) : Launch := { launch with prio := 4, paused := p, regions := [r] }
def sLaunch (ls : AMap Launch) : State := { base with m := { base.m with launches := ls, tb := 200000 } }
def failed : Load := { dNew with report := .placement, fault := some (0x01, 0) }

theorem meets_LaunchesAreHandled_rest : (sLaunch [(0, queued)]).m.placeable 0 queued = true ∧
    (sLaunch [(0, placing)]).m.loads = [] ∧ (sLaunch [(0, placing)]).m.hold.phase = 0 ∧ placing.placed < placing.regions.length ∧
    placing.regions[placing.placed]? = some region ∧ region.image ≠ 0 ∧ placed.regions.length ≤ placed.placed ∧
    coming.placed < coming.regions.length ∧ coming.saved = true ∧ (sLaunch [(0, coming)]).m.brgWait = [] ∧
    placed.saved = false ∧ placed.spawns = [spawn0] ∧ (sLaunch [(0, placed)]).m.freeThread 0 = some 2 ∧
    (([(0, failed)] : AMap Load).filter (fun d => d.2.launch == 0 && d.2.report == .placement)).find? (fun d => d.2.fault.isSome)
      = some (0, failed) ∧
    (sLaunch [(0, launch), (1, { queued with prio := 0 })]).m.toAsk { queued with prio := 0 } = some (0, launch) ∧
    0 + State.reset.m.preWait ≤ 200000 ∧ State.reset.m.preWait ≠ 0 ∧
    (List.range 16).find? (fun c => bitAt ((sLaunch []).m.part 0).entry.cores c) = some 1 ∧
    aget (sLaunch []).m.thr 1537 = some (coreS []) ∧ (coreS []).held = false ∧
    [(0, ballast false region), (1, queued)].any (fun e => e.2.waits && e.2.prio < 4 && e.2.meets (ballast false region)) = true ∧
    (ballast true one2).quiet = true ∧ (ballast true one2).save = 0 ∧ (sLaunch [(0, ballast true one2)]).m.evictReady 0 (ballast true one2) = true := by
  and_intros <;> decide +kernel

/-! ## The package, the ports and the step meet their statements' hypotheses -/

theorem meets_Measurements : 3 ≤ ({ base.m.power with limit := 5 } : Power).limit ∧ base.m.hold.phase = 0 ∧
    ([[[1888]]] : List (List (List Nat)))[0]? = some [[1888]] ∧
    dieLevel (agetD base.m.heat.level 0 0) base.m.heat.warn 1888 = 3 ∧ agetD base.m.heat.level 0 0 ≠ 3 := by decide +kernel

def sPhase (n : Nat) : State := { base with m := { base.m with hold := { base.m.hold with phase := n } } }

/-- The same at the end of a supply loss, in the middle of a recording. -/
def sRecording : State := { base with m := { base.m with
  hold := { base.m.hold with phase := 3, cause := 1 }, record := { base.m.record with mode := 1, base := 0x6000, len := 4096, written := 32 } } }

theorem meets_HoldUpAndReset : (sPhase 0).m.hold.phase = 0 ∧ (sPhase 1).m.hold.phase = 1 ∧ (sPhase 2).m.hold.phase = 2 ∧
    (sPhase 3).m.hold.phase = 3 ∧ aget (sPhase 1).m.thr 1537 = some (coreS []) ∧ (coreS []).sys = some regsS ∧
    (coreS []).run ≠ .halted ∧ (sPhase 3).mem.wf ∧ (sPhase 3).m.record.mode ≠ 1 ∧ (sPhase 3).m.hold.cause ≠ 1 ∧
    sRecording.mem.wf ∧ sRecording.m.hold.phase = 3 ∧ sRecording.m.record.mode = 1 ∧ sRecording.m.hold.cause = 1 := by decide +kernel

def farPiece : Piece := { va := 0x100000000000, key := 0x100000000000, len := 4, kind := .rc, done := false, data := 0, bad := false }
def pFar : Pend := { pend .store none [farPiece] with holds := true }

theorem meets_ErrorsStrike : aget base.m.thr 0 = some (user []) ∧ (user []).sys = none ∧ (user []).run = .ready ∧
    bitAt base.m.brgFailed 13 = false ∧ 13 ∈ ({ base.m with brgWait := [13] } : Mach).brgWait ∧
    aget (sP pFar).m.thr 0 = some (tP pFar) ∧ pFar ∈ (tP pFar).pend ∧ pFar.op.access = true ∧ farPiece ∈ pFar.pieces ∧
    farPiece.done = false ∧ 0x100000000000 + 0 * nearLen ≤ farPiece.key ∧ farPiece.key < 0x100000000000 + (0 + 1) * nearLen ∧ base.m.record.mode = 0 := by
  and_intros <;> decide +kernel

/-- A host read waits for the detour of bridge 13. -/
def sBehind : State :=
  { base with m := { base.m with hostPart := 0, hostBase := 0x1000, hostLen := 1, brgFailed := 2 ^ 13, brgWait := [13], inbound := [.host (.read 0 4)] } }
theorem meets_ErrorsStrike_inbound : 13 ∈ sBehind.m.brgWait ∧ base.m.inbound = [] ∧ sBehind.m.inbound = [.host (.read 0 4)] ∧
    sBehind.m.hostPa 0 4 = some 0x1000 ∧ sBehind.m.record.mode = 0 ∧
    ({ sBehind.m with brgWait := [] } : Mach).waySpan hostDie (sBehind.m.keyOf 0x1000) 4 = .go := by and_intros <;> decide +kernel

/-- A host window on the first page of partition 0; a log that has ended, and one whose next entry is due. -/
def sHost : State := { base with m := { base.m with hostPart := 0, hostBase := 0x1000, hostLen := 1 } }
def sLog (len : Word) (src : Nat) (tb : Nat) : State :=
  poke (poke { base with m := { base.m with tb := tb, record := { base.m.record with mode := 2, base := 0x6000, len := len } } }
    0x6008 4 (src + 4 * 2 ^ 16)) 0x6020 8 9

theorem meets_OutsideRequests : base.mem.wf ∧ base.m.record.mode = 0 ∧ sHost.m.hostPa 4092 4 = some 0x1FFC ∧ sHost.m.hostPa 4093 4 = none ∧
    base.m.exported { vmid := 1, pa := 0x6000, act := .read 4 } = false ∧ base.m.exported { vmid := 0, pa := 0x6000, act := .read 4 } = true ∧
    base.m.exported { vmid := 0, pa := 0x3FFFFFFF, act := .write [1] } = true ∧ (sLog 31 0 5).m.record.mode = 2 ∧
    (sLog 31 0 5).m.record.ended = false ∧ (sLog 31 0 5).work.logEntry.isNone = true ∧ (sLog 64 0 5).m.record.div = false ∧
    (sLog 64 0 5).work.replayDue = true ∧
    (sLog 64 0 5).work.logEntry.any (fun e => e.src == 0 && !((sLog 64 0 5).work.passEntry e).replayDue) = true ∧
    (sLog 64 2 5).work.logEntry.any (fun e => e.src == 2 && e.tb < (sLog 64 2 5).m.tb) = true := by
  and_intros <;> decide +kernel

/-- A request that goes; and with failed bridges one that waits, and one that no way is left for. -/
def sBar (failed : Nat) (wait : List Nat) : State := { sHost with m := { sHost.m with brgFailed := failed, brgWait := wait } }
theorem meets_OutsideRequests_ways : sHost.m.waySpan hostDie (sHost.m.keyOf 0x1FFC) 4 = .go ∧ sHost.m.inbound = [] ∧
    base.m.waySpan (scatikDie 0) 0x6000 4 = .go ∧ base.m.inbound = [] ∧
    (sBar (2 ^ 14 - 1) []).m.waySpan hostDie ((sBar (2 ^ 14 - 1) []).m.keyOf 0x1FFC) 4 = .lost ∧
    (sBar (2 ^ 14 - 1) (List.range 14)).m.waySpan hostDie ((sBar (2 ^ 14 - 1) []).m.keyOf 0x1FFC) 4 = .wait ∧
    (sBar (2 ^ 14 - 1) []).m.waySpan (scatikDie 0) 0x6000 4 = .lost := by and_intros <;> decide +kernel

def msg (p2 : Byte) : SpdmMsg := { port := 1, param1 := 0, param2 := p2, data := [7, 0, 0, 0] }
def sSession : State := { base with m := { base.m with spdm := { base.m.spdm with sessions := [(7, 1, true)] } } }

theorem meets_SpdmIsAnswered : base.m.boot.stat = 0 ∧ base.m.record.mode = 0 ∧ (msg 0).param2 = 0 ∧ (msg 9).param2 = 9 ∧
    base.m.spdm.session? (msg 0) = none ∧ sSession.m.spdm.session? (msg 0) = some (7, 1, true) := by decide +kernel

/-- A FINISH on the port that asks for no signature: its message verifies or does not. -/
theorem meets_SpdmIsAnswered_finish :
    let q : SpdmMsg := { msg 0 with port := 0 }
    let s : State := { base with m := { base.m with spdm := { base.m.spdm with sessions := [(7, 0, false)] } } }
    s.m.boot.stat = 0 ∧ s.m.spdm.session? q = some (7, 0, false) ∧
    (((q.port = 0 ∨ bitAt q.param1.toNat 0 = true) ∧ Config.spdmVerifies s.m.free = true) ∨ Config.spdmVerifies s.m.free = false) ∧
    ¬ (((msg 0).port = 0 ∨ bitAt (msg 0).param1.toNat 0 = true) ∧ Config.spdmVerifies s.m.free = true) := by
  refine ⟨by decide, by decide, ?_, fun h => ?_⟩
  · cases Config.spdmVerifies base.m.free <;> simp
  · exact absurd h.1 (by decide)

/-- A thread parked with entry 0 of the trap queue, whose record names it. -/
def tDown : Thread := { user [] with run := .parked 0x08 0x8004 1 0 (some 0) false }
def sDown (leaving : Bool) : State :=
  let t : Thread := if leaving then tDown else { tDown with pend := [pStore] }
  poke (as base 0 t) 0x200130 8 0x8004
def recordOk (k : Nat) (s : State) : Bool :=
  gives ((({ s.work with m := { s.m with cur := k } } : Work).load noCache (s.m.part 0).trqTrans 0x200000 512).1) (fun d =>
    fieldAt d 0 8 = 0 ∧ fieldAt d 0x130 8 % 4 = 0)

theorem meets_RegistersThatAct : base.m.selPart 1537 regsS = some 0 ∧ base.m.selPart 1536 (CoreRegs.start 0x1000) = none ∧
    (sDown true).m.parkedThread 0 0 = some (0, tDown, some 0, false) ∧ recordOk 1537 (sDown true) = true ∧ tDown.leaving = true ∧
    (sDown false).m.parkedThread 0 0 = some (0, { tDown with pend := [pStore] }, some 0, false) ∧
    ({ tDown with pend := [pStore] } : Thread).leaving = false ∧ base.m.partOfCore 1 = base.m.partOfCore (1537 - 1536) ∧
    aget base.m.thr 1537 = some (coreS []) ∧ (coreS []).run ≠ .halted ∧ (coreS []).held = false := by
  and_intros <;> decide +kernel

/-- At H: core 2 stopped, a block to measure, an entry that names a partition of a VMID in use and one of zeros. -/
def sEntry (bad : Bool) : State :=
  let s := poke base 0x5000 4 (if bad then 2 ^ 24 else 0)
  { s with m := { s.m with hptBase := 0x5000, coreSel := 2 } }

theorem meets_RegistersThatAct_atH : aget (sEntry false).m.thr 1536 = some (coreH []) ∧ (coreH []).sys = some (CoreRegs.start 0x1000) ∧
    (CoreRegs.start 0x1000).h = true ∧ bitAt (sEntry false).m.coreRun 2 = false ∧ aget (sEntry false).m.thr 1538 = none ∧
    (sEntry false).m.present (0x5000 + 256 * 1) = true ∧
    (sEntry true).m.applyStat 1 ((sEntry true).work.bytes 0x5000 256) = 1 ∧
    (sEntry false).m.applyStat 1 ((sEntry false).work.bytes 0x5100 256) = 0 ∧ (CoreRegs.start 0x1000).measIdx < 8 ∧
    gives (Ctl.block 0x6000 64 64 { base.work with m := { base.m with cur := 1536 } }) (fun _ => True) = true ∧
    base.m.meas[0]?.isSome = true ∧ base.m.scans = [] ∧ base.m.hold.recCause = 0 ∧ base.m.record.mode = 0 ∧
    ownReg 0x070 = true ∧ regAtH 0x070 = false := by
  and_intros <;> decide +kernel

theorem meets_RegistersThatAct_entry : (sEntry false).m.refused 0xFF ((sEntry false).m.hptBase + 256 * 1) = false ∧
    (sEntry true).m.refused 0xFF ((sEntry true).m.hptBase + 256 * 1) = false := by decide +kernel

/-- At H: a record of one launch entry, read at index 0 and past its end; and an address that is not aligned. -/
def sHeld (l : List DirEnt) : State := { base with m := { base.m with hold := { base.m.hold with record := l, recCause := 1 } } }
def dirEnt : DirEnt := sHeld [] |>.work.launchEntry (0, 0x300000)

theorem meets_RegistersThatAct_holdXfer : aget (sHeld [dirEnt]).m.thr 1536 = some (coreH []) ∧ (0x6000 : Word).toNat % 64 = 0 ∧
    (0x6001 : Word).toNat % 64 ≠ 0 ∧ (sHeld [dirEnt]).m.hold.recCause ≠ 0 ∧
    ((sHeld []).m.entriesOf 1536 (CoreRegs.start 0x1000))[(CoreRegs.start 0x1000).holdIdx]? = none ∧
    ((sHeld [dirEnt]).m.entriesOf 1536 (CoreRegs.start 0x1000))[(CoreRegs.start 0x1000).holdIdx]? = some dirEnt ∧
    (sHeld [dirEnt]).m.brgWait = [] ∧ (sHeld [dirEnt]).m.hold.phase = 0 ∧ (sEntry false).m.record.mode = 0 := by
  and_intros <;> decide +kernel

theorem meets_RegistersThatAct_holdXfer_area :
    let here : Work := { (sHeld [dirEnt]).work with m := { (sHeld [dirEnt]).m with cur := 1536 } }
    let d := dirEnt.entry dirEnt.state ++ dirEnt.bytes
    ∃ ok z, Work.putLines (agentCache 1536) (here.m.transOf 1536 (coreH [])) d.length 0x6000 d here = (ok, z) ∧ ok = true :=
  ⟨_, _, rfl, by decide +kernel⟩

theorem meets_DecodeOfEncode : (Instr.shri 6 5 16).wf = true ∧ encode (.shri 6 5 16) = some 0x20C50010 := by decide

theorem meets_EncodeOfDecode : decodeWord 0x20C50010 = .ok (.shri 6 5 16) := by decide

/-- Thread 0 fetches a word at 0x8000, and what it decodes to. -/
def fetches (s : State) (p : Except Reject Instr → Bool) : Bool :=
  match s.work.translate (agentCache 0) (s.m.transOf 0 (user [])) 0x8000 .fetch with
  | (.ok r, z) => r.1 == 0x8000 && z.m.way (agentDie 0) 0x8000 == .go && !z.poisoned 0x8000 4 && p (decodeWord (BitVec.ofNat 32 (z.read 0x8000 4)))
  | (.error _, _) => false

/-- Thread 0 fetches the word of zeros at 0x8000: ADD g0, g0, g0; and a word that no row has. -/
theorem meets_StepRunsDecodedInstruction : aget base.m.thr 0 = some (user []) ∧ base.m.mayTurn (user []) = true ∧
    (user []).run ≠ .dying ∧ (user []).parks = [] ∧ base.m.record.mode = 0 ∧
    fetches base (fun x => match x with | .ok i => i == .add 0 0 0 | .error _ => false) = true ∧
    fetches (poke base 0x8000 4 0x14) (fun x => match x with | .ok _ => false | .error _ => true) = true := by
  and_intros <;> decide +kernel

/-- Thread 0 issued last: it is thread 1's turn, unless that has given it up, or both have. -/
def sTurn (a b : Bool) : State := { base with m := { base.m with
  lastTurn := [(0, 0)], thr := aset (aset base.m.thr 0 { user [] with yielded := a }) 1 { user [] with yielded := b } } }

/-- The word at 0x8000 is a CWAIT that waits; thread 1 is at it, and thread 0 at it or at the word of zeros after it. -/
def tCwait (pc : Word) : Thread := { tWait false with pc := pc }
def sStall (both : Bool) : State :=
  let s := poke base 0x8000 4 (wordOfInstr (.cwait 1 4 0)).toNat
  { s with m := { s.m with lastTurn := [(0, 0)], thr := [(0, tCwait (if both then 0x8000 else 0x8004)), (1, tCwait 0x8000)] } }

theorem meets_StepRunsDecodedInstruction_turns :
    (sTurn false false).m.order 0 = [1, 0] ∧ (sTurn false false).stalls 1 = false ∧
    (sTurn false true).m.order 0 = [0, 1] ∧ (sTurn false true).stalls 0 = false ∧ (sTurn true true).m.order 0 = [1, 0] ∧
    (sStall false).m.order 0 = [1, 0] ∧ (sStall false).stalls 1 = true ∧ (sStall false).stalls 0 = false ∧
    (sStall true).m.order 0 = [1, 0] ∧ (sStall true).stalls 1 = true ∧ (sStall true).stalls 0 = true := by
  and_intros <;> decide +kernel

/-- Thread 0 at a CWAIT that a value has satisfied; a thread at its DUMP; a word that waits, and one that does not. -/
def sMet : State := { base with m := { base.m with thr := [(0, tWait true)] } }
def outcome (s : State) (p : State → Bool) : Bool :=
  match s.turn 0 with
  | .next v => p v
  | .fault _ => false
  | .refused _ => false
theorem meets_StepRunsDecodedInstruction_waits : aget sMet.m.thr 0 = some (tWait true) ∧ (tWait true).waits.any (fun e => e.met) = true ∧
    (tWait true).parks = [] ∧ base.m.mayTurn (tWait true) = true ∧ (user []).waits.any (fun e => e.met) = false ∧
    outcome (sStall true) ((sStall true).stands 0) = true ∧ outcome base (fun v => !base.stands 0 v) = true := by
  and_intros <;> decide +kernel

/-- The machine with its agenda and its count of turns, one step of time before. -/
def sAgenda (l : List Act) (n : Nat) : State := { base with m := { base.m with agenda := l, turn := n } }

theorem meets_StepRunsDecodedInstruction_agenda : (sAgenda [.turn 0] 0).tick.m.agenda = .turn 0 :: [] ∧
    (sAgenda [] 1).tick.work.replayDue = false ∧ (sAgenda [] 1).tick.m.turn % 2 = 0 ∧
    pick (sAgenda [] 1).tick.m.units ((sAgenda [] 1).tick.m.turn / 2) = some 1536 ∧ (sAgenda [] 2).tick.m.turn % 2 = 1 ∧
    (pick (sAgenda [] 2).tick.m.events ((sAgenda [] 2).tick.m.turn / 2)).isSome = true ∧
    (sAgenda [.ev .supplyLoss] 0).tick.m.agenda = .ev .supplyLoss :: [] ∧ encode .supplyLoss = none ∧
    (sLog 64 0 5).tick.work.replayDue = true := by and_intros <;> decide +kernel

/-- A run of record mode: a turn of the agenda, a reading, and a host access. -/
def sRun (l : List Act) : State :=
  { base with m := { base.m with agenda := l, record := { base.m.record with mode := 1, base := 0x6000, len := 4096 } } }
theorem meets_StepRunsDecodedInstruction_runs : (sRun [.turn 0]).tick.m.scripted = true ∧ (sAgenda [.turn 0] 0).tick.m.scripted = false ∧
    (sRun [.turn 0]).tick.m.agenda = .turn 0 :: [] ∧ (sRun []).tick.work.replayDue = false ∧
    (sRun []).tick.mayTake (.powerAverageWindow 0) = false ∧ (sRun []).tick.mayTake .supplyLoss = true ∧
    (sAgenda [.ev .supplyLoss] 0).tick.mayTake .supplyLoss = true := by and_intros <;> decide +kernel

/-- Whether an outcome is a next state. -/
def nexts {σ φ ρ : Type} (o : Host.Outcome σ φ ρ) : Bool :=
  match o with
  | .next _ => true
  | .fault _ => false
  | .refused _ => false

theorem meets_StepKeepsMemoryCanonical : Safety.memOk base ∧ ∃ s', step base = .next s' := by
  refine ⟨show base.mem.wf by decide +kernel, ?_⟩
  have h : nexts (step base) = true := by decide +kernel
  cases e : step base with
  | next s' => exact ⟨s', rfl⟩
  | fault f => rw [e] at h; exact absurd h Bool.false_ne_true
  | refused r => rw [e] at h; exact absurd h Bool.false_ne_true

/-! ## A few results that the spec works out -/

/-- Registers 5 and the pc of thread 0 after one word. -/
def after (i : Instr) (s : State) (r : Reg) : Option (Word × Word) :=
  match exec i s with
  | .next s' => s'.me.map (fun t => (t.g r, t.pc))
  | .fault _ => none
  | .refused _ => none
def sOf (gs : List (Reg × Word)) : State := as base 0 (user gs)

/-- R88: a quotient is rounded toward zero; by zero it is all ones, and the remainder the dividend. -/
theorem test_div : after (.div 5 1 2) (sOf [(1, -7), (2, 2)]) 5 = some (-3, 0x8004) ∧
    after (.rem 5 1 2) (sOf [(1, -7), (2, 2)]) 5 = some (-1, 0x8004) := by decide +kernel
theorem test_div_by_zero : after (.div 5 1 0) (sOf [(1, -7)]) 5 = some (-1, 0x8004) ∧
    after (.rem 5 1 0) (sOf [(1, -7)]) 5 = some (-7, 0x8004) := by decide +kernel
theorem test_div_least : after (.div 5 1 2) (sOf [(1, 0x8000000000000000), (2, -1)]) 5 = some (0x8000000000000000, 0x8004) ∧
    after (.rem 5 1 2) (sOf [(1, 0x8000000000000000), (2, -1)]) 5 = some (0, 0x8004) := by decide +kernel
theorem test_mulhu : after (.mulhu 5 1 1) (sOf [(1, -1)]) 5 = some (0xFFFFFFFFFFFFFFFE, 0x8004) ∧
    after (.mulh 5 1 1) (sOf [(1, -1)]) 5 = some (0, 0x8004) := by decide +kernel

/-- R87: a shift takes its amount from the low six bits. -/
theorem test_shift_amount : after (.shl 5 1 2) (sOf [(1, 1), (2, 65)]) 5 = some (2, 0x8004) ∧
    after (.shra 5 1 2) (sOf [(1, -8), (2, 1)]) 5 = some (-4, 0x8004) := by decide +kernel

/-- SEXT.h of 0x18001, LEA of 0x1000 and 5 by 8. -/
theorem test_sext_lea : after (.sext 5 1 1) (sOf [(1, 0x18001)]) 5 = some (0xFFFFFFFFFFFF8001, 0x8004) ∧
    after (.lea 5 1 2 3) (sOf [(1, 0x1000), (2, 5)]) 5 = some (0x1028, 0x8004) := by decide +kernel

/-- R85: g0 stays 0. -/
theorem test_g0 : after (.addi 0 1 5) (sOf [(1, 7)]) 0 = some (0, 0x8004) := by decide +kernel

/-- R170, R177: 9.71875 + 0.1 lies between 9.71875 and 10. -/
theorem test_d8_sum : roundD8 0 false ((decodeD8 0x7F).add false (decodeD8 0x40)) = 0x7F ∧
    roundD8 3 false ((decodeD8 0x7F).add false (decodeD8 0x40)) = 0x30 := by decide +kernel
/-- R171: 0.1 in FP32, and its binary image. -/
theorem test_d8_tenth : encodeF .fp32 0 false false (decodeD8 0x40) = 0x3DCCCCCD ∧
    encodeF .fp32 0 false false (d8Image (decodeD8 0x40)) = 0x3DCCD000 := by decide +kernel

/-- R378: 20.0 J give 551,813,120 bytes. -/
theorem test_budget : budgetOf 20000 = 551813120 := by decide

end Sys2Proof.Tests
end

section
/-!
PROOFS. What the register words answer once they issue, and the values of MULDIV, of the condition words and of the
branches (R88 to R95, R99).
-/

namespace Sys2Proof.Machine

/-! ## Register words that issue -/

/-- A register word that is ready changes its agent as its meaning says. -/
theorem State.Ready.regWord {s : State} {t u : Thread} {rs ws : List Reg} {f : Thread → Thread}
    (h : s.Ready t rs ws) (hf : f t = u) : s.regWord rs ws f = .next (s.withMe u) :=
  hf ▸ State.regWord_go f h.agent h.goes

/-- A word of two sources that is ready writes its value. -/
theorem State.Ready.alu2 {s : State} {t : Thread} {d a b : Reg} (h : s.Ready t [a, b] [d]) (f : Word → Word → Word) :
    s.alu2 d a b f = .next (s.gets t d (f (t.g a) (t.g b))) :=
  h.regWord rfl

/-! ## Multiplication and division (R88) -/

section MulDiv
variable {s : State} {t : Thread} {d a b : Reg}

theorem exec_mul (h : s.Ready t [a, b] [d]) : exec (.mul d a b) s = .next (s.gets t d (t.g a * t.g b)) := h.alu2 _
theorem exec_mulh (h : s.Ready t [a, b] [d]) : exec (.mulh d a b) s = .next (s.gets t d (mulh (t.g a) (t.g b))) :=
  h.alu2 _
theorem exec_mulhu (h : s.Ready t [a, b] [d]) : exec (.mulhu d a b) s = .next (s.gets t d (mulhu (t.g a) (t.g b))) :=
  h.alu2 _
theorem exec_div (h : s.Ready t [a, b] [d]) : exec (.div d a b) s = .next (s.gets t d (divS (t.g a) (t.g b))) :=
  h.alu2 _
theorem exec_divu (h : s.Ready t [a, b] [d]) : exec (.divu d a b) s = .next (s.gets t d (divU (t.g a) (t.g b))) :=
  h.alu2 _
theorem exec_rem (h : s.Ready t [a, b] [d]) : exec (.rem d a b) s = .next (s.gets t d (remS (t.g a) (t.g b))) :=
  h.alu2 _
theorem exec_remu (h : s.Ready t [a, b] [d]) : exec (.remu d a b) s = .next (s.gets t d (remU (t.g a) (t.g b))) :=
  h.alu2 _

end MulDiv

theorem mul_eq_ofNat (x y : Word) : x * y = BitVec.ofNat 64 (x.toNat * y.toNat % 2 ^ 64) :=
  BitVec.eq_of_toNat_eq (by simp [BitVec.toNat_mul])

/-- The high half of a signed product fits: the product lies between -2^126 and 2^126. -/
theorem mulh_toInt (x y : Word) : (mulh x y).toInt = x.toInt * y.toInt / 2 ^ 64 := by
  have hlo : -2 ^ 126 ≤ x.toInt * y.toInt := BitVec.le_toInt_mul_toInt
  have hhi : x.toInt * y.toInt ≤ 2 ^ 126 := BitVec.toInt_mul_toInt_le
  exact BitVec.toInt_ofInt_eq_self (by decide) (by omega) (by omega)

/-- The high half of an unsigned product fits: the product is below 2^128. -/
theorem mulhu_toNat (x y : Word) : (mulhu x y).toNat = x.toNat * y.toNat / 2 ^ 64 := by
  have hhi : x.toNat * y.toNat < 2 ^ 64 * 2 ^ 64 := Nat.mul_lt_mul'' x.isLt y.isLt
  exact Nat.mod_eq_of_lt (Nat.div_lt_of_lt_mul hhi)

theorem mulh_low (x y : Word) : ∃ lo : Nat, lo < 2 ^ 64 ∧ x.toInt * y.toInt = (mulh x y).toInt * 2 ^ 64 + lo := by
  refine ⟨(x.toInt * y.toInt % 2 ^ 64).toNat, ?_, ?_⟩
  · omega
  · rw [mulh_toInt]
    omega

theorem mulhu_low (x y : Word) : ∃ lo : Nat, lo < 2 ^ 64 ∧ x.toNat * y.toNat = (mulhu x y).toNat * 2 ^ 64 + lo := by
  refine ⟨x.toNat * y.toNat % 2 ^ 64, Nat.mod_lt _ (by decide), ?_⟩
  rw [mulhu_toNat]
  omega

theorem divS_zero (x : Word) : divS x 0 = BitVec.allOnes 64 := rfl
theorem remS_zero (x : Word) : remS x 0 = x := rfl
theorem divU_zero (x : Word) : divU x 0 = BitVec.allOnes 64 := rfl
theorem remU_zero (x : Word) : remU x 0 = x := rfl

theorem divS_overflow {x y : Word} (h : x.toInt = -2 ^ 63 ∧ y.toInt = -1) : divS x y = x := by
  simp [divS, h]
theorem remS_overflow {x y : Word} (h : x.toInt = -2 ^ 63 ∧ y.toInt = -1) : remS x y = 0 := by
  simp [remS, h]

/-- The one signed quotient that 64 bits cannot hold is that of -2^63 by -1. -/
theorem divS_toInt {x y : Word} (hy : y ≠ 0) (h : ¬ (x.toInt = -2 ^ 63 ∧ y.toInt = -1)) :
    (divS x y).toInt = x.toInt.tdiv y.toInt := by
  have hfit : x ≠ BitVec.intMin 64 ∨ y ≠ -1#64 := by
    by_contra hc
    push Not at hc
    exact h (by rw [hc.1, hc.2]; decide)
  have hne : y.toInt ≠ 0 := BitVec.toInt_ne.2 hy
  rw [divS, if_neg hne, if_neg h, ← BitVec.toInt_sdiv_of_ne_or_ne x y hfit, BitVec.ofInt_toInt]

theorem remS_toInt {x y : Word} (hy : y ≠ 0) (h : ¬ (x.toInt = -2 ^ 63 ∧ y.toInt = -1)) :
    (remS x y).toInt = x.toInt.tmod y.toInt := by
  have hne : y.toInt ≠ 0 := BitVec.toInt_ne.2 hy
  rw [remS, if_neg hne, if_neg h, ← Int.tmod_def, ← BitVec.toInt_srem, BitVec.ofInt_toInt]

/-- A quotient truncated toward zero: the remainder is smaller than the divisor and has the dividend's sign, or is 0. -/
theorem tdiv_tmod_truncates (x : Int) {y : Int} (hy : y ≠ 0) :
    x = y * x.tdiv y + x.tmod y ∧ (x.tmod y).natAbs < y.natAbs ∧ (0 ≤ x → 0 ≤ x.tmod y) ∧ (x ≤ 0 → x.tmod y ≤ 0) := by
  refine ⟨(Int.mul_tdiv_add_tmod x y).symm, ?_, Int.tmod_nonneg y, fun hx => ?_⟩
  · rw [Int.natAbs_tmod]
    exact Nat.mod_lt _ (Int.natAbs_pos.2 hy)
  · have hneg : 0 ≤ (-x).tmod y := Int.tmod_nonneg y (by omega)
    rw [Int.neg_tmod] at hneg
    omega

theorem divU_toNat {x y : Word} (hy : y ≠ 0) : (divU x y).toNat = x.toNat / y.toNat := by
  have hne : y.toNat ≠ 0 := BitVec.toNat_ne_iff_ne.2 hy
  rw [divU, if_neg hne]
  exact Nat.mod_eq_of_lt (Nat.lt_of_le_of_lt (Nat.div_le_self _ _) x.isLt)

theorem remU_toNat {x y : Word} (hy : y ≠ 0) : (remU x y).toNat = x.toNat % y.toNat := by
  have hne : y.toNat ≠ 0 := BitVec.toNat_ne_iff_ne.2 hy
  rw [remU, if_neg hne]
  exact Nat.mod_eq_of_lt (Nat.lt_of_le_of_lt (Nat.mod_le _ _) x.isLt)

theorem divU_remU {x y : Word} (hy : y ≠ 0) :
    x.toNat = y.toNat * (divU x y).toNat + (remU x y).toNat ∧ (remU x y).toNat < y.toNat := by
  have hpos : 0 < y.toNat := Nat.pos_of_ne_zero (BitVec.toNat_ne_iff_ne.2 hy)
  rw [divU_toNat hy, remU_toNat hy]
  exact ⟨(Nat.div_add_mod _ _).symm, Nat.mod_lt _ hpos⟩

/-! ## Conditions (R89 to R91, R73) -/

theorem exec_cmp {s : State} {t : Thread} {c : CReg} {a b : Reg} {r : BitVec 3} {v : Bool} (h : s.Ready t [a, b] [])
    (hr : r.toNat ≤ 5) (hv : cmpRel r (t.g a) (t.g b) = v) : exec (.cmp c a b r) s = .next (s.getsC t c v) :=
  hv ▸ (State.checked_wf (i := .cmp c a b r) _ (decide_eq_true hr)).trans (h.regWord rfl)

/-- CMP of a relation that is none traps as an illegal word (R89, R81). -/
theorem exec_cmp_reserved {s : State} {t : Thread} {c : CReg} {a b : Reg} {r : BitVec 3} (hm : s.me = some t)
    (hr : 6 ≤ r.toNat) :
    exec (.cmp c a b r) s = .next (s.traps t 0x01 ((wordOfInstr (.cmp c a b r)).setWidth 64)) := by
  have hwf : (Instr.cmp c a b r).wf = false := decide_eq_false (by omega)
  calc exec (.cmp c a b r) s
      = s.illegal (wordOfInstr (.cmp c a b r)) := if_neg (by rw [hwf]; exact Bool.false_ne_true)
    _ = .next (s.traps t 0x01 ((wordOfInstr (.cmp c a b r)).setWidth 64)) := State.illegal_me _ hm

theorem exec_clog {s : State} {t : Thread} {n m k : CReg} {o : BitVec 3} {v : Bool} (h : s.Ready t [] [])
    (hwf : (Instr.clog n m k o).wf = true) (hv : logicOp o (t.c m) (t.c k) = v) :
    exec (.clog n m k o) s = .next (s.getsC t n v) :=
  hv ▸ (State.checked_wf _ hwf).trans (h.regWord rfl)

theorem exec_cmpi {s : State} {t : Thread} {c : CReg} {r : BitVec 2} {a : Reg} {im : BitVec 16} {v : Bool}
    (h : s.Ready t [a] []) (hv : cmpiRel r (t.g a) (im.signExtend 64) = v) :
    exec (.cmpi c r a im) s = .next (s.getsC t c v) :=
  hv ▸ h.regWord rfl

theorem cmpRel_eq (x y : Word) : cmpRel 0 x y = decide (x = y) := rfl
theorem cmpRel_ne (x y : Word) : cmpRel 1 x y = decide (x ≠ y) := by simp [cmpRel, bne, beq_eq_decide]
theorem cmpRel_lt (x y : Word) : cmpRel 2 x y = decide (x.toInt < y.toInt) := rfl
theorem cmpRel_ge (x y : Word) : cmpRel 3 x y = decide (y.toInt ≤ x.toInt) := rfl
theorem cmpRel_ltu (x y : Word) : cmpRel 4 x y = decide (x.toNat < y.toNat) := rfl
theorem cmpRel_geu (x y : Word) : cmpRel 5 x y = decide (y.toNat ≤ x.toNat) := rfl

theorem logicOp_and (m k : Bool) : logicOp 0 m k = (m && k) := rfl
theorem logicOp_or (m k : Bool) : logicOp 1 m k = (m || k) := rfl
theorem logicOp_xor (m k : Bool) : logicOp 2 m k = (m ^^ k) := rfl
theorem logicOp_andn (m k : Bool) : logicOp 3 m k = (m && !k) := rfl
theorem logicOp_orn (m k : Bool) : logicOp 4 m k = (m || !k) := rfl
theorem logicOp_xnor (m k : Bool) : logicOp 5 m k = (m == k) := by cases m <;> cases k <;> rfl
theorem logicOp_mov (m k : Bool) : logicOp 6 m k = m := rfl
theorem logicOp_not (m k : Bool) : logicOp 7 m k = !m := rfl

/-- The immediate is compared as it is, for its extension keeps its value. -/
theorem cmpiRel_eq (x : Word) (im : BitVec 16) :
    cmpiRel 0 x (im.signExtend 64) = decide (x.toInt = im.toInt) := by
  rw [← BitVec.toInt_signExtend_of_le (x := im) (v := 64) (by decide)]
  exact decide_eq_decide.2 BitVec.toInt_inj.symm
theorem cmpiRel_ne (x : Word) (im : BitVec 16) :
    cmpiRel 1 x (im.signExtend 64) = decide (x.toInt ≠ im.toInt) := by
  rw [decide_not, ← cmpiRel_eq]
  rfl
theorem cmpiRel_lt (x : Word) (im : BitVec 16) :
    cmpiRel 2 x (im.signExtend 64) = decide (x.toInt < im.toInt) := by
  rw [← BitVec.toInt_signExtend_of_le (x := im) (v := 64) (by decide)]
  rfl
theorem cmpiRel_ltu (x : Word) (im : BitVec 16) :
    cmpiRel 3 x (im.signExtend 64) = decide (x.toNat < (BitVec.ofInt 64 im.toInt).toNat) := rfl

/-! ## Branches (R94, R95, R99) -/

/-- A displacement counts words of four bytes (R47). -/
theorem branchTarget_eq {n : Nat} (pc : Word) (disp : BitVec n) :
    branchTarget pc disp = pc + BitVec.ofInt 64 (4 * disp.toInt) := by
  have h4 : (disp.signExtend 64 <<< 2 : Word) = BitVec.ofInt 64 disp.toInt * 4 := BitVec.shiftLeft_eq_mul_twoPow _ 2
  rw [branchTarget, h4, mul_comm (4 : Int), BitVec.ofInt_mul]
  rfl

section Branches
variable {s : State} {t : Thread}

theorem exec_bc_taken {sense : BitVec 1} {c : CReg} {disp : BitVec 22} (h : s.Ready t [] [])
    (hc : t.c c = decide (sense = 1)) :
    exec (.bc sense c disp) s = .next (s.withMe (t.branch (branchTarget t.pc disp))) :=
  h.regWord (if_pos hc)

theorem exec_bc_not_taken {sense : BitVec 1} {c : CReg} {disp : BitVec 22} (h : s.Ready t [] [])
    (hc : t.c c ≠ decide (sense = 1)) : exec (.bc sense c disp) s = .next (s.withMe t.advance) :=
  h.regWord (if_neg hc)

theorem exec_b {disp : BitVec 26} (h : s.Ready t [] []) :
    exec (.b disp) s = .next (s.withMe (t.branch (branchTarget t.pc disp))) := h.regWord rfl

theorem exec_bl {disp : BitVec 26} (h : s.Ready t [] [31]) :
    exec (.bl disp) s = .next (s.withMe ((t.setG 31 (t.pc + 4)).branch (branchTarget t.pc disp))) := h.regWord rfl

theorem exec_jr {d a : Reg} (h : s.Ready t [a] [d]) (ha : (t.g a).toNat % 4 = 0) :
    exec (.jr d a) s = .next (s.withMe ((t.setG d (t.pc + 4)).branch (t.g a))) :=
  h.regWord (if_neg (not_not.2 ha))

theorem exec_jr_misaligned {d a : Reg} (h : s.Ready t [a] [d]) (ha : (t.g a).toNat % 4 ≠ 0) :
    exec (.jr d a) s = .next (s.traps t 0x02 (t.g a)) :=
  h.regWord (if_pos ha)

end Branches

/-- A body does not hold an address. -/
def LoopEnt.misses (a : Word) (l : LoopEnt) : Bool := decide (a.toNat < l.start.toNat ∨ l.fin.toNat < a.toNat)

theorem LoopEnt.misses_iff {a : Word} {l : LoopEnt} :
    l.misses a = true ↔ ¬ (l.start.toNat ≤ a.toNat ∧ a.toNat ≤ l.fin.toNat) := by
  rw [LoopEnt.misses, decide_eq_true_iff]
  omega

/-- A taken branch drops the entries on top whose bodies do not hold its target (R99). -/
theorem popTo_eq_dropWhile (a : Word) (ls : List LoopEnt) : popTo a ls = ls.dropWhile (LoopEnt.misses a) := by
  induction ls with
  | nil => rfl
  | cons l r ih => simp [popTo, List.dropWhile_cons, LoopEnt.misses, ih]

@[simp] theorem Thread.branch_loops (t : Thread) (a : Word) : (t.branch a).loops = t.loops.dropWhile (LoopEnt.misses a) :=
  popTo_eq_dropWhile a t.loops

theorem Thread.branch_pops (t : Thread) (a : Word) :
    ∃ popped, t.loops = popped ++ (t.branch a).loops ∧
      (∀ l ∈ popped, ¬(l.start.toNat ≤ a.toNat ∧ a.toNat ≤ l.fin.toNat)) ∧
      ∀ l, (t.branch a).loops.head? = some l → l.start.toNat ≤ a.toNat ∧ a.toNat ≤ l.fin.toNat := by
  rw [Thread.branch_loops]
  refine ⟨t.loops.takeWhile (LoopEnt.misses a), List.takeWhile_append_dropWhile.symm,
    fun l hl => LoopEnt.misses_iff.1 (List.mem_takeWhile_imp hl), fun l hl => ?_⟩
  have hkept := List.head?_dropWhile_not (LoopEnt.misses a) t.loops
  rw [hl] at hkept
  by_contra hout
  exact Bool.false_ne_true (hkept.symm.trans (LoopEnt.misses_iff.2 hout))

/-! ## The statements about MULDIV, the condition words and the branches -/

/-- Settles O3: each product, quotient and remainder is read off its value lemma; the three cases of a signed
division (by 0, of -2^63 by -1, any other) are those of R88. -/
theorem mulDivResults : Obligations.MulDivResults := by
  unfold Obligations.MulDivResults
  intro s t d a b h x y
  refine ⟨?mul, ⟨mulh x y, exec_mulh h, mulh_low x y⟩, ⟨mulhu x y, exec_mulhu h, mulhu_low x y⟩,
    ⟨divS x y, remS x y, exec_div h, exec_rem h, ?byZero, ?overflow, ?truncated⟩,
    ⟨divU x y, remU x y, exec_divu h, exec_remu h, ?byZeroU, divU_remU⟩⟩
  case mul => rw [exec_mul h, mul_eq_ofNat]
  case byZero => intro hy; rw [hy]; exact ⟨divS_zero x, remS_zero x⟩
  case overflow => exact fun hxy => ⟨divS_overflow hxy, remS_overflow hxy⟩
  case truncated =>
    intro hy hxy
    rw [divS_toInt hy hxy, remS_toInt hy hxy]
    exact tdiv_tmod_truncates x.toInt (BitVec.toInt_ne.2 hy)
  case byZeroU => intro hy; rw [hy]; exact ⟨divU_zero x, remU_zero x⟩

/-- Settles O4: each relation and logic code has the value of its row, and CMP's codes 6 and 7 are illegal words. -/
theorem conditionResults : Obligations.ConditionResults := by
  unfold Obligations.ConditionResults
  refine ⟨fun s t c a b h => ?cmp, fun s t n m k h => ?clog, fun s t c a im h => ?cmpi⟩
  case cmp =>
    exact ⟨exec_cmp h (by decide) (cmpRel_eq _ _), exec_cmp h (by decide) (cmpRel_ne _ _),
      exec_cmp h (by decide) (cmpRel_lt _ _), exec_cmp h (by decide) (cmpRel_ge _ _),
      exec_cmp h (by decide) (cmpRel_ltu _ _), exec_cmp h (by decide) (cmpRel_geu _ _),
      fun r hr => ⟨_, exec_cmp_reserved h.agent hr⟩⟩
  case clog =>
    exact ⟨exec_clog h rfl (logicOp_and _ _), exec_clog h rfl (logicOp_or _ _), exec_clog h rfl (logicOp_xor _ _),
      exec_clog h rfl (logicOp_andn _ _), exec_clog h rfl (logicOp_orn _ _), exec_clog h rfl (logicOp_xnor _ _),
      fun hk => exec_clog h (by rw [hk]; rfl) (logicOp_mov _ _), fun hk => exec_clog h (by rw [hk]; rfl) (logicOp_not _ _)⟩
  case cmpi =>
    exact ⟨exec_cmpi h (cmpiRel_eq _ _), exec_cmpi h (cmpiRel_ne _ _), exec_cmpi h (cmpiRel_lt _ _),
      exec_cmpi h (cmpiRel_ltu _ _)⟩

/-- Settles O5: each word's target is its displacement's or its register's, and the stack after it is the old one
without the entries on top whose bodies do not hold the target. -/
theorem branchResults : Obligations.BranchResults := by
  unfold Obligations.BranchResults
  refine ⟨fun s t sense c d e h => ⟨fun hc => ?bc, exec_bc_not_taken h, ?b⟩, fun s t e h => ?bl,
    fun s t d a h => ⟨exec_jr h, exec_jr_misaligned h⟩, fun t a => ⟨t.branch_pc a, t.branch_pops a⟩⟩
  case bc => rw [exec_bc_taken h hc, branchTarget_eq]
  case b => rw [exec_b h, branchTarget_eq]
  case bl => rw [exec_bl h, branchTarget_eq]

end Sys2Proof.Machine
end
